-- ==== Sys2Proof/Word.lean ====
section
/-! DEFINITION. The unit in which everything reaches and leaves the part (09 R161): a byte on a link. -/

namespace Sys2Proof

/-- One byte of a link (R160: eight data bits). -/
abbrev Byte := BitVec 8

end Sys2Proof
end

