-- ==== Sys2Proof/Syntax.lean ====
section
/-! DEFINITION. The commands of the block: one constructor for each row of spec/opcode_table.json. A row named after a message is
the taking of that message from the head of the named link's input queue (R165); what the message carries is in that queue
(log 4). A row named after a timer or an input is that event, with the place it happens at as its operand. -/

namespace Sys2Proof

/-- The two links (R160). -/
inductive Link where
  | one
  | two
  deriving DecidableEq, Repr

/-- The two positions of the link rate strap (R168). -/
inductive LinkRate where
  | kbit250
  | mbit1
  deriving DecidableEq, Repr

/-- An output address (port, index), as R48 and R51 use it. -/
structure Addr where
  port : Nat
  index : Nat
  deriving DecidableEq, Repr

/-- The commands, in the order of spec/opcode_table.json. -/
inductive Instr where
  /-- POWER_ON (R160), with the inputs read at power-on: the strap, whether the supply stands above its threshold (R131), and
  for each port (bit p for port p) whether its current stands above the threshold (R119). -/
  | powerOn (rate : LinkRate) (supplyUp : Bool) (overs : BitVec 8)
  /-- BYTE_ARRIVAL (R161). -/
  | byteArrival (l : Link) (b : Byte)
  /-- INTER_BYTE_TIMER_EXPIRY (R162). -/
  | interByteTimerExpiry (l : Link)
  /-- SILENCE_TIMER_EXPIRY (R171). -/
  | silenceTimerExpiry (l : Link)
  /-- TRANSMIT_END (R168). -/
  | transmitEnd (l : Link)
  /-- FULL_RESET_TAKES_EFFECT (R24), of the FULL RESET that the link took. -/
  | fullResetTakesEffect (l : Link)
  /-- KEY_CHANGE (R27). -/
  | keyChange (l : Link)
  /-- STOP_CHANGE (R30). -/
  | stopChange (l : Link)
  /-- TREMULANT_TAB (R31). -/
  | tremulantTab (l : Link)
  /-- REGISTRATION (R32). -/
  | registration (l : Link)
  /-- TRANSPOSE (R34). -/
  | transpose (l : Link)
  /-- EXPRESSION (R111). -/
  | expression (l : Link)
  /-- GO (R151). -/
  | go (l : Link)
  /-- TEMPO (R97). -/
  | tempo (l : Link)
  /-- SPEC_BEGIN (R6). -/
  | specBegin (l : Link)
  /-- SPEC_DIVISION (R9). -/
  | specDivision (l : Link)
  /-- SPEC_SOURCE (R10). -/
  | specSource (l : Link)
  /-- SPEC_STOP (R12). -/
  | specStop (l : Link)
  /-- SPEC_CHAMBER (R13). -/
  | specChamber (l : Link)
  /-- SPEC_TREMULANT (R14). -/
  | specTremulant (l : Link)
  /-- SPEC_PORT (R15). -/
  | specPort (l : Link)
  /-- SPEC_FIGURE (R16). -/
  | specFigure (l : Link)
  /-- SPEC_COMMIT (R17). -/
  | specCommit (l : Link)
  /-- CHECK_COMPLETION (R18). -/
  | checkCompletion
  /-- SILENCE (R22). -/
  | silence (l : Link)
  /-- FULL_RESET (R23). -/
  | fullReset (l : Link)
  /-- LINK_RELEASE (R36). -/
  | linkRelease (l : Link)
  /-- CONFIGURE (R172). -/
  | configure (l : Link)
  /-- STATUS (R175). -/
  | status (l : Link)
  /-- COUNTERS_READ (R179). -/
  | countersRead (l : Link)
  /-- COUNTERS_READ_AND_CLEAR (R179). -/
  | countersReadAndClear (l : Link)
  /-- QUERY_OUTPUT (R63). -/
  | queryOutput (l : Link)
  /-- CUE_WRITE (R140). -/
  | cueWrite (l : Link)
  /-- CUE_READ (R141). -/
  | cueRead (l : Link)
  /-- CUE_START (R143). -/
  | cueStart (l : Link)
  /-- CUE_SUSPEND (R152). -/
  | cueSuspend (l : Link)
  /-- CUE_RESUME (R153). -/
  | cueResume (l : Link)
  /-- CUE_ABORT (R154). -/
  | cueAbort (l : Link)
  /-- FIGURE_START (R98). -/
  | figureStart (l : Link)
  /-- FIGURE_STOP (R98). -/
  | figureStop (l : Link)
  /-- FIGURE_SYNC (R99). -/
  | figureSync (l : Link)
  /-- PORT_RESTORE (R129). -/
  | portRestore (l : Link)
  /-- PORT_DISABLE (R130). -/
  | portDisable (l : Link)
  /-- UNKNOWN_KIND (R165). -/
  | unknownKind (l : Link)
  /-- STROKE_TIMER_EXPIRY (R66) of the stroke on an output. -/
  | strokeTimerExpiry (a : Addr)
  /-- REST_TIMER_EXPIRY (R66) of the rest on an output. -/
  | restTimerExpiry (a : Addr)
  /-- DEFERRAL_LIMIT_EXPIRY (R73) of the queued strike for an output. -/
  | deferralLimitExpiry (a : Addr)
  /-- REITERATION_DUE (R79) of the reiteration entry for an output. -/
  | reiterationDue (a : Addr)
  /-- HOLDOVER_TIMER_EXPIRY (R83) of a percussion's damper. -/
  | holdoverTimerExpiry (source : Nat)
  /-- STEP_TIMER_EXPIRY (R93) of a figure player. -/
  | stepTimerExpiry (player : Nat)
  /-- PHASE_TIMER_EXPIRY (R106) of a tremulant generator. -/
  | phaseTimerExpiry (tremulant : Nat)
  /-- STAGE_TIMER_EXPIRY (R113) of a chamber. -/
  | stageTimerExpiry (chamber : Nat)
  /-- CURRENT_RISING (R123) at a port. -/
  | currentRising (port : Nat)
  /-- CURRENT_FALLING (R123) at a port. -/
  | currentFalling (port : Nat)
  /-- DETECT_TIMER_EXPIRY (R124) of a port. -/
  | detectTimerExpiry (port : Nat)
  /-- OFF_TIMER_EXPIRY (R126) of a port. -/
  | offTimerExpiry (port : Nat)
  /-- SUPPLY_DROPPING (R132). -/
  | supplyDropping
  /-- SUPPLY_RISING (R133). -/
  | supplyRising
  /-- DWELL_TIMER_EXPIRY (R133). -/
  | dwellTimerExpiry
  /-- TAKE_RECORD (R144). -/
  | takeRecord
  /-- WAIT_TIMER_EXPIRY (R147). -/
  | waitTimerExpiry
  deriving DecidableEq, Repr

end Sys2Proof
end

