-- ==== Sys2Proof/Decode.lean ====
section
/-! DEFINITION. The reading of a word of spec/opcode_table.json. Every row of the table has an empty list of fields and no bits:
no word spells a command, so the reading answers none for every word, by the table itself. How a MESSAGE is spelt in bytes is
R174's matter; that reading is Sys2Proof/Machine/Operands.lean. -/

namespace Sys2Proof

/-- The command a word spells by the bits of the table: the table gives no row a bit, so none. -/
def decodeTableWord (_nbits _w : Nat) : Option Instr := none

end Sys2Proof
end

