-- ==== Sys2Proof/Config.lean ====
section
/-! DEFINITION. The constants the manual fixes for the whole part, and the two values it leaves open. -/

namespace Sys2Proof.Config

/-- Entries of a link's input queue (R160). -/
def inputQueueSize : Nat := 64
/-- Places of a link's reply list (R160, R167). -/
def replyPlaces : Nat := 8
/-- Entries of a link's notice queue (R160, R169). -/
def noticeQueueSize : Nat := 16
/-- Entries of the strike queue (R70). -/
def strikeQueueSize : Nat := 64
/-- Entries of the reiteration set (R78). -/
def reiterationSize : Nat := 64
/-- Completions in the events of their taking that make a list a runaway (R150). -/
def runawayCount : Nat := 64
/-- The largest value of a statistics counter (R177). -/
def counterMax : Nat := 4294967295
/-- The largest Cue count of a record (R52). -/
def cueCountMax : Nat := 255
/-- The inter-byte time in ms (R162). -/
def interByteTime : Nat := 2
/-- The dwell of the magnet supply in ms (R133). -/
def dwellTime : Nat := 100
/-- The silence time at power-on (R160). -/
def defaultSilenceTime : Nat := 250
/-- The low mark at power-on (R160). -/
def defaultLowMark : Nat := 16
/-- The high mark at power-on (R160). -/
def defaultHighMark : Nat := 48
/-- The deferral limit at power-on (R74). -/
def defaultDeferral : Nat := 30
/-- The shortest time of the commit check in ms (R18). -/
def checkShortest : Nat := 1
/-- The longest time of the commit check in ms (R18). -/
def checkLongest : Nat := 100
/-- The lead byte of a frame (R161). -/
def leadByte : BitVec 8 := 0xC5
/-- The largest length byte of a frame (R161). -/
def maxLength : Nat := 252

/-- FREE VALUE (log 7). Whether a detect time byte of 0xFF in SPEC PORT is the value 255, as R15's range 1..255 has it, or marks
the field absent, as R174 says of every one-byte field. The manual says both; nothing is known of it here. -/
opaque detectTimeAllOnes : Bool

/-- FREE VALUE (log 12). Whether at the loss of the link that owns the cue unit the other link's LINK DOWN is queued before its CUE
STOPPED. R171 says that the notices of the event are queued after LINK DOWN, or before it. -/
opaque linkDownFirst : Bool

end Sys2Proof.Config
end

