-- ==== Sys2Proof/Machine/Bytes.lean ====
section
/-! DEFINITION. Bytes on the links: numbers in bytes, high byte first (R174), the frame check (R163) and the layout of a frame
(R174, The frame). -/

namespace Sys2Proof.Machine

/-- The byte of a number below 256. -/
def byteOf (n : Nat) : Byte := BitVec.ofNat 8 n

/-- Two bytes, high byte first (R174). -/
def bytes2 (n : Nat) : List Byte := [byteOf (n / 256), byteOf n]

/-- Three bytes, high byte first (R174). -/
def bytes3 (n : Nat) : List Byte := [byteOf (n / 65536), byteOf (n / 256), byteOf n]

/-- Four bytes, high byte first (R174, R179). -/
def bytes4 (n : Nat) : List Byte := [byteOf (n / 16777216), byteOf (n / 65536), byteOf (n / 256), byteOf n]

/-- A signed value in one byte, two's complement (R174). -/
def byteOfInt (i : Int) : Byte := BitVec.ofInt 8 i

/-- A one-byte value or the absent marker 0xFF (R174). -/
def optByte : Option Nat → Byte
  | some n => byteOf n
  | none => 0xFF

/-- A two-byte value or the absent marker 0xFFFF (R174). -/
def optBytes2 : Option Nat → List Byte
  | some n => bytes2 n
  | none => [0xFF, 0xFF]

/-- A yes-or-no field (R174): 1 for yes, 0 for no. -/
def flagByte (b : Bool) : Byte := if b then 1 else 0

/-- The number two bytes hold, high byte first (R174). -/
def number2 (high low : Byte) : Nat := high.toNat * 256 + low.toNat

/-- One bit of the frame check's division by 0x1021 (R163). -/
def crcBit (crc : BitVec 16) : BitVec 16 := if crc.msb then (crc <<< 1) ^^^ 0x1021#16 else crc <<< 1

/-- One byte of the frame check, most significant bit first, with no reflection (R163). -/
def crcByte (crc : BitVec 16) (b : Byte) : BitVec 16 :=
  crcBit (crcBit (crcBit (crcBit (crcBit (crcBit (crcBit (crcBit (crc ^^^ (b.setWidth 16 <<< 8)))))))))

/-- The frame check of a run of bytes: it begins with 0xFFFF and is not inverted (R163). -/
def crc (bytes : List Byte) : BitVec 16 := bytes.foldl crcByte 0xFFFF#16

/-- The two check bytes of a length byte, kind byte and body, high byte first (R163). -/
def checkBytes (covered : List Byte) : List Byte := bytes2 (crc covered).toNat

/-- A frame: lead byte, length of kind and body, kind, body, check bytes (R174, The frame). -/
def frameOf (kind : Byte) (body : List Byte) : List Byte :=
  let covered := byteOf (body.length + 1) :: kind :: body
  Config.leadByte :: covered ++ checkBytes covered

end Sys2Proof.Machine
end

