-- ==== Sys2Proof/Machine/Entries.lean ====
section
/-! DEFINITION. The entries of the seven specification tables (R9 to R16) and the records of cue memory (R138, R139), as the
contents they hold; their bytes are R174's and stand in Machine/Operands.lean. -/

namespace Sys2Proof.Machine

/-- How a note beyond the compass is brought back (R46, R47). -/
inductive Fold where
  | off
  | top
  | both
  deriving DecidableEq, Repr

/-- Compass low L, compass high H and fold of a rank or percussion (R10). -/
structure Compass where
  low : Nat
  high : Nat
  fold : Fold
  deriving DecidableEq, Repr

/-- Output port, output base and load per output (R10); for a chamber the first stage output and the stage load (R13); for a
tremulant its valve output and load (R14). -/
structure Outlet where
  port : Nat
  base : Nat
  load : Nat
  deriving DecidableEq, Repr

/-- Stroke time and rest time in ms (R10). -/
structure Strike where
  stroke : Nat
  rest : Nat
  deriving DecidableEq, Repr

/-- The mode of a percussion; REITERATE carries its interval (R10). -/
inductive PercMode where
  | single
  | reiterate (interval : Nat)
  deriving DecidableEq, Repr

/-- The mode of a trap with an output; REITERATE carries its interval (R10). The fourth mode is Source.figureTrap. -/
inductive TrapMode where
  | single
  | reiterate (interval : Nat)
  | hold
  deriving DecidableEq, Repr

/-- A percussion's damper: output, load, holdover (R10). -/
structure Damper where
  out : Addr
  load : Nat
  holdover : Nat
  deriving DecidableEq, Repr

/-- A present source entry, with exactly the fields its kind requires (R10). -/
inductive Source where
  | rank (c : Compass) (o : Outlet)
  | percussion (c : Compass) (o : Outlet) (k : Strike) (mode : PercMode) (damper : Option Damper)
  | trap (o : Outlet) (k : Strike) (mode : TrapMode)
  | figureTrap (figure : Nat)
  deriving DecidableEq, Repr

/-- The touch a stop is voiced for (R12). -/
inductive Touch where
  | first
  | second
  deriving DecidableEq, Repr

/-- A present stop entry (R12). -/
structure Stop where
  division : Nat
  source : Nat
  offset : Int
  touch : Touch
  deriving DecidableEq, Repr

/-- A present chamber entry; one with S = 0 is unenclosed and holds nothing more (R13). -/
inductive Chamber where
  | unenclosed
  | enclosed (stages : Nat) (o : Outlet) (channel : Nat) (interval : Option Nat)
  deriving DecidableEq, Repr

/-- A present tremulant entry (R14): output and load, rate in tenths of a hertz, duty in percent. -/
structure Tremulant where
  o : Outlet
  rate : Nat
  duty : Nat
  deriving DecidableEq, Repr

/-- A present port entry (R15). -/
structure PortEntry where
  budget : Nat
  threshold : Nat
  detect : Nat
  off : Nat
  lockout : Nat
  window : Nat
  deriving DecidableEq, Repr

/-- One step of a figure: its duration and the voice positions that strike, ascending (R16). -/
structure FigureStep where
  duration : Nat
  voices : List Nat
  deriving DecidableEq, Repr

/-- A present figure entry (R16). -/
structure Figure where
  voices : List Nat
  steps : List FigureStep
  loop : Bool
  deriving DecidableEq, Repr

/-- The seven specification tables (01, The specification tables). A division entry is its key count (R9). -/
structure Tables where
  divisions : List (Option Nat)
  sources : List (Option Source)
  stops : List (Option Stop)
  chambers : List (Option Chamber)
  tremulants : List (Option Tremulant)
  ports : List (Option PortEntry)
  figures : List (Option Figure)
  deriving DecidableEq, Repr

/-- All seven tables with every entry absent, of the sizes of 00's table of indices. -/
def Tables.blank : Tables where
  divisions := List.replicate 6 none
  sources := List.replicate 64 none
  stops := List.replicate 192 none
  chambers := List.replicate 4 none
  tremulants := List.replicate 8 none
  ports := List.replicate 8 none
  figures := List.replicate 16 none

/-- The eight actions of a cue record with their operands (R139). -/
inductive Action where
  | strike (source : Nat) (note : Option Nat)
  | hold (source : Nat) (note : Option Nat) (on : Bool)
  | figure (figure : Nat) (start : Bool)
  | express (channel : Nat) (position : Nat)
  | tempo (scale : Nat)
  | tremulant (tremulant : Nat) (on : Bool)
  | wait (duration : Nat)
  | awaitGo
  deriving DecidableEq, Repr

/-- What CUE WRITE carries for a record: next (none is END), action, flags (R138). -/
structure CueBody where
  next : Option Nat
  action : Action
  suspendAfter : Bool
  indicate : Bool
  deriving DecidableEq, Repr

/-- The record state of a record that is not EMPTY (R138). -/
inductive RecordState where
  | written
  | done
  | badReference
  | aborted
  deriving DecidableEq, Repr

/-- A record of cue memory that is not EMPTY (R138). -/
structure CueRecord where
  state : RecordState
  body : CueBody
  deriving DecidableEq, Repr

end Sys2Proof.Machine
end

