-- ==== Sys2Proof/Machine/State.lean ====
section
/-! DEFINITION. The state of the part, block by block as 00's block overview lists them, with the value each takes at power-on.
A timer is the millisecond at which it expires; where a timer runs exactly in one state of its block, that state carries it. -/

namespace Sys2Proof.Machine

/-- The faults of the block. The manual gives the part no event that stops it, and no meaning of this model raises one. -/
inductive Fault where
  /-- Raised by no meaning: the manual describes no stop of the part. Safe. -/
  | noEventStopsThePart
  deriving DecidableEq, Repr

/-- The refusals of the model. -/
inductive Refusal where
  /-- Raised by exec for a command whose meaning is not modelled yet, by its mnemonic; no command is in that case. Safe. -/
  | notModelled (mnemonic : String)
  deriving DecidableEq, Repr

/-- A pair of like things, one for each link. -/
structure Pair (α : Type) where
  one : α
  two : α
  deriving DecidableEq, Repr

/-- The four engine states (R3). -/
inductive EngineState where
  | unconfigured
  | loading
  | checking
  | ready
  deriving DecidableEq, Repr

/-- The six kinds of failure of the commit check, in the order of R18. -/
inductive FailureKind where
  | noPort
  | outOfPort
  | overlap
  | badCompass
  | badTiming
  | badLink
  deriving DecidableEq, Repr

/-- The seven tables by name (R174). -/
inductive TableName where
  | division
  | source
  | stop
  | chamber
  | tremulant
  | port
  | figure
  deriving DecidableEq, Repr

/-- A failure of the commit check: its kind, its table and its entry (R3). -/
structure Failure where
  kind : FailureKind
  table : TableName
  entry : Nat
  deriving DecidableEq, Repr

/-- The last check result (R3). -/
inductive CheckResult where
  | none
  | passed
  | failed (f : Failure)
  deriving DecidableEq, Repr

/-- The specification store (R3): engine state, last check result, the seven tables, and the moment a check in flight began
(R17). -/
structure Store where
  engine : EngineState
  lastCheck : CheckResult
  checkBegan : Option Nat
  tables : Tables
  deriving DecidableEq, Repr

/-- The touch levels 0, 1, 2 of a key (R25). -/
inductive Level where
  | released
  | first
  | second
  deriving DecidableEq, Repr

/-- A registration block (R25). Key k of division d stands at place 64 * d + k of the map; the sets are ascending lists. -/
structure Registration where
  keys : List Level
  stops : List Nat
  tabs : List Nat
  requested : Int
  effective : Int
  deriving DecidableEq, Repr

/-- An empty registration (R25). -/
def Registration.empty : Registration where
  keys := List.replicate 384 .released
  stops := []
  tabs := []
  requested := 0
  effective := 0

/-- What a claim is counted on: an output, or the claim record of a FIGURE-mode trap (R43). -/
inductive Target where
  | output (a : Addr)
  | claim (source : Nat)
  deriving DecidableEq, Repr

/-- The owner of a record of the demand table (R52). -/
inductive Owner where
  | rank (source note : Nat)
  | percussion (source note : Nat)
  | trap (source : Nat) (mode : TrapMode)
  | damper (source : Nat)
  | stage (chamber stage : Nat)
  | valve (tremulant : Nat)
  | figureClaim (source : Nat)
  deriving DecidableEq, Repr

/-- The stroke state of a struck output, with the stroke or rest timer that runs in it (R65). -/
inductive Stroke where
  | idle
  | striking (expiry : Nat)
  | resting (expiry : Nat)
  deriving DecidableEq, Repr

/-- A record of the demand table (R52), with its stroke record where R65 keeps one. The total is computed. -/
structure Record where
  target : Target
  owner : Owner
  link1 : Nat
  link2 : Nat
  cue : Nat
  stroke : Option Stroke
  deriving DecidableEq, Repr

/-- An entry of the strike queue (R70). -/
structure QueuedStrike where
  out : Addr
  joined : Nat
  deriving DecidableEq, Repr

/-- An entry of the reiteration set (R78). -/
structure Reiteration where
  out : Addr
  due : Nat
  deriving DecidableEq, Repr

/-- The sounding-note count and holdover timer of a percussion with a damper (R83). -/
structure DamperState where
  source : Nat
  sounding : Nat
  holdover : Option Nat
  deriving DecidableEq, Repr

/-- The strike scheduler (04), apart from the stroke records. -/
structure Scheduler where
  queue : List QueuedStrike
  reiterations : List Reiteration
  dampers : List DamperState
  deferral : Nat
  deriving DecidableEq, Repr

/-- The claimants that may own a figure (R89). -/
inductive FigureOwner where
  | claim
  | cue
  | link (l : Link)
  deriving DecidableEq, Repr

/-- An owner set of a player (R89). -/
structure OwnerSet where
  claim : Bool
  cue : Bool
  link1 : Bool
  link2 : Bool
  deriving DecidableEq, Repr

/-- What a RUNNING player holds (R89); its step timer always runs. -/
structure Run where
  figure : Nat
  step : Nat
  expiry : Nat
  owners : OwnerSet
  deriving DecidableEq, Repr

/-- The figure block (R89, R96): eight players, each IDLE (none) or RUNNING, and the tempo scale. -/
structure Figures where
  players : List (Option Run)
  tempo : Nat
  deriving DecidableEq, Repr

/-- The phase of a tremulant generator, with the phase timer that runs in it (R103). -/
inductive Phase where
  | off
  | opened (expiry : Nat)
  | closed (expiry : Nat)
  deriving DecidableEq, Repr

/-- A tremulant generator (R103). -/
structure Generator where
  phase : Phase
  cueFlag : Bool
  deriving DecidableEq, Repr

/-- The state of a swell chamber (R112). -/
structure ChamberState where
  current : Nat
  timer : Option Nat
  deriving DecidableEq, Repr

/-- Expression and shutter control (R110, R112). -/
structure Shutters where
  channels : List Nat
  chambers : List ChamberState
  deriving DecidableEq, Repr

/-- The four port states (R119). -/
inductive PortState where
  | off
  | active
  | tripped
  | locked
  deriving DecidableEq, Repr

/-- A drive port (R119). `admitted` is the model's own: the loads of strokes and stage openings started on the port in the running
event since it last settled (R69, R113; log 20); it is 0 between events. -/
structure Port where
  state : PortState
  energized : List Nat
  load : Nat
  overload : Bool
  detect : Option Nat
  off : Option Nat
  history : List Nat
  admitted : Nat
  deriving DecidableEq, Repr

/-- A port at power-on (R119), with the over indication its current gives it. -/
def Port.atPowerOn (overload : Bool) : Port where
  state := .off
  energized := []
  load := 0
  overload := overload
  detect := none
  off := none
  history := []
  admitted := 0

/-- The two supply states (R131). -/
inductive SupplyState where
  | low
  | good
  deriving DecidableEq, Repr

/-- The magnet supply monitor (R131). -/
structure Supply where
  state : SupplyState
  dwell : Option Nat
  deriving DecidableEq, Repr

/-- What a SUSPENDED unit will return to (R142). -/
inductive SubState where
  | running
  | timing (remaining : Nat)
  | awaiting
  deriving DecidableEq, Repr

/-- The unit state of the cue unit; TIMING carries the wait timer, SUSPENDED the sub-state (R142). -/
inductive UnitState where
  | idle
  | running
  | timing (expiry : Nat)
  | awaiting
  | suspended (sub : SubState)
  deriving DecidableEq, Repr

/-- The stop reasons of the cue unit other than NONE (R142). -/
inductive StopReason where
  | ended
  | aborted
  | chainBroken
  | failed
  | runaway
  | silenced
  | reset
  | ownerLost
  deriving DecidableEq, Repr

/-- The cue unit apart from cue memory (R142); a stop reason of none is NONE. -/
structure CueUnit where
  state : UnitState
  current : Option Nat
  owner : Option Link
  pendingGo : Bool
  runCount : Nat
  lastCompleted : Option Nat
  stopReason : Option StopReason
  deriving DecidableEq, Repr

/-- The cue unit at power-on (R142). -/
def CueUnit.atPowerOn : CueUnit where
  state := .idle
  current := none
  owner := none
  pendingGo := false
  runCount := 0
  lastCompleted := none
  stopReason := none

/-- A message in an input queue: the kind byte and the body of a good frame (R164). -/
structure Message where
  kind : Byte
  body : List Byte
  deriving DecidableEq, Repr

/-- The notices with the contents their rules give (R170). -/
inductive Notice where
  | portTripped (port count : Nat)
  | portLocked (port count : Nat)
  | portRestored (port count : Nat)
  | supplyLow
  | supplyGood
  | linkUp (l : Link)
  | linkDown (l : Link)
  | hold
  | resume
  | cueDone (record : Nat)
  | cueStopped (reason : StopReason) (record : Option Nat)
  deriving DecidableEq, Repr

/-- The reply codes (00, Reply codes). -/
inductive ReplyCode where
  | ok
  | busy
  | badState
  | badArgument
  | checkFailed
  | unknownKind
  | full
  | inUse
  | notWritten
  deriving DecidableEq, Repr

/-- A reply as formed at the taking of its command: all of its body but the status prefix (R165). -/
structure Reply where
  tag : Byte
  kind : Byte
  code : ReplyCode
  contents : List Byte
  deriving DecidableEq, Repr

/-- An occupied place of a reply list (R167). -/
inductive Place where
  | reserved (tag : Byte)
  | holding (r : Reply)
  deriving DecidableEq, Repr

/-- What the frame being sent is: the reply at a place of the list, which it keeps, or a notice, which has left its queue. -/
inductive Sending where
  | reply (place : Nat)
  | notice (n : Notice)
  deriving DecidableEq, Repr

/-- A transmitter (R168): idle, or sending one frame, its bytes fixed when it began. -/
inductive Transmitter where
  | idle
  | sending (what : Sending) (frame : List Byte) (began : Nat)
  deriving DecidableEq, Repr

/-- The receiver (R161): HUNTING, or IN FRAME with the declared length once it is known, the bytes after it, and the inter-byte
timer, which runs exactly while IN FRAME (R162). -/
inductive Receiver where
  | hunting
  | inFrame (length : Option Nat) (got : List Byte) (expiry : Nat)
  deriving DecidableEq, Repr

/-- The two flow states (R166). -/
inductive FlowState where
  | flowing
  | held
  deriving DecidableEq, Repr

/-- The two link states (R160). -/
inductive LinkState where
  | down
  | up
  deriving DecidableEq, Repr

/-- A link interface (R160). -/
structure LinkIf where
  state : LinkState
  receiver : Receiver
  silenceTimer : Option Nat
  silenceTime : Nat
  input : List Message
  flow : FlowState
  low : Nat
  high : Nat
  replies : List Place
  notices : List Notice
  transmitter : Transmitter
  resetPending : Bool
  deriving DecidableEq, Repr

/-- A link interface at power-on (R160). -/
def LinkIf.atPowerOn : LinkIf where
  state := .down
  receiver := .hunting
  silenceTimer := none
  silenceTime := Config.defaultSilenceTime
  input := []
  flow := .flowing
  low := Config.defaultLowMark
  high := Config.defaultHighMark
  replies := []
  notices := []
  transmitter := .idle
  resetPending := false

/-- The whole part. `now` is the clock of R1's timers (log 1) and `pending` the queue of commands that wait, first in, first out;
both are the model's own. -/
structure State where
  now : Nat
  rate : LinkRate
  store : Store
  links : Pair LinkIf
  regs : Pair Registration
  table : List Record
  sched : Scheduler
  figures : Figures
  generators : List Generator
  shutters : Shutters
  ports : List Port
  supply : Supply
  memory : List (Option CueRecord)
  cue : CueUnit
  counters : List Nat
  pending : List Instr
  deriving DecidableEq, Repr

/-- The part right after power-on (R3, R25, R51, R87, R89, R103, R110, R117, R119, R131, R138, R142, R160, R178), with the strap at
250 kbit/s, the supply below its threshold and no port's current above its threshold (log 14), and an empty command queue. -/
def State.reset : State where
  now := 0
  rate := .kbit250
  store := { engine := .unconfigured, lastCheck := .none, checkBegan := none, tables := Tables.blank }
  links := { one := LinkIf.atPowerOn, two := LinkIf.atPowerOn }
  regs := { one := Registration.empty, two := Registration.empty }
  table := []
  sched := { queue := [], reiterations := [], dampers := [], deferral := Config.defaultDeferral }
  figures := { players := List.replicate 8 none, tempo := 100 }
  generators := List.replicate 8 { phase := .off, cueFlag := false }
  shutters := { channels := List.replicate 4 0, chambers := List.replicate 4 { current := 0, timer := none } }
  ports := List.replicate 8 (Port.atPowerOn false)
  supply := { state := .low, dwell := none }
  memory := List.replicate 512 none
  cue := CueUnit.atPowerOn
  counters := List.replicate 32 0
  pending := []

end Sys2Proof.Machine
end

