-- ==== Sys2Proof/Machine/Operands.lean ====
section
/-! DEFINITION. The operand forms: every message body read by the layouts of R174 and the ranges of the rule that names the field.
A reading answers none where the owner refuses the body (BAD_ARGUMENT for a command; a malformed play message). Bodies of
commands are read from the byte after the tag. -/

namespace Sys2Proof.Machine

/-! ## Fields -/

/-- A one-byte unsigned field in lo..hi; 0xFF marks it absent, and every range lies below it (R174). -/
def field1 (lo hi : Nat) (b : Byte) : Option Nat := if lo ≤ b.toNat ∧ b.toNat ≤ hi then some b.toNat else none

/-- A two-byte unsigned field in lo..hi; 0xFFFF marks it absent, and every range lies below it (R174). -/
def field2 (lo hi : Nat) (high low : Byte) : Option Nat :=
  if lo ≤ number2 high low ∧ number2 high low ≤ hi then some (number2 high low) else none

/-- A signed one-byte field in lo..hi; it has no absent marker (R174). -/
def fieldSigned (lo hi : Int) (b : Byte) : Option Int := if lo ≤ b.toInt ∧ b.toInt ≤ hi then some b.toInt else none

/-- A field of two named values, 0 and 1; any other value is out of range (R174). -/
def fieldFlag (b : Byte) : Option Bool := if b = 0 then some false else if b = 1 then some true else none

/-- Output port, output base and load (R10, R13, R14). -/
def readOutlet (port high low load : Byte) : Option Outlet := do
  let p ← field1 0 7 port
  let i ← field2 0 511 high low
  let u ← field1 1 15 load
  some { port := p, base := i, load := u }

/-! ## Play messages -/

/-- Splits bytes into pairs; a list of odd length is no list of pairs. -/
def pairsOf : List Byte → Option (List (Byte × Byte))
  | [] => some []
  | a :: b :: rest => (pairsOf rest).map ((a, b) :: ·)
  | [_] => none

/-- A counted list of two-byte entries that fills the rest of a body: the count in lo..hi and in agreement with the length (R27, R30,
R31, R165). -/
def readPairs (lo hi : Nat) (count : Byte) (rest : List Byte) : Option (List (Byte × Byte)) :=
  match pairsOf rest with
  | some entries => if entries.length = count.toNat ∧ lo ≤ entries.length ∧ entries.length ≤ hi then some entries else none
  | none => none

/-- A touch level byte; above 2 is taken as 2 (R27). -/
def readLevel (b : Byte) : Level := if b = 0 then .released else if b = 1 then .first else .second

/-- KEY CHANGE: a division and 1 to 16 entries of key and level (R27, R174). -/
def readKeyChange : List Byte → Option (Nat × List (Nat × Level))
  | division :: count :: rest =>
    (readPairs 1 16 count rest).map fun es => (division.toNat, es.map fun e => (e.1.toNat, readLevel e.2))
  | _ => none

/-- STOP CHANGE: 1 to 32 entries of stop and word; a word of no meaning is kept as none (R30, R174). -/
def readStopChange : List Byte → Option (List (Nat × Option Bool))
  | count :: rest => (readPairs 1 32 count rest).map fun es => es.map fun e => (e.1.toNat, fieldFlag e.2)
  | [] => none

/-- TREMULANT TAB: 1 to 8 entries of tremulant and word (R31, R174). -/
def readTremulantTab : List Byte → Option (List (Nat × Option Bool))
  | count :: rest => (readPairs 1 8 count rest).map fun es => es.map fun e => (e.1.toNat, fieldFlag e.2)
  | [] => none

/-- What a REGISTRATION carries (R32). -/
structure RegistrationBody where
  stops : List Nat
  tabs : List Nat
  transposition : Int
  deriving DecidableEq, Repr

/-- REGISTRATION: up to 192 stops, up to 8 tabs, a signed transposition; the body length is s + m + 3 (R32, R174). -/
def readRegistration : List Byte → Option RegistrationBody
  | s :: rest =>
    match rest.drop s.toNat with
    | m :: more =>
      match more.drop m.toNat with
      | [t] =>
        if s.toNat ≤ 192 ∧ m.toNat ≤ 8 then
          some { stops := (rest.take s.toNat).map BitVec.toNat, tabs := (more.take m.toNat).map BitVec.toNat, transposition := t.toInt }
        else none
      | _ => none
    | [] => none
  | [] => none

/-- A one-byte body (TRANSPOSE, TEMPO; R174). -/
def readOne : List Byte → Option Byte
  | [b] => some b
  | _ => none

/-- A two-byte body (EXPRESSION; R174). -/
def readTwo : List Byte → Option (Byte × Byte)
  | [a, b] => some (a, b)
  | _ => none

/-! ## Specification entries (R8 to R16) -/

/-- A spec entry write: its index, and the entry or the absent marker (R8). -/
structure EntryWrite (α : Type) where
  index : Nat
  entry : Option α
  deriving DecidableEq, Repr

/-- The body of a spec entry write: index below the table's size, then 0 for the absent marker with nothing after it, or 1 and the
entry's fields (R8, R174; log 6). -/
def readEntry {α : Type} (size : Nat) (entry : List Byte → Option α) : List Byte → Option (EntryWrite α)
  | index :: marker :: fields =>
    if index.toNat < size then
      if marker = 0 then
        match fields with
        | [] => some { index := index.toNat, entry := none }
        | _ :: _ => none
      else if marker = 1 then (entry fields).map fun e => { index := index.toNat, entry := some e }
      else none
    else none
  | _ => none

/-- SPEC DIVISION: key count 1..64 (R9). -/
def readDivision : List Byte → Option Nat
  | [k] => field1 1 64 k
  | _ => none

/-- A fold code (R174). -/
def readFold (b : Byte) : Option Fold := if b = 0 then some .off else if b = 1 then some .top else if b = 2 then some .both else none

/-- Compass and fold of a rank or percussion (R10). -/
def readCompass (low high fold : Byte) : Option Compass := do
  let l ← field1 0 127 low
  let h ← field1 0 127 high
  let f ← readFold fold
  some { low := l, high := h, fold := f }

/-- Stroke and rest times (R10). -/
def readStrike (stroke rest : Byte) : Option Strike := do
  let k ← field1 2 60 stroke
  let r ← field1 0 200 rest
  some { stroke := k, rest := r }

/-- A percussion's damper: its four byte fields all absent, or all present and in range (R10, R174). -/
def readDamper (port ihigh ilow load hhigh hlow : Byte) : Option (Option Damper) :=
  if port = 0xFF ∧ ihigh = 0xFF ∧ ilow = 0xFF ∧ load = 0xFF ∧ hhigh = 0xFF ∧ hlow = 0xFF then some none
  else do
    let p ← field1 0 7 port
    let i ← field2 0 511 ihigh ilow
    let u ← field1 1 15 load
    let h ← field2 0 4000 hhigh hlow
    some (some { out := { port := p, index := i }, load := u, holdover := h })

/-- The mode of a percussion: SINGLE, or REITERATE with its interval (R10). -/
def readPercMode (mode ihigh ilow : Byte) : Option PercMode :=
  if mode = 0 then some .single
  else if mode = 1 then (field2 40 1000 ihigh ilow).map .reiterate
  else none

/-- The mode of a trap with an output: SINGLE, REITERATE with its interval, or HOLD (R10). -/
def readTrapMode (mode ihigh ilow : Byte) : Option TrapMode :=
  if mode = 0 then some .single
  else if mode = 1 then (field2 40 1000 ihigh ilow).map .reiterate
  else if mode = 2 then some .hold
  else none

/-- SPEC SOURCE: the twenty fields after the marker. Each kind reads the fields it requires and ignores the others (R8, R10, R174). -/
def readSource : List Byte → Option Source
  | [kind, low, high, fold, mode, port, bhigh, blow, load, stroke, rest, ihigh, ilow, dport, dihigh, dilow, dload, dhhigh, dhlow, fig] =>
    if kind = 0 then do
      let c ← readCompass low high fold
      let o ← readOutlet port bhigh blow load
      some (.rank c o)
    else if kind = 1 then do
      let c ← readCompass low high fold
      let o ← readOutlet port bhigh blow load
      let k ← readStrike stroke rest
      let m ← readPercMode mode ihigh ilow
      let d ← readDamper dport dihigh dilow dload dhhigh dhlow
      some (.percussion c o k m d)
    else if kind = 2 then
      if mode = 3 then (field1 0 15 fig).map .figureTrap
      else do
        let o ← readOutlet port bhigh blow load
        let k ← readStrike stroke rest
        let m ← readTrapMode mode ihigh ilow
        some (.trap o k m)
    else none
  | _ => none

/-- SPEC STOP: division, source, signed pitch offset, touch (R12). -/
def readStop : List Byte → Option Stop
  | [division, source, offset, touch] => do
    let d ← field1 0 5 division
    let i ← field1 0 63 source
    let o ← fieldSigned (-24) 48 offset
    let t ← fieldFlag touch
    some { division := d, source := i, offset := o, touch := if t then .second else .first }
  | _ => none

/-- The optional stage interval (R13). -/
def readInterval (high low : Byte) : Option (Option Nat) :=
  if high = 0xFF ∧ low = 0xFF then some none else (field2 20 500 high low).map some

/-- SPEC CHAMBER: stage count, first stage output, stage load, channel, stage interval; with S = 0 the other fields are ignored
(R13). -/
def readChamber : List Byte → Option Chamber
  | [stages, port, ihigh, ilow, load, channel, thigh, tlow] =>
    if stages = 0 then some .unenclosed
    else do
      let s ← field1 1 16 stages
      let o ← readOutlet port ihigh ilow load
      let c ← field1 0 3 channel
      let t ← readInterval thigh tlow
      some (.enclosed s o c t)
  | _ => none

/-- SPEC TREMULANT: output, load, rate, duty (R14). -/
def readTremulant : List Byte → Option Tremulant
  | [port, ihigh, ilow, load, rate, duty] => do
    let o ← readOutlet port ihigh ilow load
    let r ← field1 20 150 rate
    let d ← field1 20 80 duty
    some { o := o, rate := r, duty := d }
  | _ => none

/-- A detect time byte: 1..254, and 0xFF is 255 or absent as the free value has it (R15, R174; log 7). -/
def readDetect (b : Byte) : Option Nat := if b = 0xFF ∧ Config.detectTimeAllOnes = false then none else field1 1 255 b

/-- SPEC PORT: budget, overload threshold, detect time, off time, lockout count, lockout window (R15). -/
def readPort : List Byte → Option PortEntry
  | [bhigh, blow, thigh, tlow, detect, ohigh, olow, count, window] => do
    let b ← field2 0 4095 bhigh blow
    let t ← field2 100 20000 thigh tlow
    let d ← readDetect detect
    let o ← field2 10 5000 ohigh olow
    let c ← field1 2 15 count
    let w ← field1 1 60 window
    some { budget := b, threshold := t, detect := d, off := o, lockout := c, window := w }
  | _ => none

/-- The positions a voice set byte names, ascending (R174, SPEC FIGURE). -/
def voicePositions (b : Byte) : List Nat := (List.range 8).filter fun i => b.getLsbD i

/-- The steps of a figure: three bytes each, duration 10..2000 and a voice set below the number of voices (R16, R174). -/
def readSteps (voices : Nat) : List Byte → Option (List FigureStep)
  | [] => some []
  | high :: low :: set :: rest => do
    let d ← field2 10 2000 high low
    let more ← readSteps voices rest
    if (voicePositions set).all (fun i => decide (i < voices)) then some ({ duration := d, voices := voicePositions set } :: more)
    else none
  | _ => none

/-- A voice list: 1 to 4 sources 0..63, none twice (R16). -/
def readVoices (bytes : List Byte) : Option (List Nat) :=
  let v := bytes.map BitVec.toNat
  if 1 ≤ v.length ∧ v.length ≤ 4 ∧ v.all (fun i => decide (i < 64)) = true ∧ v.Nodup then some v else none

/-- SPEC FIGURE: counted voices, counted steps, loop (R16, R174). -/
def readFigure : List Byte → Option Figure
  | v :: rest =>
    match rest.drop v.toNat with
    | p :: more =>
      match more.drop (3 * p.toNat) with
      | [loop] => do
        let voices ← readVoices (rest.take v.toNat)
        let steps ← readSteps voices.length (more.take (3 * p.toNat))
        let l ← fieldFlag loop
        if voices.length = v.toNat ∧ 1 ≤ steps.length ∧ steps.length ≤ 32 then some { voices := voices, steps := steps, loop := l }
        else none
      | _ => none
    | [] => none
  | [] => none

/-! ## Cue records (R138 to R140) -/

/-- A next field: 0..511, or 0xFFFF for END (R174, Cue record). -/
def readNext (high low : Byte) : Option (Option Nat) :=
  if high = 0xFF ∧ low = 0xFF then some none else (field2 0 511 high low).map some

/-- An optional note: 0..127, or 0xFF for an absent note (R139, R174). -/
def readNote (b : Byte) : Option (Option Nat) := if b = 0xFF then some none else (field1 0 127 b).map some

/-- An action with the operands it uses; the others are ignored (R139, R140, R174). -/
def readAction (action first second switch nhigh nlow : Byte) : Option Action :=
  if action = 1 then do
    let i ← field1 0 63 first
    let n ← readNote second
    some (.strike i n)
  else if action = 2 then do
    let i ← field1 0 63 first
    let n ← readNote second
    let on ← fieldFlag switch
    some (.hold i n on)
  else if action = 3 then do
    let f ← field1 0 15 first
    let start ← fieldFlag switch
    some (.figure f start)
  else if action = 4 then do
    let k ← field1 0 3 first
    let p ← field1 0 127 second
    some (.express k p)
  else if action = 5 then (field2 50 200 nhigh nlow).map .tempo
  else if action = 6 then do
    let j ← field1 0 7 first
    let on ← fieldFlag switch
    some (.tremulant j on)
  else if action = 7 then (field2 1 60000 nhigh nlow).map .wait
  else if action = 8 then some .awaitGo
  else none

/-- What a CUE WRITE carries (R140). -/
structure CueWrite where
  index : Nat
  body : CueBody
  deriving DecidableEq, Repr

/-- CUE WRITE: a two-byte record index and the nine bytes of a record (R140, R174). Flag bits the layout leaves undefined are
ignored. -/
def readCueWrite : List Byte → Option CueWrite
  | [xhigh, xlow, nexthigh, nextlow, action, flags, first, second, switch, nhigh, nlow] => do
    let x ← field2 0 511 xhigh xlow
    let next ← readNext nexthigh nextlow
    let act ← readAction action first second switch nhigh nlow
    some { index := x, body := { next := next, action := act, suspendAfter := flags.getLsbD 0, indicate := flags.getLsbD 1 } }
  | _ => none

/-- A two-byte record index 0..511 (CUE READ, CUE START). -/
def readRecordIndex : List Byte → Option Nat
  | [high, low] => field2 0 511 high low
  | _ => none

/-! ## Other commands -/

/-- No field beyond the tag. -/
def readNoField : List Byte → Option Unit
  | [] => some ()
  | _ :: _ => none

/-- SPEC BEGIN: its mode, false for KEEP and true for BLANK (R6, R174). -/
def readMode : List Byte → Option Bool
  | [m] => fieldFlag m
  | _ => none

/-- The four values of a CONFIGURE (R172). -/
structure ConfigureBody where
  low : Nat
  high : Nat
  silenceTime : Nat
  deferral : Nat
  deriving DecidableEq, Repr

/-- CONFIGURE: low mark, high mark, silence time, deferral limit, tested together (R172). -/
def readConfigure : List Byte → Option ConfigureBody
  | [low, high, shigh, slow, deferral] => do
    let s ← field2 50 2000 shigh slow
    let d ← field1 5 100 deferral
    if 1 ≤ low.toNat ∧ low.toNat < high.toNat ∧ high.toNat ≤ 64 then
      some { low := low.toNat, high := high.toNat, silenceTime := s, deferral := d }
    else none
  | _ => none

/-- The target of a QUERY OUTPUT by its form: an address in range, or a source index in range (R63, R174). -/
def readQuery : List Byte → Option Target
  | [form, port, high, low] =>
    if form = 0 then do
      let p ← field1 0 7 port
      let i ← field2 0 511 high low
      some (.output { port := p, index := i })
    else none
  | [form, source] => if form = 1 then (field1 0 63 source).map .claim else none
  | _ => none

/-- A figure index 0..15 (R98). -/
def readFigureIndex : List Byte → Option Nat
  | [f] => field1 0 15 f
  | _ => none

/-- FIGURE SYNC: a counted list of 1..16 figure indices (R99). -/
def readFigureList : List Byte → Option (List Nat)
  | count :: rest =>
    if rest.length = count.toNat ∧ 1 ≤ rest.length ∧ rest.length ≤ 16 ∧ rest.all (fun b => decide (b.toNat ≤ 15)) = true then
      some (rest.map BitVec.toNat)
    else none
  | [] => none

/-- A port number 0..7 (R129, R130). -/
def readPortNumber : List Byte → Option Nat
  | [p] => field1 0 7 p
  | _ => none

end Sys2Proof.Machine
end

