-- ==== Sys2Proof/Machine/Ops.lean ====
section
/-! DEFINITION. The named operations over the part's stores and queues: every meaning reads and writes State through these. -/

namespace Sys2Proof.Machine

/-! ## The two links -/

/-- The other link. -/
def otherLink : Link → Link
  | .one => .two
  | .two => .one

/-- A link's member of a pair. -/
def Pair.get {α : Type} (p : Pair α) : Link → α
  | .one => p.one
  | .two => p.two

/-- Replaces a link's member of a pair. -/
def Pair.set {α : Type} (p : Pair α) (l : Link) (x : α) : Pair α :=
  match l with
  | .one => { p with one := x }
  | .two => { p with two := x }

/-- A link's interface (R160). -/
def State.link (s : State) (l : Link) : LinkIf := s.links.get l

/-- Rewrites a link's interface. -/
def State.modLink (s : State) (l : Link) (f : LinkIf → LinkIf) : State := { s with links := s.links.set l (f (s.link l)) }

/-- A link's registration block (R25). -/
def State.reg (s : State) (l : Link) : Registration := s.regs.get l

/-- Rewrites a link's registration block. -/
def State.modReg (s : State) (l : Link) (f : Registration → Registration) : State :=
  { s with regs := s.regs.set l (f (s.reg l)) }

/-! ## The specification store -/

/-- The engine state (R3). -/
def State.engine (s : State) : EngineState := s.store.engine

/-- The part plays (R4). -/
def State.ready (s : State) : Bool := decide (s.store.engine = .ready)

/-- A division's key count; none when its entry is absent or the number names no entry (R9). -/
def State.division (s : State) (i : Nat) : Option Nat := s.store.tables.divisions[i]?.join
/-- A source entry, none when absent (R10). -/
def State.source (s : State) (i : Nat) : Option Source := s.store.tables.sources[i]?.join
/-- A stop entry, none when absent (R12). -/
def State.stop (s : State) (i : Nat) : Option Stop := s.store.tables.stops[i]?.join
/-- A chamber entry, none when absent (R13). -/
def State.chamber (s : State) (i : Nat) : Option Chamber := s.store.tables.chambers[i]?.join
/-- A tremulant entry, none when absent (R14). -/
def State.tremulant (s : State) (i : Nat) : Option Tremulant := s.store.tables.tremulants[i]?.join
/-- A port entry, none when absent (R15). -/
def State.portEntry (s : State) (i : Nat) : Option PortEntry := s.store.tables.ports[i]?.join
/-- A figure entry, none when absent (R16). -/
def State.figure (s : State) (i : Nat) : Option Figure := s.store.tables.figures[i]?.join

/-- Replaces the tables. -/
def State.modTables (s : State) (f : Tables → Tables) : State :=
  { s with store := { s.store with tables := f s.store.tables } }

/-! ## Timers -/

/-- A timer that runs and whose expiry has come (R1). -/
def State.due (s : State) (timer : Option Nat) : Bool :=
  match timer with
  | some expiry => decide (expiry ≤ s.now)
  | none => false

/-! ## Counters -/

/-- The statistics counters by name (R177). -/
inductive Counter where
  | framesGood (l : Link)
  | framesBad (l : Link)
  | framesCut (l : Link)
  | framesDropped (l : Link)
  | playDiscarded (l : Link)
  | noticesDiscarded (l : Link)
  | linkLosses (l : Link)
  | playEntriesIgnored
  | strikesStarted
  | strikesMerged
  | strikesShed
  | strikesLate
  | reiterationRefused
  | figuresRefused
  | portTrips (port : Nat)
  | lockouts
  | goOverruns
  | cueRunaways
  deriving DecidableEq, Repr

/-- The place of a link's first counter (R177). -/
def linkBase : Link → Nat
  | .one => 0
  | .two => 7

/-- The index of a counter (R177). -/
def Counter.index : Counter → Nat
  | .framesGood l => linkBase l
  | .framesBad l => linkBase l + 1
  | .framesCut l => linkBase l + 2
  | .framesDropped l => linkBase l + 3
  | .playDiscarded l => linkBase l + 4
  | .noticesDiscarded l => linkBase l + 5
  | .linkLosses l => linkBase l + 6
  | .playEntriesIgnored => 14
  | .strikesStarted => 15
  | .strikesMerged => 16
  | .strikesShed => 17
  | .strikesLate => 18
  | .reiterationRefused => 19
  | .figuresRefused => 20
  | .portTrips port => 21 + port
  | .lockouts => 29
  | .goOverruns => 30
  | .cueRunaways => 31

/-- The value of a counter. -/
def State.counter (s : State) (c : Counter) : Nat := s.counters[c.index]?.getD 0

/-- n increments of one counter value, each of which leaves a saturated value as it is (R178). -/
def saturatingAdd (value n : Nat) : Nat := if value < Config.counterMax then min (value + n) Config.counterMax else value

/-- n increments of a counter (R178). -/
def State.bumpBy (s : State) (n : Nat) (c : Counter) : State :=
  { s with counters := s.counters.modify c.index (saturatingAdd · n) }

/-- One increment of a counter (R178). -/
def State.bump (s : State) (c : Counter) : State := s.bumpBy 1 c

/-! ## The demand table -/

/-- The total of a record (R52). -/
def Record.total (r : Record) : Nat := r.link1 + r.link2 + r.cue

/-- The record of a target, if the table has one (R51). -/
def State.record (s : State) (t : Target) : Option Record := s.table.find? (fun r => decide (r.target = t))

/-- Rewrites the record of a target. -/
def State.modRecord (s : State) (t : Target) (f : Record → Record) : State :=
  { s with table := s.table.map fun r => if r.target = t then f r else r }

/-- The load of each output of a source (R10); a FIGURE-mode trap has none. -/
def Source.load : Source → Nat
  | .rank _ o => o.load
  | .percussion _ o _ _ _ => o.load
  | .trap o _ _ => o.load
  | .figureTrap _ => 0

/-- The stroke and rest times of a source that is struck (R65). -/
def Source.strikeTimes : Source → Option Strike
  | .rank _ _ => none
  | .percussion _ _ k _ _ => some k
  | .trap _ k _ => some k
  | .figureTrap _ => none

/-- The damper of a percussion that has one (R10). -/
def Source.damper : Source → Option Damper
  | .percussion _ _ _ _ d => d
  | .rank _ _ => none
  | .trap _ _ _ => none
  | .figureTrap _ => none

/-- The load of a record's output (R121). -/
def State.recordLoad (s : State) (r : Record) : Nat :=
  match r.owner with
  | .rank i _ => ((s.source i).map Source.load).getD 0
  | .percussion i _ => ((s.source i).map Source.load).getD 0
  | .trap i _ => ((s.source i).map Source.load).getD 0
  | .damper i => (((s.source i).bind Source.damper).map Damper.load).getD 0
  | .stage c _ =>
    match s.chamber c with
    | some (.enclosed _ o _ _) => o.load
    | some .unenclosed => 0
    | none => 0
  | .valve j => ((s.tremulant j).map (·.o.load)).getD 0
  | .figureClaim _ => 0

/-- The source that a record of a struck or claimed output belongs to. -/
def Owner.source : Owner → Option Nat
  | .rank i _ => some i
  | .percussion i _ => some i
  | .trap i _ => some i
  | .damper i => some i
  | .stage _ _ => none
  | .valve _ => none
  | .figureClaim i => some i

/-- The stroke and rest times that govern a record's strokes: always those of the source that owns the output (R65). -/
def State.strikeTimes (s : State) (r : Record) : Option Strike := (r.owner.source.bind s.source).bind Source.strikeTimes

/-! ## Ports and the supply -/

/-- Rewrites a port. -/
def State.modPort (s : State) (p : Nat) (f : Port → Port) : State := { s with ports := s.ports.modify p f }

/-- The port is ACTIVE (R119). -/
def State.portActive (s : State) (p : Nat) : Bool :=
  match s.ports[p]? with
  | some pt => decide (pt.state = .active)
  | none => false

/-- The supply is GOOD (R131). -/
def State.supplyGood (s : State) : Bool := decide (s.supply.state = .good)

/-- The load test of R69 and R113: the computed load as last settled, with the loads already admitted in the event, plus the new
load, is no greater than the budget. -/
def State.loadFits (s : State) (p load : Nat) : Bool :=
  match s.ports[p]?, s.portEntry p with
  | some pt, some e => decide (pt.load + pt.admitted + load ≤ e.budget)
  | _, _ => false

/-- Counts a load admitted in the running event (R69, R113). -/
def State.addLoad (s : State) (p load : Nat) : State := s.modPort p fun pt => { pt with admitted := pt.admitted + load }

/-! ## Notices -/

/-- The urgent notices (R169); the others are routine. -/
def Notice.urgent : Notice → Bool
  | .portTripped _ _ | .portLocked _ _ | .supplyLow | .linkDown _ | .hold | .resume => true
  | .portRestored _ _ | .supplyGood | .linkUp _ | .cueDone _ | .cueStopped _ _ => false

/-- A notice meets a link's notice queue: the queue after it, and whether a notice was discarded (R169). -/
def joinNotices (queue : List Notice) (n : Notice) : List Notice × Bool :=
  if queue.length < Config.noticeQueueSize then (queue ++ [n], false)
  else if n.urgent && queue.any (fun m => !m.urgent) then (queue.eraseP (fun m => !m.urgent) ++ [n], true)
  else (queue, true)

/-- Queues a notice for one link if it is UP, and counts a discard (R169, R170). -/
def State.notify (s : State) (l : Link) (n : Notice) : State :=
  match (s.link l).state with
  | .down => s
  | .up =>
    let joined := joinNotices (s.link l).notices n
    let t := s.modLink l fun i => { i with notices := joined.1 }
    if joined.2 then t.bump (.noticesDiscarded l) else t

/-- Queues a notice for every link that is UP (R170). -/
def State.notifyAll (s : State) (n : Notice) : State := (s.notify .one n).notify .two n

end Sys2Proof.Machine
end

