-- ==== Sys2Proof/Machine/Strikes.lean ====
section
/-! DEFINITION. The strike scheduler (04): strokes, strike requests, the strike queue, the reiteration set and the dampers. -/

namespace Sys2Proof.Machine

/-- The stroke state of an output; none where no stroke record is kept (R65). -/
def State.stroke (s : State) (a : Addr) : Option Stroke := (s.record (.output a)).bind (·.stroke)

/-- Sets the stroke state of an output. -/
def State.setStroke (s : State) (a : Addr) (k : Stroke) : State := s.modRecord (.output a) fun r => { r with stroke := some k }

/-- The load of a stroke on an output: its source's load (R69). -/
def State.strikeLoad (s : State) (a : Addr) : Nat := ((s.record (.output a)).map s.recordLoad).getD 0

/-- The stroke and rest times of an output (R65). -/
def State.timesAt (s : State) (a : Addr) : Option Strike := (s.record (.output a)).bind s.strikeTimes

/-- The output's port is ACTIVE and the supply GOOD (R68, R72). -/
def State.drivable (s : State) (a : Addr) : Bool := s.portActive a.port && s.supplyGood

/-- A strike on the output may start: it is IDLE and the load test of R69 passes (R68). -/
def State.startable (s : State) (a : Addr) : Bool :=
  decide (s.stroke a = some .idle) && s.loadFits a.port (s.strikeLoad a)

/-- A stroke starts: the output is STRIKING for its source's stroke time, its load is admitted, and "strikes started" counts it
(R66, R69). -/
def startStroke (a : Addr) (s : State) : State :=
  match s.timesAt a with
  | some k => (((s.setStroke a (.striking (s.now + k.stroke))).addLoad a.port (s.strikeLoad a)).bump .strikesStarted)
  | none => s

/-- A request that does not start at once meets the strike queue: merged, shed at a full queue, or joined as the newest (R71). -/
def queueStrike (a : Addr) (s : State) : State :=
  if s.sched.queue.any (fun e => decide (e.out = a)) then s.bump .strikesMerged
  else if Config.strikeQueueSize ≤ s.sched.queue.length then s.bump .strikesShed
  else { s with sched := { s.sched with queue := s.sched.queue ++ [{ out := a, joined := s.now }] } }

/-- A strike request is taken by the scheduler in three steps (R68). -/
def requestStrike (a : Addr) (s : State) : State :=
  if !(s.ready && s.drivable a) then s.bump .strikesShed
  else if s.startable a then startStroke a s
  else queueStrike a s

/-- An entry leaves the queue. -/
def dequeue (a : Addr) (s : State) : State :=
  { s with sched := { s.sched with queue := s.sched.queue.filter (fun e => !decide (e.out = a)) } }

/-- The scheduler looks at one queued entry: its stroke starts and it leaves the queue, or it keeps its place (R72). -/
def serveEntry (s : State) (e : QueuedStrike) : State :=
  if s.drivable e.out && s.startable e.out then startStroke e.out (dequeue e.out s) else s

/-- Serves the queue once, from the oldest entry to the newest (R72). -/
def serveQueue (s : State) : State := s.sched.queue.foldl serveEntry s

/-- The queued entries that an address test names are discarded and counted as shed (R75). -/
def shedQueued (reached : Addr → Bool) (s : State) : State :=
  let shed := s.sched.queue.filter (fun e => reached e.out)
  ({ s with sched := { s.sched with queue := s.sched.queue.filter (fun e => !reached e.out) } }).bumpBy shed.length .strikesShed

/-- A stroke in progress ends at once and its output rests its full rest time from this event (R75, R86; log 15). -/
def cutRecord (s : State) (reached : Addr → Bool) (r : Record) : Record :=
  match r.target, r.stroke, s.strikeTimes r with
  | .output a, some (.striking _), some k => if reached a then { r with stroke := some (.resting (s.now + k.rest)) } else r
  | _, _, _ => r

/-- Every stroke in progress on the outputs an address test names ends at once (R75, R86). -/
def cutStrokes (reached : Addr → Bool) (s : State) : State := { s with table := s.table.map (cutRecord s reached) }

/-- What the loss of a port's drive, or of the supply, does at the scheduler: queued strikes shed, strokes cut (R75). -/
def dropStrikes (reached : Addr → Bool) (s : State) : State := cutStrokes reached (shedQueued reached s)

/-! ## Reiteration (R78 to R81) -/

/-- An onset on a REITERATE output: an entry due one interval later, or "reiteration refused" at a full set; then the strike
request (R78, R81). -/
def beginReiteration (a : Addr) (interval : Nat) (s : State) : State :=
  requestStrike a
    (if s.sched.reiterations.length < Config.reiterationSize then
      { s with sched := { s.sched with reiterations := s.sched.reiterations ++ [{ out := a, due := s.now + interval }] } }
    else s.bump .reiterationRefused)

/-- A release removes the output's reiteration entry, if it has one (R80). -/
def endReiteration (a : Addr) (s : State) : State :=
  { s with sched := { s.sched with reiterations := s.sched.reiterations.filter (fun e => !decide (e.out = a)) } }

/-! ## Dampers (R83, R84) -/

/-- Rewrites the damper state of a percussion. -/
def State.modDamper (s : State) (source : Nat) (f : DamperState → DamperState) : State :=
  { s with sched := { s.sched with dampers := s.sched.dampers.map fun d => if d.source = source then f d else d } }

/-- An onset on one of the percussion's notes raises its sounding-note count and cancels a running holdover (R83, R84). -/
def damperOnset (source : Nat) (s : State) : State :=
  s.modDamper source fun d => { d with sounding := d.sounding + 1, holdover := none }

/-- The holdover timer that a release to 0 starts: none for a holdover of 0 ms, whose demand ends in the event (R83, R84). -/
def holdoverFrom (now holdover : Nat) : Option Nat := if holdover = 0 then none else some (now + holdover)

/-- A release on one of the percussion's notes lowers its count, and starts the holdover timer when the count goes from 1 to 0
(R83, R84). -/
def damperRelease (source : Nat) (s : State) : State :=
  match (s.source source).bind Source.damper with
  | some dm => s.modDamper source fun d =>
      { d with
        sounding := d.sounding - 1
        holdover := if d.sounding = 1 then holdoverFrom s.now dm.holdover else d.holdover }
  | none => s

/-- An onset on a percussion note (R56, R77, R78, R83). -/
def percussionOnset (source : Nat) (a : Addr) (s : State) : State :=
  match s.source source with
  | some (.percussion _ _ _ (.reiterate interval) _) => beginReiteration a interval (damperOnset source s)
  | some (.percussion _ _ _ .single _) => requestStrike a (damperOnset source s)
  | _ => s

/-- A release on a percussion note (R77, R80, R83). -/
def percussionRelease (source : Nat) (a : Addr) (s : State) : State :=
  match s.source source with
  | some (.percussion _ _ _ (.reiterate _) _) => damperRelease source (endReiteration a s)
  | some (.percussion _ _ _ .single _) => damperRelease source s
  | _ => s

/-- An onset on a trap's output; a HOLD trap's goes to its drive port, which follows the total (R56, R82). -/
def trapOnset (mode : TrapMode) (a : Addr) (s : State) : State :=
  match mode with
  | .single => requestStrike a s
  | .reiterate interval => beginReiteration a interval s
  | .hold => s

/-- A release on a trap's output (R77, R80, R82). -/
def trapRelease (mode : TrapMode) (a : Addr) (s : State) : State :=
  match mode with
  | .single => s
  | .reiterate _ => endReiteration a s
  | .hold => s

/-- The strike scheduler's part of SILENCE: queue and reiteration set emptied without a count, strokes cut, holdovers cancelled
(R86). -/
def silenceStrikes (s : State) : State :=
  cutStrokes (fun _ => true)
    { s with sched := { s.sched with
        queue := []
        reiterations := []
        dampers := s.sched.dampers.map fun d => { d with holdover := none } } }

end Sys2Proof.Machine
end

