-- ==== Sys2Proof/Machine/FigurePlayers.lean ====
section
/-! DEFINITION. The figure block (05): starting, stepping and stopping the eight players, and the tempo scale. -/

namespace Sys2Proof.Machine

/-- The owner set of one owner (R91). -/
def OwnerSet.only : FigureOwner → OwnerSet
  | .claim => { claim := true, cue := false, link1 := false, link2 := false }
  | .cue => { claim := false, cue := true, link1 := false, link2 := false }
  | .link .one => { claim := false, cue := false, link1 := true, link2 := false }
  | .link .two => { claim := false, cue := false, link1 := false, link2 := true }

/-- Sets an owner's membership. -/
def OwnerSet.put (o : OwnerSet) (who : FigureOwner) (member : Bool) : OwnerSet :=
  match who with
  | .claim => { o with claim := member }
  | .cue => { o with cue := member }
  | .link .one => { o with link1 := member }
  | .link .two => { o with link2 := member }

/-- Whether an owner is a member. -/
def OwnerSet.has (o : OwnerSet) : FigureOwner → Bool
  | .claim => o.claim
  | .cue => o.cue
  | .link .one => o.link1
  | .link .two => o.link2

/-- The set has no member. -/
def OwnerSet.isEmpty (o : OwnerSet) : Bool := !(o.claim || o.cue || o.link1 || o.link2)

/-- The figure a player runs, none while IDLE (R89). -/
def State.playing (s : State) (p : Nat) : Option Run := s.figures.players[p]?.join

/-- Sets what a player holds; none is IDLE, with figure, step, timer and owners cleared (R89). -/
def State.setPlayer (s : State) (p : Nat) (run : Option Run) : State :=
  { s with figures := { s.figures with players := s.figures.players.set p run } }

/-- The player that runs a figure, if one does (R89: at most one). -/
def State.playerOf (s : State) (figure : Nat) : Option Nat :=
  s.figures.players.findIdx? fun p => decide (p.map (·.figure) = some figure)

/-- The IDLE player with the lowest number (R91). -/
def State.idlePlayer (s : State) : Option Nat := s.figures.players.findIdx? fun p => p.isNone

/-- The scaled duration of a step of d ms at tempo scale t, clamped to 10..5000 (R96). -/
def scaledDuration (d t : Nat) : Nat := min (max ((d * 100 + t / 2) / t) 10) 5000

/-- The output of a voice trap (R92); a source that is no trap with an output has none. -/
def State.voiceOutput (s : State) (source : Nat) : Option Addr :=
  match s.source source with
  | some (.trap o _ _) => some { port := o.port, index := o.base }
  | some (.rank _ _) => none
  | some (.percussion _ _ _ _ _) => none
  | some (.figureTrap _) => none
  | none => none

/-- A step's voice strikes (R92). -/
def strikeVoice (voices : List Nat) (s : State) (position : Nat) : State :=
  match (voices[position]?).bind s.voiceOutput with
  | some a => requestStrike a s
  | none => s

/-- A RUNNING player begins a step of its figure: the strike requests in ascending voice position, then the step timer with the
duration scaled by the tempo as it stands (R92, R96). -/
def beginStep (p step : Nat) (s : State) : State :=
  match s.playing p with
  | some run =>
    match s.figure run.figure with
    | some fig =>
      match fig.steps[step]? with
      | some st =>
        let t := st.voices.foldl (strikeVoice fig.voices) s
        t.setPlayer p (some { run with step := step, expiry := s.now + scaledDuration st.duration s.figures.tempo })
      | none => s
    | none => s
  | none => s

/-- A start of a figure by an owner: it joins the running player, takes the lowest IDLE player at step 0, or is refused and counted
(R91). The Bool says that the figure runs after the event. -/
def startFigure (figure : Nat) (owner : FigureOwner) (s : State) : State × Bool :=
  match s.playerOf figure with
  | some p =>
    match s.playing p with
    | some run => (s.setPlayer p (some { run with owners := run.owners.put owner true }), true)
    | none => (s, false)
  | none =>
    match s.idlePlayer with
    | some p =>
      (beginStep p 0 (s.setPlayer p (some { figure := figure, step := 0, expiry := s.now, owners := OwnerSet.only owner })), true)
    | none => (s.bump .figuresRefused, false)

/-- An owner is removed from a player's owner set; a player left without owners stops in the event (R94). -/
def removeOwner (owner : FigureOwner) (p : Nat) (s : State) : State :=
  match s.playing p with
  | some run =>
    if run.owners.has owner then
      let owners := run.owners.put owner false
      s.setPlayer p (if owners.isEmpty then none else some { run with owners := owners })
    else s
  | none => s

/-- An owner is removed from the player running a figure, if one does (R94). -/
def removeFigureOwner (owner : FigureOwner) (figure : Nat) (s : State) : State :=
  match s.playerOf figure with
  | some p => removeOwner owner p s
  | none => s

/-- An owner is removed from every player (R94, R100). -/
def removeOwnerEverywhere (owner : FigureOwner) (s : State) : State :=
  (List.range s.figures.players.length).foldl (fun t p => removeOwner owner p t) s

/-- Every player stops, with its owners cleared (R101). -/
def stopPlayers (s : State) : State :=
  { s with figures := { s.figures with players := s.figures.players.map fun _ => none } }

/-- Another FIGURE-mode trap that names the figure still has a claim (R90). -/
def State.figureClaimed (s : State) (figure : Nat) : Bool :=
  s.table.any fun r =>
    match r.owner with
    | .figureClaim i => decide (s.source i = some (.figureTrap figure)) && decide (0 < r.total)
    | .rank _ _ | .percussion _ _ | .trap _ _ | .damper _ | .stage _ _ | .valve _ => false

/-- An onset on a FIGURE-mode trap's claim record starts its figure with owner CLAIM (R90). -/
def claimOnset (source : Nat) (s : State) : State :=
  match s.source source with
  | some (.figureTrap figure) => (startFigure figure .claim s).1
  | _ => s

/-- A release on a claim record removes CLAIM when no other claim record of the figure stands above 0 (R90). -/
def claimRelease (source : Nat) (s : State) : State :=
  match s.source source with
  | some (.figureTrap figure) => if s.figureClaimed figure then s else removeFigureOwner .claim figure s
  | _ => s

/-- The tempo scale is written (R97). -/
def setTempo (scale : Nat) (s : State) : State := { s with figures := { s.figures with tempo := scale } }

end Sys2Proof.Machine
end

