-- ==== Sys2Proof/Machine/Relay.lean ====
section
/-! DEFINITION. The unit relay (03): note resolution, the counting of claims, onsets and releases; and the registration blocks'
working out of which claims stand (02). -/

namespace Sys2Proof.Machine

/-! ## Resolution (R43 to R48) -/

/-- The raw note of a key under a transposition and a pitch offset (R45). -/
def rawNote (key : Nat) (transposition offset : Int) : Int := 36 + key + transposition + offset

/-- How often 12 is subtracted to bring a note above the compass to H or below, stopping at the first value not above H (R46). -/
def octavesDown (c : Compass) (n : Int) : Int := (n - c.high + 11) / 12

/-- How often 12 is added to bring a note below the compass to L or above, stopping at the first value not below L (R47). -/
def octavesUp (c : Compass) (n : Int) : Int := (c.low - n + 11) / 12

/-- The note of a raw note on a compass, or no claim (R45, R46, R47). -/
def resolveNote (c : Compass) (n : Int) : Option Nat :=
  if (c.high : Int) < n then
    match c.fold with
    | .off => none
    | .top | .both =>
      let m := n - 12 * octavesDown c n
      if (c.low : Int) ≤ m then some m.toNat else none
  else if n < (c.low : Int) then
    match c.fold with
    | .off | .top => none
    | .both =>
      let m := n + 12 * octavesUp c n
      if m ≤ (c.high : Int) then some m.toNat else none
  else some n.toNat

/-- The output of a note of a rank or percussion (R48). -/
def noteOutput (c : Compass) (o : Outlet) (note : Nat) : Addr := { port := o.port, index := o.base + note - c.low }

/-- What a (key, stop) pair resolves to under a transposition: an output, a claim record, or no claim (R43 to R48). -/
def State.resolve (s : State) (st : Stop) (key : Nat) (transposition : Int) : Option Target :=
  match s.source st.source with
  | some (.rank c o) => (resolveNote c (rawNote key transposition st.offset)).map fun n => .output (noteOutput c o n)
  | some (.percussion c o _ _ _) => (resolveNote c (rawNote key transposition st.offset)).map fun n => .output (noteOutput c o n)
  | some (.trap o _ _) => some (.output { port := o.port, index := o.base })
  | some (.figureTrap _) => some (.claim st.source)
  | none => none

/-- What a Cue claim on a source and note is counted on; none where R145 fails the record (R50). -/
def State.cueTarget (s : State) (source : Nat) (note : Option Nat) : Option Target :=
  match s.source source, note with
  | some (.rank c o), some n => if c.low ≤ n ∧ n ≤ c.high then some (.output (noteOutput c o n)) else none
  | some (.percussion c o _ _ _), some n => if c.low ≤ n ∧ n ≤ c.high then some (.output (noteOutput c o n)) else none
  | some (.trap o _ _), _ => some (.output { port := o.port, index := o.base })
  | some (.figureTrap _), _ => some (.claim source)
  | some (.rank _ _), none => none
  | some (.percussion _ _ _ _ _), none => none
  | none, _ => none

/-! ## Counting and reporting (R53, R55, R56) -/

/-- An onset reaches the block that governs the record's owner (R56). -/
def reportOnset (r : Record) (s : State) : State :=
  match r.owner, r.target with
  | .percussion i _, .output a => percussionOnset i a s
  | .trap _ mode, .output a => trapOnset mode a s
  | .figureClaim i, _ => claimOnset i s
  | .percussion _ _, .claim _ | .trap _ _, .claim _ | .rank _ _, _ | .damper _, _ | .stage _ _, _ | .valve _, _ => s

/-- A release reaches the block that governs the record's owner (R56). -/
def reportRelease (r : Record) (s : State) : State :=
  match r.owner, r.target with
  | .percussion i _, .output a => percussionRelease i a s
  | .trap _ mode, .output a => trapRelease mode a s
  | .figureClaim i, _ => claimRelease i s
  | .percussion _ _, .claim _ | .trap _ _, .claim _ | .rank _ _, _ | .damper _, _ | .stage _ _, _ | .valve _, _ => s

/-- A record's total before and after a change: onset, release or nothing (R53). -/
def reportChange (before after : Record) (s : State) : State :=
  if before.total = 0 ∧ 0 < after.total then reportOnset after s
  else if 0 < before.total ∧ after.total = 0 then reportRelease after s
  else s

/-- The counts of a target's record change, and the change is reported at the moment it is counted (R53, R55). -/
def countClaim (t : Target) (f : Record → Record) (s : State) : State :=
  match s.record t with
  | some r => reportChange r (f r) (s.modRecord t fun _ => f r)
  | none => s

/-- A link's count rises by 1 at an addition and falls by 1 at a removal (R53). -/
def Record.countLink (l : Link) (add : Bool) (r : Record) : Record :=
  match l with
  | .one => { r with link1 := if add then r.link1 + 1 else r.link1 - 1 }
  | .two => { r with link2 := if add then r.link2 + 1 else r.link2 - 1 }

/-- The Cue count rises by 1, no further than 255, or falls by 1, no further than 0 (R55). -/
def Record.countCue (on : Bool) (r : Record) : Record :=
  { r with cue := if on then min (r.cue + 1) Config.cueCountMax else r.cue - 1 }

/-- A registration block hands a (key, stop) claim as an addition or a removal (R43, R53). -/
def handClaim (l : Link) (add : Bool) (st : Stop) (key : Nat) (s : State) : State :=
  match s.resolve st key (s.reg l).effective with
  | some t => countClaim t (Record.countLink l add) s
  | none => s

/-- Counts of every record are rewritten at once, and each record whose total falls to 0 then reports its release, in table order:
ascending port and index, then the claim records by source (R56, R59, R60). -/
def rewriteCounts (f : Record → Record) (s : State) : State :=
  let fallen := s.table.filter fun r => decide (0 < r.total) && decide ((f r).total = 0)
  fallen.foldl (fun t r => reportRelease (f r) t) { s with table := s.table.map f }

/-- All three counts of a record at 0 (R59). -/
def Record.silenced (r : Record) : Record := { r with link1 := 0, link2 := 0, cue := 0 }

/-- A record without Cue claims (R60). -/
def Record.withoutCue (r : Record) : Record := { r with cue := 0 }

/-! ## The registration block (R26 to R40) -/

/-- The place of a key in the held-key map. -/
def keyPlace (division key : Nat) : Nat := 64 * division + key

/-- The touch level of a key (R25). -/
def Registration.level (r : Registration) (division key : Nat) : Level := r.keys[keyPlace division key]?.getD .released

/-- The link holds no key (R26). -/
def Registration.holdsNoKey (r : Registration) : Bool := r.keys.all fun v => decide (v = .released)

/-- A stop's touch speaks at a level (R26). -/
def Touch.admits : Touch → Level → Bool
  | .first, .first | .first, .second | .second, .second => true
  | .first, .released | .second, .released | .second, .first => false

/-- Adds a member to an ascending list without duplicates. -/
def insertMember (i : Nat) : List Nat → List Nat
  | [] => [i]
  | j :: rest => if i < j then i :: j :: rest else if i = j then j :: rest else j :: insertMember i rest

/-- When the link holds no key its effective transposition is the requested one (R33, R35). -/
def takeTransposition (l : Link) (s : State) : State :=
  if (s.reg l).holdsNoKey then s.modReg l fun r => { r with effective := r.requested } else s

/-- One drawn stop's share of a key's change of level from a to b (R28). -/
def changeUnderStop (l : Link) (division key : Nat) (a b : Level) (s : State) (i : Nat) : State :=
  match s.stop i with
  | some st =>
    if st.division = division then
      if st.touch.admits b && !st.touch.admits a then handClaim l true st key s
      else if st.touch.admits a && !st.touch.admits b then handClaim l false st key s
      else s
    else s
  | none => s

/-- A key goes to a level: the map takes it, then each drawn stop of the division is treated in ascending order (R27, R28, R29). -/
def setKey (l : Link) (division key : Nat) (b : Level) (s : State) : State :=
  let a := (s.reg l).level division key
  let t := s.modReg l fun r => { r with keys := r.keys.set (keyPlace division key) b }
  (s.reg l).stops.foldl (changeUnderStop l division key a b) t

/-- The keys of a division, ascending (00, Numbering). -/
def allKeys : List Nat := List.range 64

/-- The held keys of a division that a stop admits, ascending (R30). -/
def Registration.admitted (r : Registration) (st : Stop) : List Nat :=
  allKeys.filter fun k => st.touch.admits (r.level st.division k)

/-- A stop not in the drawn-stop set is drawn: it joins the set, and every held key it admits is handed as an addition, ascending
(R30). -/
def drawStop (l : Link) (i : Nat) (s : State) : State :=
  match s.stop i with
  | some st =>
    ((s.reg l).admitted st).foldl (fun t k => handClaim l true st k t)
      (s.modReg l fun r => { r with stops := insertMember i r.stops })
  | none => s

/-- A stop in the drawn-stop set is cancelled: it leaves the set, and every held key it admits is handed as a removal, ascending
(R30). -/
def cancelStop (l : Link) (i : Nat) (s : State) : State :=
  match s.stop i with
  | some st =>
    ((s.reg l).admitted st).foldl (fun t k => handClaim l false st k t)
      (s.modReg l fun r => { r with stops := r.stops.filter (fun j => !decide (j = i)) })
  | none => s

/-- Every held key goes to level 0 in ascending division and key order, with its claims withdrawn (R36, R40). -/
def releaseKeys (l : Link) (s : State) : State :=
  (List.range 6).foldl
    (fun t d => allKeys.foldl (fun u k => if (u.reg l).level d k = .released then u else setKey l d k .released u) t) s

end Sys2Proof.Machine
end

