-- ==== Sys2Proof/Machine/Chambers.lean ====
section
/-! DEFINITION. The tremulant generators and the expression and shutter control (06). -/

namespace Sys2Proof.Machine

/-! ## Tremulants (R103 to R107) -/

/-- The period of a tremulant in ms (R105). -/
def Tremulant.period (t : Tremulant) : Nat := (10000 + t.rate / 2) / t.rate

/-- The open time of a tremulant in ms (R105). -/
def Tremulant.openTime (t : Tremulant) : Nat := (t.period * t.duty + 50) / 100

/-- The closed time of a tremulant in ms (R105). -/
def Tremulant.closedTime (t : Tremulant) : Nat := t.period - t.openTime

/-- A generator (R103). -/
def State.generator (s : State) (j : Nat) : Generator := s.generators[j]?.getD { phase := .off, cueFlag := false }

/-- Rewrites a generator. -/
def State.modGenerator (s : State) (j : Nat) (f : Generator → Generator) : State :=
  { s with generators := s.generators.modify j f }

/-- Tremulant j is demanded: READY, and a member of a link's tab set or with its Cue demand flag set (R104). -/
def State.demanded (s : State) (j : Nat) : Bool :=
  s.ready && ((s.reg .one).tabs.contains j || (s.reg .two).tabs.contains j || (s.generator j).cueFlag)

/-- A generator judges its demand after an event that may have changed it: demand that appears takes a present generator from OFF to
OPEN, demand that ends takes it OFF; no change of demand does nothing (R104, R106). -/
def judgeDemand (before : Bool) (j : Nat) (s : State) : State :=
  if !before && s.demanded j then
    match s.tremulant j with
    | some t => s.modGenerator j fun g => { g with phase := .opened (s.now + t.openTime) }
    | none => s
  else if before && !s.demanded j then s.modGenerator j fun g => { g with phase := .off }
  else s

/-- A change of one of the three things R104 names, judged. DESIGN CHOICE (log 33): demand is judged at each change, so where one TREMULANT
TAB turns a sole claimant's tab OFF and then ON, the pulse begins anew at OPEN within the one event (R31). Unsafe. -/
def withDemandJudged (j : Nat) (f : State → State) (s : State) : State := judgeDemand (s.demanded j) j (f s)

/-- A tremulant joins or leaves a link's tab set, and the change is reported to its generator (R31). -/
def setTab (l : Link) (j : Nat) (on : Bool) (s : State) : State :=
  if (s.reg l).tabs.contains j = on then s
  else withDemandJudged j
    (fun t => t.modReg l fun r =>
      { r with tabs := if on then insertMember j r.tabs else r.tabs.filter (fun i => !decide (i = j)) }) s

/-- A generator's Cue demand flag is set or cleared, and judged (R107). -/
def setCueFlag (j : Nat) (on : Bool) (s : State) : State :=
  withDemandJudged j (fun t => t.modGenerator j fun g => { g with cueFlag := on }) s

/-- Every Cue demand flag is cleared (R107). -/
def clearCueFlags (s : State) : State := (List.range s.generators.length).foldl (fun t j => setCueFlag j false t) s

/-- Every generator OFF with its flag clear (R7, R109). -/
def stopGenerators (s : State) : State :=
  { s with generators := s.generators.map fun _ => { phase := .off, cueFlag := false } }

/-! ## Expression and shutters (R110 to R117) -/

/-- The position of an expression channel (R110). -/
def State.channel (s : State) (k : Nat) : Nat := s.shutters.channels[k]?.getD 0

/-- The target of a chamber of S stages at a position (R112). -/
def stageTarget (position stages : Nat) : Nat := (position * stages + 64) / 128

/-- The state of a chamber (R112). -/
def State.chamberState (s : State) (c : Nat) : ChamberState := s.shutters.chambers[c]?.getD { current := 0, timer := none }

/-- Rewrites a chamber's state. -/
def State.modChamber (s : State) (c : Nat) (f : ChamberState → ChamberState) : State :=
  { s with shutters := { s.shutters with chambers := s.shutters.chambers.modify c f } }

/-- The opening of a stage is admitted: port ACTIVE, supply GOOD, and the load fits (R113). -/
def State.openingAdmitted (s : State) (o : Outlet) : Bool := s.portActive o.port && s.supplyGood && s.loadFits o.port o.load

/-- A chamber whose target differs from its current stage steps: an opening, admitted or refused, or a closing; each starts the stage
timer (R113, R114). -/
def stepChamber (c : Nat) (s : State) : State :=
  match s.chamber c with
  | some (.enclosed stages o channel interval) =>
    let current := (s.chamberState c).current
    let timer := some (s.now + interval.getD 0)
    if current < stageTarget (s.channel channel) stages then
      if s.openingAdmitted o then (s.modChamber c fun _ => { current := current + 1, timer := timer }).addLoad o.port o.load
      else s.modChamber c fun _ => { current := current, timer := timer }
    else if stageTarget (s.channel channel) stages < current then
      s.modChamber c fun _ => { current := current - 1, timer := timer }
    else s
  | some .unenclosed => s
  | none => s

/-- A chamber that follows a written channel: it steps when the write changed its target and its timer is not running (R113, R115). -/
def followChannel (k old new : Nat) (s : State) (c : Nat) : State :=
  match s.chamber c with
  | some (.enclosed stages _ channel _) =>
    if channel = k ∧ stageTarget old stages ≠ stageTarget new stages ∧ (s.chamberState c).timer = none then stepChamber c s else s
  | some .unenclosed => s
  | none => s

/-- The chambers, ascending. -/
def allChambers : List Nat := List.range 4

/-- A channel is written, and the chambers that follow it take their new targets in ascending index (R110, R111, R115). -/
def writeChannel (k position : Nat) (s : State) : State :=
  allChambers.foldl (followChannel k (s.channel k) position)
    { s with shutters := { s.shutters with channels := s.shutters.channels.set k position } }

/-- Every stage released and every stage timer cancelled (R7, R117). -/
def releaseStages (s : State) : State :=
  { s with shutters := { s.shutters with chambers := s.shutters.chambers.map fun _ => { current := 0, timer := none } } }

end Sys2Proof.Machine
end

