-- ==== Sys2Proof/Machine/Drive.lean ====
section
/-! DEFINITION. The drive ports (07): drive demand, settling, serving at a fall in load, and what trips, restorations and resets do to
a port. -/

namespace Sys2Proof.Machine

/-- The output is STRIKING (R65). -/
def Stroke.isStriking : Stroke → Bool
  | .striking _ => true
  | .idle => false
  | .resting _ => false

/-- A record's stroke state is STRIKING (R57). -/
def Record.striking (r : Record) : Bool := (r.stroke.map Stroke.isStriking).getD false

/-- The damper of a percussion has drive demand: its sounding-note count is above 0 or its holdover timer runs (R57, R83). -/
def State.damperDemand (s : State) (source : Nat) : Bool :=
  s.sched.dampers.any fun d => decide (d.source = source) && (decide (0 < d.sounding) || d.holdover.isSome)

/-- The phase is OPEN (R103). -/
def Phase.isOpen : Phase → Bool
  | .opened _ => true
  | .off => false
  | .closed _ => false

/-- The drive demand of a record (R57). -/
def State.demands (s : State) (r : Record) : Bool :=
  match r.owner with
  | .rank _ _ => decide (0 < r.total)
  | .trap _ .hold => decide (0 < r.total) || r.striking
  | .percussion _ _ | .trap _ .single | .trap _ (.reiterate _) => r.striking
  | .damper i => s.damperDemand i
  | .stage c k => decide (k ≤ (s.chamberState c).current)
  | .valve j => (s.generator j).phase.isOpen
  | .figureClaim _ => false

/-- The record has an address on the port. -/
def Record.onPort (r : Record) (p : Nat) : Bool :=
  match r.target with
  | .output a => decide (a.port = p)
  | .claim _ => false

/-- The output index of a record; a claim record has none (R51). -/
def Record.index? (r : Record) : Option Nat :=
  match r.target with
  | .output a => some a.index
  | .claim _ => none

/-- The records of a port with drive demand. -/
def State.demanding (s : State) (p : Nat) : List Record := s.table.filter fun r => r.onPort p && s.demands r

/-- A port settles: its energized set is the outputs with demand while it is ACTIVE and the supply GOOD, else empty, and its computed
load is the sum of their loads (R120, R121). -/
def settlePort (s : State) (p : Nat) (pt : Port) : Port :=
  if pt.state = .active ∧ s.supplyGood = true then
    { pt with
      energized := (s.demanding p).filterMap Record.index?
      load := ((s.demanding p).map s.recordLoad).sum
      admitted := 0 }
  else { pt with energized := [], load := 0, admitted := 0 }

/-- Every port settles (R120). -/
def settle (s : State) : State := { s with ports := s.ports.mapIdx (settlePort s) }

/-- Settling has lowered a port's computed load (R121). -/
def loadFell (before after : State) : Bool :=
  (before.ports.zip after.ports).any fun p => decide (p.2.load < p.1.load)

/-- The end of every event at the ports and the scheduler: the ports settle; at a fall in load, or where the event itself asks for it,
the strike queue is served once, and the strokes it starts are settled in their turn (R72, R120, R121). DESIGN CHOICE (log 34): this is
done at the end of each of two events at one moment, so an output whose demand ends in the first and appears in the second is
de-energized between them, and queued strikes may start there. So is a tremulant's valve, where R106 has an OPEN one's stay energized;
and so is a rank note or HOLD trap whose one claimant's removal is taken before another's addition, where R58 has it speak on. Unsafe. -/
def settleAndServe (serve : Bool) (s : State) : State :=
  if serve || loadFell s (settle s) then settle (serveQueue (settle s)) else settle s

/-! ## Trips, restorations and resets (R123 to R136) -/

/-- The detect timer starts where its three conditions have come to hold together (R123). -/
def startDetect (p : Nat) (s : State) : State :=
  match s.portEntry p with
  | some e =>
    if s.supplyGood then
      s.modPort p fun pt =>
        if pt.state = .active ∧ pt.overload = true ∧ pt.detect = none then { pt with detect := some (s.now + e.detect) } else pt
    else s
  | none => s

/-- The history entries whose age does not exceed the lockout window (R124). -/
def prunedHistory (now window : Nat) (history : List Nat) : List Nat :=
  history.filter fun e => decide (now - e ≤ window * 1000)

/-- The address lies on the port. -/
def onPort (p : Nat) (a : Addr) : Bool := decide (a.port = p)

/-- A port trips: history pruned and appended, counted, LOCKED at the lockout count or TRIPPED with its off timer, noticed; its queued
strikes are shed and its strokes cut (R124, R125, R75). -/
def tripPort (p : Nat) (e : PortEntry) (pt : Port) (s : State) : State :=
  let history := prunedHistory s.now e.window pt.history ++ [s.now]
  let counted := s.bump (.portTrips p)
  if e.lockout ≤ history.length then
    dropStrikes (onPort p)
      (((counted.modPort p fun q => { q with state := .locked, detect := none, off := none, history := history }).bump
        .lockouts).notifyAll (.portLocked p history.length))
  else
    dropStrikes (onPort p)
      ((counted.modPort p fun q =>
        { q with state := .tripped, detect := none, off := some (s.now + e.off), history := history }).notifyAll
        (.portTripped p history.length))

/-- A port becomes ACTIVE with a history, its detect timer starting where R123 requires, and PORT RESTORED is queued with the history
count (R126, R129). -/
def restorePort (p : Nat) (history : List Nat) (s : State) : State :=
  (startDetect p (s.modPort p fun q => { q with state := .active, off := none, history := history })).notifyAll
    (.portRestored p history.length)

/-- A port becomes OFF by command (R125, R130). -/
def disablePort (p : Nat) (s : State) : State :=
  dropStrikes (onPort p) (s.modPort p fun q => { q with state := .off, detect := none, off := none, history := [] })

/-- Every port OFF, with its timers cancelled and its history empty; the over indication follows the current (R119, R136). -/
def portsOff (s : State) : State := { s with ports := s.ports.map fun pt => Port.atPowerOn pt.overload }

/-- A successful commit: each present port ACTIVE with an empty history and a load of 0, absent ports OFF (R19, R119, R136). -/
def portsAtCommit (s : State) : State :=
  { s with ports := s.ports.mapIdx fun p pt =>
      { Port.atPowerOn pt.overload with state := if (s.portEntry p).isSome then .active else .off } }

/-- The ports, ascending (00, Numbering). -/
def allPorts : List Nat := List.range 8

/-- The supply becomes LOW from GOOD: every detect timer cancelled, every queued strike shed and every stroke cut, SUPPLY LOW queued
(R132, R75). -/
def supplyFails (s : State) : State :=
  (dropStrikes (fun _ => true)
    { s with
      supply := { state := .low, dwell := none }
      ports := s.ports.map fun pt => { pt with detect := none } }).notifyAll .supplyLow

/-- The supply becomes GOOD: every ACTIVE port whose over indication is yes starts its detect timer, SUPPLY GOOD is queued (R133). -/
def supplyReturns (s : State) : State :=
  (allPorts.foldl (fun t p => startDetect p t) { s with supply := { state := .good, dwell := none } }).notifyAll .supplyGood

end Sys2Proof.Machine
end

