-- ==== Sys2Proof/Machine/CueUnit.lean ====
section
/-! DEFINITION. The cue unit (08): reference tests, instant actions, completion, going IDLE, suspension and owner loss. -/

namespace Sys2Proof.Machine

/-- A record of cue memory, none when EMPTY (R138). -/
def State.cueRecord (s : State) (i : Nat) : Option CueRecord := s.memory[i]?.join

/-- Rewrites the unit. -/
def State.modCue (s : State) (f : CueUnit → CueUnit) : State := { s with cue := f s.cue }

/-- Sets the state of a record that is not EMPTY (R138). -/
def markRecord (i : Nat) (st : RecordState) (s : State) : State :=
  { s with memory := s.memory.modify i fun r => r.map fun c => { c with state := st } }

/-- The unit is not IDLE. -/
def CueUnit.busy (c : CueUnit) : Bool := !decide (c.state = .idle)

/-- The unit goes IDLE: the seven steps of R155, with the wait timer gone with TIMING. -/
def cueGoesIdle (reason : StopReason) (s : State) : State :=
  let t := removeOwnerEverywhere .cue (clearCueFlags (rewriteCounts Record.withoutCue (s.modCue fun c => { c with state := .idle })))
  (t.modCue fun c => { c with pendingGo := false, owner := none, stopReason := some reason }).notifyAll
    (.cueStopped reason s.cue.current)

/-- The references of a record hold (R145). -/
def State.referencesHold (s : State) : Action → Bool
  | .strike source note =>
    match s.source source, note with
    | some (.percussion c _ _ _ _), some n => decide (c.low ≤ n) && decide (n ≤ c.high)
    | some (.trap _ _ _), _ => true
    | some (.percussion _ _ _ _ _), none | some (.rank _ _), _ | some (.figureTrap _), _ | none, _ => false
  | .hold source note _ => (s.cueTarget source note).isSome
  | .figure f _ => (s.figure f).isSome
  | .express _ _ | .tempo _ | .tremulant _ _ | .wait _ | .awaitGo => true

/-- The effect of an instant action (R146); WAIT and AWAIT GO have none of their own. -/
def instantAction (action : Action) (s : State) : State :=
  match action with
  | .strike source note =>
    match s.cueTarget source note with
    | some (.output a) => requestStrike a s
    | some (.claim _) => s
    | none => s
  | .hold source note on =>
    match s.cueTarget source note with
    | some t => countClaim t (Record.countCue on) s
    | none => s
  | .figure f true => (startFigure f .cue s).1
  | .figure f false => removeFigureOwner .cue f s
  | .express k position => writeChannel k position s
  | .tempo scale => setTempo scale s
  | .tremulant j on => setCueFlag j on s
  | .wait _ => s
  | .awaitGo => s

/-- A record completes: DONE, last completed, CUE DONE where INDICATE is set, the run count where it completed at its taking, and then
the first of R149's four ways on (R149, R150). -/
def completeRecord (i : Nat) (body : CueBody) (atTaking : Bool) (s : State) : State :=
  let done := (markRecord i .done s).modCue fun c =>
    { c with lastCompleted := some i, runCount := if atTaking then c.runCount + 1 else c.runCount }
  let told := if body.indicate then done.notifyAll (.cueDone i) else done
  match body.next with
  | none => cueGoesIdle .ended (told.modCue fun c => { c with current := some i })
  | some next =>
    if body.suspendAfter then told.modCue fun c => { c with state := .suspended .running, current := some next }
    else if Config.runawayCount ≤ told.cue.runCount then
      cueGoesIdle .runaway ((told.modCue fun c => { c with current := some i }).bump .cueRunaways)
    else told.modCue fun c => { c with state := .running, current := some next }

/-- The record the unit is at completes, not at its taking: a wait expired, or its GO taken (R147, R151, R153). -/
def completeCurrent (s : State) : State :=
  match s.cue.current with
  | some i =>
    match s.cueRecord i with
    | some r => completeRecord i r.body false s
    | none => s
  | none => s

/-- The taking of a record that is not EMPTY and whose references hold (R144, R146, R147, R148). -/
def carryOut (i : Nat) (body : CueBody) (s : State) : State :=
  match body.action with
  | .wait d => s.modCue fun c => { c with state := .timing (s.now + d), runCount := 0 }
  | .awaitGo =>
    if s.cue.pendingGo then completeRecord i body true (s.modCue fun c => { c with pendingGo := false })
    else s.modCue fun c => { c with state := .awaiting, runCount := 0 }
  | action => completeRecord i body true (instantAction action s)

/-- The RUNNING unit takes its current record (R144). -/
def takeCurrent (s : State) : State :=
  match s.cue.current with
  | some i =>
    match s.cueRecord i with
    | none => cueGoesIdle .chainBroken s
    | some r =>
      if s.referencesHold r.body.action then carryOut i r.body s
      else cueGoesIdle .failed (markRecord i .badReference s)
  | none => s

/-- The sub-state a suspension remembers; none where the unit is not RUNNING, TIMING or AWAITING (R152). -/
def CueUnit.remembered (c : CueUnit) (now : Nat) : Option SubState :=
  match c.state with
  | .running => some .running
  | .timing expiry => some (.timing (expiry - now))
  | .awaiting => some .awaiting
  | .idle => none
  | .suspended _ => none

/-- What the cue unit does at the loss of a link (R156). -/
def cueOwnerLost (l : Link) (s : State) : State :=
  if s.cue.owner = some l ∧ s.cue.busy = true then
    let suspended := match s.cue.remembered s.now with
      | some sub => UnitState.suspended sub
      | none => s.cue.state
    (s.modCue fun c => { c with state := suspended, stopReason := some .ownerLost, owner := none }).notifyAll
      (.cueStopped .ownerLost s.cue.current)
  else s

/-- A GO in READY is taken by the unit's state (R151). -/
def takeGo (s : State) : State :=
  match s.cue.state with
  | .awaiting => completeCurrent s
  | .idle => s.bump .goOverruns
  | .running | .timing _ | .suspended _ =>
    if s.cue.pendingGo then s.bump .goOverruns else s.modCue fun c => { c with pendingGo := true }

end Sys2Proof.Machine
end

