-- ==== Sys2Proof/Machine/Flags.lean ====
section
/-! DEFINITION. The codes of named values in one byte (R174), the status prefix of every frame the part sends (R168, R176), and the
contents of the replies that report state: STATUS (R175), COUNTERS READ (R179), QUERY OUTPUT (R64), CUE READ (R141). -/

namespace Sys2Proof.Machine

/-! ## Codes (R174) -/

def EngineState.code : EngineState → Nat
  | .unconfigured => 0
  | .loading => 1
  | .checking => 2
  | .ready => 3

def UnitState.code : UnitState → Nat
  | .idle => 0
  | .running => 1
  | .timing _ => 2
  | .awaiting => 3
  | .suspended _ => 4

def FailureKind.code : FailureKind → Nat
  | .noPort => 0
  | .outOfPort => 1
  | .overlap => 2
  | .badCompass => 3
  | .badTiming => 4
  | .badLink => 5

def TableName.code : TableName → Nat
  | .division => 0
  | .source => 1
  | .stop => 2
  | .chamber => 3
  | .tremulant => 4
  | .port => 5
  | .figure => 6

def ReplyCode.code : ReplyCode → Nat
  | .ok => 0
  | .busy => 1
  | .badState => 2
  | .badArgument => 3
  | .checkFailed => 4
  | .unknownKind => 5
  | .full => 6
  | .inUse => 7
  | .notWritten => 8

def StopReason.code : StopReason → Nat
  | .ended => 1
  | .aborted => 2
  | .chainBroken => 3
  | .failed => 4
  | .runaway => 5
  | .silenced => 6
  | .reset => 7
  | .ownerLost => 8

def PortState.code : PortState → Nat
  | .off => 0
  | .active => 1
  | .tripped => 2
  | .locked => 3

def SupplyState.code : SupplyState → Nat
  | .low => 0
  | .good => 1

def LinkState.code : LinkState → Nat
  | .down => 0
  | .up => 1

def FlowState.code : FlowState → Nat
  | .flowing => 0
  | .held => 1

def Phase.code : Phase → Nat
  | .off => 0
  | .opened _ => 1
  | .closed _ => 2

def TrapMode.code : TrapMode → Nat
  | .single => 0
  | .reiterate _ => 1
  | .hold => 2

/-- Link 1 is 1 and Link 2 is 2. -/
def linkNumber : Link → Nat
  | .one => 1
  | .two => 2

/-- Stroke states; no stroke record is NONE (R64, R174). -/
def strokeCode : Option Stroke → Nat
  | some .idle => 0
  | some (.striking _) => 1
  | some (.resting _) => 2
  | none => 3

/-- An owner set, one bit an owner (R174). -/
def OwnerSet.code (o : OwnerSet) : Nat := o.claim.toNat + 2 * o.cue.toNat + 4 * o.link1.toNat + 8 * o.link2.toNat

/-! ## The status prefix (R168, R176) -/

/-- A present port is not ACTIVE, judged in READY only (R168, R176). -/
def State.portDown (s : State) : Bool :=
  s.ready && allPorts.any fun p => (s.portEntry p).isSome && !s.portActive p

/-- The four bytes before every body the part sends on a link, formed as its transmission begins (R168). -/
def State.statusPrefix (s : State) (l : Link) : List Byte :=
  byteOf (64 * s.engine.code + 8 * s.cue.state.code + 4 * (!s.supplyGood).toNat + 2 * s.portDown.toNat + (s.link l).flow.code)
    :: byteOf (s.link l).notices.length :: optBytes2 s.cue.lastCompleted

/-! ## The STATUS reply (R175) -/

/-- The last check result in four bytes (R174). -/
def CheckResult.bytes : CheckResult → List Byte
  | .none => [0, 0xFF, 0xFF, 0xFF]
  | .passed => [1, 0xFF, 0xFF, 0xFF]
  | .failed f => [2, byteOf f.kind.code, byteOf f.table.code, byteOf f.entry]

/-- A link's values (R175). -/
def State.linkStatus (s : State) (l : Link) : List Byte :=
  [byteOf (s.link l).state.code, byteOf (s.link l).flow.code, byteOfInt (s.reg l).requested, byteOfInt (s.reg l).effective]

/-- A port's values (R175). -/
def Port.status (pt : Port) : List Byte := byteOf pt.state.code :: bytes2 pt.load ++ [byteOf pt.history.length]

/-- A player's values; an IDLE one reports none for figure and step and an empty owner set (R175). -/
def playerStatus : Option Run → List Byte
  | some r => [1, byteOf r.figure, byteOf r.step, byteOf r.owners.code]
  | none => [0, 0xFF, 0xFF, 0]

/-- A chamber's current stage and target, or none for both (R175). -/
def State.chamberStatus (s : State) (c : Nat) : List Byte :=
  match s.ready, s.chamber c with
  | true, some (.enclosed stages _ channel _) =>
    [byteOf (s.chamberState c).current, byteOf (stageTarget (s.channel channel) stages)]
  | true, some .unenclosed | true, none | false, _ => [0xFF, 0xFF]

/-- The cue unit's values (R175). -/
def State.cueStatus (s : State) : List Byte :=
  byteOf s.cue.state.code :: optBytes2 s.cue.current ++ [optByte (s.cue.owner.map linkNumber),
    byteOf ((s.cue.stopReason.map StopReason.code).getD 0)] ++ optBytes2 s.cue.lastCompleted

/-- The contents of a STATUS reply, in the order of R175. -/
def State.statusContents (s : State) : List Byte :=
  byteOf s.engine.code :: s.store.lastCheck.bytes
    ++ s.linkStatus .one ++ s.linkStatus .two
    ++ (s.ports.map Port.status).flatten
    ++ [byteOf s.supply.state.code]
    ++ s.cueStatus
    ++ (s.figures.players.map playerStatus).flatten
    ++ (allChambers.map s.chamberStatus).flatten
    ++ s.generators.map (fun g => byteOf g.phase.code)
    ++ [byteOf s.figures.tempo]

/-- The contents of a COUNTERS READ reply: the 32 counters in index order, four bytes each (R179). -/
def State.counterContents (s : State) : List Byte := (s.counters.map bytes4).flatten

/-! ## The QUERY OUTPUT reply (R64) -/

/-- A record's owner with its two parts (R52, R174). -/
def Owner.bytes : Owner → List Byte
  | .rank i n => [0, byteOf i, byteOf n]
  | .percussion i n => [1, byteOf i, byteOf n]
  | .trap i m => [2, byteOf i, byteOf m.code]
  | .damper i => [3, byteOf i, 0xFF]
  | .stage c k => [4, byteOf c, byteOf k]
  | .valve j => [5, byteOf j, 0xFF]
  | .figureClaim i => [6, byteOf i, 0xFF]

/-- An address, absent for a claim record (R64). -/
def Target.bytes : Target → List Byte
  | .output a => byteOf a.port :: bytes2 a.index
  | .claim _ => [0xFF, 0xFF, 0xFF]

/-- The record's output carries current (R64, R120). -/
def State.energized (s : State) (t : Target) : Bool :=
  match t with
  | .output a =>
    match s.ports[a.port]? with
    | some pt => pt.energized.contains a.index
    | none => false
  | .claim _ => false

/-- The contents of a QUERY OUTPUT reply; a target with no record is UNASSIGNED (R63, R64). -/
def State.queryContents (s : State) (t : Target) : List Byte :=
  match s.record t with
  | some r =>
    r.owner.bytes ++ t.bytes ++ bytes2 r.link1 ++ bytes2 r.link2 ++ [byteOf r.cue] ++ bytes3 r.total
      ++ [flagByte (s.demands r), flagByte (s.energized t), byteOf (strokeCode r.stroke)]
  | none => [7, 0xFF, 0xFF] ++ t.bytes ++ bytes2 0 ++ bytes2 0 ++ [0] ++ bytes3 0 ++ [0, 0, byteOf (strokeCode none)]

/-! ## The CUE READ reply (R141) -/

def RecordState.code : RecordState → Nat
  | .written => 1
  | .done => 2
  | .badReference => 3
  | .aborted => 4

/-- The action and operands of a cue record, byte 2 and bytes 4 to 8, with unused operands 0 (R174, Cue record). -/
def Action.bytes : Action → Byte × List Byte
  | .strike source note => (1, [byteOf source, optByte note, 0, 0, 0])
  | .hold source note on => (2, [byteOf source, optByte note, flagByte on, 0, 0])
  | .figure f start => (3, [byteOf f, 0, flagByte start, 0, 0])
  | .express k position => (4, [byteOf k, byteOf position, 0, 0, 0])
  | .tempo scale => (5, 0 :: 0 :: 0 :: bytes2 scale)
  | .tremulant j on => (6, [byteOf j, 0, flagByte on, 0, 0])
  | .wait d => (7, 0 :: 0 :: 0 :: bytes2 d)
  | .awaitGo => (8, [0, 0, 0, 0, 0])

/-- The nine bytes of a cue record (R174, Cue record). -/
def CueBody.bytes (b : CueBody) : List Byte :=
  optBytes2 b.next ++ [b.action.bytes.1, byteOf (b.suspendAfter.toNat + 2 * b.indicate.toNat)] ++ b.action.bytes.2

/-- The contents of a CUE READ reply; an EMPTY record is its state byte alone (R141, R174). -/
def cueContents : Option CueRecord → List Byte
  | some r => byteOf r.state.code :: r.body.bytes
  | none => [0]

/-! ## Notices (R174, Reply and notice bodies) -/

/-- A notice's kind and fields, from byte 4 of its body. -/
def Notice.bytes : Notice → List Byte
  | .portTripped p n => [0x01, byteOf p, byteOf n]
  | .portLocked p n => [0x02, byteOf p, byteOf n]
  | .portRestored p n => [0x03, byteOf p, byteOf n]
  | .supplyLow => [0x04]
  | .supplyGood => [0x05]
  | .linkUp l => [0x06, byteOf (linkNumber l)]
  | .linkDown l => [0x07, byteOf (linkNumber l)]
  | .hold => [0x08]
  | .resume => [0x09]
  | .cueDone i => 0x0A :: bytes2 i
  | .cueStopped reason i => 0x0B :: byteOf reason.code :: optBytes2 i

end Sys2Proof.Machine
end

