-- ==== Sys2Proof/Machine/Kinds.lean ====
section
/-! DEFINITION. The kind byte of each message (R174, Kind values). -/

namespace Sys2Proof.Machine.Kind

def keyChange : Byte := 0x01
def stopChange : Byte := 0x02
def tremulantTab : Byte := 0x03
def registration : Byte := 0x04
def transpose : Byte := 0x05
def expression : Byte := 0x06
def go : Byte := 0x07
def tempo : Byte := 0x08
def presence : Byte := 0x09
def specBegin : Byte := 0x20
def specDivision : Byte := 0x21
def specSource : Byte := 0x22
def specStop : Byte := 0x23
def specChamber : Byte := 0x24
def specTremulant : Byte := 0x25
def specPort : Byte := 0x26
def specFigure : Byte := 0x27
def specCommit : Byte := 0x28
def silence : Byte := 0x30
def fullReset : Byte := 0x31
def linkRelease : Byte := 0x32
def configure : Byte := 0x33
def status : Byte := 0x38
def countersRead : Byte := 0x39
def countersReadAndClear : Byte := 0x3A
def queryOutput : Byte := 0x3B
def cueWrite : Byte := 0x40
def cueRead : Byte := 0x41
def cueStart : Byte := 0x42
def cueSuspend : Byte := 0x43
def cueResume : Byte := 0x44
def cueAbort : Byte := 0x45
def figureStart : Byte := 0x48
def figureStop : Byte := 0x49
def figureSync : Byte := 0x4A
def portRestore : Byte := 0x50
def portDisable : Byte := 0x51
def reply : Byte := 0x80
def notice : Byte := 0x81

/-- The play messages that are queued (R164, R165); PRESENCE is not. -/
def play : List Byte := [keyChange, stopChange, tremulantTab, registration, transpose, expression, go, tempo]

/-- The commands (R165). -/
def commands : List Byte :=
  [specBegin, specDivision, specSource, specStop, specChamber, specTremulant, specPort, specFigure, specCommit, silence, fullReset,
    linkRelease, configure, status, countersRead, countersReadAndClear, queryOutput, cueWrite, cueRead, cueStart, cueSuspend,
    cueResume, cueAbort, figureStart, figureStop, figureSync, portRestore, portDisable]

/-- A kind that names no message to the part: a value of no message, or REPLY or NOTICE, which only the part sends (R165). -/
def unknown (k : Byte) : Bool := !(play.contains k || commands.contains k || k == presence)

end Sys2Proof.Machine.Kind
end

