-- ==== Sys2Proof/Machine/Links.lean ====
section
/-! DEFINITION. The link interfaces (09): flow, the reply list, the transmitter, the receiver, the taking of messages, and the end of
every event. -/

namespace Sys2Proof.Machine

/-! ## Flow (R166) -/

/-- Flow is judged on a link: HELD at or above the high mark, FLOWING at or below the low mark (R166). -/
def judgeFlow (l : Link) (s : State) : State :=
  match (s.link l).flow with
  | .flowing =>
    if (s.link l).high ≤ (s.link l).input.length then (s.modLink l fun i => { i with flow := .held }).notify l .hold else s
  | .held =>
    if (s.link l).input.length ≤ (s.link l).low then (s.modLink l fun i => { i with flow := .flowing }).notify l .resume else s

/-! ## The reply list (R167) -/

/-- A place of a link's reply list is taken (R165, R167). -/
def addPlace (l : Link) (p : Place) (s : State) : State := s.modLink l fun i => { i with replies := i.replies ++ [p] }

/-- A reply is placed in a link's reply list (R165, R167). -/
def addReply (l : Link) (tag kind : Byte) (code : ReplyCode) (contents : List Byte) (s : State) : State :=
  addPlace l (.holding { tag := tag, kind := kind, code := code, contents := contents }) s

/-- The reservation of a SPEC COMMIT, if the place is one, is filled with its reply (R19, R20, R167). -/
def Place.fill (code : ReplyCode) (contents : List Byte) : Place → Place
  | .reserved tag => .holding { tag := tag, kind := Kind.specCommit, code := code, contents := contents }
  | .holding r => .holding r

/-- A standing reservation is filled, whichever link holds it (R19, R20, R21). -/
def fillReservation (code : ReplyCode) (contents : List Byte) (s : State) : State :=
  (s.modLink .one fun i => { i with replies := i.replies.map (Place.fill code contents) }).modLink .two
    fun i => { i with replies := i.replies.map (Place.fill code contents) }

/-- The place holds a reply. -/
def Place.reply? : Place → Option Reply
  | .holding r => some r
  | .reserved _ => none

/-! ## The transmitter (R168) -/

/-- A reply's body after the status prefix (R174, Reply and notice bodies). -/
def Reply.bytes (r : Reply) : List Byte := r.tag :: r.kind :: byteOf r.code.code :: r.contents

/-- An idle transmitter looks for the next frame: the oldest place holding a reply, passing over reservations, or else the oldest
notice; it begins sending with the status prefix as the part then stands (R168, R176; log 9). -/
def beginTransmission (l : Link) (s : State) : State :=
  match (s.link l).transmitter with
  | .sending _ _ _ => s
  | .idle =>
    match (s.link l).replies.findIdx? (fun p => p.reply?.isSome) with
    | some place =>
      match ((s.link l).replies[place]?).bind Place.reply? with
      | some r => s.modLink l fun i =>
          { i with transmitter := .sending (.reply place) (frameOf Kind.reply (s.statusPrefix l ++ r.bytes)) s.now }
      | none => s
    | none =>
      match (s.link l).notices with
      | n :: rest =>
        let t := s.modLink l fun i => { i with notices := rest }
        t.modLink l fun i =>
          { i with transmitter := .sending (.notice n) (frameOf Kind.notice (t.statusPrefix l ++ n.bytes)) s.now }
      | [] => s

/-- The time a number of bytes takes on the line, in microseconds: ten bit times a byte (R168). -/
def lineTime (rate : LinkRate) (bytes : Nat) : Nat :=
  match rate with
  | .kbit250 => 40 * bytes
  | .mbit1 => 10 * bytes

/-- The whole milliseconds that must have passed for the frame being sent on a link to have ended; none while idle (R168, log 10). -/
def State.sendingUntil (s : State) (l : Link) : Option Nat :=
  match (s.link l).transmitter with
  | .sending _ frame began => some (began + lineTime s.rate frame.length / 1000)
  | .idle => none

/-- The frame being sent is the reply of the FULL RESET that the link has taken (R23, R167). -/
def State.sendingReset (s : State) (l : Link) : Bool :=
  (s.link l).resetPending &&
    match (s.link l).transmitter with
    | .sending (.reply place) _ _ =>
      match ((s.link l).replies[place]?).bind Place.reply? with
      | some r => decide (r.kind = Kind.fullReset) && decide (r.code = .ok)
      | none => false
    | .sending (.notice _) _ _ => false
    | .idle => false

/-- The frame being sent ends: a reply's place is freed (R167, R168). -/
def endTransmission (l : Link) (s : State) : State :=
  match (s.link l).transmitter with
  | .sending (.reply place) _ _ => s.modLink l fun i => { i with transmitter := .idle, replies := i.replies.eraseIdx place }
  | .sending (.notice _) _ _ => s.modLink l fun i => { i with transmitter := .idle }
  | .idle => s

/-! ## The end of every event -/

/-- The end of every event: the ports settle and the strike queue is served where R72 asks for it (R120), then an idle transmitter
with something to send begins (R168). -/
def finish (serve : Bool) (s : State) : State := beginTransmission .two (beginTransmission .one (settleAndServe serve s))

/-! ## The receiver (R161 to R164) -/

/-- A good frame (R164). -/
def goodFrame (l : Link) (m : Message) (s : State) : State :=
  let counted := s.bump (.framesGood l)
  let up := match (s.link l).state with
    | .down => (counted.modLink l fun i => { i with state := .up }).notifyAll (.linkUp l)
    | .up => counted
  let timed := up.modLink l fun i => { i with silenceTimer := some (s.now + i.silenceTime) }
  if m.kind = Kind.presence then timed
  else if (timed.link l).input.length < Config.inputQueueSize then
    judgeFlow l (timed.modLink l fun i => { i with input := i.input ++ [m] })
  else timed.bump (.framesDropped l)

/-- A completed frame is checked (R163). -/
def completeFrame (l : Link) (length : Nat) (got : List Byte) (s : State) : State :=
  match got.take length with
  | kind :: body =>
    if checkBytes (byteOf length :: kind :: body) = got.drop length then goodFrame l { kind := kind, body := body } s
    else s.bump (.framesBad l)
  | [] => s.bump (.framesBad l)

/-- Sets a link's receiver. -/
def State.setReceiver (s : State) (l : Link) (r : Receiver) : State := s.modLink l fun i => { i with receiver := r }

/-- The receiver takes an arriving byte (R161, R162). -/
def receiveByte (l : Link) (b : Byte) (s : State) : State :=
  let expiry := s.now + Config.interByteTime
  match (s.link l).receiver with
  | .hunting => if b = Config.leadByte then s.setReceiver l (.inFrame none [] expiry) else s
  | .inFrame none _ _ =>
    if b.toNat = 0 ∨ Config.maxLength < b.toNat then (s.setReceiver l .hunting).bump (.framesBad l)
    else s.setReceiver l (.inFrame (some b.toNat) [] expiry)
  | .inFrame (some length) got _ =>
    if got.length + 1 < length + 2 then s.setReceiver l (.inFrame (some length) (got ++ [b]) expiry)
    else completeFrame l length (got ++ [b]) (s.setReceiver l .hunting)

/-- The expiry time of a link's inter-byte timer (R162). -/
def LinkIf.interByteTimer (i : LinkIf) : Option Nat :=
  match i.receiver with
  | .inFrame _ _ expiry => some expiry
  | .hunting => none

/-! ## Taking a message (R165) -/

/-- The message at the head of a link's queue, when it may be taken: reset pending is no, and for a command or an unknown kind the
reply list has an empty place (R165). -/
def State.head (s : State) (l : Link) : Option Message :=
  if (s.link l).resetPending then none
  else
    match (s.link l).input with
    | m :: _ =>
      if Kind.play.contains m.kind || decide ((s.link l).replies.length < Config.replyPlaces) then some m else none
    | [] => none

/-- A message taken leaves the queue, and flow is judged (R165, R166). -/
def takeHead (l : Link) (s : State) : State := judgeFlow l (s.modLink l fun i => { i with input := i.input.tail })

/-- An event: the meaning of its effect, then the end of the event. -/
def event (serve : Bool) (s : State) : Host.Outcome State Fault Refusal := .next (finish serve s)

/-- An event that finds nothing to act on: no such timer is due, or no such message is at the head (log 3). -/
def nothing (s : State) : Host.Outcome State Fault Refusal := .next s

/-- The taking of a play message: discarded and counted outside READY (R4), else given to the block that owns it (R165). -/
def takePlay (l : Link) (kind : Byte) (owner : List Byte → State → State) (s : State) : Host.Outcome State Fault Refusal :=
  match s.head l with
  | some m =>
    if m.kind = kind then
      if s.ready then event false (owner m.body (takeHead l s))
      else event false ((takeHead l s).bump (.playDiscarded l))
    else nothing s
  | none => nothing s

/-- How a command meets the engine state, by the rows of R5's table. -/
inductive Gate where
  /-- SPEC BEGIN -/
  | begin
  /-- the spec entry writes and SPEC COMMIT -/
  | loading
  /-- SILENCE, QUERY OUTPUT, the figure and port commands -/
  | ready
  /-- FULL RESET, STATUS, COUNTERS READ, COUNTERS READ AND CLEAR -/
  | always
  /-- CONFIGURE, LINK RELEASE and the cue commands -/
  | idle
  deriving DecidableEq, Repr

/-- The refusal of R5's table; none where the command is taken. -/
def Gate.refusal : Gate → EngineState → Option ReplyCode
  | .always, _ => none
  | .begin, .checking | .loading, .checking | .ready, .checking | .idle, .checking => some .busy
  | .begin, .unconfigured | .begin, .loading | .begin, .ready => none
  | .loading, .loading => none
  | .loading, .unconfigured | .loading, .ready => some .badState
  | .ready, .ready => none
  | .ready, .unconfigured | .ready, .loading => some .badState
  | .idle, .unconfigured | .idle, .loading | .idle, .ready => none

/-- What an owner answers: the state it leaves, the reply code, the reply's contents, and whether the strike queue is to be served. -/
structure Answer where
  state : State
  code : ReplyCode
  contents : List Byte := []
  serve : Bool := false
  deriving DecidableEq, Repr

/-- A refusal that changes no state. -/
def Answer.refuse (code : ReplyCode) (s : State) : Answer := { state := s, code := code }

/-- The taking of a command: the head leaves the queue; R5's test answers at once, or the command is acted on with its tag and the
fields after it. The reply to an empty body carries tag 0, and a body without its tag is too short for its fields (R5, R165, R174;
log 5). -/
def takeCommandThen (l : Link) (kind : Byte) (gate : Gate)
    (act : Byte → List Byte → State → Host.Outcome State Fault Refusal) (s : State) : Host.Outcome State Fault Refusal :=
  match s.head l with
  | some m =>
    if m.kind = kind then
      let t := takeHead l s
      match gate.refusal s.engine, m.body with
      | some code, body => event false (addReply l (body.headD 0) kind code [] t)
      | none, [] => event false (addReply l 0 kind .badArgument [] t)
      | none, tag :: fields => act tag fields t
    else nothing s
  | none => nothing s

/-- The taking of a command whose owner answers in the event (R165). -/
def takeCommand (l : Link) (kind : Byte) (gate : Gate) (owner : List Byte → State → Answer) (s : State) :
    Host.Outcome State Fault Refusal :=
  takeCommandThen l kind gate
    (fun tag fields t =>
      let a := owner fields t
      event a.serve (addReply l tag kind a.code a.contents a.state)) s

end Sys2Proof.Machine
end

