-- ==== Sys2Proof/Machine/Check.lean ====
section
/-! DEFINITION. The commit check (R18): the six searches in order, and the creation of the demand table at success (R11, R19, R51). -/

namespace Sys2Proof.Machine

/-- The present entries of a table with their indices, ascending. -/
def present {α : Type} (entries : List (Option α)) : List (Nat × α) :=
  (entries.zipIdx).filterMap fun e => e.1.map fun x => (e.2, x)

/-- An occupant: the table and index of its entry, the address it occupies, and the record it gets (R11, R18, R51). -/
structure Occupant where
  table : TableName
  entry : Nat
  out : Addr
  owner : Owner
  stroke : Option Stroke
  deriving DecidableEq, Repr

/-- How many outputs a compass occupies: H - L + 1, and its base alone when L exceeds H (R11). -/
def Compass.span (c : Compass) : Nat := if c.low ≤ c.high then c.high - c.low + 1 else 1

/-- The note outputs of a rank or percussion, from base upward (R11). -/
def noteOccupants (i : Nat) (c : Compass) (o : Outlet) (owner : Nat → Owner) (stroke : Option Stroke) : List Occupant :=
  (List.range c.span).map fun n =>
    { table := .source, entry := i, out := { port := o.port, index := o.base + n }, owner := owner (c.low + n), stroke := stroke }

/-- The occupants of a source: its note or trap outputs, then its damper (R11, R18). DESIGN CHOICE (log 32): a percussion with L greater
than H occupies its damper's output too, since R11's base output alone is read as standing for its notes. Unsafe. -/
def sourceOccupants (i : Nat) : Source → List Occupant
  | .rank c o => noteOccupants i c o (.rank i) none
  | .percussion c o _ _ d =>
    noteOccupants i c o (.percussion i) (some .idle) ++
      match d with
      | some dm => [{ table := .source, entry := i, out := dm.out, owner := .damper i, stroke := none }]
      | none => []
  | .trap o _ mode =>
    [{ table := .source, entry := i, out := { port := o.port, index := o.base }, owner := .trap i mode, stroke := some .idle }]
  | .figureTrap _ => []

/-- The occupants of a chamber: stages 1 to S (R13, R18). -/
def chamberOccupants (i : Nat) : Chamber → List Occupant
  | .unenclosed => []
  | .enclosed stages o _ _ =>
    (List.range stages).map fun k =>
      { table := .chamber, entry := i, out := { port := o.port, index := o.base + k }, owner := .stage i (k + 1), stroke := none }

/-- The occupant of a tremulant (R14). -/
def tremulantOccupant (i : Nat) (t : Tremulant) : Occupant :=
  { table := .tremulant, entry := i, out := { port := t.o.port, index := t.o.base }, owner := .valve i, stroke := none }

/-- All occupants in the order of R18. -/
def occupants (t : Tables) : List Occupant :=
  ((present t.sources).map fun e => sourceOccupants e.1 e.2).flatten
    ++ ((present t.chambers).map fun e => chamberOccupants e.1 e.2).flatten
    ++ (present t.tremulants).map fun e => tremulantOccupant e.1 e.2

/-- The port entry is absent. -/
def portAbsent (t : Tables) (p : Nat) : Bool := (t.ports[p]?.join).isNone

/-- The output ports a source names (R18, NO_PORT). -/
def Source.ports : Source → List Nat
  | .rank _ o => [o.port]
  | .percussion _ o _ _ d => o.port :: (d.map (·.out.port)).toList
  | .trap o _ _ => [o.port]
  | .figureTrap _ => []

/-- The first entry of a table that a fault test names. -/
def firstFault {α : Type} (kind : FailureKind) (table : TableName) (bad : α → Bool) (entries : List (Option α)) : Option Failure :=
  ((present entries).find? fun e => bad e.2).map fun e => { kind := kind, table := table, entry := e.1 }

/-- NO_PORT (R18, order 1). -/
def searchNoPort (t : Tables) : Option Failure :=
  (firstFault .noPort .source (fun s : Source => s.ports.any (portAbsent t)) t.sources).or
    ((firstFault .noPort .chamber (fun c : Chamber => match c with
      | .enclosed _ o _ _ => portAbsent t o.port
      | .unenclosed => false) t.chambers).or
    (firstFault .noPort .tremulant (fun x : Tremulant => portAbsent t x.o.port) t.tremulants))

/-- A rank or percussion with L ≤ H whose last output passes 511 (R18, order 2). -/
def Source.outOfPort : Source → Bool
  | .rank c o => decide (c.low ≤ c.high) && decide (511 < o.base + c.high - c.low)
  | .percussion c o _ _ _ => decide (c.low ≤ c.high) && decide (511 < o.base + c.high - c.low)
  | .trap _ _ _ => false
  | .figureTrap _ => false

/-- OUT_OF_PORT (R18, order 2). -/
def searchOutOfPort (t : Tables) : Option Failure :=
  (firstFault .outOfPort .source Source.outOfPort t.sources).or
    (firstFault .outOfPort .chamber (fun c : Chamber => match c with
      | .enclosed stages o _ _ => decide (511 < o.base + stages - 1)
      | .unenclosed => false) t.chambers)

/-- The first occupant whose address an earlier occupant holds. -/
def firstOverlap (seen : List Addr) : List Occupant → Option Occupant
  | [] => none
  | o :: rest => if seen.contains o.out then some o else firstOverlap (o.out :: seen) rest

/-- OVERLAP (R18, order 3). -/
def searchOverlap (t : Tables) : Option Failure :=
  (firstOverlap [] (occupants t)).map fun o => { kind := .overlap, table := o.table, entry := o.entry }

/-- A rank or percussion whose H is less than L (R18, order 4). -/
def Source.badCompass : Source → Bool
  | .rank c _ => decide (c.high < c.low)
  | .percussion c _ _ _ _ => decide (c.high < c.low)
  | .trap _ _ _ => false
  | .figureTrap _ => false

/-- BAD_COMPASS (R18, order 4). -/
def searchBadCompass (t : Tables) : Option Failure := firstFault .badCompass .source Source.badCompass t.sources

/-- A REITERATE source whose interval is less than its stroke time plus its rest time (R18, order 5). -/
def Source.badTiming : Source → Bool
  | .percussion _ _ k (.reiterate interval) _ => decide (interval < k.stroke + k.rest)
  | .trap _ k (.reiterate interval) => decide (interval < k.stroke + k.rest)
  | .percussion _ _ _ .single _ | .trap _ _ .single | .trap _ _ .hold | .rank _ _ | .figureTrap _ => false

/-- BAD_TIMING (R18, order 5). -/
def searchBadTiming (t : Tables) : Option Failure :=
  (firstFault .badTiming .source Source.badTiming t.sources).or
    (firstFault .badTiming .chamber (fun c : Chamber => match c with
      | .enclosed _ _ _ interval => interval.isNone
      | .unenclosed => false) t.chambers)

/-- The source is no voice of a figure: absent, not a TRAP, or a FIGURE-mode trap (R18, order 6). -/
def noVoice (t : Tables) (i : Nat) : Bool :=
  match t.sources[i]?.join with
  | some (.trap _ _ _) => false
  | some (.rank _ _) | some (.percussion _ _ _ _ _) | some (.figureTrap _) | none => true

/-- BAD_LINK (R18, order 6). -/
def searchBadLink (t : Tables) : Option Failure :=
  (firstFault .badLink .stop (fun x : Stop => (t.sources[x.source]?.join).isNone || (t.divisions[x.division]?.join).isNone) t.stops).or
    ((firstFault .badLink .source (fun s : Source => match s with
      | .figureTrap f => (t.figures[f]?.join).isNone
      | .rank _ _ | .percussion _ _ _ _ _ | .trap _ _ _ => false) t.sources).or
    (firstFault .badLink .figure (fun f : Figure => f.voices.any (noVoice t)) t.figures))

/-- The commit check: the first failure in the order of R18, or none. -/
def checkTables (t : Tables) : Option Failure :=
  (searchNoPort t).or ((searchOutOfPort t).or ((searchOverlap t).or
    ((searchBadCompass t).or ((searchBadTiming t).or (searchBadLink t)))))

/-! ## The demand table (R51, R52) -/

/-- Addresses by port and then index (R56). -/
def addrBefore (a b : Addr) : Bool := decide (a.port < b.port) || (decide (a.port = b.port) && decide (a.index < b.index))

/-- Puts an occupant in its place by address. -/
def insertOccupant (o : Occupant) : List Occupant → List Occupant
  | [] => [o]
  | p :: rest => if addrBefore o.out p.out then o :: p :: rest else p :: insertOccupant o rest

/-- The record of an occupant, every count 0 (R51, R65). -/
def Occupant.record (o : Occupant) : Record :=
  { target := .output o.out, owner := o.owner, link1 := 0, link2 := 0, cue := 0, stroke := o.stroke }

/-- The claim record of a FIGURE-mode trap (R51). -/
def claimRecord (i : Nat) : Record :=
  { target := .claim i, owner := .figureClaim i, link1 := 0, link2 := 0, cue := 0, stroke := none }

/-- The demand table of a specification: the occupied outputs by port and index, then the claim records by source, which is the order
of R56. -/
def demandTable (t : Tables) : List Record :=
  ((occupants t).foldr insertOccupant []).map Occupant.record
    ++ (present t.sources).filterMap fun e => match e.2 with
      | .figureTrap _ => some (claimRecord e.1)
      | .rank _ _ | .percussion _ _ _ _ _ | .trap _ _ _ => none

/-- The damper states of a specification: every sounding-note count 0 and no holdover running (R83). -/
def damperStates (t : Tables) : List DamperState :=
  (present t.sources).filterMap fun e => e.2.damper.map fun _ => { source := e.1, sounding := 0, holdover := none }

/-- The part enters READY (R19, R117): demand table, ports, PASSED, READY; the reservation filled with OK; each enclosed chamber whose
target is above 0 steps, ascending, and detect timers start where R123 requires. -/
def enterReady (s : State) : State :=
  let t := fillReservation .ok []
    { s with
      store := { s.store with engine := .ready, lastCheck := .passed, checkBegan := none }
      table := demandTable s.store.tables
      sched := { s.sched with queue := [], reiterations := [], dampers := damperStates s.store.tables } }
  allChambers.foldl (fun u c => if (u.chamberState c).timer = none then stepChamber c u else u)
    (allPorts.foldl (fun u p => startDetect p u) (portsAtCommit t))

/-- The check fails (R20): LOADING, the failure as last check result, the reservation filled with CHECK_FAILED and the three parts. -/
def failCheck (f : Failure) (s : State) : State :=
  fillReservation .checkFailed [byteOf f.kind.code, byteOf f.table.code, byteOf f.entry]
    { s with store := { s.store with engine := .loading, lastCheck := .failed f, checkBegan := none } }

end Sys2Proof.Machine
end

