-- ==== Sys2Proof/Machine/Reset.lean ====
section
/-! DEFINITION. What reaches every block at once: SILENCE (R22), SPEC BEGIN in READY (R7), the loss of a link (R171) and FULL RESET
taking effect (R24). -/

namespace Sys2Proof.Machine

/-- The effects of SILENCE, with the reason the cue unit stops for (R22, R7): counts to 0 with their releases, both held-key maps
emptied with the transposition taken, the scheduler silenced, players stopped, the cue unit IDLE if it is not. -/
def silenceEffects (reason : StopReason) (s : State) : State :=
  let counted := rewriteCounts Record.silenced s
  let quiet : Registration → Registration := fun r =>
    { r with keys := r.keys.map fun _ => Level.released, effective := r.requested }
  let keys := (counted.modReg .one quiet).modReg .two quiet
  let t := stopPlayers (silenceStrikes keys)
  if t.cue.busy then cueGoesIdle reason t else t

/-- SPEC BEGIN in READY stops all playing (R7): the effects of SILENCE with reason RESET, registrations emptied, stages released, ports
OFF, generators OFF, and the demand table discarded with its stroke records, dampers and timers (R38, R51, R87, R109, R117, R136). -/
def stopAllPlaying (s : State) : State :=
  let t := portsOff (stopGenerators (releaseStages (silenceEffects .reset s)))
  { t with
    regs := { one := Registration.empty, two := Registration.empty }
    table := []
    sched := { t.sched with queue := [], reiterations := [], dampers := [] } }

/-- A link's interface after a FULL RESET that its partner sent: at power-on values, but UP with its silence timer at the default time
when the reset did not take effect at its loss (R24, R160). -/
def LinkIf.afterReset (now : Nat) (up : Bool) : LinkIf :=
  if up then { LinkIf.atPowerOn with state := .up, silenceTimer := some (now + Config.defaultSilenceTime) } else LinkIf.atPowerOn

/-- FULL RESET takes effect (R24). Kept: cue memory, the counters, the strap, the supply monitor, the over indications, and the model's
clock and queue. -/
def resetPart (l : Link) (up : Bool) (s : State) : State :=
  { s with
    store := { engine := .unconfigured, lastCheck := .none, checkBegan := none, tables := Tables.blank }
    links := ({ one := LinkIf.atPowerOn, two := LinkIf.atPowerOn } : Pair LinkIf).set l (LinkIf.afterReset s.now up)
    regs := { one := Registration.empty, two := Registration.empty }
    table := []
    sched := { queue := [], reiterations := [], dampers := [], deferral := Config.defaultDeferral }
    figures := { players := s.figures.players.map fun _ => none, tempo := 100 }
    generators := s.generators.map fun _ => { phase := .off, cueFlag := false }
    shutters := { channels := s.shutters.channels.map fun _ => 0, chambers := s.shutters.chambers.map fun _ => { current := 0, timer := none } }
    ports := s.ports.map fun pt => Port.atPowerOn pt.overload
    cue := { CueUnit.atPowerOn with stopReason := some .reset } }

/-- What the loss of a link tells: the cue unit suspends with its CUE STOPPED where the link owns it (R156), and LINK DOWN is queued for
the other link, before that notice or after it as the free value has it (R171; log 12). -/
def tellLoss (l : Link) (s : State) : State :=
  if s.cue.owner = some l ∧ s.cue.busy = true ∧ Config.linkDownFirst = true then
    cueOwnerLost l (s.notify (otherLink l) (.linkDown l))
  else (cueOwnerLost l s).notify (otherLink l) (.linkDown l)

/-- A link is lost (R171): DOWN, its registration torn down (R40), its figure owner removed (R100), its queues
emptied and its frame abandoned, the cue unit suspended if it owns it (R156) and LINK DOWN queued for the other link, the loss
counted; then a pending FULL RESET takes effect (R23). -/
def loseLink (l : Link) (s : State) : State :=
  let pendingReset := (s.link l).resetPending
  let down := s.modLink l fun i => { i with state := .down, silenceTimer := none }
  let released := releaseKeys l down
  let untabbed := (s.reg l).tabs.foldl (fun t j => setTab l j false t) (released.modReg l fun r => { r with stops := [] })
  let torn := untabbed.modReg l fun r => { r with requested := 0, effective := 0 }
  let emptied := (removeOwnerEverywhere (.link l) torn).modLink l fun i =>
    { i with input := [], replies := [], notices := [], transmitter := .idle, flow := .flowing, resetPending := false }
  let told := (tellLoss l emptied).bump (.linkLosses l)
  if pendingReset then resetPart l false told else told

end Sys2Proof.Machine
end

