-- ==== Sys2Proof/Machine/SpecFamily.lean ====
section
/-! DEFINITION. The meanings of the specification commands SPEC_BEGIN, the seven SPEC writes, SPEC_COMMIT, CHECK_COMPLETION, and of
SILENCE, LINK_RELEASE and CONFIGURE. -/

namespace Sys2Proof.Machine

/-- The engine becomes LOADING; with BLANK every table entry becomes absent (R6). -/
def beginLoading (blank : Bool) (s : State) : State :=
  { s with store := { s.store with engine := .loading, tables := if blank then Tables.blank else s.store.tables } }

/-- The owner's answer to SPEC BEGIN: the mode is tested first; in READY all playing stops before the engine becomes LOADING (R6, R7). -/
def answerSpecBegin (fields : List Byte) (s : State) : Answer :=
  match readMode fields with
  | some blank => { state := beginLoading blank (if s.ready then stopAllPlaying s else s), code := .ok }
  | none => .refuse .badArgument s

/-- SPEC_BEGIN (R6, R7). -/
def execSpecBegin (l : Link) : State → Host.Outcome State Fault Refusal := takeCommand l Kind.specBegin .begin answerSpecBegin

/-- The owner's answer to a spec entry write in LOADING: BAD_ARGUMENT with the stored entry unchanged, or the entry replaced whole or
made absent (R8). -/
def answerWrite {α : Type} (size : Nat) (entry : List Byte → Option α) (put : Nat → Option α → Tables → Tables)
    (fields : List Byte) (s : State) : Answer :=
  match readEntry size entry fields with
  | some w => { state := s.modTables (put w.index w.entry), code := .ok }
  | none => .refuse .badArgument s

/-- SPEC_DIVISION (R9). -/
def execSpecDivision (l : Link) : State → Host.Outcome State Fault Refusal :=
  takeCommand l Kind.specDivision .loading
    (answerWrite 6 readDivision fun i e t => { t with divisions := t.divisions.set i e })

/-- SPEC_SOURCE (R10). -/
def execSpecSource (l : Link) : State → Host.Outcome State Fault Refusal :=
  takeCommand l Kind.specSource .loading
    (answerWrite 64 readSource fun i e t => { t with sources := t.sources.set i e })

/-- SPEC_STOP (R12). -/
def execSpecStop (l : Link) : State → Host.Outcome State Fault Refusal :=
  takeCommand l Kind.specStop .loading
    (answerWrite 192 readStop fun i e t => { t with stops := t.stops.set i e })

/-- SPEC_CHAMBER (R13). -/
def execSpecChamber (l : Link) : State → Host.Outcome State Fault Refusal :=
  takeCommand l Kind.specChamber .loading
    (answerWrite 4 readChamber fun i e t => { t with chambers := t.chambers.set i e })

/-- SPEC_TREMULANT (R14). -/
def execSpecTremulant (l : Link) : State → Host.Outcome State Fault Refusal :=
  takeCommand l Kind.specTremulant .loading
    (answerWrite 8 readTremulant fun i e t => { t with tremulants := t.tremulants.set i e })

/-- SPEC_PORT (R15). -/
def execSpecPort (l : Link) : State → Host.Outcome State Fault Refusal :=
  takeCommand l Kind.specPort .loading
    (answerWrite 8 readPort fun i e t => { t with ports := t.ports.set i e })

/-- SPEC_FIGURE (R16). -/
def execSpecFigure (l : Link) : State → Host.Outcome State Fault Refusal :=
  takeCommand l Kind.specFigure .loading
    (answerWrite 16 readFigure fun i e t => { t with figures := t.figures.set i e })

/-- SPEC_COMMIT: the engine becomes CHECKING, the check begins, and a reply place is reserved; refused for its body length, its place
holds BAD_ARGUMENT and no check begins (R17, R165). -/
def execSpecCommit (l : Link) : State → Host.Outcome State Fault Refusal :=
  takeCommandThen l Kind.specCommit .loading fun tag fields s =>
    match readNoField fields with
    | some () =>
      event false (addPlace l (.reserved tag) { s with store := { s.store with engine := .checking, checkBegan := some s.now } })
    | none => event false (addReply l tag Kind.specCommit .badArgument [] s)

/-- CHECK_COMPLETION: from 1 ms after the check began, with the first failure found or with success (R18, R19, R20; log 11). -/
def execCheckCompletion (s : State) : Host.Outcome State Fault Refusal :=
  if s.engine = .checking ∧ s.due (s.store.checkBegan.map (· + Config.checkShortest)) = true then
    match checkTables s.store.tables with
    | none => event false (enterReady s)
    | some f => event false (failCheck f s)
  else nothing s

/-- The owner's answer to a command with no field beyond its tag. -/
def answerPlain (act : State → Answer) (fields : List Byte) (s : State) : Answer :=
  match readNoField fields with
  | some () => act s
  | none => .refuse .badArgument s

/-- SILENCE (R22). -/
def execSilence (l : Link) : State → Host.Outcome State Fault Refusal :=
  takeCommand l Kind.silence .ready (answerPlain fun s => { state := silenceEffects .silenced s, code := .ok })

/-- LINK_RELEASE: in READY every held key is released and the requested transposition taken; elsewhere nothing changes (R36). -/
def execLinkRelease (l : Link) : State → Host.Outcome State Fault Refusal :=
  takeCommand l Kind.linkRelease .idle
    (answerPlain fun s => { state := if s.ready then takeTransposition l (releaseKeys l s) else s, code := .ok })

/-- A queued strike's age has reached a deferral limit (R73, R74). -/
def QueuedStrike.expired (limit now : Nat) (e : QueuedStrike) : Bool := decide (e.joined + limit ≤ now)

/-- The deferral limit is set; entries already at or above it are discarded as late (R74). -/
def setDeferral (d : Nat) (s : State) : State :=
  let late := s.sched.queue.filter (QueuedStrike.expired d s.now)
  ({ s with sched := { s.sched with
      queue := s.sched.queue.filter fun e => !e.expired d s.now
      deferral := d } }).bumpBy late.length .strikesLate

/-- The effects of an accepted CONFIGURE (R172). -/
def configureLink (l : Link) (c : ConfigureBody) (s : State) : State :=
  setDeferral c.deferral
    ((judgeFlow l (s.modLink l fun i => { i with low := c.low, high := c.high })).modLink l fun i =>
      { i with silenceTime := c.silenceTime, silenceTimer := some (s.now + c.silenceTime) })

/-- CONFIGURE (R172). -/
def execConfigure (l : Link) : State → Host.Outcome State Fault Refusal :=
  takeCommand l Kind.configure .idle fun fields s =>
    match readConfigure fields with
    | some c => { state := configureLink l c s, code := .ok }
    | none => .refuse .badArgument s

end Sys2Proof.Machine
end

