-- ==== Sys2Proof/Machine/CueFamily.lean ====
section
/-! DEFINITION. The meanings of the cue commands and of the cue unit's own events: CUE_WRITE, CUE_READ, CUE_START, CUE_SUSPEND,
CUE_RESUME, CUE_ABORT, TAKE_RECORD, WAIT_TIMER_EXPIRY. -/

namespace Sys2Proof.Machine

/-- The owner's answer to CUE WRITE (R140). -/
def answerCueWrite (fields : List Byte) (s : State) : Answer :=
  match readCueWrite fields with
  | some w =>
    if s.cue.busy = true ∧ s.cue.current = some w.index then .refuse .inUse s
    else { state := { s with memory := s.memory.set w.index (some { state := .written, body := w.body }) }, code := .ok }
  | none => .refuse .badArgument s

/-- CUE_WRITE (R140). -/
def execCueWrite (l : Link) : State → Host.Outcome State Fault Refusal := takeCommand l Kind.cueWrite .idle answerCueWrite

/-- CUE_READ (R141). -/
def execCueRead (l : Link) : State → Host.Outcome State Fault Refusal :=
  takeCommand l Kind.cueRead .idle fun fields s =>
    match readRecordIndex fields with
    | some i => { state := s, code := .ok, contents := cueContents (s.cueRecord i) }
    | none => .refuse .badArgument s

/-- The owner's answer to CUE START, in the order of R143's tests. -/
def answerCueStart (l : Link) (fields : List Byte) (s : State) : Answer :=
  match readRecordIndex fields with
  | none => .refuse .badArgument s
  | some i =>
    if !s.ready then .refuse .badState s
    else if s.cue.busy then .refuse .busy s
    else
      match s.cueRecord i with
      | none => .refuse .notWritten s
      | some _ =>
        { state := s.modCue fun _ =>
            { state := .running, current := some i, owner := some l, pendingGo := false, runCount := 0, lastCompleted := none,
              stopReason := none }
          code := .ok }

/-- CUE_START (R143). -/
def execCueStart (l : Link) : State → Host.Outcome State Fault Refusal := takeCommand l Kind.cueStart .idle (answerCueStart l)

/-- CUE_SUSPEND (R152). -/
def execCueSuspend (l : Link) : State → Host.Outcome State Fault Refusal :=
  takeCommand l Kind.cueSuspend .idle (answerPlain fun s =>
    match s.cue.remembered s.now with
    | some sub => { state := s.modCue fun c => { c with state := .suspended sub }, code := .ok }
    | none => .refuse .badState s)

/-- The unit returns to its remembered sub-state with the sending link as owner (R153). -/
def resumeCue (l : Link) (sub : SubState) (s : State) : State :=
  let t := s.modCue fun c => { c with owner := some l, runCount := 0, stopReason := none }
  match sub with
  | .running => t.modCue fun c => { c with state := .running }
  | .timing r =>
    if r = 0 then completeCurrent t else t.modCue fun c => { c with state := .timing (s.now + r) }
  | .awaiting =>
    if s.cue.pendingGo then completeCurrent (t.modCue fun c => { c with pendingGo := false })
    else t.modCue fun c => { c with state := .awaiting }

/-- CUE_RESUME (R153). -/
def execCueResume (l : Link) : State → Host.Outcome State Fault Refusal :=
  takeCommand l Kind.cueResume .idle (answerPlain fun s =>
    match s.cue.state with
    | .suspended sub => { state := resumeCue l sub s, code := .ok }
    | .idle | .running | .timing _ | .awaiting => .refuse .badState s)

/-- The current record was waiting: TIMING or AWAITING, or SUSPENDED with such a sub-state (R154). -/
def UnitState.waiting : UnitState → Bool
  | .timing _ | .awaiting | .suspended (.timing _) | .suspended .awaiting => true
  | .idle | .running | .suspended .running => false

/-- The effects of an accepted CUE ABORT (R154). -/
def abortCue (s : State) : State :=
  match s.cue.state.waiting, s.cue.current with
  | true, some i => cueGoesIdle .aborted (markRecord i .aborted s)
  | true, none | false, _ => cueGoesIdle .aborted s

/-- CUE_ABORT (R154). -/
def execCueAbort (l : Link) : State → Host.Outcome State Fault Refusal :=
  takeCommand l Kind.cueAbort .idle (answerPlain fun s =>
    if s.cue.busy then { state := abortCue s, code := .ok } else .refuse .badState s)

/-- TAKE_RECORD (R144). -/
def execTakeRecord (s : State) : Host.Outcome State Fault Refusal :=
  if s.cue.state = .running then event false (takeCurrent s) else nothing s

/-- The expiry of the wait timer, which runs in TIMING (R142). -/
def CueUnit.waitTimer (c : CueUnit) : Option Nat :=
  match c.state with
  | .timing expiry => some expiry
  | .idle | .running | .awaiting | .suspended _ => none

/-- WAIT_TIMER_EXPIRY: the waiting record completes (R147). -/
def execWaitTimerExpiry (s : State) : Host.Outcome State Fault Refusal :=
  if s.due s.cue.waitTimer then event false (completeCurrent s) else nothing s

end Sys2Proof.Machine
end

