-- ==== Sys2Proof/Machine/FigureFamily.lean ====
section
/-! DEFINITION. The meanings of FIGURE_START, FIGURE_STOP, FIGURE_SYNC and STEP_TIMER_EXPIRY. -/

namespace Sys2Proof.Machine

/-- The figure a figure command names, when it is in range and present (R98). -/
def State.namedFigure (s : State) (fields : List Byte) : Option Nat :=
  (readFigureIndex fields).bind fun f => (s.figure f).map fun _ => f

/-- FIGURE_START: OK when the figure runs after the event, FULL when it is refused for want of a player (R98). -/
def execFigureStart (l : Link) : State → Host.Outcome State Fault Refusal :=
  takeCommand l Kind.figureStart .ready fun fields s =>
    match s.namedFigure fields with
    | some f => { state := (startFigure f (.link l) s).1, code := if (startFigure f (.link l) s).2 then .ok else .full }
    | none => .refuse .badArgument s

/-- FIGURE_STOP (R98). -/
def execFigureStop (l : Link) : State → Host.Outcome State Fault Refusal :=
  takeCommand l Kind.figureStop .ready fun fields s =>
    match s.namedFigure fields with
    | some f => { state := removeFigureOwner (.link l) f s, code := .ok }
    | none => .refuse .badArgument s

/-- A player whose figure is listed restarts at step 0 (R99). -/
def syncPlayer (figures : List Nat) (s : State) (p : Nat) : State :=
  match s.playing p with
  | some run => if figures.contains run.figure then beginStep p 0 s else s
  | none => s

/-- FIGURE_SYNC: every RUNNING player whose figure is listed restarts, in ascending player number (R99). -/
def execFigureSync (l : Link) : State → Host.Outcome State Fault Refusal :=
  takeCommand l Kind.figureSync .ready fun fields s =>
    match readFigureList fields with
    | some figures => { state := (List.range s.figures.players.length).foldl (syncPlayer figures) s, code := .ok }
    | none => .refuse .badArgument s

/-- The end of a player's step: the next step, step 0 of a looping figure, or the end of a one-shot figure (R93). -/
def endStep (p : Nat) (run : Run) (s : State) : State :=
  match s.figure run.figure with
  | some fig =>
    if run.step + 1 < fig.steps.length then beginStep p (run.step + 1) s
    else if fig.loop then beginStep p 0 s
    else s.setPlayer p none
  | none => s

/-- STEP_TIMER_EXPIRY (R93). -/
def execStepTimerExpiry (player : Nat) (s : State) : Host.Outcome State Fault Refusal :=
  match s.playing player with
  | some run => if run.expiry ≤ s.now then event false (endStep player run s) else nothing s
  | none => nothing s

end Sys2Proof.Machine
end

