-- ==== Sys2Proof/Machine/PlayFamily.lean ====
section
/-! DEFINITION. The meanings of the play messages: KEY_CHANGE, STOP_CHANGE, TREMULANT_TAB, REGISTRATION, TRANSPOSE, EXPRESSION, GO,
TEMPO. -/

namespace Sys2Proof.Machine

/-- An entry, or a malformed play message, is ignored and counted (R27, R165). -/
def ignoreEntry (s : State) : State := s.bump .playEntriesIgnored

/-- One entry of a KEY CHANGE: ignored on an absent division or a key at or beyond its key count, else the key takes its level; when
the link then holds no key the requested transposition is taken before the next entry (R27, R28, R35). -/
def keyEntry (l : Link) (division : Nat) (s : State) (e : Nat × Level) : State :=
  match s.division division with
  | some count => if e.1 < count then takeTransposition l (setKey l division e.1 e.2 s) else ignoreEntry s
  | none => ignoreEntry s

/-- The entries of a KEY CHANGE in list order (R27). -/
def playKeys (l : Link) (body : List Byte) (s : State) : State :=
  match readKeyChange body with
  | some (division, entries) => entries.foldl (keyEntry l division) s
  | none => ignoreEntry s

/-- KEY_CHANGE (R27). -/
def execKeyChange (l : Link) : State → Host.Outcome State Fault Refusal := takePlay l Kind.keyChange (playKeys l)

/-- One entry of a STOP CHANGE (R30). -/
def stopEntry (l : Link) (s : State) (e : Nat × Option Bool) : State :=
  match s.stop e.1, e.2 with
  | some _, some drawn =>
    if (s.reg l).stops.contains e.1 = drawn then s else if drawn then drawStop l e.1 s else cancelStop l e.1 s
  | none, _ | some _, none => ignoreEntry s

/-- The entries of a STOP CHANGE in list order (R30). -/
def playStops (l : Link) (body : List Byte) (s : State) : State :=
  match readStopChange body with
  | some entries => entries.foldl (stopEntry l) s
  | none => ignoreEntry s

/-- STOP_CHANGE (R30). -/
def execStopChange (l : Link) : State → Host.Outcome State Fault Refusal := takePlay l Kind.stopChange (playStops l)

/-- One entry of a TREMULANT TAB (R31). -/
def tabEntry (l : Link) (s : State) (e : Nat × Option Bool) : State :=
  match e.2 with
  | some on => if e.1 < 8 then setTab l e.1 on s else ignoreEntry s
  | none => ignoreEntry s

/-- The entries of a TREMULANT TAB in list order (R31). -/
def playTabs (l : Link) (body : List Byte) (s : State) : State :=
  match readTremulantTab body with
  | some entries => entries.foldl (tabEntry l) s
  | none => ignoreEntry s

/-- TREMULANT_TAB (R31). -/
def execTremulantTab (l : Link) : State → Host.Outcome State Fault Refusal := takePlay l Kind.tremulantTab (playTabs l)

/-- A requested transposition is clamped to -6..+6 and set; it takes effect at once when the link holds no key (R34). -/
def requestTransposition (l : Link) (v : Int) (s : State) : State :=
  takeTransposition l (s.modReg l fun r => { r with requested := max (-6) (min 6 v) })

/-- A REGISTRATION that is well formed: the new sets, then stops drawn, stops cancelled, tabs changed, each ascending, then the
transposition (R32). -/
def replaceRegistration (l : Link) (b : RegistrationBody) (s : State) : State :=
  let goodStops := b.stops.filter fun i => (s.stop i).isSome
  let goodTabs := b.tabs.filter fun j => decide (j < 8)
  let newStops := goodStops.foldl (fun set i => insertMember i set) []
  let newTabs := goodTabs.foldl (fun set j => insertMember j set) []
  let oldStops := (s.reg l).stops
  let oldTabs := (s.reg l).tabs
  let counted := s.bumpBy (b.stops.length - goodStops.length + (b.tabs.length - goodTabs.length)) .playEntriesIgnored
  let drawn := (newStops.filter fun i => !oldStops.contains i).foldl (fun t i => drawStop l i t) counted
  let cancelled := (oldStops.filter fun i => !newStops.contains i).foldl (fun t i => cancelStop l i t) drawn
  let tabbed := ((List.range 8).filter fun j => oldTabs.contains j != newTabs.contains j).foldl
    (fun t j => setTab l j (newTabs.contains j) t) cancelled
  requestTransposition l b.transposition tabbed

/-- The body of a REGISTRATION (R32). -/
def playRegistration (l : Link) (body : List Byte) (s : State) : State :=
  match readRegistration body with
  | some b => replaceRegistration l b s
  | none => ignoreEntry s

/-- REGISTRATION (R32). -/
def execRegistration (l : Link) : State → Host.Outcome State Fault Refusal := takePlay l Kind.registration (playRegistration l)

/-- The body of a TRANSPOSE (R34). -/
def playTranspose (l : Link) (body : List Byte) (s : State) : State :=
  match readOne body with
  | some v => requestTransposition l v.toInt s
  | none => ignoreEntry s

/-- TRANSPOSE (R34). -/
def execTranspose (l : Link) : State → Host.Outcome State Fault Refusal := takePlay l Kind.transpose (playTranspose l)

/-- The body of an EXPRESSION: a channel above 3 is ignored and counted, a position above 127 is taken as 127 (R111). -/
def playExpression (body : List Byte) (s : State) : State :=
  match readTwo body with
  | some (channel, position) =>
    if channel.toNat < 4 then writeChannel channel.toNat (min position.toNat 127) s else ignoreEntry s
  | none => ignoreEntry s

/-- EXPRESSION (R111). -/
def execExpression (l : Link) : State → Host.Outcome State Fault Refusal := takePlay l Kind.expression playExpression

/-- The body of a GO, which is empty (R151, R165). -/
def playGo (body : List Byte) (s : State) : State :=
  match body with
  | [] => takeGo s
  | _ :: _ => ignoreEntry s

/-- GO (R151). -/
def execGo (l : Link) : State → Host.Outcome State Fault Refusal := takePlay l Kind.go playGo

/-- The body of a TEMPO, clamped to 50..200 (R97). -/
def playTempo (body : List Byte) (s : State) : State :=
  match readOne body with
  | some v => setTempo (max 50 (min 200 v.toNat)) s
  | none => ignoreEntry s

/-- TEMPO (R97). -/
def execTempo (l : Link) : State → Host.Outcome State Fault Refusal := takePlay l Kind.tempo playTempo

end Sys2Proof.Machine
end

