-- ==== Sys2Proof/Machine/PortFamily.lean ====
section
/-! DEFINITION. The meanings of PORT_RESTORE, PORT_DISABLE, CURRENT_RISING, CURRENT_FALLING, DETECT_TIMER_EXPIRY, OFF_TIMER_EXPIRY,
SUPPLY_DROPPING, SUPPLY_RISING and DWELL_TIMER_EXPIRY. -/

namespace Sys2Proof.Machine

/-- The port a port command names, when it is in range and its entry present (R129, R130). -/
def State.namedPort (s : State) (fields : List Byte) : Option Nat :=
  (readPortNumber fields).bind fun p => (s.portEntry p).map fun _ => p

/-- The state of a port (R119). -/
def State.portState (s : State) (p : Nat) : PortState := ((s.ports[p]?).map (·.state)).getD .off

/-- PORT_RESTORE (R129). -/
def execPortRestore (l : Link) : State → Host.Outcome State Fault Refusal :=
  takeCommand l Kind.portRestore .ready fun fields s =>
    match s.namedPort fields with
    | some p =>
      match s.portState p with
      | .active => { state := s, code := .ok }
      | .tripped | .locked | .off => { state := restorePort p [] s, code := .ok, serve := true }
    | none => .refuse .badArgument s

/-- PORT_DISABLE (R130). -/
def execPortDisable (l : Link) : State → Host.Outcome State Fault Refusal :=
  takeCommand l Kind.portDisable .ready fun fields s =>
    match s.namedPort fields with
    | some p =>
      match s.portState p with
      | .off => { state := s, code := .ok }
      | .active | .tripped | .locked => { state := disablePort p s, code := .ok }
    | none => .refuse .badArgument s

/-- CURRENT_RISING: the over indication is yes, and the detect timer starts if the port is ACTIVE and the supply GOOD (R123). -/
def execCurrentRising (port : Nat) (s : State) : Host.Outcome State Fault Refusal :=
  event false (startDetect port (s.modPort port fun pt => { pt with overload := true }))

/-- CURRENT_FALLING: the over indication is no, and the detect timer is cancelled (R123). -/
def execCurrentFalling (port : Nat) (s : State) : Host.Outcome State Fault Refusal :=
  event false (s.modPort port fun pt => { pt with overload := false, detect := none })

/-- DETECT_TIMER_EXPIRY: the port trips (R124). -/
def execDetectTimerExpiry (port : Nat) (s : State) : Host.Outcome State Fault Refusal :=
  match s.ports[port]?, s.portEntry port with
  | some pt, some e => if s.due pt.detect = true ∧ pt.state = .active then event false (tripPort port e pt s) else nothing s
  | _, _ => nothing s

/-- OFF_TIMER_EXPIRY: a TRIPPED port becomes ACTIVE with its history kept, and the queue is served (R126). -/
def execOffTimerExpiry (port : Nat) (s : State) : Host.Outcome State Fault Refusal :=
  match s.ports[port]? with
  | some pt => if s.due pt.off = true ∧ pt.state = .tripped then event true (restorePort port pt.history s) else nothing s
  | none => nothing s

/-- SUPPLY_DROPPING: from GOOD the supply is LOW at once; from LOW a running dwell is cancelled (R132). -/
def execSupplyDropping (s : State) : Host.Outcome State Fault Refusal :=
  match s.supply.state with
  | .good => event false (supplyFails s)
  | .low => event false { s with supply := { s.supply with dwell := none } }

/-- SUPPLY_RISING: while LOW, the dwell timer starts with 100 ms; the two kinds of event alternate, so one that finds it running, or
the supply GOOD, is no rise (R131, R133; log 18). -/
def execSupplyRising (s : State) : Host.Outcome State Fault Refusal :=
  match s.supply.state, s.supply.dwell with
  | .low, none => event false { s with supply := { s.supply with dwell := some (s.now + Config.dwellTime) } }
  | .low, some _ => nothing s
  | .good, _ => nothing s

/-- DWELL_TIMER_EXPIRY: the supply is GOOD, and the queue is served (R133). -/
def execDwellTimerExpiry (s : State) : Host.Outcome State Fault Refusal :=
  if s.due s.supply.dwell = true ∧ s.supply.state = .low then event true (supplyReturns s) else nothing s

end Sys2Proof.Machine
end

