-- ==== Sys2Proof/Machine/PowerFamily.lean ====
section
/-! DEFINITION. The meanings of POWER_ON, FULL_RESET, FULL_RESET_TAKES_EFFECT and of the link events BYTE_ARRIVAL,
INTER_BYTE_TIMER_EXPIRY, SILENCE_TIMER_EXPIRY, TRANSMIT_END and UNKNOWN_KIND. -/

namespace Sys2Proof.Machine

/-- POWER_ON: every block at its power-on value (R160 and the rules State.reset cites), the strap read, the dwell timer started if the
supply already stands above its threshold (R131), the over indications as the currents give them (R119). -/
def execPowerOn (rate : LinkRate) (supplyUp : Bool) (overs : BitVec 8) (s : State) : Host.Outcome State Fault Refusal :=
  event false
    { State.reset with
      now := s.now
      rate := rate
      supply := { state := .low, dwell := if supplyUp then some (s.now + Config.dwellTime) else none }
      ports := allPorts.map fun p => Port.atPowerOn (overs.getLsbD p)
      pending := s.pending }

/-- BYTE_ARRIVAL (R161 to R164). -/
def execByteArrival (l : Link) (b : Byte) (s : State) : Host.Outcome State Fault Refusal := event false (receiveByte l b s)

/-- INTER_BYTE_TIMER_EXPIRY: the frame is cut and counted, the receiver returns to HUNTING (R162). -/
def execInterByteTimerExpiry (l : Link) (s : State) : Host.Outcome State Fault Refusal :=
  if s.due (s.link l).interByteTimer then event false ((s.setReceiver l .hunting).bump (.framesCut l)) else nothing s

/-- SILENCE_TIMER_EXPIRY: the link is lost (R171). -/
def execSilenceTimerExpiry (l : Link) (s : State) : Host.Outcome State Fault Refusal :=
  if s.due (s.link l).silenceTimer then event false (loseLink l s) else nothing s

/-- TRANSMIT_END: the last byte of a frame is sent, a reply's place is freed, and the next frame begins (R167, R168); where the frame
is the reply of a FULL RESET, the reset takes effect in this event (R23, R24). -/
def execTransmitEnd (l : Link) (s : State) : Host.Outcome State Fault Refusal :=
  if s.due (s.sendingUntil l) then
    if s.sendingReset l then event false (resetPart l true s) else event false (endTransmission l s)
  else nothing s

/-- FULL_RESET_TAKES_EFFECT: the event in which the last byte of the FULL RESET's reply is sent, or the loss of its link (R23, R24,
R171; log 13). -/
def execFullResetTakesEffect (l : Link) (s : State) : Host.Outcome State Fault Refusal :=
  if (s.link l).resetPending then
    if s.sendingReset l && s.due (s.sendingUntil l) then event false (resetPart l true s)
    else if s.due (s.link l).silenceTimer then event false (loseLink l s)
    else nothing s
  else nothing s

/-- FULL_RESET: its OK reply is placed, reset pending is set, and the link's queue is drained no further (R23, R167). -/
def execFullReset (l : Link) : State → Host.Outcome State Fault Refusal :=
  takeCommand l Kind.fullReset .always fun fields s =>
    match readNoField fields with
    | some () => { state := s.modLink l fun i => { i with resetPending := true }, code := .ok }
    | none => .refuse .badArgument s

/-- UNKNOWN_KIND: answered with UNKNOWN_KIND, the tag its first body byte or 0, and nothing else changes (R165). -/
def execUnknownKind (l : Link) (s : State) : Host.Outcome State Fault Refusal :=
  match s.head l with
  | some m =>
    if Kind.unknown m.kind then event false (addReply l (m.body.headD 0) m.kind .unknownKind [] (takeHead l s)) else nothing s
  | none => nothing s

end Sys2Proof.Machine
end

