-- ==== Sys2Proof/Machine/ReadFamily.lean ====
section
/-! DEFINITION. The meanings of the commands that read the part: STATUS, COUNTERS_READ, COUNTERS_READ_AND_CLEAR, QUERY_OUTPUT. -/

namespace Sys2Proof.Machine

/-- STATUS (R175). -/
def execStatus (l : Link) : State → Host.Outcome State Fault Refusal :=
  takeCommand l Kind.status .always (answerPlain fun s => { state := s, code := .ok, contents := s.statusContents })

/-- COUNTERS_READ (R179). -/
def execCountersRead (l : Link) : State → Host.Outcome State Fault Refusal :=
  takeCommand l Kind.countersRead .always (answerPlain fun s => { state := s, code := .ok, contents := s.counterContents })

/-- Every counter at 0 (R178, R179). -/
def clearCounters (s : State) : State := { s with counters := s.counters.map fun _ => 0 }

/-- COUNTERS_READ_AND_CLEAR: the same reply, and in the same event every counter 0 (R179). -/
def execCountersReadAndClear (l : Link) : State → Host.Outcome State Fault Refusal :=
  takeCommand l Kind.countersReadAndClear .always
    (answerPlain fun s => { state := clearCounters s, code := .ok, contents := s.counterContents })

/-- The target of an accepted QUERY OUTPUT: an address in range, or a source that is a FIGURE-mode trap (R63). -/
def State.queryTarget (s : State) (fields : List Byte) : Option Target :=
  match readQuery fields with
  | some (.output a) => some (.output a)
  | some (.claim i) =>
    match s.source i with
    | some (.figureTrap _) => some (.claim i)
    | some (.rank _ _) | some (.percussion _ _ _ _ _) | some (.trap _ _ _) | none => none
  | none => none

/-- QUERY_OUTPUT (R63, R64). -/
def execQueryOutput (l : Link) : State → Host.Outcome State Fault Refusal :=
  takeCommand l Kind.queryOutput .ready fun fields s =>
    match s.queryTarget fields with
    | some t => { state := s, code := .ok, contents := s.queryContents t }
    | none => .refuse .badArgument s

end Sys2Proof.Machine
end

