-- ==== Sys2Proof/Machine/StrikeFamily.lean ====
section
/-! DEFINITION. The meanings of the timers of the struck outputs and of the chambers: STROKE_TIMER_EXPIRY, REST_TIMER_EXPIRY,
DEFERRAL_LIMIT_EXPIRY, REITERATION_DUE, HOLDOVER_TIMER_EXPIRY, PHASE_TIMER_EXPIRY, STAGE_TIMER_EXPIRY. -/

namespace Sys2Proof.Machine

/-- STROKE_TIMER_EXPIRY: the output rests its full rest time; with a rest time of 0 it is IDLE within the event, and the queue is
served after that. The queue is served at a fall in load in any case (R66, R72). -/
def execStrokeTimerExpiry (a : Addr) (s : State) : Host.Outcome State Fault Refusal :=
  match s.stroke a, s.timesAt a with
  | some (.striking expiry), some k =>
    if expiry ≤ s.now then
      if k.rest = 0 then event true (s.setStroke a .idle) else event false (s.setStroke a (.resting (s.now + k.rest)))
    else nothing s
  | _, _ => nothing s

/-- REST_TIMER_EXPIRY: the output is IDLE, and the queue is served (R66). -/
def execRestTimerExpiry (a : Addr) (s : State) : Host.Outcome State Fault Refusal :=
  match s.stroke a with
  | some (.resting expiry) => if expiry ≤ s.now then event true (s.setStroke a .idle) else nothing s
  | some .idle | some (.striking _) | none => nothing s

/-- DEFERRAL_LIMIT_EXPIRY: the queued strike whose age has reached the limit is discarded and counted late (R73). -/
def execDeferralLimitExpiry (a : Addr) (s : State) : Host.Outcome State Fault Refusal :=
  match s.sched.queue.find? (fun e => decide (e.out = a)) with
  | some e => if e.expired s.sched.deferral s.now then event false ((dequeue a s).bump .strikesLate) else nothing s
  | none => nothing s

/-- The reiteration interval of an output (R78, R79). -/
def State.intervalAt (s : State) (a : Addr) : Option Nat :=
  match ((s.record (.output a)).bind (·.owner.source)).bind s.source with
  | some (.percussion _ _ _ (.reiterate interval) _) => some interval
  | some (.trap _ _ (.reiterate interval)) => some interval
  | some (.percussion _ _ _ .single _) | some (.trap _ _ .single) | some (.trap _ _ .hold) | some (.rank _ _)
  | some (.figureTrap _) | none => none

/-- An output's reiteration entry is re-armed one interval after the due time that has arrived (R79). -/
def rearm (a : Addr) (interval : Nat) (s : State) : State :=
  { s with sched := { s.sched with
      reiterations := s.sched.reiterations.map fun e => if e.out = a then { e with due := e.due + interval } else e } }

/-- REITERATION_DUE: a strike request, and the entry re-armed (R79). -/
def execReiterationDue (a : Addr) (s : State) : Host.Outcome State Fault Refusal :=
  match s.sched.reiterations.find? (fun e => decide (e.out = a)), s.intervalAt a with
  | some e, some interval => if e.due ≤ s.now then event false (requestStrike a (rearm a interval s)) else nothing s
  | _, _ => nothing s

/-- HOLDOVER_TIMER_EXPIRY: the damper's timer has run out, and with it its demand (R83). -/
def execHoldoverTimerExpiry (source : Nat) (s : State) : Host.Outcome State Fault Refusal :=
  match s.sched.dampers.find? (fun d => decide (d.source = source)) with
  | some d => if s.due d.holdover then event false (s.modDamper source fun x => { x with holdover := none }) else nothing s
  | none => nothing s

/-- PHASE_TIMER_EXPIRY: OPEN becomes CLOSED for the closed time, CLOSED becomes OPEN for the open time (R105, R106). -/
def execPhaseTimerExpiry (tremulant : Nat) (s : State) : Host.Outcome State Fault Refusal :=
  match (s.generator tremulant).phase, s.tremulant tremulant with
  | .opened expiry, some t =>
    if expiry ≤ s.now then event false (s.modGenerator tremulant fun g => { g with phase := .closed (s.now + t.closedTime) })
    else nothing s
  | .closed expiry, some t =>
    if expiry ≤ s.now then event false (s.modGenerator tremulant fun g => { g with phase := .opened (s.now + t.openTime) })
    else nothing s
  | .off, _ | .opened _, none | .closed _, none => nothing s

/-- STAGE_TIMER_EXPIRY: the chamber steps if its target differs from its current stage, else it is at rest (R113, R115). -/
def execStageTimerExpiry (chamber : Nat) (s : State) : Host.Outcome State Fault Refusal :=
  if s.due (s.chamberState chamber).timer then
    event false (stepChamber chamber (s.modChamber chamber fun c => { c with timer := none }))
  else nothing s

end Sys2Proof.Machine
end

