-- ==== Sys2Proof/Machine/Clock.lean ====
section
/-! DEFINITION. What the part does when no command waits: the first of its own events whose time has come, in one fixed order, or
else one millisecond passes (log 1, log 2). -/

namespace Sys2Proof.Machine

/-- The command that takes a message of a kind from a link's queue (R165, R174); PRESENCE is never queued (R164). -/
def takingOf (l : Link) (k : Byte) : Option Instr :=
  if k = Kind.keyChange then some (.keyChange l)
  else if k = Kind.stopChange then some (.stopChange l)
  else if k = Kind.tremulantTab then some (.tremulantTab l)
  else if k = Kind.registration then some (.registration l)
  else if k = Kind.transpose then some (.transpose l)
  else if k = Kind.expression then some (.expression l)
  else if k = Kind.go then some (.go l)
  else if k = Kind.tempo then some (.tempo l)
  else if k = Kind.presence then none
  else if k = Kind.specBegin then some (.specBegin l)
  else if k = Kind.specDivision then some (.specDivision l)
  else if k = Kind.specSource then some (.specSource l)
  else if k = Kind.specStop then some (.specStop l)
  else if k = Kind.specChamber then some (.specChamber l)
  else if k = Kind.specTremulant then some (.specTremulant l)
  else if k = Kind.specPort then some (.specPort l)
  else if k = Kind.specFigure then some (.specFigure l)
  else if k = Kind.specCommit then some (.specCommit l)
  else if k = Kind.silence then some (.silence l)
  else if k = Kind.fullReset then some (.fullReset l)
  else if k = Kind.linkRelease then some (.linkRelease l)
  else if k = Kind.configure then some (.configure l)
  else if k = Kind.status then some (.status l)
  else if k = Kind.countersRead then some (.countersRead l)
  else if k = Kind.countersReadAndClear then some (.countersReadAndClear l)
  else if k = Kind.queryOutput then some (.queryOutput l)
  else if k = Kind.cueWrite then some (.cueWrite l)
  else if k = Kind.cueRead then some (.cueRead l)
  else if k = Kind.cueStart then some (.cueStart l)
  else if k = Kind.cueSuspend then some (.cueSuspend l)
  else if k = Kind.cueResume then some (.cueResume l)
  else if k = Kind.cueAbort then some (.cueAbort l)
  else if k = Kind.figureStart then some (.figureStart l)
  else if k = Kind.figureStop then some (.figureStop l)
  else if k = Kind.figureSync then some (.figureSync l)
  else if k = Kind.portRestore then some (.portRestore l)
  else if k = Kind.portDisable then some (.portDisable l)
  else some (.unknownKind l)

/-- The taking of the message at the head of a link's queue, when it may be taken (R165). -/
def State.taking (s : State) (l : Link) : Option Instr := (s.head l).bind fun m => takingOf l m.kind

/-- A command, when a condition holds. -/
def whenDue (due : Bool) (c : Instr) : List Instr := if due then [c] else []

/-- A link's timers whose time has come: inter-byte, silence, and the end of the frame being sent, which no later than the next whole
millisecond has ended (R162, R168, R171; log 10). -/
def State.linkDue (s : State) (l : Link) : List Instr :=
  whenDue (s.due (s.link l).interByteTimer) (.interByteTimerExpiry l)
    ++ whenDue (s.due (s.link l).silenceTimer) (.silenceTimerExpiry l)
    ++ whenDue (s.due ((s.sendingUntil l).map (· + 1))) (.transmitEnd l)

/-- The strokes and rests that have run out, in table order (R66). -/
def State.strokesDue (s : State) : List Instr :=
  s.table.filterMap fun r =>
    match r.target, r.stroke with
    | .output a, some (.striking expiry) => if expiry ≤ s.now then some (.strokeTimerExpiry a) else none
    | .output a, some (.resting expiry) => if expiry ≤ s.now then some (.restTimerExpiry a) else none
    | .output _, some .idle | .output _, none | .claim _, _ => none

/-- The strike scheduler's entries and dampers whose time has come (R73, R79, R83). -/
def State.schedulerDue (s : State) : List Instr :=
  (s.sched.reiterations.filter fun e => decide (e.due ≤ s.now)).map (fun e => .reiterationDue e.out)
    ++ (s.sched.queue.filter fun e => e.expired s.sched.deferral s.now).map (fun e => .deferralLimitExpiry e.out)
    ++ (s.sched.dampers.filter fun d => s.due d.holdover).map fun d => .holdoverTimerExpiry d.source

/-- The phase timer of a generator, which runs in OPEN and CLOSED (R103). -/
def Phase.timer : Phase → Option Nat
  | .opened expiry => some expiry
  | .closed expiry => some expiry
  | .off => none

/-- The players, generators and chambers whose timer has run out (R93, R106, R113). -/
def State.motionDue (s : State) : List Instr :=
  ((List.range 8).filter fun p => s.due ((s.playing p).map (·.expiry))).map .stepTimerExpiry
    ++ ((List.range 8).filter fun j => s.due (s.generator j).phase.timer).map .phaseTimerExpiry
    ++ (allChambers.filter fun c => s.due (s.chamberState c).timer).map .stageTimerExpiry

/-- The timers of the drive ports and of the supply monitor that have run out (R124, R126, R133). -/
def State.driveDue (s : State) : List Instr :=
  (allPorts.filter fun p => s.due ((s.ports[p]?).bind (·.detect))).map .detectTimerExpiry
    ++ (allPorts.filter fun p => s.due ((s.ports[p]?).bind (·.off))).map .offTimerExpiry
    ++ whenDue (s.due s.supply.dwell) .dwellTimerExpiry

/-- The cue unit's wait timer and the commit check, which on an empty queue takes its longest time (R147, R18; log 11). -/
def State.engineDue (s : State) : List Instr :=
  whenDue (s.due s.cue.waitTimer) .waitTimerExpiry
    ++ whenDue (s.due (s.store.checkBegan.map (· + Config.checkLongest))) .checkCompletion

/-- The part's own events that are due now, in the order of log 2: timers, then the messages at the heads of the queues, then the
next cue record. -/
def State.ownEvents (s : State) : List Instr :=
  s.linkDue .one ++ s.linkDue .two ++ s.strokesDue ++ s.schedulerDue ++ s.motionDue ++ s.driveDue ++ s.engineDue
    ++ (s.taking .one).toList ++ (s.taking .two).toList ++ whenDue (decide (s.cue.state = .running)) .takeRecord

/-- One millisecond passes (log 1). -/
def tick (s : State) : State := { s with now := s.now + 1 }

end Sys2Proof.Machine
end

