-- ==== Sys2Proof/Machine/Dispatch.lean ====
section
/-! DEFINITION. The dispatch: one arm for each command of spec/opcode_table.json, each one direct call of its meaning. -/

namespace Sys2Proof.Machine

def exec (i : Instr) (s : State) : Host.Outcome State Fault Refusal :=
  match i with
  | .powerOn rate supplyUp overs => Sys2Proof.Machine.execPowerOn rate supplyUp overs s
  | .byteArrival l b => Sys2Proof.Machine.execByteArrival l b s
  | .interByteTimerExpiry l => Sys2Proof.Machine.execInterByteTimerExpiry l s
  | .silenceTimerExpiry l => Sys2Proof.Machine.execSilenceTimerExpiry l s
  | .transmitEnd l => Sys2Proof.Machine.execTransmitEnd l s
  | .fullResetTakesEffect l => Sys2Proof.Machine.execFullResetTakesEffect l s
  | .keyChange l => Sys2Proof.Machine.execKeyChange l s
  | .stopChange l => Sys2Proof.Machine.execStopChange l s
  | .tremulantTab l => Sys2Proof.Machine.execTremulantTab l s
  | .registration l => Sys2Proof.Machine.execRegistration l s
  | .transpose l => Sys2Proof.Machine.execTranspose l s
  | .expression l => Sys2Proof.Machine.execExpression l s
  | .go l => Sys2Proof.Machine.execGo l s
  | .tempo l => Sys2Proof.Machine.execTempo l s
  | .specBegin l => Sys2Proof.Machine.execSpecBegin l s
  | .specDivision l => Sys2Proof.Machine.execSpecDivision l s
  | .specSource l => Sys2Proof.Machine.execSpecSource l s
  | .specStop l => Sys2Proof.Machine.execSpecStop l s
  | .specChamber l => Sys2Proof.Machine.execSpecChamber l s
  | .specTremulant l => Sys2Proof.Machine.execSpecTremulant l s
  | .specPort l => Sys2Proof.Machine.execSpecPort l s
  | .specFigure l => Sys2Proof.Machine.execSpecFigure l s
  | .specCommit l => Sys2Proof.Machine.execSpecCommit l s
  | .checkCompletion => Sys2Proof.Machine.execCheckCompletion s
  | .silence l => Sys2Proof.Machine.execSilence l s
  | .fullReset l => Sys2Proof.Machine.execFullReset l s
  | .linkRelease l => Sys2Proof.Machine.execLinkRelease l s
  | .configure l => Sys2Proof.Machine.execConfigure l s
  | .status l => Sys2Proof.Machine.execStatus l s
  | .countersRead l => Sys2Proof.Machine.execCountersRead l s
  | .countersReadAndClear l => Sys2Proof.Machine.execCountersReadAndClear l s
  | .queryOutput l => Sys2Proof.Machine.execQueryOutput l s
  | .cueWrite l => Sys2Proof.Machine.execCueWrite l s
  | .cueRead l => Sys2Proof.Machine.execCueRead l s
  | .cueStart l => Sys2Proof.Machine.execCueStart l s
  | .cueSuspend l => Sys2Proof.Machine.execCueSuspend l s
  | .cueResume l => Sys2Proof.Machine.execCueResume l s
  | .cueAbort l => Sys2Proof.Machine.execCueAbort l s
  | .figureStart l => Sys2Proof.Machine.execFigureStart l s
  | .figureStop l => Sys2Proof.Machine.execFigureStop l s
  | .figureSync l => Sys2Proof.Machine.execFigureSync l s
  | .portRestore l => Sys2Proof.Machine.execPortRestore l s
  | .portDisable l => Sys2Proof.Machine.execPortDisable l s
  | .unknownKind l => Sys2Proof.Machine.execUnknownKind l s
  | .strokeTimerExpiry a => Sys2Proof.Machine.execStrokeTimerExpiry a s
  | .restTimerExpiry a => Sys2Proof.Machine.execRestTimerExpiry a s
  | .deferralLimitExpiry a => Sys2Proof.Machine.execDeferralLimitExpiry a s
  | .reiterationDue a => Sys2Proof.Machine.execReiterationDue a s
  | .holdoverTimerExpiry source => Sys2Proof.Machine.execHoldoverTimerExpiry source s
  | .stepTimerExpiry player => Sys2Proof.Machine.execStepTimerExpiry player s
  | .phaseTimerExpiry tremulant => Sys2Proof.Machine.execPhaseTimerExpiry tremulant s
  | .stageTimerExpiry chamber => Sys2Proof.Machine.execStageTimerExpiry chamber s
  | .currentRising port => Sys2Proof.Machine.execCurrentRising port s
  | .currentFalling port => Sys2Proof.Machine.execCurrentFalling port s
  | .detectTimerExpiry port => Sys2Proof.Machine.execDetectTimerExpiry port s
  | .offTimerExpiry port => Sys2Proof.Machine.execOffTimerExpiry port s
  | .supplyDropping => Sys2Proof.Machine.execSupplyDropping s
  | .supplyRising => Sys2Proof.Machine.execSupplyRising s
  | .dwellTimerExpiry => Sys2Proof.Machine.execDwellTimerExpiry s
  | .takeRecord => Sys2Proof.Machine.execTakeRecord s
  | .waitTimerExpiry => Sys2Proof.Machine.execWaitTimerExpiry s

end Sys2Proof.Machine
end

