-- ==== Sys2Proof/Machine/Step.lean ====
section
/-! DEFINITION. The step: the command at the front of the queue, or what the part does of its own accord. -/

namespace Sys2Proof.Machine

/-- One step. The front command is carried out on the state with the queue's rest. On an empty queue the part's own next event
happens, or one millisecond passes when none is due (log 1). -/
def step (s : State) : Host.Outcome State Fault Refusal :=
  match s.pending with
  | c :: rest => exec c { s with pending := rest }
  | [] =>
    match s.ownEvents with
    | c :: _ => exec c s
    | [] => .next (tick s)

/-- The command that a word of the table spells, put at the front of the queue; no word of this table spells one (log 30). -/
def State.withFetchWord (s : State) (nbits w : Nat) : State :=
  match decodeTableWord nbits w with
  | some c => { s with pending := c :: s.pending }
  | none => s

end Sys2Proof.Machine
end

