-- ==== Sys2Proof/Safety.lean ====
section
/-! DEFINITION. The terms that claims about the part are made in: which fields an event may change, when an event is done, and the laws
that the manual says its rules own. -/

namespace Sys2Proof.Machine

/-! ## What an event may change -/

/-- The fields of State. -/
inductive Field where
  | now
  | rate
  | store
  | links
  | regs
  | table
  | sched
  | figures
  | generators
  | shutters
  | ports
  | supply
  | memory
  | cue
  | counters
  | pending
  deriving DecidableEq, Repr

/-- A field reads the same in both states. -/
def Field.same (s t : State) : Field → Prop
  | .now => t.now = s.now
  | .rate => t.rate = s.rate
  | .store => t.store = s.store
  | .links => t.links = s.links
  | .regs => t.regs = s.regs
  | .table => t.table = s.table
  | .sched => t.sched = s.sched
  | .figures => t.figures = s.figures
  | .generators => t.generators = s.generators
  | .shutters => t.shutters = s.shutters
  | .ports => t.ports = s.ports
  | .supply => t.supply = s.supply
  | .memory => t.memory = s.memory
  | .cue => t.cue = s.cue
  | .counters => t.counters = s.counters
  | .pending => t.pending = s.pending

/-- The second state differs from the first in the listed fields at most. -/
def Only (fields : List Field) (s t : State) : Prop := ∀ f, f ∉ fields → f.same s t

/-! ## When an event is done -/

/-- The ports have settled: each energized set, computed load and account of admitted loads is what settling gives (R120, R121). -/
def Settled (s : State) : Prop := settle s = s

/-- An idle transmitter has nothing to send: no reply in a place of its list and no notice waiting (R168). -/
def LinkIf.Quiet (i : LinkIf) : Prop := i.transmitter = .idle → i.notices = [] ∧ ∀ p ∈ i.replies, p.reply? = none

/-- The event before this state is done: the ports have settled and no idle transmitter has anything to send (R120, R168). -/
structure Done (s : State) : Prop where
  settled : Settled s
  quiet : ∀ l, (s.link l).Quiet

/-! ## Links -/

/-- A message stands at the front of a link's queue and may be taken: no reset is pending, and it is a play message or the reply list
has an empty place (R165). -/
structure Waits (s : State) (l : Link) (kind : Byte) (body : List Byte) : Prop where
  front : (s.link l).input.head? = some { kind := kind, body := body }
  noReset : (s.link l).resetPending = false
  place : kind ∈ Kind.play ∨ (s.link l).replies.length < 8

/-- An interface apart from its notice queue and what its transmitter sends, which R168 and R169 govern. -/
def LinkIf.facing (i : LinkIf) : LinkIf := { i with notices := [], transmitter := .idle }

/-- The flow state that judging gives at a fill (R166). -/
def LinkIf.flowAt (i : LinkIf) (fill : Nat) : FlowState :=
  match i.flow with
  | .flowing => if i.high ≤ fill then .held else .flowing
  | .held => if fill ≤ i.low then .flowing else .held

/-- What the taking of a link's front message leaves at the two interfaces: the message gone, flow judged, the given places taken in
the reply list, and nothing else but notices and transmission (R165, R166, R167). -/
structure Took (l : Link) (places : List Place) (s t : State) : Prop where
  this : (t.link l).facing =
    ({ s.link l with
        input := (s.link l).input.tail
        replies := (s.link l).replies ++ places
        flow := (s.link l).flowAt (s.link l).input.tail.length } : LinkIf).facing
  other : (t.link (otherLink l)).facing = (s.link (otherLink l)).facing

/-- An OK reply's place (R167). -/
def okPlace (tag kind : Byte) (contents : List Byte) : Place :=
  .holding { tag := tag, kind := kind, code := .ok, contents := contents }

/-- A refusal's place (R165, R167). -/
def refusalPlace (tag kind : Byte) (code : ReplyCode) : Place := .holding { tag := tag, kind := kind, code := code, contents := [] }

/-- The counters outside a list of indices stand as they were (R177). -/
def CountedOnly (indices : List Nat) (s t : State) : Prop := ∀ i, i ∉ indices → t.counters[i]? = s.counters[i]?

/-- A counter was incremented a number of times (R177, R178). -/
def Raised (n : Nat) (c : Counter) (s t : State) : Prop := t.counters[c.index]? = s.counters[c.index]?.map (saturatingAdd · n)

/-- The index of a link's "notices discarded" (R177), the one counter that the taking of a message may raise through RESUME. -/
def discards (l : Link) : Nat := (Counter.noticesDiscarded l).index

/-- A message was taken and its effect reached the part: the state differs from the effect only at the links and, at most, in the
link's "notices discarded". -/
structure Acted (l : Link) (places : List Place) (effect t : State) : Prop where
  took : Took l places effect t
  only : Only [.links, .counters] effect t
  counted : CountedOnly [discards l] effect t

/-- The notices of a judgement of flow at a fill (R166): HOLD or RESUME where the flow state changes, else none. -/
def LinkIf.flowNotices (i : LinkIf) (fill : Nat) : List Notice :=
  if i.flowAt fill = i.flow then [] else
    match i.flow with
    | .flowing => [.hold]
    | .held => [.resume]

/-- The notices of taking the front message (R165, R166). -/
def State.takingNotices (s : State) (l : Link) : List Notice := (s.link l).flowNotices (s.link l).input.tail.length

/-- An event queues notices for a link that is UP, in their order (R168, R169, R170): an idle transmitter begins the first and the others
wait, and where a frame is being sent they wait behind those that waited, as far as the queue of 16 holds them. -/
def Told (l : Link) (ns : List Notice) (s t : State) : Prop :=
  (s.link l).state = .up →
    ((s.link l).transmitter = .idle →
      match ns with
      | [] => (t.link l).transmitter = .idle ∧ (t.link l).notices = []
      | n :: rest => (∃ frame, (t.link l).transmitter = .sending (.notice n) frame s.now) ∧ (t.link l).notices = rest) ∧
    ((s.link l).transmitter ≠ .idle → (s.link l).notices.length + ns.length ≤ 16 →
      (t.link l).transmitter = (s.link l).transmitter ∧ (t.link l).notices = (s.link l).notices ++ ns)

/-- The same for a link whose command the event answers: an idle transmitter begins the reply, and the notices wait, those of the taking
first (R166, R168). -/
def ToldBehindReply (l : Link) (ns : List Notice) (s t : State) : Prop :=
  (s.link l).state = .up →
    let queued := s.takingNotices l ++ ns
    ((s.link l).transmitter = .idle →
      (∃ frame, (t.link l).transmitter = .sending (.reply (s.link l).replies.length) frame s.now) ∧ (t.link l).notices = queued) ∧
    ((s.link l).transmitter ≠ .idle → (s.link l).notices.length + queued.length ≤ 16 →
      (t.link l).transmitter = (s.link l).transmitter ∧ (t.link l).notices = (s.link l).notices ++ queued)

/-! ## Tremulants -/

/-- The generators follow their demand through an event that judges each at most once for an appearance and once for an end, in that order
(R104, R106): demand that appears opens a present generator for its open time, demand that ends turns it OFF, and a generator whose demand
stands, or that is OFF and stays undemanded, is in its phase. -/
structure GeneratorsFollow (s t : State) : Prop where
  opens : ∀ j x, s.tremulant j = some x → j < s.generators.length → s.demanded j = false → t.demanded j = true →
    (t.generator j).phase = .opened (s.now + x.openTime)
  ends : ∀ j, s.demanded j = true → t.demanded j = false → (t.generator j).phase = .off
  stands : ∀ j, s.demanded j = true → t.demanded j = true → (t.generator j).phase = (s.generator j).phase
  rests : ∀ j, s.demanded j = false → t.demanded j = false → (s.generator j).phase = .off → (t.generator j).phase = .off

/-- R104, R106: a present generator is OFF if and only if its tremulant is not demanded; an absent one is OFF. -/
structure TremulantLaw (s : State) : Prop where
  present : ∀ j x, s.tremulant j = some x → j < s.generators.length → ((s.generator j).phase = .off ↔ s.demanded j = false)
  absent : ∀ j, s.tremulant j = none → (s.generator j).phase = .off

/-! ## Serving the strike queue (R72) -/

/-- An output that a pass looks at may start its stroke: it is IDLE and none has started there in the pass, its port is ACTIVE, the supply
GOOD, and its load fits with the port's and with the strokes started before it in the pass (R69, R72). -/
def State.mayStart (s : State) (started : List Addr) (a : Addr) : Bool :=
  match s.ports[a.port]?, s.portEntry a.port with
  | some pt, some e =>
    decide (s.stroke a = some .idle ∧ a ∉ started ∧ pt.state = .active ∧ s.supply.state = .good ∧
      pt.load + ((started.filter fun b => decide (b.port = a.port)).map s.strikeLoad).sum + s.strikeLoad a ≤ e.budget)
  | _, _ => false

/-- The outputs whose strokes a pass starts, looking at the entries from the oldest to the newest, behind those started before (R72). -/
def State.starting (s : State) (started : List Addr) : List QueuedStrike → List Addr
  | [] => started
  | x :: rest => s.starting (if s.mayStart started x.out then started ++ [x.out] else started) rest

/-! ## Records -/

/-- A link's count on a record (R52). -/
def Record.linkCount (l : Link) (r : Record) : Nat :=
  match l with
  | .one => r.link1
  | .two => r.link2

/-- Two tables agree in everything but stroke states. -/
def SameClaims (s t : State) : Prop :=
  t.table.map (fun r => { r with stroke := none }) = s.table.map (fun r => { r with stroke := none })

/-- Every count that is not the link's own stands as it was (R41, R52). -/
def OtherCountsKept (l : Link) (s t : State) : Prop :=
  ∀ x r, s.record x = some r →
    ∃ r', t.record x = some r' ∧ r'.owner = r.owner ∧ r'.linkCount (otherLink l) = r.linkCount (otherLink l) ∧ r'.cue = r.cue

/-- The claims of R54 that stand on a target: the (key, stop) pairs such that the stop is drawn on the link, the key is held at a level
the stop's touch admits, and the stop resolves the key there under the link's effective transposition. -/
def State.standing (s : State) (l : Link) (x : Target) : Nat :=
  ((s.reg l).stops.map fun i =>
    match s.stop i with
    | some st => (allKeys.filter fun k =>
        st.touch.admits ((s.reg l).level st.division k) && decide (s.resolve st k (s.reg l).effective = some x)).length
    | none => 0).sum

/-- The unit after a record completes, the last completed record and run count already taken: END, SUSPEND AFTER, the runaway guard, or
on to the next record (R149, R150, R155). -/
def CueUnit.onward (i : Nat) (body : CueBody) (c : CueUnit) : CueUnit :=
  match body.next with
  | none => { c with state := .idle, current := some i, pendingGo := false, owner := none, stopReason := some .ended }
  | some n =>
    if body.suspendAfter then { c with state := .suspended .running, current := some n }
    else if 64 ≤ c.runCount then
      { c with state := .idle, current := some i, pendingGo := false, owner := none, stopReason := some .runaway }
    else { c with state := .running, current := some n }

/-- What the completion of a record tells, in the state it leaves: CUE DONE where INDICATE is set, then CUE STOPPED where the unit has gone
IDLE, for END where the list ends and else for the runaway guard (R149, R155). -/
def State.completionNotices (t : State) (i : Nat) (body : CueBody) : List Notice :=
  (if body.indicate then [.cueDone i] else []) ++
    (if t.cue.state = .idle then [.cueStopped (if body.next = none then .ended else .runaway) (some i)] else [])

/-- The unit stopped for a reason (R155). -/
def CueUnit.stopped (reason : StopReason) (c : CueUnit) : CueUnit :=
  { c with state := .idle, pendingGo := false, owner := none, stopReason := some reason }

/-! ## Ranges (R139, R160) -/

/-- The operands of an action lie in the ranges of R139. -/
def Action.InRange : Action → Prop
  | .strike source note => source < 64 ∧ ∀ n ∈ note, n < 128
  | .hold source note _ => source < 64 ∧ ∀ n ∈ note, n < 128
  | .figure f _ => f < 16
  | .express k position => k < 4 ∧ position < 128
  | .tempo scale => 50 ≤ scale ∧ scale ≤ 200
  | .tremulant j _ => j < 8
  | .wait d => 1 ≤ d ∧ d ≤ 60000
  | .awaitGo => True

/-- A record's next field and operands lie in their ranges (R138, R139). -/
def CueBody.InRange (b : CueBody) : Prop := (∀ n ∈ b.next, n < 512) ∧ b.action.InRange

/-- The ranges of an interface (R160, R167, R169). -/
structure LinkIf.InRange (i : LinkIf) : Prop where
  input : i.input.length ≤ 64
  replies : i.replies.length ≤ 8
  notices : i.notices.length ≤ 16
  marks : 1 ≤ i.low ∧ i.low < i.high ∧ i.high ≤ 64
  silenceTime : 50 ≤ i.silenceTime ∧ i.silenceTime ≤ 2000

/-- Values of the part in the ranges their rules give: both interfaces (R160), transpositions, drawn stops and tabs (R25), Cue counts
(R52), channels (R110), tempo scale (R96), figure steps (R16, R89), deferral limit and strike queue (R70, R74), reiteration set (R78),
cue memory (R139), current and last completed record and run count (R142, R150). -/
structure InRanges (s : State) : Prop where
  links : ∀ l, (s.link l).InRange
  transpositions : ∀ l, -6 ≤ (s.reg l).requested ∧ (s.reg l).requested ≤ 6 ∧ -6 ≤ (s.reg l).effective ∧ (s.reg l).effective ≤ 6
  drawn : s.store.tables.stops.length ≤ 192 ∧ ∀ l, ∀ i ∈ (s.reg l).stops, i < 192
  tabs : ∀ l, ∀ j ∈ (s.reg l).tabs, j < 8
  cueCounts : ∀ r ∈ s.table, r.cue ≤ 255
  channels : ∀ p ∈ s.shutters.channels, p < 128
  tempo : 50 ≤ s.figures.tempo ∧ s.figures.tempo ≤ 200
  steps : (∀ f, some f ∈ s.store.tables.figures → f.steps.length ≤ 32) ∧ ∀ run, some run ∈ s.figures.players → run.step < 32
  deferral : 5 ≤ s.sched.deferral ∧ s.sched.deferral ≤ 100
  strikes : s.sched.queue.length ≤ 64
  reiterations : s.sched.reiterations.length ≤ 64
  memory : ∀ c, some c ∈ s.memory → c.body.InRange
  record : (∀ i ∈ s.cue.current, i < 512) ∧ ∀ i ∈ s.cue.lastCompleted, i < 512
  runCount : s.cue.runCount ≤ 64 ∧ (s.cue.state = .running → s.cue.runCount < 64)

/-- The number of stages of a chamber: none unless its entry has some (R13). -/
def State.stages (s : State) (c : Nat) : Nat :=
  match s.chamber c with
  | some (.enclosed n _ _ _) => n
  | some .unenclosed => 0
  | none => 0

/-- Ranges that the specification sets: a chamber's current stage lies in 0..S (R116), a port's history holds at most 15 trips (R119), and
fewer than its lockout count, 2 to 15, while it is not LOCKED (R15, R124). -/
structure PlayRanges (s : State) : Prop where
  stages : ∀ c, (s.chamberState c).current ≤ s.stages c
  lockouts : ∀ p e, s.portEntry p = some e → 2 ≤ e.lockout ∧ e.lockout ≤ 15
  histories : ∀ (p : Nat) (pt : Port), s.ports[p]? = some pt → pt.history.length ≤ 15 ∧
    (pt.state ≠ .locked → ∀ e, s.portEntry p = some e → pt.history.length < e.lockout)

/-! ## The laws the rules own -/

/-- R120: an output is energized if and only if it has drive demand, its port is ACTIVE and the supply GOOD. -/
def EnergizedLaw (s : State) : Prop :=
  ∀ a : Addr, s.energized (.output a) = true ↔
    (∃ r ∈ s.table, r.target = .output a ∧ s.demands r = true) ∧ s.portActive a.port = true ∧ s.supplyGood = true

/-- R121: a port's computed load is the sum of the loads of its records with drive demand while it drives, and 0 while it does not. -/
def LoadLaw (s : State) : Prop :=
  ∀ p pt, s.ports[p]? = some pt →
    pt.load = if pt.state = .active ∧ s.supply.state = .good then
      ((s.table.filter fun r => r.onPort p && s.demands r).map s.recordLoad).sum else 0

/-- R70: the strike queue never holds more than 64 entries, never two for one output, never one older than the deferral limit. -/
structure StrikeQueueLaw (s : State) : Prop where
  size : s.sched.queue.length ≤ 64
  distinct : (s.sched.queue.map (·.out)).Nodup
  young : ∀ e ∈ s.sched.queue, s.now ≤ e.joined + s.sched.deferral

/-- R155: while the cue unit is IDLE, every Cue count is 0, every Cue flag clear, no player has CUE, pending GO is clear. -/
structure CueIdleLaw (s : State) : Prop where
  counts : s.cue.state = .idle → ∀ r ∈ s.table, r.cue = 0
  flags : s.cue.state = .idle → ∀ g ∈ s.generators, g.cueFlag = false
  owners : s.cue.state = .idle → ∀ run, some run ∈ s.figures.players → run.owners.cue = false
  go : s.cue.state = .idle → s.cue.pendingGo = false

/-- R33: a link that holds no key has its effective transposition at the requested one. -/
def TranspositionLaw (s : State) : Prop := ∀ l, (s.reg l).holdsNoKey = true → (s.reg l).effective = (s.reg l).requested

/-- R89: at most one player runs any one figure, and a RUNNING player's owner set is never empty. -/
structure PlayerLaw (s : State) : Prop where
  single : ∀ p q a b, s.playing p = some a → s.playing q = some b → a.figure = b.figure → p = q
  owned : ∀ p a, s.playing p = some a → a.owners.isEmpty = false

/-- R40, R171, but for the counts of the demand table: a DOWN link has an empty registration, empty queues and lists, an idle
transmitter, FLOWING, no silence timer and no reset pending. The key maps have their 6 x 64 places. -/
structure DownLaw (s : State) : Prop where
  places : ∀ l, (s.reg l).keys.length = 384
  registration : ∀ l, (s.link l).state = .down → s.reg l = Registration.empty
  silent : ∀ l, (s.link l).state = .down →
    (s.link l).input = [] ∧ (s.link l).replies = [] ∧ (s.link l).notices = [] ∧ (s.link l).transmitter = .idle ∧
    (s.link l).flow = .flowing ∧ (s.link l).silenceTimer = none ∧ (s.link l).resetPending = false

/-- R51: no two records of the demand table stand for one target. -/
def TargetsDistinct (s : State) : Prop := (s.table.map (·.target)).Nodup

/-- R54: for each link and each record, the link's count is the number of its claims that stand. -/
def ClaimLaw (s : State) : Prop := ∀ l, ∀ r ∈ s.table, r.linkCount l = s.standing l r.target

/-- The shapes in which R54's triples are counted: one record for each target (R51), the key maps of 6 x 64 places, no stop drawn twice
(R25), and at most six divisions of at most 64 keys (R9). -/
structure ClaimsShaped (s : State) : Prop where
  targets : TargetsDistinct s
  places : ∀ l, (s.reg l).keys.length = 384
  stops : ∀ l, (s.reg l).stops.Nodup
  divisions : s.store.tables.divisions.length ≤ 6 ∧ ∀ d n, s.division d = some n → n ≤ 64

/-- R65: every stroke record stands on an output whose source gives it a stroke and a rest time. -/
def StrokesTimed (s : State) : Prop :=
  ∀ r ∈ s.table, r.stroke ≠ none → (s.strikeTimes r).isSome = true ∧ ∃ a, r.target = .output a

/-- Outside READY nothing plays (R3, R38, R51, R101, R104, R117, R119, R142). -/
structure RestOutsideReady (s : State) : Prop where
  table : s.engine ≠ .ready → s.table = []
  scheduler : s.engine ≠ .ready → s.sched.queue = [] ∧ s.sched.reiterations = [] ∧ s.sched.dampers = []
  players : s.engine ≠ .ready → ∀ p ∈ s.figures.players, p = none
  generators : s.engine ≠ .ready → ∀ g ∈ s.generators, g = { phase := .off, cueFlag := false }
  chambers : s.engine ≠ .ready → ∀ c ∈ s.shutters.chambers, c = { current := 0, timer := none }
  ports : s.engine ≠ .ready → ∀ pt ∈ s.ports, pt = Port.atPowerOn pt.overload
  registrations : s.engine ≠ .ready → ∀ l, s.reg l = Registration.empty
  unit : s.engine ≠ .ready → s.cue.state = .idle

/-! ## The commit check (R18) -/

/-- The address lies on the note outputs of a rank or percussion: H - L + 1 from base upward, and base alone where L exceeds H (R11). -/
def OnNotes (c : Compass) (o : Outlet) (a : Addr) : Prop :=
  a.port = o.port ∧ o.base ≤ a.index ∧ a.index ≤ o.base + (c.high - c.low)

/-- An entry occupies an address (R11, R13, R14). That a percussion with L greater than H still occupies its damper's is log 32. -/
def Tables.Occupies (t : Tables) (table : TableName) (i : Nat) (a : Addr) : Prop :=
  match table with
  | .source =>
    match t.sources[i]?.join with
    | some (.rank c o) => OnNotes c o a
    | some (.percussion c o _ _ d) => OnNotes c o a ∨ ∃ dm ∈ d, dm.out = a
    | some (.trap o _ _) => a = { port := o.port, index := o.base }
    | some (.figureTrap _) | none => False
  | .chamber =>
    match t.chambers[i]?.join with
    | some (.enclosed n o _ _) => a.port = o.port ∧ o.base ≤ a.index ∧ a.index < o.base + n
    | some .unenclosed | none => False
  | .tremulant =>
    match t.tremulants[i]?.join with
    | some x => a = { port := x.o.port, index := x.o.base }
    | none => False
  | .division | .stop | .port | .figure => False

/-- An entry labels a record: what the record of the address stands for (R11, R19, R51, R52). -/
def Tables.Owns (t : Tables) (owner : Owner) (a : Addr) : Prop :=
  let note (c : Compass) (o : Outlet) (n : Nat) := c.low ≤ n ∧ n ≤ c.high ∧ a = { port := o.port, index := o.base + (n - c.low) }
  match owner with
  | .rank i n => ∃ c o, t.sources[i]?.join = some (.rank c o) ∧ note c o n
  | .percussion i n => ∃ c o k m d, t.sources[i]?.join = some (.percussion c o k m d) ∧ note c o n
  | .trap i mode => ∃ o k, t.sources[i]?.join = some (.trap o k mode) ∧ a = { port := o.port, index := o.base }
  | .damper i => ∃ c o k m d, t.sources[i]?.join = some (.percussion c o k m (some d)) ∧ a = d.out
  | .stage c k => ∃ n o channel x, t.chambers[c]?.join = some (.enclosed n o channel x) ∧ 1 ≤ k ∧ k ≤ n ∧
      a = { port := o.port, index := o.base + (k - 1) }
  | .valve j => ∃ x, t.tremulants[j]?.join = some x ∧ a = { port := x.o.port, index := x.o.base }
  | .figureClaim _ => False

/-- The records that have a stroke record (R65). -/
def Owner.struck : Owner → Bool
  | .percussion _ _ | .trap _ _ => true
  | .rank _ _ | .damper _ | .stage _ _ | .valve _ | .figureClaim _ => false

/-- The place of a table in R18's order of search, which for every kind of failure goes through its tables in this order. -/
def TableName.place : TableName → Nat
  | .stop => 0
  | .source => 1
  | .figure => 2
  | .chamber => 3
  | .tremulant => 4
  | .division => 5
  | .port => 6

/-- The place of a kind of failure in R18's order. -/
def FailureKind.place : FailureKind → Nat
  | .noPort => 1
  | .outOfPort => 2
  | .overlap => 3
  | .badCompass => 4
  | .badTiming => 5
  | .badLink => 6

/-- An entry is searched before another: in an earlier table, or earlier in the same one (R18). -/
def SearchedBefore (a : TableName) (i : Nat) (b : TableName) (j : Nat) : Prop := a.place < b.place ∨ a = b ∧ i < j

/-- The entry is at fault in a kind of failure, by the rows of R18's table. -/
def Tables.Fault (t : Tables) (kind : FailureKind) (table : TableName) (i : Nat) : Prop :=
  let gone (p : Nat) := t.ports[p]?.join = none
  match kind, table with
  | .noPort, .source =>
    match t.sources[i]?.join with
    | some (.rank _ o) | some (.trap o _ _) => gone o.port
    | some (.percussion _ o _ _ d) => gone o.port ∨ ∃ dm ∈ d, gone dm.out.port
    | some (.figureTrap _) | none => False
  | .noPort, .chamber => ∃ n o k x, t.chambers[i]?.join = some (.enclosed n o k x) ∧ gone o.port
  | .noPort, .tremulant => ∃ x, t.tremulants[i]?.join = some x ∧ gone x.o.port
  | .outOfPort, .source =>
    match t.sources[i]?.join with
    | some (.rank c o) | some (.percussion c o _ _ _) => c.low ≤ c.high ∧ 511 < o.base + c.high - c.low
    | some (.trap _ _ _) | some (.figureTrap _) | none => False
  | .outOfPort, .chamber => ∃ n o k x, t.chambers[i]?.join = some (.enclosed n o k x) ∧ 511 < o.base + n - 1
  | .overlap, table => ∃ a, t.Occupies table i a ∧
      ((∃ other j, SearchedBefore other j table i ∧ t.Occupies other j a) ∨
        table = .source ∧ ∃ c o k m dm, t.sources[i]?.join = some (.percussion c o k m (some dm)) ∧ OnNotes c o a ∧ dm.out = a)
  | .badCompass, .source =>
    match t.sources[i]?.join with
    | some (.rank c _) | some (.percussion c _ _ _ _) => c.high < c.low
    | some (.trap _ _ _) | some (.figureTrap _) | none => False
  | .badTiming, .source =>
    match t.sources[i]?.join with
    | some (.percussion _ _ k (.reiterate interval) _) | some (.trap _ k (.reiterate interval)) => interval < k.stroke + k.rest
    | some (.percussion _ _ _ .single _) | some (.trap _ _ .single) | some (.trap _ _ .hold) | some (.rank _ _)
    | some (.figureTrap _) | none => False
  | .badTiming, .chamber => ∃ n o k, t.chambers[i]?.join = some (.enclosed n o k none)
  | .badLink, .stop => ∃ x, t.stops[i]?.join = some x ∧ (t.sources[x.source]?.join = none ∨ t.divisions[x.division]?.join = none)
  | .badLink, .source => ∃ f, t.sources[i]?.join = some (.figureTrap f) ∧ t.figures[f]?.join = none
  | .badLink, .figure => ∃ f, t.figures[i]?.join = some f ∧
      ∃ v ∈ f.voices, ∀ o k m, t.sources[v]?.join ≠ some (.trap o k m)
  | _, _ => False

/-- The failure that R18 reports: an entry at fault, with none at fault in an earlier kind, and none searched before it in its own. -/
structure Tables.FirstFault (t : Tables) (f : Failure) : Prop where
  fault : t.Fault f.kind f.table f.entry
  kinds : ∀ kind table i, kind.place < f.kind.place → ¬ t.Fault kind table i
  entries : ∀ table i, SearchedBefore table i f.table f.entry → ¬ t.Fault f.kind table i

/-! ## What the reading commands report (R64, R175, R179) -/

/-- A value reported as none takes the absent marker of its size (R174). -/
def orNone (v : Option Nat) : Byte := (v.map byteOf).getD 0xFF

/-- Two bytes, high byte first, or 0xFFFF for none (R174). -/
def orNone2 (v : Option Nat) : List Byte := (v.map fun n => [byteOf (n / 256), byteOf n]).getD [0xFF, 0xFF]

/-- The status prefix, by the bits and bytes of R174 (R168, R176). -/
def State.prefixBytes (s : State) (l : Link) : List Byte :=
  let engine : Byte := match s.engine with | .unconfigured => 0 | .loading => 64 | .checking => 128 | .ready => 192
  let unit : Byte := match s.cue.state with | .idle => 0 | .running => 8 | .timing _ => 16 | .awaiting => 24 | .suspended _ => 32
  let low : Byte := match s.supply.state with | .low => 4 | .good => 0
  let down : Byte :=
    if s.engine = .ready ∧ ∃ p ∈ List.range 8, s.portEntry p ≠ none ∧ (s.ports[p]?).map (fun pt : Port => pt.state) ≠ some .active
    then 2 else 0
  let held : Byte := match (s.link l).flow with | .held => 1 | .flowing => 0
  [engine + unit + low + down + held, byteOf (s.link l).notices.length] ++ orNone2 s.cue.lastCompleted

/-- The number of a reply code in byte 6 (R174). -/
def ReplyCode.number : ReplyCode → Byte
  | .ok => 0 | .busy => 1 | .badState => 2 | .badArgument => 3 | .checkFailed => 4 | .unknownKind => 5 | .full => 6 | .inUse => 7
  | .notWritten => 8

/-- A notice from byte 4 on: its kind and its fields (R174). -/
def Notice.fields : Notice → List Byte
  | .portTripped p n => [1, byteOf p, byteOf n]
  | .portLocked p n => [2, byteOf p, byteOf n]
  | .portRestored p n => [3, byteOf p, byteOf n]
  | .supplyLow => [4]
  | .supplyGood => [5]
  | .linkUp .one => [6, 1]
  | .linkUp .two => [6, 2]
  | .linkDown .one => [7, 1]
  | .linkDown .two => [7, 2]
  | .hold => [8]
  | .resume => [9]
  | .cueDone i => [10, byteOf (i / 256), byteOf i]
  | .cueStopped reason i =>
    [11, match reason with
      | .ended => 1 | .aborted => 2 | .chainBroken => 3 | .failed => 4 | .runaway => 5 | .silenced => 6 | .reset => 7 | .ownerLost => 8]
      ++ orNone2 i

/-- The values of a STATUS reply in the order of R175's table, each in the bytes of R174. -/
def State.statusReply (s : State) : List Byte :=
  let link (l : Link) : List Byte :=
    [match (s.link l).state with | .down => 0 | .up => 1, match (s.link l).flow with | .flowing => 0 | .held => 1,
      BitVec.ofInt 8 (s.reg l).requested, BitVec.ofInt 8 (s.reg l).effective]
  let port (pt : Port) : List Byte :=
    [match pt.state with | .off => 0 | .active => 1 | .tripped => 2 | .locked => 3, byteOf (pt.load / 256), byteOf pt.load,
      byteOf pt.history.length]
  let player (run : Option Run) : List Byte :=
    [match run with | some _ => 1 | none => 0, orNone (run.map (·.figure)), orNone (run.map (·.step)),
      match run with
      | some r => (if r.owners.claim then 1 else 0) + (if r.owners.cue then 2 else 0) + (if r.owners.link1 then 4 else 0) +
          (if r.owners.link2 then 8 else 0)
      | none => 0]
  let chamber (c : Nat) : List Byte :=
    match s.engine, s.chamber c with
    | .ready, some (.enclosed stages _ channel _) =>
      [byteOf (s.chamberState c).current, byteOf (((s.channel channel) * stages + 64) / 128)]
    | _, _ => [0xFF, 0xFF]
  let engine : List Byte := [match s.engine with | .unconfigured => 0 | .loading => 1 | .checking => 2 | .ready => 3]
  let check : List Byte :=
    match s.store.lastCheck with
    | .none => [0, 0xFF, 0xFF, 0xFF]
    | .passed => [1, 0xFF, 0xFF, 0xFF]
    | .failed f =>
      [2,
        match f.kind with | .noPort => 0 | .outOfPort => 1 | .overlap => 2 | .badCompass => 3 | .badTiming => 4 | .badLink => 5,
        match f.table with
        | .division => 0 | .source => 1 | .stop => 2 | .chamber => 3 | .tremulant => 4 | .port => 5 | .figure => 6,
        byteOf f.entry]
  let supply : List Byte := [match s.supply.state with | .low => 0 | .good => 1]
  let unit : List Byte :=
    [match s.cue.state with | .idle => 0 | .running => 1 | .timing _ => 2 | .awaiting => 3 | .suspended _ => 4]
  let owner : List Byte :=
    [match s.cue.owner with | some .one => 1 | some .two => 2 | none => 0xFF,
      match s.cue.stopReason with
      | none => 0 | some .ended => 1 | some .aborted => 2 | some .chainBroken => 3 | some .failed => 4 | some .runaway => 5
      | some .silenced => 6 | some .reset => 7 | some .ownerLost => 8]
  let phases : List Byte := s.generators.map fun g => match g.phase with | .off => 0 | .opened _ => 1 | .closed _ => 2
  engine ++ check ++ link .one ++ link .two ++ s.ports.flatMap port ++ supply ++ unit ++ orNone2 s.cue.current ++ owner
    ++ orNone2 s.cue.lastCompleted ++ s.figures.players.flatMap player ++ [0, 1, 2, 3].flatMap chamber ++ phases
    ++ [byteOf s.figures.tempo]

/-- The counters in index order, each as four bytes, high byte first (R179). -/
def counterReply (counters : List Nat) : List Byte :=
  counters.flatMap fun n => [byteOf (n / 16777216), byteOf (n / 65536), byteOf (n / 256), byteOf n]

/-- The address of a reply: port and two-byte index, or absent for a claim record (R64, R174). -/
def addressReply : Target → List Byte
  | .output a => [byteOf a.port, byteOf (a.index / 256), byteOf a.index]
  | .claim _ => [0xFF, 0xFF, 0xFF]

/-- The contents of a QUERY OUTPUT reply on a record, in the order of R64's table, each in the bytes of R174: owner, address, the three
counts, total, drive demand (R57), whether its port carries current on it (R120), stroke state. -/
def State.recordReply (s : State) (r : Record) : List Byte :=
  let yes (b : Bool) : Byte := if b then 1 else 0
  let total := r.link1 + r.link2 + r.cue
  let owner : List Byte :=
    match r.owner with
    | .rank i n => [0, byteOf i, byteOf n]
    | .percussion i n => [1, byteOf i, byteOf n]
    | .trap i .single => [2, byteOf i, 0]
    | .trap i (.reiterate _) => [2, byteOf i, 1]
    | .trap i .hold => [2, byteOf i, 2]
    | .damper i => [3, byteOf i, 0xFF]
    | .stage c k => [4, byteOf c, byteOf k]
    | .valve j => [5, byteOf j, 0xFF]
    | .figureClaim i => [6, byteOf i, 0xFF]
  let carries : Bool :=
    match r.target with
    | .output a => (s.ports[a.port]?).any fun pt => pt.energized.contains a.index
    | .claim _ => false
  let stroke : Byte := match r.stroke with | some .idle => 0 | some (.striking _) => 1 | some (.resting _) => 2 | none => 3
  owner ++ addressReply r.target
    ++ [byteOf (r.link1 / 256), byteOf r.link1, byteOf (r.link2 / 256), byteOf r.link2, byteOf r.cue,
      byteOf (total / 65536), byteOf (total / 256), byteOf total, yes (s.demands r), yes carries, stroke]

end Sys2Proof.Machine
end

