-- ==== Sys2Proof/Certificates/Slice0/Obligations.lean ====
section
/-! DEFINITION. The statements about the part, from the numbered rules of spec/: the step, the laws every step keeps, the arithmetic of
resolution and timing, the layouts, the shared operations, and for every command of the table where it completes and what it leaves.
Each is a proposition; none is proved here. A statement about a command takes a state in which the event before is done (`Done`), and
`EveryStepLeavesTheEventDone` says that every step gives one. -/

open Sys2Proof Sys2Proof.Machine

/-! ## The step and the start -/

/-- The step carries out the command at the front of the queue, on the state with the queue's rest. -/
def Obligations.StepRunsTheCommandAtTheFront : Prop :=
  ∀ (c : Instr) (rest : List Instr) (s : State), s.pending = c :: rest → step s = exec c { s with pending := rest }

/-- The model's choice (logs 1, 2): on an empty queue the step carries out the first of the part's own events that is due, and one
millisecond passes only when none is. -/
def Obligations.StepOnAnEmptyQueueRunsADueEventOrPassesTime : Prop :=
  ∀ s : State, s.pending = [] →
    (∀ c rest, s.ownEvents = c :: rest → step s = exec c s) ∧
    (s.ownEvents = [] → step s = .next { s with now := s.now + 1 })

/-- POWER_ON leaves every block at the power-on value its rule gives (R3, R25, R51, R70, R74, R78, R89, R96, R103, R110, R117, R119, R131,
R138, R142, R160, R178): the strap and the inputs as read, the dwell started when the supply stands above its threshold. That the clock
and the queue go on is the model's choice (log 17). -/
def Obligations.PowerOnLeavesThePowerOnValues : Prop :=
  ∀ (rate : LinkRate) (supplyUp : Bool) (overs : BitVec 8) (s : State),
    let link : LinkIf :=
      { state := .down, receiver := .hunting, silenceTimer := none, silenceTime := 250, input := [], flow := .flowing, low := 16,
        high := 48, replies := [], notices := [], transmitter := .idle, resetPending := false }
    let registration : Registration := { keys := List.replicate 384 .released, stops := [], tabs := [], requested := 0, effective := 0 }
    exec (.powerOn rate supplyUp overs) s = .next
      { now := s.now
        rate := rate
        store := { engine := .unconfigured, lastCheck := .none, checkBegan := none, tables :=
          { divisions := List.replicate 6 none, sources := List.replicate 64 none, stops := List.replicate 192 none,
            chambers := List.replicate 4 none, tremulants := List.replicate 8 none, ports := List.replicate 8 none,
            figures := List.replicate 16 none } }
        links := { one := link, two := link }
        regs := { one := registration, two := registration }
        table := []
        sched := { queue := [], reiterations := [], dampers := [], deferral := 30 }
        figures := { players := List.replicate 8 none, tempo := 100 }
        generators := List.replicate 8 { phase := .off, cueFlag := false }
        shutters := { channels := List.replicate 4 0, chambers := List.replicate 4 { current := 0, timer := none } }
        ports := (List.range 8).map fun p =>
          { state := .off, energized := [], load := 0, overload := overs.getLsbD p, detect := none, off := none, history := [],
            admitted := 0 }
        supply := { state := .low, dwell := if supplyUp then some (s.now + 100) else none }
        memory := List.replicate 512 none
        cue := { state := .idle, current := none, owner := none, pendingGo := false, runCount := 0, lastCompleted := none,
                 stopReason := none }
        counters := List.replicate 32 0
        pending := s.pending }

/-- Every law that the steps keep holds at State.reset, and so does every range. -/
def Obligations.ResetMeetsEveryLaw : Prop :=
  Done State.reset ∧ EnergizedLaw State.reset ∧ LoadLaw State.reset ∧ StrikeQueueLaw State.reset ∧ CueIdleLaw State.reset ∧
  TranspositionLaw State.reset ∧ ClaimsShaped State.reset ∧ ClaimLaw State.reset ∧ PlayerLaw State.reset ∧ InRanges State.reset ∧
  PlayRanges State.reset ∧ DownLaw State.reset ∧ RestOutsideReady State.reset ∧ StrokesTimed State.reset ∧ TremulantLaw State.reset ∧
  ∀ n ∈ State.reset.counters, n = 0

/-! ## The laws that every step keeps -/

/-- Every step keeps the law of R120 and the account of R121: an output is energized if and only if it has drive demand, its port is
ACTIVE and the supply GOOD, and a port's load is the sum of the loads of what it drives. -/
def Obligations.EveryStepKeepsTheEnergizedLaw : Prop :=
  ∀ s t : State, step s = .next t → EnergizedLaw s ∧ LoadLaw s → EnergizedLaw t ∧ LoadLaw t

/-- Every step leaves the event done, if it found the event before done: the ports settled, and no idle transmitter with anything to
send. -/
def Obligations.EveryStepLeavesTheEventDone : Prop := ∀ s t : State, step s = .next t → Done s → Done t

/-- Every step keeps the law of R70: never more than 64 entries, never two for one output, never one older than the deferral limit.
That time passes only when no entry is due is the model's choice (log 1). -/
def Obligations.EveryStepKeepsTheStrikeQueueLaw : Prop :=
  ∀ s t : State, step s = .next t → StrikeQueueLaw s → StrikeQueueLaw t

/-- The law of R178, for every command: no counter passes 4,294,967,295, and none decreases except to 0 at COUNTERS READ AND CLEAR or
power-on. -/
def Obligations.CountersNeverDecreaseExceptToZero : Prop :=
  ∀ (c : Instr) (s t : State), Settled s → exec c s = .next t → ∀ i : Nat,
    (s.counters[i]?.getD 0 ≤ 4294967295 → t.counters[i]?.getD 0 ≤ 4294967295) ∧
    (s.counters[i]?.getD 0 ≤ t.counters[i]?.getD 0 ∨
      t.counters[i]?.getD 0 = 0 ∧
        ((∃ l, c = .countersReadAndClear l) ∨ ∃ rate supplyUp overs, c = .powerOn rate supplyUp overs))

/-- Every step keeps the law of R155: while the cue unit is IDLE, every Cue count is 0, every Cue flag is clear, no player has CUE among
its owners, and pending GO is clear. -/
def Obligations.EveryStepKeepsTheCueIdleLaw : Prop := ∀ s t : State, step s = .next t → CueIdleLaw s → CueIdleLaw t

/-- Every step keeps the laws of R33 and R54. A link that holds no key has its effective transposition at its requested one. While the
part rests outside READY, each link's count on each record is the number of its (key, stop) pairs that resolve there with the key held
at a level the stop's touch admits and the stop drawn; the shapes in which the pairs are counted (one record a target, key maps of 6 x 64
places, no stop drawn twice, divisions of at most 64 keys) are kept with it. -/
def Obligations.EveryStepKeepsTheTranspositionAndClaimLaws : Prop :=
  ∀ s t : State, step s = .next t →
    (TranspositionLaw s → TranspositionLaw t) ∧
    (RestOutsideReady s → ClaimsShaped s → ClaimLaw s → ClaimsShaped t ∧ ClaimLaw t)

/-- Every step keeps the law of R89: at most one player runs any one figure, and a RUNNING player's owner set is never empty. -/
def Obligations.EveryStepKeepsTheFigurePlayerLaw : Prop := ∀ s t : State, step s = .next t → PlayerLaw s → PlayerLaw t

/-- Every step keeps the ranges that `InRanges` lists: input queues of 64, reply lists of 8, notice queues of 16, marks and silence times,
transpositions, drawn stops and tabs, Cue counts of at most 255, channels, tempo scale, figure steps, deferral limit, strike queue and
reiteration set of 64, the operands in cue memory, the current and the last completed record, the run count. While the part rests outside
READY it keeps those of `PlayRanges` too: a chamber's current stage in 0..S, a trip history of at most 15 and, unless the port is LOCKED,
shorter than its lockout count of 2 to 15. Ranges that neither names are not claimed here. -/
def Obligations.EveryStepKeepsTheListedRanges : Prop :=
  ∀ s t : State, step s = .next t → InRanges s → InRanges t ∧ (RestOutsideReady s → PlayRanges s → PlayRanges t)

/-- Every step keeps the emptiness of a DOWN link: no key, stop, tab or transposition, nothing queued, nothing being sent. -/
def Obligations.EveryStepKeepsADownLinkEmpty : Prop := ∀ s t : State, step s = .next t → DownLaw s → DownLaw t

/-- Every step keeps the rest outside READY: no demand table, no strikes, no player, no pulse, no open stage, every port OFF, both
registrations empty, the cue unit IDLE; and in READY no two records of the demand table stand for one target, and every stroke record
stands on an output of a source with stroke and rest times. While the part so rests, every step keeps the law of R104 and R106 too: a
present generator is OFF if and only if its tremulant is not demanded, and an absent one is OFF. -/
def Obligations.EveryStepKeepsTheRestOutsideReady : Prop :=
  ∀ s t : State, step s = .next t →
    (RestOutsideReady s ∧ TargetsDistinct s ∧ StrokesTimed s → RestOutsideReady t ∧ TargetsDistinct t ∧ StrokesTimed t) ∧
    (RestOutsideReady s ∧ TremulantLaw s → TremulantLaw t)

/-- The engine state changes only as the table of engine states has it. The tables change only by the writes while LOADING, and become
blank only by a SPEC BEGIN BLANK taken outside CHECKING, by a FULL RESET taking effect on a link with the reset pending, and at
power-on. -/
def Obligations.EngineAndTablesChangeOnlyAsTheManualSays : Prop :=
  ∀ (c : Instr) (s t : State), exec c s = .next t →
    (t.engine = s.engine ∨
      (∃ l, c = .specBegin l ∧ s.engine ≠ .checking ∧ t.engine = .loading) ∨
      (∃ l, c = .specCommit l ∧ s.engine = .loading ∧ t.engine = .checking) ∨
      (c = .checkCompletion ∧ s.engine = .checking ∧
        (t.engine = .ready ∧ t.store.lastCheck = .passed ∨ t.engine = .loading ∧ ∃ f, t.store.lastCheck = .failed f)) ∨
      (∃ l, (c = .transmitEnd l ∨ c = .fullResetTakesEffect l ∨ c = .silenceTimerExpiry l) ∧ (s.link l).resetPending = true ∧
        t.engine = .unconfigured) ∨
      (∃ rate supplyUp overs, c = .powerOn rate supplyUp overs ∧ t.engine = .unconfigured)) ∧
    (t.store.tables = s.store.tables ∨
      t.store.tables = Tables.blank ∧
        ((∃ l tag, c = .specBegin l ∧ Waits s l 0x20 [tag, 1] ∧ s.engine ≠ .checking ∧ t.engine = .loading) ∨
          (∃ l, (c = .transmitEnd l ∨ c = .fullResetTakesEffect l ∨ c = .silenceTimerExpiry l) ∧ (s.link l).resetPending = true ∧
            t.engine = .unconfigured) ∨
          ∃ rate supplyUp overs, c = .powerOn rate supplyUp overs) ∨
      s.engine = .loading ∧ t.engine = .loading ∧ ∃ l, c ∈ [.specDivision l, .specSource l, .specStop l, .specChamber l,
        .specTremulant l, .specPort l, .specFigure l])

/-- Cue memory keeps its contents through every command but CUE WRITE and the work of the unit itself (a record taken, a wait ended, a GO,
a resume, an abort), and POWER_ON. -/
def Obligations.CueMemoryIsKeptByEveryOtherCommand : Prop :=
  ∀ (c : Instr) (s t : State), exec c s = .next t →
    (∀ l, c ≠ .cueWrite l ∧ c ≠ .go l ∧ c ≠ .cueResume l ∧ c ≠ .cueAbort l) → c ≠ .takeRecord → c ≠ .waitTimerExpiry →
    (∀ rate supplyUp overs, c ≠ .powerOn rate supplyUp overs) → t.memory = s.memory

/-- A message from one link changes only its own registration block: KEY CHANGE, STOP CHANGE, TREMULANT TAB, REGISTRATION, TRANSPOSE and
LINK RELEASE leave the other link's keys, stops, tabs and transpositions as they were. -/
def Obligations.ALinksMessagesLeaveTheOtherRegistration : Prop :=
  ∀ (l : Link) (c : Instr) (s t : State),
    c ∈ [.keyChange l, .stopChange l, .tremulantTab l, .registration l, .transpose l, .linkRelease l] → exec c s = .next t →
    t.reg (otherLink l) = s.reg (otherLink l)

/-! ## Resolution and times -/

/-- R46: above the compass, fold NONE gives no claim, and fold TOP or BOTH the highest note of the compass a whole number of octaves
below the raw note, or no claim where the compass has none; a compass of twelve or more notes always has one. -/
def Obligations.FoldingDownReachesTheHighestOctaveInTheCompass : Prop :=
  ∀ (c : Compass) (n : Int), (c.high : Int) < n →
    (c.fold = .off → resolveNote c n = none) ∧
    (c.fold ≠ .off → ∀ m : Nat, resolveNote c n = some m ↔
      c.low ≤ m ∧ m ≤ c.high ∧ c.high < m + 12 ∧ ∃ k : Nat, n = (m : Int) + 12 * k) ∧
    (c.fold ≠ .off → c.low + 11 ≤ c.high → (resolveNote c n).isSome = true)

/-- R47: below the compass, fold NONE or TOP gives no claim, and fold BOTH the lowest note of the compass a whole number of octaves above
the raw note, or no claim where the compass has none. -/
def Obligations.FoldingUpReachesTheLowestOctaveInTheCompass : Prop :=
  ∀ (c : Compass) (n : Int), n ≤ (c.high : Int) → n < (c.low : Int) →
    (c.fold ≠ .both → resolveNote c n = none) ∧
    (c.fold = .both → ∀ m : Nat, resolveNote c n = some m ↔
      c.low ≤ m ∧ m ≤ c.high ∧ m < c.low + 12 ∧ ∃ k : Nat, (m : Int) = n + 12 * k)

/-- R44, R45, R48: a claim on a rank or percussion is for a note of its compass and reaches the output at base + note - L of its port;
within the compass the note is the raw note 36 + k + t + o. A trap's stop reaches the trap's output, or its claim record, whatever the
key, the transposition and the offset. -/
def Obligations.ResolutionReachesTheOutputOfTheNote : Prop :=
  ∀ (s : State) (st : Stop) (key : Nat) (t : Int),
    (∀ c o x, s.source st.source = some (.rank c o) ∨ (∃ k m d, s.source st.source = some (.percussion c o k m d)) →
      (s.resolve st key t = some x →
        ∃ n, c.low ≤ n ∧ n ≤ c.high ∧ x = .output { port := o.port, index := o.base + n - c.low }) ∧
      (∀ n : Nat, (n : Int) = 36 + key + t + st.offset → c.low ≤ n → n ≤ c.high →
        s.resolve st key t = some (.output { port := o.port, index := o.base + n - c.low }))) ∧
    (∀ o k m, s.source st.source = some (.trap o k m) →
      s.resolve st key t = some (.output { port := o.port, index := o.base })) ∧
    (∀ f, s.source st.source = some (.figureTrap f) → s.resolve st key t = some (.claim st.source))

/-- R105, R112, R96 over their ranges: a period of 67 to 500 ms split into an open and a closed time of at least 13 ms each; a target
within the stages, all of them at 127 and none at 0; a scaled duration of 10 to 4000 ms that a scale of 100 leaves as it is. -/
def Obligations.PulseTimesTargetsAndScaledDurationsKeepTheirBounds : Prop :=
  (∀ t : Tremulant, 20 ≤ t.rate → t.rate ≤ 150 → 20 ≤ t.duty → t.duty ≤ 80 →
    67 ≤ t.period ∧ t.period ≤ 500 ∧ 13 ≤ t.openTime ∧ 13 ≤ t.closedTime ∧ t.openTime + t.closedTime = t.period) ∧
  (∀ position stages : Nat, position ≤ 127 → stages ≤ 16 →
    stageTarget position stages ≤ stages ∧ stageTarget 127 stages = stages ∧ stageTarget 0 stages = 0) ∧
  (∀ d scale : Nat, 10 ≤ d → d ≤ 2000 → 50 ≤ scale → scale ≤ 200 →
    10 ≤ scaledDuration d scale ∧ scaledDuration d scale ≤ 4000 ∧ scaledDuration d 100 = d)

/-! ## Layouts -/

/-- The nine bytes of a cue record, as CUE READ sends them and CUE WRITE carries them after its tag and index, read back to the record
they were written from, whatever its next field, action, operands and flags. -/
def Obligations.CueRecordBytesReadBackToTheRecord : Prop :=
  ∀ (i : Nat) (b : CueBody), i < 512 → b.InRange → readCueWrite (bytes2 i ++ b.bytes) = some { index := i, body := b }

/-- A frame built by the part's own rule is taken by a HUNTING receiver, byte by byte at one moment, as one good frame with its kind and
body, whatever the bytes of the body. -/
def Obligations.AFrameIsReceivedAsTheMessageItWasBuiltFrom : Prop :=
  ∀ (l : Link) (kind : Byte) (body : List Byte) (s : State), (s.link l).receiver = .hunting → body.length ≤ 251 →
    (frameOf kind body).foldl (fun t b => receiveByte l b t) s = goodFrame l { kind := kind, body := body } s

/-! ## Shared operations -/

/-- R28 and the counting of R53: a key's change of level adds one to a link's count on a record for every drawn stop that comes to sound
the key and resolves to it, takes one away for every such stop that ceases to, and leaves the other link's and the Cue count alone. -/
def Obligations.AKeysChangeOfLevelMovesTheCounts : Prop :=
  ∀ (l : Link) (d k : Nat) (b : Level) (s : State) (x : Target) (r : Record), s.record x = some r →
    let a := (s.reg l).level d k
    let stops (comes goes : Level) := (s.reg l).stops.filter fun i =>
      match s.stop i with
      | some st => decide (st.division = d) && st.touch.admits comes && !st.touch.admits goes &&
          decide (s.resolve st k (s.reg l).effective = some x)
      | none => false
    ∃ r', (setKey l d k b s).record x = some r' ∧ r'.owner = r.owner ∧
      r'.linkCount l = r.linkCount l + (stops b a).length - (stops a b).length ∧
      r'.linkCount (otherLink l) = r.linkCount (otherLink l) ∧ r'.cue = r.cue

/-- R68, R69, R71: a strike request on an output with a stroke record ends in one of four ways. It is shed where the engine is not READY,
the port not ACTIVE or the supply LOW; it starts where the output is IDLE and the load fits the budget; else it is merged with an entry
for its output, shed at a full queue, or joins as the newest. No other output's stroke changes. -/
def Obligations.AStrikeRequestEndsInOneOfFourWays : Prop :=
  ∀ (a : Addr) (s : State) (k : Strike), s.timesAt a = some k →
    let t := requestStrike a s
    let may := s.engine = .ready ∧ s.portActive a.port = true ∧ s.supply.state = .good
    let fits := ∃ pt e, s.ports[a.port]? = some pt ∧ s.portEntry a.port = some e ∧
      pt.load + pt.admitted + s.strikeLoad a ≤ e.budget
    let starts := may ∧ s.stroke a = some .idle ∧ fits
    let queued := ∃ e ∈ s.sched.queue, e.out = a
    (starts → t.stroke a = some (.striking (s.now + k.stroke)) ∧ t.sched = s.sched ∧
      t.counters = (s.bump .strikesStarted).counters) ∧
    (¬ starts → t.table = s.table ∧ t.ports = s.ports) ∧
    (¬ may → t.sched = s.sched ∧ t.counters = (s.bump .strikesShed).counters) ∧
    (may → ¬ starts → queued → t.sched = s.sched ∧ t.counters = (s.bump .strikesMerged).counters) ∧
    (may → ¬ starts → ¬ queued → 64 ≤ s.sched.queue.length → t.sched = s.sched ∧ t.counters = (s.bump .strikesShed).counters) ∧
    (may → ¬ starts → ¬ queued → s.sched.queue.length < 64 →
      t.sched.queue = s.sched.queue ++ [{ out := a, joined := s.now }] ∧ t.counters = s.counters) ∧
    (∀ b, b ≠ a → t.stroke b = s.stroke b)

/-- R169: a notice joins as the newest while fewer than 16 wait; at 16 an urgent one takes the place of the oldest routine one, a
routine one, or an urgent one among 16 urgent, is discarded; a discard is counted once, and a DOWN link is told nothing. -/
def Obligations.ANoticeJoinsDisplacesOrIsDiscarded : Prop :=
  ∀ (l : Link) (n : Notice) (s : State),
    let i := s.link l
    let t := s.notify l n
    let discarded := t.counters = (s.bump (.noticesDiscarded l)).counters
    (i.state = .down → t = s) ∧
    (i.state = .up → i.notices.length < 16 → (t.link l).notices = i.notices ++ [n] ∧ t.counters = s.counters) ∧
    (i.state = .up → i.notices.length = 16 → n.urgent = true →
      (∀ urgentOnes m rest, i.notices = urgentOnes ++ m :: rest → (∀ x ∈ urgentOnes, x.urgent = true) → m.urgent = false →
        (t.link l).notices = urgentOnes ++ rest ++ [n] ∧ discarded) ∧
      ((∀ x ∈ i.notices, x.urgent = true) → (t.link l).notices = i.notices ∧ discarded)) ∧
    (i.state = .up → i.notices.length = 16 → n.urgent = false → (t.link l).notices = i.notices ∧ discarded) ∧
    (t.link l).facing = i.facing ∧ t.link (otherLink l) = s.link (otherLink l) ∧ Only [.links, .counters] s t

/-- R168: an idle transmitter begins the oldest place that holds a reply, passing over reservations, or else the oldest notice, which
leaves its queue; the frame's body begins with the four bytes of the status prefix as the part then stands, each bit as R174's table has
it, a notice that is begun no longer counted, and goes on as R174 lays out replies and notices; a sending transmitter goes on, and one
with nothing to send stays idle. -/
def Obligations.AnIdleTransmitterBeginsTheOldestReplyOrNotice : Prop :=
  ∀ (l : Link) (s : State),
    let i := s.link l
    let t := beginTransmission l s
    (i.transmitter ≠ .idle → t = s) ∧
    (∀ passed r rest, i.transmitter = .idle → i.replies = passed ++ .holding r :: rest → (∀ p ∈ passed, ∃ tag, p = .reserved tag) →
      t.link l = { i with
        transmitter := .sending (.reply passed.length)
          (frameOf 0x80 (s.prefixBytes l ++ r.tag :: r.kind :: r.code.number :: r.contents)) s.now }) ∧
    (∀ n rest, i.transmitter = .idle → (∀ p ∈ i.replies, ∃ tag, p = .reserved tag) → i.notices = n :: rest →
      t.link l = { i with
        notices := rest
        transmitter := .sending (.notice n)
          (frameOf 0x81 ((s.modLink l fun i => { i with notices := rest }).prefixBytes l ++ n.fields)) s.now }) ∧
    (i.transmitter = .idle → (∀ p ∈ i.replies, ∃ tag, p = .reserved tag) → i.notices = [] → t = s) ∧
    t.link (otherLink l) = s.link (otherLink l) ∧ Only [.links] s t

/-! ## Link events -/

/-- R161, R162, R163 at a receiver: what each byte but the last of a good frame does, and the cut of a frame. The state is otherwise as it
was. -/
def Obligations.TheReceiverHuntsAssemblesAndDropsBadOrCutFrames : Prop :=
  ∀ (l : Link) (b : Byte) (s : State), Done s →
    let put (r : Receiver) := s.modLink l fun i => { i with receiver := r }
    let gives (t : State) := exec (.byteArrival l b) s = .next t
    ((s.link l).receiver = .hunting → b ≠ 0xC5 → gives s) ∧
    ((s.link l).receiver = .hunting → b = 0xC5 → gives (put (.inFrame none [] (s.now + 2)))) ∧
    (∀ got e, (s.link l).receiver = .inFrame none got e →
      (b.toNat = 0 ∨ 252 < b.toNat → gives ((put .hunting).bump (.framesBad l))) ∧
      (1 ≤ b.toNat → b.toNat ≤ 252 → gives (put (.inFrame (some b.toNat) [] (s.now + 2))))) ∧
    (∀ n got e, (s.link l).receiver = .inFrame (some n) got e → got.length + 1 < n + 2 →
      gives (put (.inFrame (some n) (got ++ [b]) (s.now + 2)))) ∧
    (∀ n kind body c1 c2 got e, (s.link l).receiver = .inFrame (some n) got e → (kind :: body).length = n →
      got ++ [b] = kind :: body ++ [c1, c2] → number2 c1 c2 ≠ (crc (byteOf n :: kind :: body)).toNat →
      gives ((put .hunting).bump (.framesBad l))) ∧
    (∀ n got e, (s.link l).receiver = .inFrame n got e → e ≤ s.now →
      exec (.interByteTimerExpiry l) s = .next ((put .hunting).bump (.framesCut l)))

/-- R164: the second check byte of a good frame. It is counted, the link is UP, the silence timer runs anew, and the message joins the
queue with flow judged, unless it is PRESENCE or the queue holds 64; a link that was DOWN is told LINK UP first of all, and so is the
other link if it is UP with an idle transmitter. -/
def Obligations.AGoodFrameBringsItsLinkUpAndJoinsTheQueue : Prop :=
  ∀ (l : Link) (b : Byte) (s : State) (n : Nat) (kind : Byte) (body got : List Byte) (e : Nat), Done s →
    (s.link l).receiver = .inFrame (some n) got e → (kind :: body).length = n →
    got ++ [b] = kind :: body ++ checkBytes (byteOf n :: kind :: body) →
    let i := s.link l
    let joins := kind ≠ 0x09 ∧ i.input.length < 64
    let drops := kind ≠ 0x09 ∧ 64 ≤ i.input.length
    ∃ t, exec (.byteArrival l b) s = .next t ∧ Only [.links, .counters] s t ∧
      (joins → (t.link l).facing = ({ i with
        receiver := .hunting
        state := .up
        silenceTimer := some (s.now + i.silenceTime)
        input := i.input ++ [{ kind := kind, body := body }]
        flow := i.flowAt (i.input.length + 1) } : LinkIf).facing) ∧
      (¬ joins → (t.link l).facing = ({ i with
        receiver := .hunting
        state := .up
        silenceTimer := some (s.now + i.silenceTime) } : LinkIf).facing) ∧
      (t.link (otherLink l)).facing = (s.link (otherLink l)).facing ∧
      Raised 1 (.framesGood l) s t ∧ Raised (if drops then 1 else 0) (.framesDropped l) s t ∧
      CountedOnly [(Counter.framesGood l).index, (Counter.framesDropped l).index, discards l, discards (otherLink l)] s t ∧
      (i.state = .down → i.transmitter = .idle →
        ∃ frame, (t.link l).transmitter = .sending (.notice (.linkUp l)) frame s.now) ∧
      (i.state = .down → (s.link (otherLink l)).state = .up → (s.link (otherLink l)).transmitter = .idle →
        ∃ frame, (t.link (otherLink l)).transmitter = .sending (.notice (.linkUp l)) frame s.now)

/-- R171 with R40, R100 and R156, where no reset is pending: the link is DOWN with its queues, list and registration empty and its frame
abandoned, its receiver, silence time and marks untouched; its claim counts are 0, by the law of R54; no player has it as an owner; the
cue unit it owned is SUSPENDED with OWNER_LOST; the loss is counted; the other link's registration, counts and the Cue counts stand; a
generator whose demand ends with its tabs is OFF and every other is in its phase; the other link, UP with an idle transmitter, is told LINK DOWN, and CUE STOPPED where the unit was owned, in the one order or the other (a
free value, log 12). -/
def Obligations.TheLossOfALinkTearsDownWhatItHeld : Prop :=
  ∀ (l : Link) (s : State) (e : Nat), Done s → (s.link l).silenceTimer = some e → e ≤ s.now → (s.link l).resetPending = false →
    (s.reg l).keys.length = 384 →
    let owned := s.cue.owner = some l ∧ s.cue.state ≠ .idle
    ∃ t, exec (.silenceTimerExpiry l) s = .next t ∧
      t.link l = { s.link l with
        state := .down, silenceTimer := none, input := [], replies := [], notices := [], transmitter := .idle, flow := .flowing } ∧
      (t.link (otherLink l)).facing = (s.link (otherLink l)).facing ∧
      t.reg l = Registration.empty ∧ t.reg (otherLink l) = s.reg (otherLink l) ∧ OtherCountsKept l s t ∧
      (RestOutsideReady s → ClaimsShaped s → ClaimLaw s → ∀ r ∈ t.table, r.linkCount l = 0) ∧
      (∀ p run, t.playing p = some run → run.owners.has (.link l) = false) ∧
      (owned → t.cue = { s.cue with
        owner := none
        stopReason := some .ownerLost
        state := .suspended (match s.cue.state with
          | .timing expiry => .timing (expiry - s.now)
          | .awaiting => .awaiting
          | .suspended sub => sub
          | .running | .idle => .running) }) ∧
      (¬ owned → t.cue = s.cue) ∧
      Raised 1 (.linkLosses l) s t ∧ GeneratorsFollow s t ∧
      Only [.links, .regs, .table, .sched, .figures, .generators, .ports, .cue, .counters] s t ∧
      (¬ owned → (s.link (otherLink l)).state = .up → (s.link (otherLink l)).transmitter = .idle →
        ∃ frame, (t.link (otherLink l)).transmitter = .sending (.notice (.linkDown l)) frame s.now) ∧
      (owned → (s.link (otherLink l)).state = .up → (s.link (otherLink l)).transmitter = .idle →
        ∃ first second frame, (t.link (otherLink l)).transmitter = .sending (.notice first) frame s.now ∧
          (t.link (otherLink l)).notices = [second] ∧
          ((first, second) = (.linkDown l, .cueStopped .ownerLost s.cue.current) ∨
            (first, second) = (.cueStopped .ownerLost s.cue.current, .linkDown l)))

/-- R167, R168: the end of a frame frees its reply's place, and the transmitter goes on to the next frame. Nothing else of the part
changes. A frame has ended when the whole milliseconds of its line time have passed (the model's choice, log 10). -/
def Obligations.TheEndOfAFrameFreesItsPlaceAndBeginsTheNext : Prop :=
  ∀ (l : Link) (s : State) (what : Sending) (frame : List Byte) (began : Nat), Done s → s.sendingReset l = false →
    (s.link l).transmitter = .sending what frame began → began + lineTime s.rate frame.length / 1000 ≤ s.now →
    let ended := s.modLink l fun i => { i with
      transmitter := .idle
      replies := match what with
        | .reply place => i.replies.eraseIdx place
        | .notice _ => i.replies }
    ∃ t, exec (.transmitEnd l) s = .next t ∧ t.link l = (beginTransmission l ended).link l ∧
      t.link (otherLink l) = s.link (otherLink l) ∧ Only [.links] s t

/-- R24 with R23 and R171: the event in which the FULL RESET's reply ends, or in which its link is lost, be its reply in transmission or
not. Kept are cue memory, the counters, the strap and the supply monitor; the sending link stays UP at the default silence time, and is
DOWN at its loss; all else is at its power-on value, with stop reason RESET. The model's choices: the row FULL_RESET_TAKES_EFFECT is a
second name of these events (log 13), the reply has ended when the whole milliseconds of its line time have passed (log 10), the over
indications are kept (log 16), and the clock and the command queue go on (logs 1 and 3). -/
def Obligations.AFullResetTakingEffectLeavesThePowerOnValues : Prop :=
  ∀ (l : Link) (s : State), (s.link l).resetPending = true →
    let reset (up : Bool) : State :=
      { now := s.now
        rate := s.rate
        store := { engine := .unconfigured, lastCheck := .none, checkBegan := none, tables := Tables.blank }
        links := ({ one := LinkIf.atPowerOn, two := LinkIf.atPowerOn } : Pair LinkIf).set l
          (if up then { LinkIf.atPowerOn with state := .up, silenceTimer := some (s.now + 250) } else LinkIf.atPowerOn)
        regs := { one := Registration.empty, two := Registration.empty }
        table := []
        sched := { queue := [], reiterations := [], dampers := [], deferral := 30 }
        figures := { players := s.figures.players.map fun _ => none, tempo := 100 }
        generators := s.generators.map fun _ => { phase := .off, cueFlag := false }
        shutters :=
          { channels := s.shutters.channels.map fun _ => 0, chambers := s.shutters.chambers.map fun _ => { current := 0, timer := none } }
        ports := s.ports.map fun pt =>
          { state := .off, energized := [], load := 0, overload := pt.overload, detect := none, off := none, history := [],
            admitted := 0 }
        supply := s.supply
        memory := s.memory
        cue := { state := .idle, current := none, owner := none, pendingGo := false, runCount := 0, lastCompleted := none,
                 stopReason := some .reset }
        counters := s.counters
        pending := s.pending }
    (∀ place r frame began, (s.link l).transmitter = .sending (.reply place) frame began →
      (s.link l).replies[place]? = some (.holding r) → r.kind = 0x31 → r.code = .ok →
      began + lineTime s.rate frame.length / 1000 ≤ s.now →
      exec (.transmitEnd l) s = .next (reset true) ∧ exec (.fullResetTakesEffect l) s = .next (reset true)) ∧
    (∀ e, (s.link l).silenceTimer = some e → e ≤ s.now →
      ∃ t, exec (.silenceTimerExpiry l) s = .next t ∧ (s.sendingReset l = false → exec (.fullResetTakesEffect l) s = .next t) ∧
        Only [.counters] (reset false) t ∧ Raised 1 (.linkLosses l) s t)

/-- R23 and R165: FULL RESET is answered OK in every engine state and sets reset pending, and a kind that names no message is answered
UNKNOWN_KIND with its first byte as tag; a FULL RESET with a field is refused. Nothing else changes. -/
def Obligations.FullResetIsAnsweredBeforeItActsAndUnknownKindsAreRefused : Prop :=
  ∀ (l : Link) (s : State), Done s →
    (∀ tag, Waits s l 0x31 [tag] → ∃ t, exec (.fullReset l) s = .next t ∧
      Acted l [okPlace tag 0x31 []] (s.modLink l fun i => { i with resetPending := true }) t) ∧
    (∀ tag x rest, Waits s l 0x31 (tag :: x :: rest) → ∃ t, exec (.fullReset l) s = .next t ∧
      Acted l [refusalPlace tag 0x31 .badArgument] s t) ∧
    (∀ kind body, Waits s l kind body → Kind.unknown kind = true → ∃ t, exec (.unknownKind l) s = .next t ∧
      Acted l [refusalPlace (body.headD 0) kind .unknownKind] s t)

/-! ## Play messages -/

/-- R4 and R165: outside READY each of the eight play messages is discarded whole and counted once in its link's "play discarded"; in
READY one whose body disagrees with its kind is discarded whole and counted once in "play entries ignored". -/
def Obligations.PlayIsDiscardedOutsideReadyOrWhenMalformed : Prop :=
  ∀ (l : Link) (s : State) (c : Instr) (kind : Byte) (malformed : List Byte → Bool) (body : List Byte), Done s →
    (c, kind, malformed) ∈
      [(.keyChange l, 0x01, fun x => (readKeyChange x).isNone), (.stopChange l, 0x02, fun x => (readStopChange x).isNone),
       (.tremulantTab l, 0x03, fun x => (readTremulantTab x).isNone), (.registration l, 0x04, fun x => (readRegistration x).isNone),
       (.transpose l, 0x05, fun x => decide (x.length ≠ 1)), (.expression l, 0x06, fun x => decide (x.length ≠ 2)),
       (.go l, 0x07, fun x => decide (x ≠ [])), (.tempo l, 0x08, fun x => decide (x.length ≠ 1))] →
    Waits s l kind body →
    (s.engine ≠ .ready → ∃ t, exec c s = .next t ∧ Took l [] s t ∧ Only [.links, .counters] s t ∧
      Raised 1 (.playDiscarded l) s t ∧ CountedOnly [(Counter.playDiscarded l).index, discards l] s t) ∧
    (s.engine = .ready → malformed body = true → ∃ t, exec c s = .next t ∧ Took l [] s t ∧ Only [.links, .counters] s t ∧
      Raised 1 .playEntriesIgnored s t ∧ CountedOnly [14, discards l] s t)

/-- R27, R35: a KEY CHANGE in READY. Entry by entry in list order the keys that exist take their levels, and where the link then holds no
key its effective transposition takes the requested one; the other entries are ignored and counted. The link's stops and tabs, the
other link's registration, its counts and the Cue counts stand. -/
def Obligations.KeyChangeSetsTheLevelsOfTheKeysThatExist : Prop :=
  ∀ (l : Link) (s : State) (division count : Byte) (rest : List Byte) (entries : List (Byte × Byte)), Done s →
    s.engine = .ready → Waits s l 0x01 (division :: count :: rest) → pairsOf rest = some entries →
    entries.length = count.toNat → 1 ≤ entries.length → entries.length ≤ 16 →
    let taken (e : Byte × Byte) : Bool :=
      match s.division division.toNat with
      | some keys => decide (e.1.toNat < keys)
      | none => false
    let press (r : Registration) (e : Byte × Byte) : Registration :=
      if taken e then
        let keys := r.keys.set (64 * division.toNat + e.1.toNat) (if e.2 = 0 then .released else if e.2 = 1 then .first else .second)
        { r with keys := keys, effective := if keys.all (fun v => decide (v = .released)) then r.requested else r.effective }
      else r
    ∃ t, exec (.keyChange l) s = .next t ∧ Took l [] s t ∧ t.reg l = entries.foldl press (s.reg l) ∧
      t.reg (otherLink l) = s.reg (otherLink l) ∧ OtherCountsKept l s t ∧
      Raised (entries.filter fun e => !taken e).length .playEntriesIgnored s t ∧
      Only [.links, .regs, .table, .sched, .ports, .figures, .counters] s t

/-- R30, R31: a STOP CHANGE and a TREMULANT TAB in READY. Each number is a member after the message as the last entry that names it says,
or as it was; entries that name nothing are ignored and counted, and so are entries whose word byte is neither of the two, which is the
model's reading (log 25); a generator whose demand appeared over the message is OPEN for its open time and one whose demand ended is OFF
(of one whose demand lapsed within the message, log 33, nothing is said). The keys, the transpositions and the other link's registration
stand. -/
def Obligations.StopChangeAndTremulantTabSetMembership : Prop :=
  ∀ (l : Link) (s : State) (count : Byte) (rest : List Byte) (entries : List (Byte × Byte)), Done s → s.engine = .ready →
    pairsOf rest = some entries → entries.length = count.toNat → 1 ≤ entries.length →
    let after (valid : Nat → Bool) (was : List Nat) (i : Nat) : Bool :=
      entries.foldl (fun m e => if e.1.toNat = i ∧ valid i ∧ (e.2 = 0 ∨ e.2 = 1) then decide (e.2 = 1) else m) (was.contains i)
    let ignored (valid : Nat → Bool) : Nat := (entries.filter fun e => !(valid e.1.toNat && (e.2 == 0 || e.2 == 1))).length
    let stop (i : Nat) : Bool := (s.stop i).isSome
    let tab (j : Nat) : Bool := decide (j < 8)
    (entries.length ≤ 32 → Waits s l 0x02 (count :: rest) →
      ∃ t, exec (.stopChange l) s = .next t ∧ Took l [] s t ∧
        (∀ i, (t.reg l).stops.contains i = after stop (s.reg l).stops i) ∧
        { t.reg l with stops := [] } = { s.reg l with stops := [] } ∧ t.reg (otherLink l) = s.reg (otherLink l) ∧
        OtherCountsKept l s t ∧ Raised (ignored stop) .playEntriesIgnored s t ∧
        Only [.links, .regs, .table, .sched, .ports, .figures, .counters] s t) ∧
    (entries.length ≤ 8 → Waits s l 0x03 (count :: rest) →
      ∃ t, exec (.tremulantTab l) s = .next t ∧ Took l [] s t ∧
        (∀ j, (t.reg l).tabs.contains j = after tab (s.reg l).tabs j) ∧
        { t.reg l with tabs := [] } = { s.reg l with tabs := [] } ∧ t.reg (otherLink l) = s.reg (otherLink l) ∧
        (∀ j x, s.tremulant j = some x → j < s.generators.length →
          (s.demanded j = false → t.demanded j = true → (t.generator j).phase = .opened (s.now + x.openTime)) ∧
          (s.demanded j = true → t.demanded j = false → (t.generator j).phase = .off)) ∧
        Raised (ignored tab) .playEntriesIgnored s t ∧
        Only [.links, .regs, .generators, .table, .sched, .ports, .counters] s t)

/-- R32: a REGISTRATION in READY replaces the drawn stops by the listed ones that are present, the tabs by the listed ones in range, and
the requested transposition, clamped, which is in effect at once where the link holds no key; what is left out is counted, each
occurrence of a repeated index once, which is the model's reading (log 26). A generator whose demand appears is OPEN for its open time,
one whose demand ends is OFF, and every other is in its phase (R104, R106). -/
def Obligations.RegistrationReplacesTheLinksRegistration : Prop :=
  ∀ (l : Link) (s : State) (body : List Byte) (b : RegistrationBody), Done s → s.engine = .ready → Waits s l 0x04 body →
    readRegistration body = some b → (∀ i ∈ (s.reg l).stops, (s.stop i).isSome) → (∀ j ∈ (s.reg l).tabs, j < 8) →
    let v := max (-6) (min 6 b.transposition)
    ∃ t, exec (.registration l) s = .next t ∧ Took l [] s t ∧
      (∀ i, i ∈ (t.reg l).stops ↔ i ∈ b.stops ∧ (s.stop i).isSome) ∧ (∀ j, j ∈ (t.reg l).tabs ↔ j ∈ b.tabs ∧ j < 8) ∧
      (t.reg l).keys = (s.reg l).keys ∧ (t.reg l).requested = v ∧
      (t.reg l).effective = (if (s.reg l).holdsNoKey then v else (s.reg l).effective) ∧
      t.reg (otherLink l) = s.reg (otherLink l) ∧ OtherCountsKept l s t ∧
      Raised ((b.stops.filter fun i => (s.stop i).isNone).length + (b.tabs.filter fun j => decide (8 ≤ j)).length)
        .playEntriesIgnored s t ∧ GeneratorsFollow s t ∧
      Only [.links, .regs, .generators, .table, .sched, .ports, .figures, .counters] s t

/-- R34, R97: TRANSPOSE in READY sets the requested transposition, clamped to -6..+6, and the effective one with it where the link holds
no key; TEMPO in READY sets the tempo scale, clamped to 50..200. Nothing else changes. -/
def Obligations.TransposeAndTempoAreClampedAndSet : Prop :=
  ∀ (l : Link) (s : State) (v : Byte), Done s → s.engine = .ready →
    (Waits s l 0x05 [v] → ∃ t, exec (.transpose l) s = .next t ∧
      Acted l [] (s.modReg l fun r => { r with
        requested := max (-6) (min 6 v.toInt)
        effective := if r.holdsNoKey then max (-6) (min 6 v.toInt) else r.effective }) t) ∧
    (Waits s l 0x08 [v] → ∃ t, exec (.tempo l) s = .next t ∧
      Acted l [] { s with figures := { s.figures with tempo := max 50 (min 200 v.toNat) } } t)

/-- R111, R113, R114, R115: an EXPRESSION in READY. A channel above 3 is ignored and counted; else the channel takes the position, 127 at
most, and a chamber that follows it with no timer running and a changed target steps and waits its interval: it closes a stage, or it
opens one if and only if its port is ACTIVE, the supply GOOD, and the port's load with the loads of the stages that earlier chambers have
opened on that port in the event and its own fits the budget. Every other chamber is as it was. -/
def Obligations.ExpressionWritesItsChannelAndStepsTheChambers : Prop :=
  ∀ (l : Link) (s : State) (k p : Byte), Done s → s.engine = .ready → Waits s l 0x06 [k, p] → s.shutters.chambers.length = 4 →
    s.shutters.channels.length = 4 →
    (4 ≤ k.toNat → ∃ t, exec (.expression l) s = .next t ∧ Took l [] s t ∧ Only [.links, .counters] s t ∧
      Raised 1 .playEntriesIgnored s t ∧ CountedOnly [14, discards l] s t) ∧
    (k.toNat < 4 → ∃ t, exec (.expression l) s = .next t ∧ Took l [] s t ∧
      t.shutters.channels = s.shutters.channels.set k.toNat (min p.toNat 127) ∧
      (∀ c, c < 4 → ∀ stages o channel interval, s.chamber c = some (.enclosed stages o channel (some interval)) →
        let was := s.chamberState c
        let now := t.chamberState c
        let old := stageTarget (s.channel channel) stages
        let new := stageTarget (t.channel channel) stages
        let opened (d : Nat) : Nat :=
          match s.chamber d with
          | some (.enclosed _ other _ _) =>
            if other.port = o.port ∧ (t.chamberState d).current = (s.chamberState d).current + 1 then other.load else 0
          | some .unenclosed | none => 0
        let fits := ∃ pt e, s.ports[o.port]? = some pt ∧ s.portEntry o.port = some e ∧ pt.state = .active ∧ s.supply.state = .good ∧
          pt.load + ((List.range c).map opened).sum + o.load ≤ e.budget
        (old = new ∨ was.timer ≠ none → now = was) ∧
        (old ≠ new → was.timer = none → new = was.current → now = was) ∧
        (old ≠ new → was.timer = none → new < was.current →
          now = { current := was.current - 1, timer := some (s.now + interval) }) ∧
        (old ≠ new → was.timer = none → was.current < new →
          (fits → now = { current := was.current + 1, timer := some (s.now + interval) }) ∧
          (¬ fits → now = { current := was.current, timer := some (s.now + interval) }))) ∧
      (∀ c, (∀ stages o channel interval, s.chamber c ≠ some (.enclosed stages o channel interval)) →
        t.chamberState c = s.chamberState c) ∧
      Only [.links, .shutters, .table, .sched, .ports, .counters] s t)

/-! ## The engine and the specification -/

/-- R5: a command that the table of commands and engine states refuses gets that refusal at once, whatever its body, with its first byte
or 0 as tag, and changes no other state. -/
def Obligations.CommandsAreRefusedByTheEngineState : Prop :=
  ∀ (l : Link) (s : State) (c : Instr) (kind : Byte) (row : EngineState → Option ReplyCode) (body : List Byte) (code : ReplyCode),
    let busy (e : EngineState) : Option ReplyCode := if e = .checking then some .busy else none
    let loading (e : EngineState) : Option ReplyCode :=
      if e = .checking then some .busy else if e = .loading then none else some .badState
    let ready (e : EngineState) : Option ReplyCode :=
      if e = .checking then some .busy else if e = .ready then none else some .badState
    (c, kind, row) ∈
      [(.specBegin l, 0x20, busy), (.specDivision l, 0x21, loading), (.specSource l, 0x22, loading), (.specStop l, 0x23, loading),
       (.specChamber l, 0x24, loading), (.specTremulant l, 0x25, loading), (.specPort l, 0x26, loading),
       (.specFigure l, 0x27, loading), (.specCommit l, 0x28, loading), (.silence l, 0x30, ready), (.linkRelease l, 0x32, busy),
       (.configure l, 0x33, busy), (.queryOutput l, 0x3B, ready), (.cueWrite l, 0x40, busy), (.cueRead l, 0x41, busy),
       (.cueStart l, 0x42, busy), (.cueSuspend l, 0x43, busy), (.cueResume l, 0x44, busy), (.cueAbort l, 0x45, busy),
       (.figureStart l, 0x48, ready), (.figureStop l, 0x49, ready), (.figureSync l, 0x4A, ready), (.portRestore l, 0x50, ready),
       (.portDisable l, 0x51, ready)] →
    Done s → row s.engine = some code → Waits s l kind body →
    ∃ t, exec c s = .next t ∧ Acted l [refusalPlace (body.headD 0) kind code] s t

/-- R8 for the seven spec entry writes in LOADING: an accepted write replaces its own entry whole, or makes it absent, and is answered
OK; any other is refused with BAD_ARGUMENT; nothing else changes. Which bodies are accepted is read with two of the model's choices: bytes
after the absent marker are refused (log 6), and the bodies that R174 does not write out byte by byte carry their fields in their rule's
order, each in the fewest bytes (log 8). -/
def Obligations.ASpecWriteReplacesItsOwnEntryAlone : Prop :=
  ∀ (l : Link) (s : State) (tag : Byte) (fields : List Byte), Done s → RestOutsideReady s → s.engine = .loading →
    let accepts (c : Instr) (kind : Byte) (effect : Tables → Tables) :=
      Waits s l kind (tag :: fields) → ∃ t, exec c s = .next t ∧
        Acted l [okPlace tag kind []] { s with store := { s.store with tables := effect s.store.tables } } t
    let refuses (c : Instr) (kind : Byte) :=
      Waits s l kind (tag :: fields) → ∃ t, exec c s = .next t ∧ Acted l [refusalPlace tag kind .badArgument] s t
    (∀ w, readEntry 6 readDivision fields = some w →
      accepts (.specDivision l) 0x21 fun t => { t with divisions := t.divisions.set w.index w.entry }) ∧
    (readEntry 6 readDivision fields = none → refuses (.specDivision l) 0x21) ∧
    (∀ w, readEntry 64 readSource fields = some w →
      accepts (.specSource l) 0x22 fun t => { t with sources := t.sources.set w.index w.entry }) ∧
    (readEntry 64 readSource fields = none → refuses (.specSource l) 0x22) ∧
    (∀ w, readEntry 192 readStop fields = some w →
      accepts (.specStop l) 0x23 fun t => { t with stops := t.stops.set w.index w.entry }) ∧
    (readEntry 192 readStop fields = none → refuses (.specStop l) 0x23) ∧
    (∀ w, readEntry 4 readChamber fields = some w →
      accepts (.specChamber l) 0x24 fun t => { t with chambers := t.chambers.set w.index w.entry }) ∧
    (readEntry 4 readChamber fields = none → refuses (.specChamber l) 0x24) ∧
    (∀ w, readEntry 8 readTremulant fields = some w →
      accepts (.specTremulant l) 0x25 fun t => { t with tremulants := t.tremulants.set w.index w.entry }) ∧
    (readEntry 8 readTremulant fields = none → refuses (.specTremulant l) 0x25) ∧
    (∀ w, readEntry 8 readPort fields = some w →
      accepts (.specPort l) 0x26 fun t => { t with ports := t.ports.set w.index w.entry }) ∧
    (readEntry 8 readPort fields = none → refuses (.specPort l) 0x26) ∧
    (∀ w, readEntry 16 readFigure fields = some w →
      accepts (.specFigure l) 0x27 fun t => { t with figures := t.figures.set w.index w.entry }) ∧
    (readEntry 16 readFigure fields = none → refuses (.specFigure l) 0x27)

/-- R6, R7: SPEC BEGIN. A mode other than KEEP and BLANK is refused; in UNCONFIGURED and LOADING the engine is LOADING and BLANK empties
the tables; in READY all playing has stopped besides, with the scale, the channels, the supply and cue memory kept. -/
def Obligations.SpecBeginOpensALoadingSession : Prop :=
  ∀ (l : Link) (s : State) (tag mode : Byte), Done s → Waits s l 0x20 [tag, mode] → s.engine ≠ .checking →
    let tables := if mode = 1 then Tables.blank else s.store.tables
    (2 ≤ mode.toNat → ∃ t, exec (.specBegin l) s = .next t ∧ Acted l [refusalPlace tag 0x20 .badArgument] s t) ∧
    (mode.toNat ≤ 1 → s.engine ≠ .ready → RestOutsideReady s → ∃ t, exec (.specBegin l) s = .next t ∧
      Acted l [okPlace tag 0x20 []] { s with store := { s.store with engine := .loading, tables := tables } } t) ∧
    (mode.toNat ≤ 1 → s.engine = .ready → ∃ t, exec (.specBegin l) s = .next t ∧ Took l [okPlace tag 0x20 []] s t ∧
      RestOutsideReady t ∧ t.store = { s.store with engine := .loading, tables := tables } ∧
      (s.cue.state ≠ .idle → t.cue = s.cue.stopped .reset) ∧ (s.cue.state = .idle → t.cue = s.cue) ∧
      t.figures.tempo = s.figures.tempo ∧ t.shutters.channels = s.shutters.channels ∧ t.sched.deferral = s.sched.deferral ∧
      CountedOnly [discards .one, discards .two] s t ∧
      Only [.store, .links, .regs, .table, .sched, .figures, .generators, .shutters, .ports, .cue, .counters] s t)

/-- R17: SPEC COMMIT in LOADING. The engine is CHECKING, the check begins, and a place is reserved for the reply; with a field it is
refused and no check begins. -/
def Obligations.SpecCommitBeginsTheCheckAndReservesAPlace : Prop :=
  ∀ (l : Link) (s : State) (tag : Byte), Done s → RestOutsideReady s → s.engine = .loading →
    (Waits s l 0x28 [tag] → ∃ t, exec (.specCommit l) s = .next t ∧
      Acted l [.reserved tag] { s with store := { s.store with engine := .checking, checkBegan := some s.now } } t) ∧
    (∀ x rest, Waits s l 0x28 (tag :: x :: rest) → ∃ t, exec (.specCommit l) s = .next t ∧
      Acted l [refusalPlace tag 0x28 .badArgument] s t)

/-- R19, R20 from 1 ms after the check began. A failure returns the engine to LOADING with the failure kept and the reservation filled
with it; success enters READY with PASSED, a demand table of one record for each output that an entry occupies, labelled with what it
stands for, and one for each FIGURE-mode trap, no output twice, every output on a present port, every count 0, a stroke record IDLE where
R65 keeps one, the present ports ACTIVE with empty histories, the reservation filled with OK. Each enclosed chamber with a target above
0 steps at once (R113, R117): it opens its first stage if and only if the supply is GOOD and its load, with those of the stages that
earlier chambers have opened on the port, fits the budget, and waits its interval. The failure is the one R18 reports: an entry at fault in one of the six kinds, with none at fault in an earlier kind and none
searched before it in its own; and there is none exactly where no entry is at fault. The model's choices: the time is the environment's
(log 11), and a percussion with L greater than H occupies its damper's output (log 32). -/
def Obligations.TheCheckEndsInReadyOrInLoading : Prop :=
  ∀ (s : State) (began : Nat), Done s → RestOutsideReady s → s.engine = .checking → s.store.checkBegan = some began →
    began + 1 ≤ s.now →
    let filled (code : ReplyCode) (contents : List Byte) (i : LinkIf) : LinkIf := { i with
      replies := i.replies.map fun p => match p with
        | .reserved tag => .holding { tag := tag, kind := 0x28, code := code, contents := contents }
        | .holding r => .holding r }
    (∀ f, checkTables s.store.tables = some f ↔ s.store.tables.FirstFault f) ∧
    (checkTables s.store.tables = none ↔ ∀ kind table i, ¬ s.store.tables.Fault kind table i) ∧
    (∀ f, checkTables s.store.tables = some f → ∃ t, exec .checkCompletion s = .next t ∧ Only [.store, .links] s t ∧
      t.store = { s.store with engine := .loading, lastCheck := .failed f, checkBegan := none } ∧
      ∀ l, (t.link l).facing = (filled .checkFailed [byteOf f.kind.code, byteOf f.table.code, byteOf f.entry] (s.link l)).facing) ∧
    (checkTables s.store.tables = none → ∃ t, exec .checkCompletion s = .next t ∧
      t.store = { s.store with engine := .ready, lastCheck := .passed, checkBegan := none } ∧
      t.table = demandTable s.store.tables ∧ (t.table.map (·.target)).Nodup ∧
      (∀ a, (∃ r ∈ t.table, r.target = .output a) ↔ ∃ table i, s.store.tables.Occupies table i a) ∧
      (∀ a owner, (∃ r ∈ t.table, r.target = .output a ∧ r.owner = owner) ↔ s.store.tables.Owns owner a) ∧
      (∀ i owner, (∃ r ∈ t.table, r.target = .claim i ∧ r.owner = owner) ↔
        owner = .figureClaim i ∧ ∃ f, s.source i = some (.figureTrap f)) ∧
      (∀ r ∈ t.table, r.link1 = 0 ∧ r.link2 = 0 ∧ r.cue = 0 ∧ r.stroke = if r.owner.struck then some .idle else none) ∧
      (∀ r ∈ t.table, ∀ a, r.target = .output a → (s.portEntry a.port).isSome = true) ∧
      t.shutters.channels = s.shutters.channels ∧
      (∀ c, c < 4 → c < s.shutters.chambers.length → ∀ stages o channel interval,
        s.chamber c = some (.enclosed stages o channel (some interval)) →
        let target := stageTarget (s.channel channel) stages
        let opened (d : Nat) : Nat :=
          match s.chamber d with
          | some (.enclosed _ other _ _) => if other.port = o.port ∧ (t.chamberState d).current = 1 then other.load else 0
          | some .unenclosed | none => 0
        let fits := s.supply.state = .good ∧ ∃ pt e, s.ports[o.port]? = some pt ∧ s.portEntry o.port = some e ∧
          ((List.range c).map opened).sum + o.load ≤ e.budget
        (target = 0 → t.chamberState c = { current := 0, timer := none }) ∧
        (0 < target → fits → t.chamberState c = { current := 1, timer := some (s.now + interval) }) ∧
        (0 < target → ¬ fits → t.chamberState c = { current := 0, timer := some (s.now + interval) })) ∧
      (∀ c, (∀ stages o channel interval, s.chamber c ≠ some (.enclosed stages o channel interval)) →
        t.chamberState c = { current := 0, timer := none }) ∧
      (∀ p pt, t.ports[p]? = some pt →
        pt.state = (if (s.portEntry p).isSome then .active else .off) ∧ pt.history = [] ∧ pt.off = none) ∧
      t.sched.queue = [] ∧ t.sched.reiterations = [] ∧ t.sched.deferral = s.sched.deferral ∧
      (∀ l, (t.link l).facing = (filled .ok [] (s.link l)).facing) ∧
      Only [.store, .links, .table, .sched, .shutters, .ports] s t)

/-- R22: SILENCE in READY. Every count is 0, both key maps are empty with the transposition taken, the strike queue and the reiteration
set are empty, no stroke goes on and no holdover runs, no player runs, the cue unit is IDLE with SILENCED if it was not, of which CUE
STOPPED tells both links, the sender behind its reply; a generator whose demand ends with its Cue flag is OFF and every other is in its
phase; stops, tabs, requested transpositions, the ports' states and histories, shutters, supply, scale and memory are kept. -/
def Obligations.SilenceStopsEverySoundAndKeepsTheRegistrations : Prop :=
  ∀ (l : Link) (s : State) (tag : Byte), Done s → StrokesTimed s → s.engine = .ready → Waits s l 0x30 [tag] →
    ∃ t, exec (.silence l) s = .next t ∧ Took l [okPlace tag 0x30 []] s t ∧
      (∀ r ∈ t.table, r.link1 = 0 ∧ r.link2 = 0 ∧ r.cue = 0 ∧ ∀ e, r.stroke ≠ some (.striking e)) ∧
      (∀ m, t.reg m = { s.reg m with keys := (s.reg m).keys.map fun _ => .released, effective := (s.reg m).requested }) ∧
      t.sched.queue = [] ∧ t.sched.reiterations = [] ∧ (∀ d ∈ t.sched.dampers, d.holdover = none) ∧
      t.sched.deferral = s.sched.deferral ∧ (∀ p ∈ t.figures.players, p = none) ∧ t.figures.tempo = s.figures.tempo ∧
      (s.cue.state ≠ .idle → t.cue = s.cue.stopped .silenced) ∧ (s.cue.state = .idle → t.cue = s.cue) ∧
      (let told : List Notice := if s.cue.state = .idle then [] else [.cueStopped .silenced s.cue.current]
       ToldBehindReply l told s t ∧ Told (otherLink l) told s t) ∧
      GeneratorsFollow s t ∧
      (∀ p : Nat, (t.ports[p]?).map (fun pt : Port => (pt.state, pt.history, pt.detect, pt.off, pt.overload)) =
        (s.ports[p]?).map (fun pt : Port => (pt.state, pt.history, pt.detect, pt.off, pt.overload))) ∧
      Only [.links, .regs, .table, .sched, .figures, .generators, .ports, .cue, .counters] s t

/-- R36, R172 with R74: LINK RELEASE in READY releases every key of its link and takes the requested transposition, and elsewhere changes
nothing; an accepted CONFIGURE sets the link's marks and silence time, judges flow, restarts the silence timer, and sets the deferral
limit, discarding as late the entries at or above it; any other CONFIGURE is refused whole. -/
def Obligations.LinkReleaseAndConfigureActOnTheSendingLink : Prop :=
  ∀ (l : Link) (s : State) (tag : Byte), Done s →
    (Waits s l 0x32 [tag] → s.engine = .ready → ∃ t, exec (.linkRelease l) s = .next t ∧ Took l [okPlace tag 0x32 []] s t ∧
      ((s.reg l).keys.length = 384 →
        t.reg l = { s.reg l with keys := List.replicate 384 .released, effective := (s.reg l).requested }) ∧
      t.reg (otherLink l) = s.reg (otherLink l) ∧ OtherCountsKept l s t ∧
      Only [.links, .regs, .table, .sched, .figures, .ports, .counters] s t) ∧
    (Waits s l 0x32 [tag] → s.engine = .unconfigured ∨ s.engine = .loading → ∃ t, exec (.linkRelease l) s = .next t ∧
      Acted l [okPlace tag 0x32 []] s t) ∧
    (∀ fields, Waits s l 0x33 (tag :: fields) → s.engine ≠ .checking →
      (readConfigure fields = none → ∃ t, exec (.configure l) s = .next t ∧ Acted l [refusalPlace tag 0x33 .badArgument] s t) ∧
      (∀ v, readConfigure fields = some v → ∃ t, exec (.configure l) s = .next t ∧
        (let i := s.link l
         let judged : LinkIf := { i with low := v.low, high := v.high, flow := i.flowAt i.input.tail.length }
         (t.link l).facing = ({ judged with
           input := i.input.tail
           replies := i.replies ++ [okPlace tag 0x33 []]
           flow := judged.flowAt i.input.tail.length
           silenceTime := v.silenceTime
           silenceTimer := some (s.now + v.silenceTime) } : LinkIf).facing) ∧
        (t.link (otherLink l)).facing = (s.link (otherLink l)).facing ∧
        t.sched = { s.sched with
          deferral := v.deferral, queue := s.sched.queue.filter fun e => decide (s.now < e.joined + v.deferral) } ∧
        Raised (s.sched.queue.filter fun e => decide (e.joined + v.deferral ≤ s.now)).length .strikesLate s t ∧
        CountedOnly [18, discards l] s t ∧ Only [.links, .sched, .counters] s t))

/-! ## Reading the part -/

/-- R175, R179, R63, R64: STATUS, COUNTERS READ, COUNTERS READ AND CLEAR and QUERY OUTPUT are answered OK at their taking, with the bytes
of R175's table, the 32 counters in four bytes each, and the bytes of R64's table; READ AND CLEAR leaves every counter 0 and reports the
values it clears; an address with no record is reported UNASSIGNED, and that the reply carries that address is the model's choice (log
22); a QUERY OUTPUT whose target is out of range or no FIGURE-mode trap is refused. Reading changes nothing else. -/
def Obligations.ReadingReportsTheStateAndChangesNothing : Prop :=
  ∀ (l : Link) (s : State) (tag : Byte), Done s →
    (Waits s l 0x38 [tag] → ∃ t, exec (.status l) s = .next t ∧ Acted l [okPlace tag 0x38 t.statusReply] s t) ∧
    (Waits s l 0x39 [tag] → ∃ t, exec (.countersRead l) s = .next t ∧ Acted l [okPlace tag 0x39 (counterReply t.counters)] s t) ∧
    (Waits s l 0x3A [tag] → ∃ t read, exec (.countersReadAndClear l) s = .next t ∧
      Took l [okPlace tag 0x3A (counterReply read)] s t ∧ (∀ i, i ≠ discards l → read[i]? = s.counters[i]?) ∧
      (read[discards l]? = s.counters[discards l]? ∨ read[discards l]? = s.counters[discards l]?.map (saturatingAdd · 1)) ∧
      Only [.links, .counters] s t ∧ t.counters = s.counters.map fun _ => 0) ∧
    (∀ fields, Waits s l 0x3B (tag :: fields) → s.engine = .ready →
      let answers (contents : List Byte) := ∃ t, exec (.queryOutput l) s = .next t ∧ Acted l [okPlace tag 0x3B contents] s t
      let unassigned (x : Target) : List Byte := [7, 0xFF, 0xFF] ++ addressReply x ++ [0, 0, 0, 0, 0, 0, 0, 0, 0, 0, 3]
      (∀ a, readQuery fields = some (.output a) →
        (∀ r, s.record (.output a) = some r → answers (s.recordReply r)) ∧
        (s.record (.output a) = none → answers (unassigned (.output a)))) ∧
      (∀ i f, readQuery fields = some (.claim i) → s.source i = some (.figureTrap f) →
        (∀ r, s.record (.claim i) = some r → answers (s.recordReply r)) ∧
        (s.record (.claim i) = none → answers (unassigned (.claim i)))) ∧
      (∀ i, readQuery fields = some (.claim i) → (∀ f, s.source i ≠ some (.figureTrap f)) → ∃ t, exec (.queryOutput l) s = .next t ∧
        Acted l [refusalPlace tag 0x3B .badArgument] s t) ∧
      (readQuery fields = none → ∃ t, exec (.queryOutput l) s = .next t ∧ Acted l [refusalPlace tag 0x3B .badArgument] s t))

/-! ## The cue unit -/

/-- R151, R152: a GO in READY that finds the unit IDLE, or one waiting already, is an overrun; one that finds it RUNNING, TIMING or
SUSPENDED waits as the pending GO. CUE SUSPEND remembers RUNNING, TIMING with what is left of the wait, or AWAITING, and is refused
in IDLE and SUSPENDED, and with BUSY while CHECKING. Nothing else changes. -/
def Obligations.GoAndCueSuspendActByTheUnitState : Prop :=
  ∀ (l : Link) (s : State) (tag : Byte), Done s →
    let suspends (sub : SubState) := ∃ t, exec (.cueSuspend l) s = .next t ∧
      Acted l [okPlace tag 0x43 []] { s with cue := { s.cue with state := .suspended sub } } t
    (Waits s l 0x07 [] → s.engine = .ready →
      (s.cue.state = .idle ∨ s.cue.state ≠ .awaiting ∧ s.cue.pendingGo = true →
        ∃ t, exec (.go l) s = .next t ∧ Took l [] s t ∧ Only [.links, .counters] s t ∧ Raised 1 .goOverruns s t ∧
          CountedOnly [30, discards l] s t) ∧
      (s.cue.state ≠ .idle → s.cue.state ≠ .awaiting → s.cue.pendingGo = false →
        ∃ t, exec (.go l) s = .next t ∧ Acted l [] { s with cue := { s.cue with pendingGo := true } } t)) ∧
    (Waits s l 0x43 [tag] → s.engine ≠ .checking →
      (s.cue.state = .running → suspends .running) ∧
      (∀ e, s.cue.state = .timing e → suspends (.timing (e - s.now))) ∧
      (s.cue.state = .awaiting → suspends .awaiting) ∧
      ((s.cue.state = .idle ∨ ∃ sub, s.cue.state = .suspended sub) →
        ∃ t, exec (.cueSuspend l) s = .next t ∧ Acted l [refusalPlace tag 0x43 .badState] s t)) ∧
    (Waits s l 0x43 [tag] → s.engine = .checking →
      ∃ t, exec (.cueSuspend l) s = .next t ∧ Acted l [refusalPlace tag 0x43 .busy] s t) ∧
    (∀ x rest, Waits s l 0x43 (tag :: x :: rest) → s.engine ≠ .checking →
      ∃ t, exec (.cueSuspend l) s = .next t ∧ Acted l [refusalPlace tag 0x43 .badArgument] s t)

/-- R144 to R150: the RUNNING unit takes its record. An EMPTY one stops it with CHAIN_BROKEN and one whose references fail with FAILED,
the record marked; a WAIT, and an AWAIT GO without a pending GO, begin their wait with run count 0; any other has its effect and
completes at once, marked DONE, and the unit goes on as R149 and R150 say, a runaway counted. The effect of R146 is said of each kind of
record, where the unit does not go IDLE with it: STRIKE's is its one strike request, HOLD's its Cue count, FIGURE's CUE among the owners
or taken from them, and the scale, the channel and the flag of TEMPO, EXPRESSION and TREMULANT. A stop, END and RUNAWAY among them, leaves
no Cue claim. Each link that is UP is told CUE DONE where INDICATE is set, and then CUE STOPPED where the unit stops. Generators follow
their demand through the record's effect and the stop. -/
def Obligations.TheRunningUnitTakesItsRecord : Prop :=
  ∀ (s : State) (i : Nat), Done s → s.cue.state = .running → s.cue.current = some i →
    let stops (reason : StopReason) (memory : List (Option CueRecord)) := ∃ t, exec .takeRecord s = .next t ∧
      t.cue = s.cue.stopped reason ∧ t.memory = memory ∧ CueIdleLaw t ∧ (∀ l, Told l [.cueStopped reason (some i)] s t) ∧
      GeneratorsFollow s t ∧
      Only [.links, .table, .sched, .figures, .generators, .ports, .memory, .cue, .counters] s t
    (s.memory[i]? = some none → stops .chainBroken s.memory) ∧
    (∀ r, s.memory[i]? = some (some r) →
      let action := r.body.action
      (s.referencesHold action = false → stops .failed (s.memory.set i (some { r with state := .badReference }))) ∧
      (∀ d, action = .wait d →
        exec .takeRecord s = .next { s with cue := { s.cue with state := .timing (s.now + d), runCount := 0 } }) ∧
      (action = .awaitGo → s.cue.pendingGo = false →
        exec .takeRecord s = .next { s with cue := { s.cue with state := .awaiting, runCount := 0 } }) ∧
      (s.referencesHold action = true → (∀ d, action ≠ .wait d) → (action = .awaitGo → s.cue.pendingGo = true) →
        ∃ t, exec .takeRecord s = .next t ∧
          t.cue = ({ s.cue with
            lastCompleted := some i
            runCount := s.cue.runCount + 1
            pendingGo := s.cue.pendingGo && decide (action ≠ .awaitGo) } : CueUnit).onward i r.body ∧
          t.memory = s.memory.set i (some { r with state := .done }) ∧
          (∀ l, Told l (t.completionNotices i r.body) s t) ∧ GeneratorsFollow s t ∧
          (t.cue.state = .idle → CueIdleLaw t) ∧
          (∀ scale, action = .tempo scale → t.figures.tempo = scale) ∧
          (∀ k p, action = .express k p → t.shutters.channels = s.shutters.channels.set k p) ∧
          (∀ j on, action = .tremulant j on → j < s.generators.length → t.cue.state ≠ .idle → (t.generator j).cueFlag = on) ∧
          (∀ source note on x rec, action = .hold source note on → s.cueTarget source note = some x → s.record x = some rec →
            t.cue.state ≠ .idle →
            ∃ rec', t.record x = some rec' ∧ rec'.cue = if on then min (rec.cue + 1) 255 else rec.cue - 1) ∧
          (∀ source note a, action = .strike source note → s.cueTarget source note = some (.output a) → t.cue.state ≠ .idle →
            let struck := requestStrike a s
            t.table = struck.table ∧ t.sched = struck.sched ∧ CountedOnly [discards .one, discards .two] struck t) ∧
          (∀ f p run, action = .figure f false → s.playing p = some run → run.figure = f →
            (∀ q other, s.playing q = some other → other.figure = f → q = p) → t.cue.state ≠ .idle →
            t.playing p = (if run.owners.cue ∧ (run.owners.put .cue false).isEmpty then none
              else some { run with owners := run.owners.put .cue false }) ∧
            ∀ q, q ≠ p → t.playing q = s.playing q) ∧
          Raised (if r.body.next.isSome ∧ r.body.suspendAfter = false ∧ 64 ≤ s.cue.runCount + 1 then 1 else 0) .cueRunaways s t ∧
          (∀ f, action = .figure f true → (∃ p, p < s.figures.players.length ∧ s.playing p = none) → t.cue.state ≠ .idle →
            ∃ p run, t.playing p = some run ∧ run.figure = f ∧ run.owners.cue = true) ∧
          Only [.links, .table, .sched, .figures, .generators, .shutters, .ports, .memory, .cue, .counters] s t))

/-- R147, R151, R153: a waiting record completes at its timer's expiry, at a GO while the unit is AWAITING, at a resume with nothing left
of the wait, and at a resume to AWAITING with a GO pending: it is DONE and last completed, each link that is UP is told CUE DONE if it is
marked so and CUE STOPPED if the unit stops, the link of a resume behind its reply, and the unit goes on as R149 says. A generator whose
demand ends with the stop is OFF and every other is in its phase. -/
def Obligations.AWaitingRecordCompletesAtItsTimerItsGoOrItsResume : Prop :=
  ∀ (s : State) (i : Nat) (r : CueRecord), Done s → s.cue.current = some i → s.memory[i]? = some (some r) →
    let completed (was : CueUnit) (t : State) :=
      t.cue = ({ was with lastCompleted := some i } : CueUnit).onward i r.body ∧
      t.memory = s.memory.set i (some { r with state := .done }) ∧ (t.cue.state = .idle → CueIdleLaw t) ∧ GeneratorsFollow s t ∧
      Only [.links, .table, .sched, .figures, .generators, .ports, .memory, .cue, .counters] s t
    let answered (l : Link) (tag : Byte) (was : CueUnit) := ∃ t, exec (.cueResume l) s = .next t ∧ Took l [okPlace tag 0x44 []] s t ∧
      completed was t ∧ ToldBehindReply l (t.completionNotices i r.body) s t ∧ Told (otherLink l) (t.completionNotices i r.body) s t
    (∀ e, s.cue.state = .timing e → e ≤ s.now → ∃ t, exec .waitTimerExpiry s = .next t ∧ completed s.cue t ∧
      ∀ l, Told l (t.completionNotices i r.body) s t) ∧
    (∀ l, s.cue.state = .awaiting → s.engine = .ready → Waits s l 0x07 [] →
      ∃ t, exec (.go l) s = .next t ∧ Took l [] s t ∧ completed s.cue t ∧
        Told l (s.takingNotices l ++ t.completionNotices i r.body) s t ∧ Told (otherLink l) (t.completionNotices i r.body) s t) ∧
    (∀ l tag, s.engine ≠ .checking → Waits s l 0x44 [tag] →
      let resumed : CueUnit := { s.cue with owner := some l, runCount := 0, stopReason := none }
      (s.cue.state = .suspended (.timing 0) → answered l tag resumed) ∧
      (s.cue.state = .suspended .awaiting → s.cue.pendingGo = true → answered l tag { resumed with pendingGo := false }))

/-- R140, R141: CUE WRITE replaces its record, WRITTEN, and is refused where its body is out of range, or with IN_USE where the record is
the current one of a unit not IDLE; CUE READ reports the record, and is refused above 511. Nothing else changes. -/
def Obligations.CueRecordsAreWrittenAndRead : Prop :=
  ∀ (l : Link) (s : State) (tag : Byte), Done s → s.engine ≠ .checking →
    (∀ fields, Waits s l 0x40 (tag :: fields) →
      (readCueWrite fields = none → ∃ t, exec (.cueWrite l) s = .next t ∧ Acted l [refusalPlace tag 0x40 .badArgument] s t) ∧
      (∀ w, readCueWrite fields = some w →
        (s.cue.state ≠ .idle ∧ s.cue.current = some w.index →
          ∃ t, exec (.cueWrite l) s = .next t ∧ Acted l [refusalPlace tag 0x40 .inUse] s t) ∧
        (s.cue.state = .idle ∨ s.cue.current ≠ some w.index →
          ∃ t, exec (.cueWrite l) s = .next t ∧ Acted l [okPlace tag 0x40 []]
            { s with memory := s.memory.set w.index (some { state := .written, body := w.body }) } t))) ∧
    (∀ high low, Waits s l 0x41 [tag, high, low] →
      (512 ≤ number2 high low → ∃ t, exec (.cueRead l) s = .next t ∧ Acted l [refusalPlace tag 0x41 .badArgument] s t) ∧
      (∀ rec, number2 high low < 512 → s.memory[number2 high low]? = some rec →
        ∃ t, exec (.cueRead l) s = .next t ∧ Acted l [okPlace tag 0x41 (cueContents rec)] s t)) ∧
    (∀ fields, Waits s l 0x41 (tag :: fields) → fields.length ≠ 2 →
      ∃ t, exec (.cueRead l) s = .next t ∧ Acted l [refusalPlace tag 0x41 .badArgument] s t)

/-- R143, R153, R154: CUE START meets its tests in order (range, READY, IDLE, not EMPTY) and starts the unit at its record; CUE RESUME
returns a SUSPENDED unit to RUNNING, to its wait, or to AWAITING, owned by the sender; CUE ABORT of a unit not IDLE stops it with
ABORTED, a waiting record marked, with no Cue claim left and the other link told. -/
def Obligations.CueStartResumeAndAbortMoveTheUnit : Prop :=
  ∀ (l : Link) (s : State) (tag : Byte), Done s → s.engine ≠ .checking →
    let refused (c : Instr) (kind : Byte) (code : ReplyCode) := ∃ t, exec c s = .next t ∧ Acted l [refusalPlace tag kind code] s t
    let unitIs (c : Instr) (kind : Byte) (u : CueUnit) := ∃ t, exec c s = .next t ∧ Acted l [okPlace tag kind []] { s with cue := u } t
    (∀ high low, Waits s l 0x42 [tag, high, low] →
      let i := number2 high low
      (512 ≤ i → refused (.cueStart l) 0x42 .badArgument) ∧
      (i < 512 → s.engine ≠ .ready → refused (.cueStart l) 0x42 .badState) ∧
      (i < 512 → s.engine = .ready → s.cue.state ≠ .idle → refused (.cueStart l) 0x42 .busy) ∧
      (i < 512 → s.engine = .ready → s.cue.state = .idle → s.memory[i]? = some none → refused (.cueStart l) 0x42 .notWritten) ∧
      (∀ r, i < 512 → s.engine = .ready → s.cue.state = .idle → s.memory[i]? = some (some r) → unitIs (.cueStart l) 0x42
        { state := .running, current := some i, owner := some l, pendingGo := false, runCount := 0, lastCompleted := none,
          stopReason := none })) ∧
    (Waits s l 0x44 [tag] →
      let resumed (state : UnitState) : CueUnit := { s.cue with state := state, owner := some l, runCount := 0, stopReason := none }
      (s.cue.state = .suspended .running → unitIs (.cueResume l) 0x44 (resumed .running)) ∧
      (∀ left, s.cue.state = .suspended (.timing left) → 0 < left → unitIs (.cueResume l) 0x44 (resumed (.timing (s.now + left)))) ∧
      (s.cue.state = .suspended .awaiting → s.cue.pendingGo = false → unitIs (.cueResume l) 0x44 (resumed .awaiting)) ∧
      ((∀ sub, s.cue.state ≠ .suspended sub) → refused (.cueResume l) 0x44 .badState)) ∧
    (Waits s l 0x45 [tag] →
      (s.cue.state = .idle → refused (.cueAbort l) 0x45 .badState) ∧
      (s.cue.state ≠ .idle → ∃ t, exec (.cueAbort l) s = .next t ∧ Took l [okPlace tag 0x45 []] s t ∧
        t.cue = s.cue.stopped .aborted ∧ CueIdleLaw t ∧
        (s.cue.state.waiting = false → t.memory = s.memory) ∧
        (∀ i r, s.cue.state.waiting = true → s.cue.current = some i → s.memory[i]? = some (some r) →
          t.memory = s.memory.set i (some { r with state := .aborted })) ∧
        ((s.link (otherLink l)).state = .up → (s.link (otherLink l)).transmitter = .idle →
          ∃ frame, (t.link (otherLink l)).transmitter = .sending (.notice (.cueStopped .aborted s.cue.current)) frame s.now) ∧
        Only [.links, .table, .sched, .figures, .generators, .ports, .memory, .cue, .counters] s t))

/-! ## Figures -/

/-- R91, R94, R98, R99: FIGURE START joins the player that runs the figure, or begins it at step 0 in the lowest IDLE player, or is refused
FULL and counted; FIGURE STOP takes the link from the owners and stops a player it leaves without any; FIGURE SYNC restarts every
RUNNING player of a listed figure. A figure absent or out of range is refused. -/
def Obligations.FigureCommandsStartStopAndRestartPlayers : Prop :=
  ∀ (l : Link) (s : State) (tag : Byte), Done s → PlayerLaw s → s.engine = .ready →
    let refused (c : Instr) (kind : Byte) (code : ReplyCode) := ∃ t, exec c s = .next t ∧ Acted l [refusalPlace tag kind code] s t
    let acts (c : Instr) (kind : Byte) (effect : State) := ∃ t, exec c s = .next t ∧ Acted l [okPlace tag kind []] effect t
    let idle (p : Nat) := p < s.figures.players.length ∧ s.playing p = none
    let begun (st : FigureStep) := s.now + scaledDuration st.duration s.figures.tempo
    (∀ f : Byte, 16 ≤ f.toNat ∨ s.figure f.toNat = none →
      (Waits s l 0x48 [tag, f] → refused (.figureStart l) 0x48 .badArgument) ∧
      (Waits s l 0x49 [tag, f] → refused (.figureStop l) 0x49 .badArgument)) ∧
    (∀ (f : Byte) (fig : Figure) (first : FigureStep), f.toNat < 16 → s.figure f.toNat = some fig → fig.steps[0]? = some first →
      let runs (p : Nat) (run : Run) := s.playing p = some run ∧ run.figure = f.toNat
      (Waits s l 0x48 [tag, f] →
        (∀ p run, runs p run →
          acts (.figureStart l) 0x48 (s.setPlayer p (some { run with owners := run.owners.put (.link l) true }))) ∧
        ((∀ p run, ¬ runs p run) → (∀ p, ¬ idle p) → ∃ t, exec (.figureStart l) s = .next t ∧
          Took l [refusalPlace tag 0x48 .full] s t ∧ Only [.links, .counters] s t ∧ Raised 1 .figuresRefused s t ∧
          CountedOnly [20, discards l] s t) ∧
        (∀ p, (∀ q run, ¬ runs q run) → idle p → (∀ q, q < p → ¬ idle q) → ∃ t, exec (.figureStart l) s = .next t ∧
          Took l [okPlace tag 0x48 []] s t ∧
          t.playing p = some { figure := f.toNat, step := 0, expiry := begun first, owners := OwnerSet.only (.link l) } ∧
          (∀ q, q ≠ p → t.playing q = s.playing q) ∧ t.figures.tempo = s.figures.tempo ∧
          Only [.links, .table, .sched, .figures, .ports, .counters] s t)) ∧
      (Waits s l 0x49 [tag, f] →
        (∀ p run, runs p run → acts (.figureStop l) 0x49
          (s.setPlayer p (if (run.owners.put (.link l) false).isEmpty then none
            else some { run with owners := run.owners.put (.link l) false }))) ∧
        ((∀ p run, ¬ runs p run) → acts (.figureStop l) 0x49 s))) ∧
    (∀ (count : Byte) (listed : List Byte), Waits s l 0x4A (tag :: count :: listed) →
      let good := listed.length = count.toNat ∧ 1 ≤ listed.length ∧ listed.length ≤ 16 ∧ ∀ f ∈ listed, f.toNat ≤ 15
      (¬ good → refused (.figureSync l) 0x4A .badArgument) ∧
      (good → ∃ t, exec (.figureSync l) s = .next t ∧ Took l [okPlace tag 0x4A []] s t ∧
        (∀ p, s.playing p = none → t.playing p = none) ∧
        (∀ p run, s.playing p = some run → (∀ f ∈ listed, f.toNat ≠ run.figure) → t.playing p = some run) ∧
        (∀ p run fig first, s.playing p = some run → (∃ f ∈ listed, f.toNat = run.figure) → s.figure run.figure = some fig →
          fig.steps[0]? = some first → t.playing p = some { run with step := 0, expiry := begun first }) ∧
        t.figures.tempo = s.figures.tempo ∧ Only [.links, .table, .sched, .figures, .ports, .counters] s t))

/-- R92, R93, R96: at a step timer's expiry the player begins the next step, a looping figure step 0 after its last: one strike request for
each voice of the step's set in ascending position, then the timer with the duration scaled by the tempo; after the last step of a
figure that does not loop the player is IDLE. -/
def Obligations.AStepTimerMovesItsPlayerToTheNextStepOrStopsIt : Prop :=
  ∀ (s : State) (p : Nat) (run : Run) (fig : Figure), Done s → s.playing p = some run → run.expiry ≤ s.now →
    s.figure run.figure = some fig →
    let ended := fig.steps.length ≤ run.step + 1
    let next := if ended then 0 else run.step + 1
    (ended → fig.loop = false →
      exec (.stepTimerExpiry p) s = .next { s with figures := { s.figures with players := s.figures.players.set p none } }) ∧
    (∀ (st : FigureStep) (outputs : List Addr), ¬ ended ∨ fig.loop = true → fig.steps[next]? = some st →
      st.voices.map (fun v => (fig.voices[v]?).bind s.voiceOutput) = outputs.map some →
      let struck := outputs.foldl (fun u a => requestStrike a u) s
      ∃ t, exec (.stepTimerExpiry p) s = .next t ∧
        t.figures = (s.setPlayer p
          (some { run with step := next, expiry := s.now + scaledDuration st.duration s.figures.tempo })).figures ∧
        t.table = struck.table ∧ t.sched = struck.sched ∧ t.counters = struck.counters ∧
        Only [.table, .sched, .figures, .ports, .counters] s t)

/-! ## The drive ports and the supply -/

/-- R129, R130, R125: PORT RESTORE makes a present port ACTIVE with an empty history, tells each link that is UP, the sender behind its reply, and
leaves an ACTIVE one as it is; PORT DISABLE makes it OFF, sheds its queued strikes and ends its strokes, and leaves an OFF one as it is; a port out of range or absent
is refused. Every other port keeps its state, history, timers and over indication. -/
def Obligations.PortRestoreAndPortDisableActOnTheirPort : Prop :=
  ∀ (l : Link) (s : State) (tag p : Byte), Done s → StrokesTimed s → s.engine = .ready →
    let refused (c : Instr) (kind : Byte) := ∃ t, exec c s = .next t ∧ Acted l [refusalPlace tag kind .badArgument] s t
    let asItWas (c : Instr) (kind : Byte) := ∃ t, exec c s = .next t ∧ Acted l [okPlace tag kind []] s t
    let marks (pt : Port) := (pt.state, pt.history, pt.detect, pt.off, pt.overload)
    (8 ≤ p.toNat ∨ s.portEntry p.toNat = none →
      (Waits s l 0x50 [tag, p] → refused (.portRestore l) 0x50) ∧ (Waits s l 0x51 [tag, p] → refused (.portDisable l) 0x51)) ∧
    (∀ pt e, p.toNat < 8 → s.portEntry p.toNat = some e → s.ports[p.toNat]? = some pt →
      (Waits s l 0x50 [tag, p] → pt.state = .active → asItWas (.portRestore l) 0x50) ∧
      (Waits s l 0x50 [tag, p] → pt.state ≠ .active → ∃ t, exec (.portRestore l) s = .next t ∧ Took l [okPlace tag 0x50 []] s t ∧
        (∃ q, t.ports[p.toNat]? = some q ∧ q.state = .active ∧ q.history = [] ∧ q.off = none ∧ q.overload = pt.overload ∧
          (pt.detect = none → q.detect = if pt.overload ∧ s.supply.state = .good then some (s.now + e.detect) else none)) ∧
        (∀ n : Nat, n ≠ p.toNat → (t.ports[n]?).map marks = (s.ports[n]?).map marks) ∧
        ToldBehindReply l [.portRestored p.toNat 0] s t ∧ Told (otherLink l) [.portRestored p.toNat 0] s t ∧
        Only [.links, .table, .sched, .ports, .counters] s t) ∧
      (Waits s l 0x51 [tag, p] → pt.state = .off → asItWas (.portDisable l) 0x51) ∧
      (Waits s l 0x51 [tag, p] → pt.state ≠ .off → ∃ t, exec (.portDisable l) s = .next t ∧ Took l [okPlace tag 0x51 []] s t ∧
        t.ports[p.toNat]? = some { state := .off, energized := [], load := 0, overload := pt.overload, detect := none, off := none,
                                   history := [], admitted := 0 } ∧
        (∀ n : Nat, n ≠ p.toNat → (t.ports[n]?).map marks = (s.ports[n]?).map marks) ∧
        (∀ x ∈ t.sched.queue, x.out.port ≠ p.toNat) ∧
        (∀ a expiry, a.port = p.toNat → t.stroke a ≠ some (.striking expiry)) ∧
        Raised (s.sched.queue.filter fun x => decide (x.out.port = p.toNat)).length .strikesShed s t ∧
        Only [.links, .table, .sched, .ports, .counters] s t))

/-- R123, R124, R125: a rising current sets the over indication, and starts the detect timer of an ACTIVE port while the supply is GOOD; a
falling one clears both. At the timer's expiry the port trips: the pruned history with this trip appended decides between TRIPPED with
its off timer and LOCKED, its queued strikes are shed, its strokes end, the trip is counted, and each link that is UP with an idle
transmitter is told. -/
def Obligations.OvercurrentIsTimedAndTripsThePort : Prop :=
  ∀ (s : State) (p : Nat), Done s →
    let marks (pt : Port) := (pt.state, pt.history, pt.detect, pt.off, pt.overload)
    (∀ pt, s.ports[p]? = some pt →
      exec (.currentRising p) s = .next { s with ports := s.ports.set p { pt with
        overload := true
        detect := if pt.state = .active ∧ s.supply.state = .good ∧ pt.detect = none then
          (s.portEntry p).map fun e => s.now + e.detect else pt.detect } } ∧
      exec (.currentFalling p) s = .next { s with ports := s.ports.set p { pt with overload := false, detect := none } }) ∧
    (∀ pt e expiry, p < 8 → StrokesTimed s → s.ports[p]? = some pt → s.portEntry p = some e → pt.state = .active →
      pt.detect = some expiry → expiry ≤ s.now →
      let history := (pt.history.filter fun h => decide (s.now - h ≤ e.window * 1000)) ++ [s.now]
      let locked := e.lockout ≤ history.length
      ∃ t, exec (.detectTimerExpiry p) s = .next t ∧
        t.ports[p]? = some { state := if locked then .locked else .tripped, energized := [], load := 0, overload := pt.overload,
                             detect := none, off := if locked then none else some (s.now + e.off), history := history, admitted := 0 } ∧
        (∀ n : Nat, n ≠ p → (t.ports[n]?).map marks = (s.ports[n]?).map marks) ∧
        (∀ x ∈ t.sched.queue, x.out.port ≠ p) ∧
        (∀ a expiry, a.port = p → t.stroke a ≠ some (.striking expiry)) ∧
        Raised 1 (.portTrips p) s t ∧ Raised (if locked then 1 else 0) .lockouts s t ∧
        Raised (s.sched.queue.filter fun x => decide (x.out.port = p)).length .strikesShed s t ∧
        (∀ l, (s.link l).state = .up → (s.link l).transmitter = .idle → ∃ frame, (t.link l).transmitter =
          .sending (.notice (if locked then .portLocked p history.length else .portTripped p history.length)) frame s.now) ∧
        Only [.links, .table, .sched, .ports, .counters] s t)

/-- R126, R132, R133: the off timer's expiry makes a TRIPPED port ACTIVE with its history kept; a drop from GOOD makes the supply LOW at
once, with every detect timer cancelled, every queued strike shed, every stroke ended and nothing driven; a rise starts the dwell of 100
ms and a drop cancels it; its end makes the supply GOOD, and an ACTIVE port over its threshold starts its detect timer. Each link that is
UP with an idle transmitter is told. -/
def Obligations.OffTimersAndTheSupplyMonitorSwitchTheDrive : Prop :=
  ∀ s : State, Done s →
    let told (n : Notice) (t : State) := ∀ l, (s.link l).state = .up → (s.link l).transmitter = .idle →
      ∃ frame, (t.link l).transmitter = .sending (.notice n) frame s.now
    let detecting (p : Nat) (pt : Port) : Option Nat :=
      if pt.overload then (s.portEntry p).map fun e => s.now + e.detect else none
    (∀ p pt expiry, s.ports[p]? = some pt → pt.state = .tripped → pt.off = some expiry → expiry ≤ s.now →
      ∃ t, exec (.offTimerExpiry p) s = .next t ∧
        (∃ q, t.ports[p]? = some q ∧ q.state = .active ∧ q.history = pt.history ∧ q.off = none ∧ q.overload = pt.overload ∧
          (pt.detect = none → q.detect = if s.supply.state = .good then detecting p pt else none)) ∧
        told (.portRestored p pt.history.length) t ∧ Only [.links, .table, .sched, .ports, .counters] s t) ∧
    (s.supply.state = .good → StrokesTimed s → ∃ t, exec .supplyDropping s = .next t ∧
      t.supply = { state := .low, dwell := none } ∧ t.sched = { s.sched with queue := [] } ∧
      (∀ r ∈ t.table, ∀ expiry, r.stroke ≠ some (.striking expiry)) ∧
      t.ports = s.ports.map (fun pt => { pt with energized := [], load := 0, detect := none, admitted := 0 }) ∧
      Raised s.sched.queue.length .strikesShed s t ∧ told .supplyLow t ∧
      Only [.links, .table, .sched, .ports, .supply, .counters] s t) ∧
    (s.supply.state = .low →
      exec .supplyDropping s = .next { s with supply := { state := .low, dwell := none } } ∧
      (s.supply.dwell = none → exec .supplyRising s = .next { s with supply := { state := .low, dwell := some (s.now + 100) } }) ∧
      (∀ expiry, s.supply.dwell = some expiry → expiry ≤ s.now → s.ports.length = 8 → ∃ t, exec .dwellTimerExpiry s = .next t ∧
        t.supply = { state := .good, dwell := none } ∧
        (∀ p pt, s.ports[p]? = some pt → ∃ q, t.ports[p]? = some q ∧ q.state = pt.state ∧ q.history = pt.history ∧ q.off = pt.off ∧
          q.overload = pt.overload ∧ (pt.detect = none → q.detect = if pt.state = .active then detecting p pt else none)) ∧
        told .supplyGood t ∧ Only [.links, .table, .sched, .ports, .supply, .counters] s t))

/-! ## Strokes, reiteration, dampers, tremulants and shutters -/

/-- R66, R72: a stroke that has run out rests its rest time, or is IDLE at once where that is 0, and a rest that has run out leaves the
output IDLE. The queue is served once after that where an output has come to IDLE or a port's load has fallen: from the oldest entry to
the newest, a stroke starts where its output is IDLE, its port drives and its load fits with the strokes that the pass has started before
it; each stroke started is counted and gone from the queue, and every other entry keeps its place. So the strike queued for the output
itself starts where it is the oldest, its port drives and its load fits. Nothing else changes. -/
def Obligations.AStrokeRestsAndAnIdleOutputServesTheQueue : Prop :=
  ∀ (s : State) (a : Addr) (k : Strike) (expiry : Nat), Done s → s.timesAt a = some k → expiry ≤ s.now →
    let started (b : Addr) (t : State) := (∃ x ∈ s.sched.queue, x.out = b) ∧ (∀ x ∈ t.sched.queue, x.out ≠ b) ∧
      ∃ kb, s.timesAt b = some kb ∧ t.stroke b = some (.striking (s.now + kb.stroke))
    let others (t : State) :=
      (∀ b, b ≠ a → t.stroke b = s.stroke b ∨ s.stroke b = some .idle ∧ started b t) ∧
      (∀ x ∈ t.sched.queue, x ∈ s.sched.queue) ∧ { t.sched with queue := [] } = { s.sched with queue := [] } ∧
      CountedOnly [15] s t ∧ Only [.table, .sched, .ports, .counters] s t
    let settled (stroke : Stroke) := settle (s.setStroke a stroke)
    let passed (u t : State) (outs : List Addr) := StrokesTimed s →
      (∀ b, t.stroke b = if b ∈ outs then (s.timesAt b).map fun kb => .striking (s.now + kb.stroke) else u.stroke b) ∧
      t.sched.queue = s.sched.queue.filter (fun x => decide (x.out ∉ outs)) ∧ Raised outs.length .strikesStarted s t
    let idles (c : Instr) := ∃ t, exec c s = .next t ∧ (t.stroke a = some .idle ∨ started a t) ∧ others t ∧
      passed (settled .idle) t ((settled .idle).starting [] s.sched.queue) ∧
      (∀ x rest pt e, s.sched.queue = x :: rest → x.out = a → (settled .idle).ports[a.port]? = some pt → s.portEntry a.port = some e →
        pt.state = .active → s.supply.state = .good → pt.load + s.strikeLoad a ≤ e.budget → started a t)
    (s.stroke a = some (.striking expiry) → 0 < k.rest →
      let u := settled (.resting (s.now + k.rest))
      let fell := ∃ (p : Nat) (was now : Port), s.ports[p]? = some was ∧ u.ports[p]? = some now ∧ now.load < was.load
      ∃ t, exec (.strokeTimerExpiry a) s = .next t ∧ t.stroke a = some (.resting (s.now + k.rest)) ∧ others t ∧
        (fell → passed u t (u.starting [] s.sched.queue)) ∧ (¬ fell → passed u t [])) ∧
    (s.stroke a = some (.striking expiry) → k.rest = 0 → idles (.strokeTimerExpiry a)) ∧
    (s.stroke a = some (.resting expiry) → idles (.restTimerExpiry a))

/-- R73, R79, R83: a queued strike that has reached the deferral limit is discarded and counted late; a reiteration due makes one strike
request and is due again one interval after it was; a holdover that has run out is gone, and with no note sounding the damper's demand
with it. -/
def Obligations.QueuedStrikesReiterationsAndHoldoversEndOnTime : Prop :=
  ∀ (s : State), Done s →
    (∀ x before after, s.sched.queue = before ++ x :: after → (∀ y ∈ before ++ after, y.out ≠ x.out) →
      x.joined + s.sched.deferral ≤ s.now →
      exec (.deferralLimitExpiry x.out) s = .next { s with
        sched := { s.sched with queue := before ++ after }, counters := (s.bump .strikesLate).counters }) ∧
    (∀ x before after interval, s.sched.reiterations = before ++ x :: after → (∀ y ∈ before ++ after, y.out ≠ x.out) →
      s.intervalAt x.out = some interval → x.due ≤ s.now →
      let struck := requestStrike x.out s
      ∃ t, exec (.reiterationDue x.out) s = .next t ∧
        t.sched = { struck.sched with reiterations := before ++ { x with due := x.due + interval } :: after } ∧
        t.table = struck.table ∧ t.counters = struck.counters ∧ Only [.table, .sched, .ports, .counters] s t) ∧
    (∀ d before after expiry, s.sched.dampers = before ++ d :: after → (∀ y ∈ before ++ after, y.source ≠ d.source) →
      d.holdover = some expiry → expiry ≤ s.now →
      ∃ t, exec (.holdoverTimerExpiry d.source) s = .next t ∧
        t.sched.dampers = before ++ { d with holdover := none } :: after ∧
        (d.sounding = 0 → t.damperDemand d.source = false) ∧
        t.sched.reiterations = s.sched.reiterations ∧ (∀ x ∈ t.sched.queue, x ∈ s.sched.queue) ∧ CountedOnly [15] s t ∧
        Only [.table, .sched, .ports, .counters] s t)

/-- R105, R106, R113, R115: an OPEN tremulant whose time has run out is CLOSED for its closed time, and a CLOSED one OPEN for its open
time; a chamber whose stage timer has run out closes one stage, or opens one where its port is ACTIVE, the supply GOOD and the load fits,
and waits its interval again, or is at rest where its target is reached. The other generators and chambers are as they were. -/
def Obligations.TremulantsAlternateAndChambersStepToTheirTargets : Prop :=
  ∀ (s : State) (expiry : Nat), Done s → expiry ≤ s.now →
    (∀ j x, j < s.generators.length → s.tremulant j = some x →
      let turned (phase : Phase) := ∃ t, exec (.phaseTimerExpiry j) s = .next t ∧
        t.generators = s.generators.set j { s.generator j with phase := phase } ∧ CountedOnly [15] s t ∧
        Only [.table, .sched, .generators, .ports, .counters] s t
      ((s.generator j).phase = .opened expiry → turned (.closed (s.now + x.closedTime))) ∧
      ((s.generator j).phase = .closed expiry → turned (.opened (s.now + x.openTime)))) ∧
    (∀ c stages o channel interval, c < s.shutters.chambers.length → s.chamber c = some (.enclosed stages o channel (some interval)) →
      (s.chamberState c).timer = some expiry →
      let current := (s.chamberState c).current
      let target := stageTarget (s.channel channel) stages
      let fits := ∃ pt e, s.ports[o.port]? = some pt ∧ s.portEntry o.port = some e ∧ pt.state = .active ∧ s.supply.state = .good ∧
        pt.load + o.load ≤ e.budget
      let stands (x : ChamberState) := ∃ t, exec (.stageTimerExpiry c) s = .next t ∧
        t.shutters = { s.shutters with chambers := s.shutters.chambers.set c x } ∧ CountedOnly [15] s t ∧
        Only [.table, .sched, .shutters, .ports, .counters] s t
      (current = target → stands { current := current, timer := none }) ∧
      (target < current → stands { current := current - 1, timer := some (s.now + interval) }) ∧
      (current < target → fits → stands { current := current + 1, timer := some (s.now + interval) }) ∧
      (current < target → ¬ fits → stands { current := current, timer := some (s.now + interval) }))
end

