-- ==== Sys2Proof/Laws/State.lean ====
section
/-! SUPPORT. What each plain update of the state leaves as it was: one lemma a field, true by unfolding. And what it writes, read back
through the readers of Machine/Ops.lean. -/

namespace Sys2Proof.Machine

/-! ## Pairs -/

@[simp] theorem Pair.get_set_same {α : Type} (p : Pair α) (l : Link) (x : α) : (p.set l x).get l = x := by cases l <;> rfl

theorem Pair.get_set_of_ne {α : Type} (p : Pair α) {l m : Link} (h : m ≠ l) (x : α) : (p.set l x).get m = p.get m := by
  cases l <;> cases m <;> first | rfl | exact absurd rfl h

@[simp] theorem Pair.get_set_other {α : Type} (p : Pair α) (l : Link) (x : α) :
    (p.set l x).get (otherLink l) = p.get (otherLink l) := by cases l <;> rfl

theorem otherLink_ne (l : Link) : otherLink l ≠ l := by cases l <;> decide

theorem Pair.ext_get {α : Type} {p q : Pair α} (h : ∀ l, p.get l = q.get l) : p = q := by
  obtain ⟨p1, p2⟩ := p
  obtain ⟨q1, q2⟩ := q
  have h1 : p1 = q1 := h .one
  have h2 : p2 = q2 := h .two
  rw [h1, h2]

theorem Pair.set_get {α : Type} (p : Pair α) (l : Link) : p.set l (p.get l) = p := by cases l <;> rfl

/-! ## Reading back what was written -/

@[simp] theorem State.link_modLink_same (s : State) (l : Link) (f : LinkIf → LinkIf) : (s.modLink l f).link l = f (s.link l) :=
  Pair.get_set_same _ _ _

@[simp] theorem State.link_modLink_other (s : State) (l : Link) (f : LinkIf → LinkIf) :
    (s.modLink l f).link (otherLink l) = s.link (otherLink l) := Pair.get_set_other _ _ _

theorem State.link_modLink_of_ne (s : State) {l m : Link} (h : m ≠ l) (f : LinkIf → LinkIf) : (s.modLink l f).link m = s.link m :=
  Pair.get_set_of_ne _ h _

@[simp] theorem State.reg_modReg_same (s : State) (l : Link) (f : Registration → Registration) :
    (s.modReg l f).reg l = f (s.reg l) := Pair.get_set_same _ _ _

theorem State.reg_modReg_of_ne (s : State) {l m : Link} (h : m ≠ l) (f : Registration → Registration) :
    (s.modReg l f).reg m = s.reg m := Pair.get_set_of_ne _ h _

theorem State.link_of_links {s t : State} (h : t.links = s.links) (l : Link) : t.link l = s.link l := by
  unfold State.link
  rw [h]

theorem State.reg_of_regs {s t : State} (h : t.regs = s.regs) (l : Link) : t.reg l = s.reg l := by
  unfold State.reg
  rw [h]

/-! ## What each update leaves as it was -/

@[simp] theorem State.modLink_now (s : State) (l : Link) (f : LinkIf → LinkIf) : (s.modLink l f).now = s.now := rfl
@[simp] theorem State.modLink_rate (s : State) (l : Link) (f : LinkIf → LinkIf) : (s.modLink l f).rate = s.rate := rfl
@[simp] theorem State.modLink_store (s : State) (l : Link) (f : LinkIf → LinkIf) : (s.modLink l f).store = s.store := rfl
@[simp] theorem State.modLink_regs (s : State) (l : Link) (f : LinkIf → LinkIf) : (s.modLink l f).regs = s.regs := rfl
@[simp] theorem State.modLink_table (s : State) (l : Link) (f : LinkIf → LinkIf) : (s.modLink l f).table = s.table := rfl
@[simp] theorem State.modLink_sched (s : State) (l : Link) (f : LinkIf → LinkIf) : (s.modLink l f).sched = s.sched := rfl
@[simp] theorem State.modLink_figures (s : State) (l : Link) (f : LinkIf → LinkIf) : (s.modLink l f).figures = s.figures := rfl
@[simp] theorem State.modLink_generators (s : State) (l : Link) (f : LinkIf → LinkIf) : (s.modLink l f).generators = s.generators := rfl
@[simp] theorem State.modLink_shutters (s : State) (l : Link) (f : LinkIf → LinkIf) : (s.modLink l f).shutters = s.shutters := rfl
@[simp] theorem State.modLink_ports (s : State) (l : Link) (f : LinkIf → LinkIf) : (s.modLink l f).ports = s.ports := rfl
@[simp] theorem State.modLink_supply (s : State) (l : Link) (f : LinkIf → LinkIf) : (s.modLink l f).supply = s.supply := rfl
@[simp] theorem State.modLink_memory (s : State) (l : Link) (f : LinkIf → LinkIf) : (s.modLink l f).memory = s.memory := rfl
@[simp] theorem State.modLink_cue (s : State) (l : Link) (f : LinkIf → LinkIf) : (s.modLink l f).cue = s.cue := rfl
@[simp] theorem State.modLink_counters (s : State) (l : Link) (f : LinkIf → LinkIf) : (s.modLink l f).counters = s.counters := rfl
@[simp] theorem State.modLink_pending (s : State) (l : Link) (f : LinkIf → LinkIf) : (s.modLink l f).pending = s.pending := rfl
@[simp] theorem State.modReg_now (s : State) (l : Link) (f : Registration → Registration) : (s.modReg l f).now = s.now := rfl
@[simp] theorem State.modReg_rate (s : State) (l : Link) (f : Registration → Registration) : (s.modReg l f).rate = s.rate := rfl
@[simp] theorem State.modReg_store (s : State) (l : Link) (f : Registration → Registration) : (s.modReg l f).store = s.store := rfl
@[simp] theorem State.modReg_links (s : State) (l : Link) (f : Registration → Registration) : (s.modReg l f).links = s.links := rfl
@[simp] theorem State.modReg_table (s : State) (l : Link) (f : Registration → Registration) : (s.modReg l f).table = s.table := rfl
@[simp] theorem State.modReg_sched (s : State) (l : Link) (f : Registration → Registration) : (s.modReg l f).sched = s.sched := rfl
@[simp] theorem State.modReg_figures (s : State) (l : Link) (f : Registration → Registration) : (s.modReg l f).figures = s.figures := rfl
@[simp] theorem State.modReg_generators (s : State) (l : Link) (f : Registration → Registration) : (s.modReg l f).generators = s.generators := rfl
@[simp] theorem State.modReg_shutters (s : State) (l : Link) (f : Registration → Registration) : (s.modReg l f).shutters = s.shutters := rfl
@[simp] theorem State.modReg_ports (s : State) (l : Link) (f : Registration → Registration) : (s.modReg l f).ports = s.ports := rfl
@[simp] theorem State.modReg_supply (s : State) (l : Link) (f : Registration → Registration) : (s.modReg l f).supply = s.supply := rfl
@[simp] theorem State.modReg_memory (s : State) (l : Link) (f : Registration → Registration) : (s.modReg l f).memory = s.memory := rfl
@[simp] theorem State.modReg_cue (s : State) (l : Link) (f : Registration → Registration) : (s.modReg l f).cue = s.cue := rfl
@[simp] theorem State.modReg_counters (s : State) (l : Link) (f : Registration → Registration) : (s.modReg l f).counters = s.counters := rfl
@[simp] theorem State.modReg_pending (s : State) (l : Link) (f : Registration → Registration) : (s.modReg l f).pending = s.pending := rfl
@[simp] theorem State.modTables_now (s : State) (f : Tables → Tables) : (s.modTables f).now = s.now := rfl
@[simp] theorem State.modTables_rate (s : State) (f : Tables → Tables) : (s.modTables f).rate = s.rate := rfl
@[simp] theorem State.modTables_links (s : State) (f : Tables → Tables) : (s.modTables f).links = s.links := rfl
@[simp] theorem State.modTables_regs (s : State) (f : Tables → Tables) : (s.modTables f).regs = s.regs := rfl
@[simp] theorem State.modTables_table (s : State) (f : Tables → Tables) : (s.modTables f).table = s.table := rfl
@[simp] theorem State.modTables_sched (s : State) (f : Tables → Tables) : (s.modTables f).sched = s.sched := rfl
@[simp] theorem State.modTables_figures (s : State) (f : Tables → Tables) : (s.modTables f).figures = s.figures := rfl
@[simp] theorem State.modTables_generators (s : State) (f : Tables → Tables) : (s.modTables f).generators = s.generators := rfl
@[simp] theorem State.modTables_shutters (s : State) (f : Tables → Tables) : (s.modTables f).shutters = s.shutters := rfl
@[simp] theorem State.modTables_ports (s : State) (f : Tables → Tables) : (s.modTables f).ports = s.ports := rfl
@[simp] theorem State.modTables_supply (s : State) (f : Tables → Tables) : (s.modTables f).supply = s.supply := rfl
@[simp] theorem State.modTables_memory (s : State) (f : Tables → Tables) : (s.modTables f).memory = s.memory := rfl
@[simp] theorem State.modTables_cue (s : State) (f : Tables → Tables) : (s.modTables f).cue = s.cue := rfl
@[simp] theorem State.modTables_counters (s : State) (f : Tables → Tables) : (s.modTables f).counters = s.counters := rfl
@[simp] theorem State.modTables_pending (s : State) (f : Tables → Tables) : (s.modTables f).pending = s.pending := rfl
@[simp] theorem State.bumpBy_now (s : State) (n : Nat) (c : Counter) : (s.bumpBy n c).now = s.now := rfl
@[simp] theorem State.bumpBy_rate (s : State) (n : Nat) (c : Counter) : (s.bumpBy n c).rate = s.rate := rfl
@[simp] theorem State.bumpBy_store (s : State) (n : Nat) (c : Counter) : (s.bumpBy n c).store = s.store := rfl
@[simp] theorem State.bumpBy_links (s : State) (n : Nat) (c : Counter) : (s.bumpBy n c).links = s.links := rfl
@[simp] theorem State.bumpBy_regs (s : State) (n : Nat) (c : Counter) : (s.bumpBy n c).regs = s.regs := rfl
@[simp] theorem State.bumpBy_table (s : State) (n : Nat) (c : Counter) : (s.bumpBy n c).table = s.table := rfl
@[simp] theorem State.bumpBy_sched (s : State) (n : Nat) (c : Counter) : (s.bumpBy n c).sched = s.sched := rfl
@[simp] theorem State.bumpBy_figures (s : State) (n : Nat) (c : Counter) : (s.bumpBy n c).figures = s.figures := rfl
@[simp] theorem State.bumpBy_generators (s : State) (n : Nat) (c : Counter) : (s.bumpBy n c).generators = s.generators := rfl
@[simp] theorem State.bumpBy_shutters (s : State) (n : Nat) (c : Counter) : (s.bumpBy n c).shutters = s.shutters := rfl
@[simp] theorem State.bumpBy_ports (s : State) (n : Nat) (c : Counter) : (s.bumpBy n c).ports = s.ports := rfl
@[simp] theorem State.bumpBy_supply (s : State) (n : Nat) (c : Counter) : (s.bumpBy n c).supply = s.supply := rfl
@[simp] theorem State.bumpBy_memory (s : State) (n : Nat) (c : Counter) : (s.bumpBy n c).memory = s.memory := rfl
@[simp] theorem State.bumpBy_cue (s : State) (n : Nat) (c : Counter) : (s.bumpBy n c).cue = s.cue := rfl
@[simp] theorem State.bumpBy_pending (s : State) (n : Nat) (c : Counter) : (s.bumpBy n c).pending = s.pending := rfl
@[simp] theorem State.bump_now (s : State) (c : Counter) : (s.bump c).now = s.now := rfl
@[simp] theorem State.bump_rate (s : State) (c : Counter) : (s.bump c).rate = s.rate := rfl
@[simp] theorem State.bump_store (s : State) (c : Counter) : (s.bump c).store = s.store := rfl
@[simp] theorem State.bump_links (s : State) (c : Counter) : (s.bump c).links = s.links := rfl
@[simp] theorem State.bump_regs (s : State) (c : Counter) : (s.bump c).regs = s.regs := rfl
@[simp] theorem State.bump_table (s : State) (c : Counter) : (s.bump c).table = s.table := rfl
@[simp] theorem State.bump_sched (s : State) (c : Counter) : (s.bump c).sched = s.sched := rfl
@[simp] theorem State.bump_figures (s : State) (c : Counter) : (s.bump c).figures = s.figures := rfl
@[simp] theorem State.bump_generators (s : State) (c : Counter) : (s.bump c).generators = s.generators := rfl
@[simp] theorem State.bump_shutters (s : State) (c : Counter) : (s.bump c).shutters = s.shutters := rfl
@[simp] theorem State.bump_ports (s : State) (c : Counter) : (s.bump c).ports = s.ports := rfl
@[simp] theorem State.bump_supply (s : State) (c : Counter) : (s.bump c).supply = s.supply := rfl
@[simp] theorem State.bump_memory (s : State) (c : Counter) : (s.bump c).memory = s.memory := rfl
@[simp] theorem State.bump_cue (s : State) (c : Counter) : (s.bump c).cue = s.cue := rfl
@[simp] theorem State.bump_pending (s : State) (c : Counter) : (s.bump c).pending = s.pending := rfl
@[simp] theorem State.modRecord_now (s : State) (x : Target) (f : Record → Record) : (s.modRecord x f).now = s.now := rfl
@[simp] theorem State.modRecord_rate (s : State) (x : Target) (f : Record → Record) : (s.modRecord x f).rate = s.rate := rfl
@[simp] theorem State.modRecord_store (s : State) (x : Target) (f : Record → Record) : (s.modRecord x f).store = s.store := rfl
@[simp] theorem State.modRecord_links (s : State) (x : Target) (f : Record → Record) : (s.modRecord x f).links = s.links := rfl
@[simp] theorem State.modRecord_regs (s : State) (x : Target) (f : Record → Record) : (s.modRecord x f).regs = s.regs := rfl
@[simp] theorem State.modRecord_sched (s : State) (x : Target) (f : Record → Record) : (s.modRecord x f).sched = s.sched := rfl
@[simp] theorem State.modRecord_figures (s : State) (x : Target) (f : Record → Record) : (s.modRecord x f).figures = s.figures := rfl
@[simp] theorem State.modRecord_generators (s : State) (x : Target) (f : Record → Record) : (s.modRecord x f).generators = s.generators := rfl
@[simp] theorem State.modRecord_shutters (s : State) (x : Target) (f : Record → Record) : (s.modRecord x f).shutters = s.shutters := rfl
@[simp] theorem State.modRecord_ports (s : State) (x : Target) (f : Record → Record) : (s.modRecord x f).ports = s.ports := rfl
@[simp] theorem State.modRecord_supply (s : State) (x : Target) (f : Record → Record) : (s.modRecord x f).supply = s.supply := rfl
@[simp] theorem State.modRecord_memory (s : State) (x : Target) (f : Record → Record) : (s.modRecord x f).memory = s.memory := rfl
@[simp] theorem State.modRecord_cue (s : State) (x : Target) (f : Record → Record) : (s.modRecord x f).cue = s.cue := rfl
@[simp] theorem State.modRecord_counters (s : State) (x : Target) (f : Record → Record) : (s.modRecord x f).counters = s.counters := rfl
@[simp] theorem State.modRecord_pending (s : State) (x : Target) (f : Record → Record) : (s.modRecord x f).pending = s.pending := rfl
@[simp] theorem State.modPort_now (s : State) (p : Nat) (f : Port → Port) : (s.modPort p f).now = s.now := rfl
@[simp] theorem State.modPort_rate (s : State) (p : Nat) (f : Port → Port) : (s.modPort p f).rate = s.rate := rfl
@[simp] theorem State.modPort_store (s : State) (p : Nat) (f : Port → Port) : (s.modPort p f).store = s.store := rfl
@[simp] theorem State.modPort_links (s : State) (p : Nat) (f : Port → Port) : (s.modPort p f).links = s.links := rfl
@[simp] theorem State.modPort_regs (s : State) (p : Nat) (f : Port → Port) : (s.modPort p f).regs = s.regs := rfl
@[simp] theorem State.modPort_table (s : State) (p : Nat) (f : Port → Port) : (s.modPort p f).table = s.table := rfl
@[simp] theorem State.modPort_sched (s : State) (p : Nat) (f : Port → Port) : (s.modPort p f).sched = s.sched := rfl
@[simp] theorem State.modPort_figures (s : State) (p : Nat) (f : Port → Port) : (s.modPort p f).figures = s.figures := rfl
@[simp] theorem State.modPort_generators (s : State) (p : Nat) (f : Port → Port) : (s.modPort p f).generators = s.generators := rfl
@[simp] theorem State.modPort_shutters (s : State) (p : Nat) (f : Port → Port) : (s.modPort p f).shutters = s.shutters := rfl
@[simp] theorem State.modPort_supply (s : State) (p : Nat) (f : Port → Port) : (s.modPort p f).supply = s.supply := rfl
@[simp] theorem State.modPort_memory (s : State) (p : Nat) (f : Port → Port) : (s.modPort p f).memory = s.memory := rfl
@[simp] theorem State.modPort_cue (s : State) (p : Nat) (f : Port → Port) : (s.modPort p f).cue = s.cue := rfl
@[simp] theorem State.modPort_counters (s : State) (p : Nat) (f : Port → Port) : (s.modPort p f).counters = s.counters := rfl
@[simp] theorem State.modPort_pending (s : State) (p : Nat) (f : Port → Port) : (s.modPort p f).pending = s.pending := rfl
@[simp] theorem State.addLoad_now (s : State) (p load : Nat) : (s.addLoad p load).now = s.now := rfl
@[simp] theorem State.addLoad_rate (s : State) (p load : Nat) : (s.addLoad p load).rate = s.rate := rfl
@[simp] theorem State.addLoad_store (s : State) (p load : Nat) : (s.addLoad p load).store = s.store := rfl
@[simp] theorem State.addLoad_links (s : State) (p load : Nat) : (s.addLoad p load).links = s.links := rfl
@[simp] theorem State.addLoad_regs (s : State) (p load : Nat) : (s.addLoad p load).regs = s.regs := rfl
@[simp] theorem State.addLoad_table (s : State) (p load : Nat) : (s.addLoad p load).table = s.table := rfl
@[simp] theorem State.addLoad_sched (s : State) (p load : Nat) : (s.addLoad p load).sched = s.sched := rfl
@[simp] theorem State.addLoad_figures (s : State) (p load : Nat) : (s.addLoad p load).figures = s.figures := rfl
@[simp] theorem State.addLoad_generators (s : State) (p load : Nat) : (s.addLoad p load).generators = s.generators := rfl
@[simp] theorem State.addLoad_shutters (s : State) (p load : Nat) : (s.addLoad p load).shutters = s.shutters := rfl
@[simp] theorem State.addLoad_supply (s : State) (p load : Nat) : (s.addLoad p load).supply = s.supply := rfl
@[simp] theorem State.addLoad_memory (s : State) (p load : Nat) : (s.addLoad p load).memory = s.memory := rfl
@[simp] theorem State.addLoad_cue (s : State) (p load : Nat) : (s.addLoad p load).cue = s.cue := rfl
@[simp] theorem State.addLoad_counters (s : State) (p load : Nat) : (s.addLoad p load).counters = s.counters := rfl
@[simp] theorem State.addLoad_pending (s : State) (p load : Nat) : (s.addLoad p load).pending = s.pending := rfl
@[simp] theorem State.setStroke_now (s : State) (a : Addr) (k : Stroke) : (s.setStroke a k).now = s.now := rfl
@[simp] theorem State.setStroke_rate (s : State) (a : Addr) (k : Stroke) : (s.setStroke a k).rate = s.rate := rfl
@[simp] theorem State.setStroke_store (s : State) (a : Addr) (k : Stroke) : (s.setStroke a k).store = s.store := rfl
@[simp] theorem State.setStroke_links (s : State) (a : Addr) (k : Stroke) : (s.setStroke a k).links = s.links := rfl
@[simp] theorem State.setStroke_regs (s : State) (a : Addr) (k : Stroke) : (s.setStroke a k).regs = s.regs := rfl
@[simp] theorem State.setStroke_sched (s : State) (a : Addr) (k : Stroke) : (s.setStroke a k).sched = s.sched := rfl
@[simp] theorem State.setStroke_figures (s : State) (a : Addr) (k : Stroke) : (s.setStroke a k).figures = s.figures := rfl
@[simp] theorem State.setStroke_generators (s : State) (a : Addr) (k : Stroke) : (s.setStroke a k).generators = s.generators := rfl
@[simp] theorem State.setStroke_shutters (s : State) (a : Addr) (k : Stroke) : (s.setStroke a k).shutters = s.shutters := rfl
@[simp] theorem State.setStroke_ports (s : State) (a : Addr) (k : Stroke) : (s.setStroke a k).ports = s.ports := rfl
@[simp] theorem State.setStroke_supply (s : State) (a : Addr) (k : Stroke) : (s.setStroke a k).supply = s.supply := rfl
@[simp] theorem State.setStroke_memory (s : State) (a : Addr) (k : Stroke) : (s.setStroke a k).memory = s.memory := rfl
@[simp] theorem State.setStroke_cue (s : State) (a : Addr) (k : Stroke) : (s.setStroke a k).cue = s.cue := rfl
@[simp] theorem State.setStroke_counters (s : State) (a : Addr) (k : Stroke) : (s.setStroke a k).counters = s.counters := rfl
@[simp] theorem State.setStroke_pending (s : State) (a : Addr) (k : Stroke) : (s.setStroke a k).pending = s.pending := rfl
@[simp] theorem dequeue_now (s : State) (a : Addr) : (dequeue a s).now = s.now := rfl
@[simp] theorem dequeue_rate (s : State) (a : Addr) : (dequeue a s).rate = s.rate := rfl
@[simp] theorem dequeue_store (s : State) (a : Addr) : (dequeue a s).store = s.store := rfl
@[simp] theorem dequeue_links (s : State) (a : Addr) : (dequeue a s).links = s.links := rfl
@[simp] theorem dequeue_regs (s : State) (a : Addr) : (dequeue a s).regs = s.regs := rfl
@[simp] theorem dequeue_table (s : State) (a : Addr) : (dequeue a s).table = s.table := rfl
@[simp] theorem dequeue_figures (s : State) (a : Addr) : (dequeue a s).figures = s.figures := rfl
@[simp] theorem dequeue_generators (s : State) (a : Addr) : (dequeue a s).generators = s.generators := rfl
@[simp] theorem dequeue_shutters (s : State) (a : Addr) : (dequeue a s).shutters = s.shutters := rfl
@[simp] theorem dequeue_ports (s : State) (a : Addr) : (dequeue a s).ports = s.ports := rfl
@[simp] theorem dequeue_supply (s : State) (a : Addr) : (dequeue a s).supply = s.supply := rfl
@[simp] theorem dequeue_memory (s : State) (a : Addr) : (dequeue a s).memory = s.memory := rfl
@[simp] theorem dequeue_cue (s : State) (a : Addr) : (dequeue a s).cue = s.cue := rfl
@[simp] theorem dequeue_counters (s : State) (a : Addr) : (dequeue a s).counters = s.counters := rfl
@[simp] theorem dequeue_pending (s : State) (a : Addr) : (dequeue a s).pending = s.pending := rfl
@[simp] theorem shedQueued_now (s : State) (f : Addr → Bool) : (shedQueued f s).now = s.now := rfl
@[simp] theorem shedQueued_rate (s : State) (f : Addr → Bool) : (shedQueued f s).rate = s.rate := rfl
@[simp] theorem shedQueued_store (s : State) (f : Addr → Bool) : (shedQueued f s).store = s.store := rfl
@[simp] theorem shedQueued_links (s : State) (f : Addr → Bool) : (shedQueued f s).links = s.links := rfl
@[simp] theorem shedQueued_regs (s : State) (f : Addr → Bool) : (shedQueued f s).regs = s.regs := rfl
@[simp] theorem shedQueued_table (s : State) (f : Addr → Bool) : (shedQueued f s).table = s.table := rfl
@[simp] theorem shedQueued_figures (s : State) (f : Addr → Bool) : (shedQueued f s).figures = s.figures := rfl
@[simp] theorem shedQueued_generators (s : State) (f : Addr → Bool) : (shedQueued f s).generators = s.generators := rfl
@[simp] theorem shedQueued_shutters (s : State) (f : Addr → Bool) : (shedQueued f s).shutters = s.shutters := rfl
@[simp] theorem shedQueued_ports (s : State) (f : Addr → Bool) : (shedQueued f s).ports = s.ports := rfl
@[simp] theorem shedQueued_supply (s : State) (f : Addr → Bool) : (shedQueued f s).supply = s.supply := rfl
@[simp] theorem shedQueued_memory (s : State) (f : Addr → Bool) : (shedQueued f s).memory = s.memory := rfl
@[simp] theorem shedQueued_cue (s : State) (f : Addr → Bool) : (shedQueued f s).cue = s.cue := rfl
@[simp] theorem shedQueued_pending (s : State) (f : Addr → Bool) : (shedQueued f s).pending = s.pending := rfl
@[simp] theorem cutStrokes_now (s : State) (f : Addr → Bool) : (cutStrokes f s).now = s.now := rfl
@[simp] theorem cutStrokes_rate (s : State) (f : Addr → Bool) : (cutStrokes f s).rate = s.rate := rfl
@[simp] theorem cutStrokes_store (s : State) (f : Addr → Bool) : (cutStrokes f s).store = s.store := rfl
@[simp] theorem cutStrokes_links (s : State) (f : Addr → Bool) : (cutStrokes f s).links = s.links := rfl
@[simp] theorem cutStrokes_regs (s : State) (f : Addr → Bool) : (cutStrokes f s).regs = s.regs := rfl
@[simp] theorem cutStrokes_sched (s : State) (f : Addr → Bool) : (cutStrokes f s).sched = s.sched := rfl
@[simp] theorem cutStrokes_figures (s : State) (f : Addr → Bool) : (cutStrokes f s).figures = s.figures := rfl
@[simp] theorem cutStrokes_generators (s : State) (f : Addr → Bool) : (cutStrokes f s).generators = s.generators := rfl
@[simp] theorem cutStrokes_shutters (s : State) (f : Addr → Bool) : (cutStrokes f s).shutters = s.shutters := rfl
@[simp] theorem cutStrokes_ports (s : State) (f : Addr → Bool) : (cutStrokes f s).ports = s.ports := rfl
@[simp] theorem cutStrokes_supply (s : State) (f : Addr → Bool) : (cutStrokes f s).supply = s.supply := rfl
@[simp] theorem cutStrokes_memory (s : State) (f : Addr → Bool) : (cutStrokes f s).memory = s.memory := rfl
@[simp] theorem cutStrokes_cue (s : State) (f : Addr → Bool) : (cutStrokes f s).cue = s.cue := rfl
@[simp] theorem cutStrokes_counters (s : State) (f : Addr → Bool) : (cutStrokes f s).counters = s.counters := rfl
@[simp] theorem cutStrokes_pending (s : State) (f : Addr → Bool) : (cutStrokes f s).pending = s.pending := rfl
@[simp] theorem dropStrikes_now (s : State) (f : Addr → Bool) : (dropStrikes f s).now = s.now := rfl
@[simp] theorem dropStrikes_rate (s : State) (f : Addr → Bool) : (dropStrikes f s).rate = s.rate := rfl
@[simp] theorem dropStrikes_store (s : State) (f : Addr → Bool) : (dropStrikes f s).store = s.store := rfl
@[simp] theorem dropStrikes_links (s : State) (f : Addr → Bool) : (dropStrikes f s).links = s.links := rfl
@[simp] theorem dropStrikes_regs (s : State) (f : Addr → Bool) : (dropStrikes f s).regs = s.regs := rfl
@[simp] theorem dropStrikes_figures (s : State) (f : Addr → Bool) : (dropStrikes f s).figures = s.figures := rfl
@[simp] theorem dropStrikes_generators (s : State) (f : Addr → Bool) : (dropStrikes f s).generators = s.generators := rfl
@[simp] theorem dropStrikes_shutters (s : State) (f : Addr → Bool) : (dropStrikes f s).shutters = s.shutters := rfl
@[simp] theorem dropStrikes_ports (s : State) (f : Addr → Bool) : (dropStrikes f s).ports = s.ports := rfl
@[simp] theorem dropStrikes_supply (s : State) (f : Addr → Bool) : (dropStrikes f s).supply = s.supply := rfl
@[simp] theorem dropStrikes_memory (s : State) (f : Addr → Bool) : (dropStrikes f s).memory = s.memory := rfl
@[simp] theorem dropStrikes_cue (s : State) (f : Addr → Bool) : (dropStrikes f s).cue = s.cue := rfl
@[simp] theorem dropStrikes_pending (s : State) (f : Addr → Bool) : (dropStrikes f s).pending = s.pending := rfl
@[simp] theorem endReiteration_now (s : State) (a : Addr) : (endReiteration a s).now = s.now := rfl
@[simp] theorem endReiteration_rate (s : State) (a : Addr) : (endReiteration a s).rate = s.rate := rfl
@[simp] theorem endReiteration_store (s : State) (a : Addr) : (endReiteration a s).store = s.store := rfl
@[simp] theorem endReiteration_links (s : State) (a : Addr) : (endReiteration a s).links = s.links := rfl
@[simp] theorem endReiteration_regs (s : State) (a : Addr) : (endReiteration a s).regs = s.regs := rfl
@[simp] theorem endReiteration_table (s : State) (a : Addr) : (endReiteration a s).table = s.table := rfl
@[simp] theorem endReiteration_figures (s : State) (a : Addr) : (endReiteration a s).figures = s.figures := rfl
@[simp] theorem endReiteration_generators (s : State) (a : Addr) : (endReiteration a s).generators = s.generators := rfl
@[simp] theorem endReiteration_shutters (s : State) (a : Addr) : (endReiteration a s).shutters = s.shutters := rfl
@[simp] theorem endReiteration_ports (s : State) (a : Addr) : (endReiteration a s).ports = s.ports := rfl
@[simp] theorem endReiteration_supply (s : State) (a : Addr) : (endReiteration a s).supply = s.supply := rfl
@[simp] theorem endReiteration_memory (s : State) (a : Addr) : (endReiteration a s).memory = s.memory := rfl
@[simp] theorem endReiteration_cue (s : State) (a : Addr) : (endReiteration a s).cue = s.cue := rfl
@[simp] theorem endReiteration_counters (s : State) (a : Addr) : (endReiteration a s).counters = s.counters := rfl
@[simp] theorem endReiteration_pending (s : State) (a : Addr) : (endReiteration a s).pending = s.pending := rfl
@[simp] theorem State.modDamper_now (s : State) (i : Nat) (f : DamperState → DamperState) : (s.modDamper i f).now = s.now := rfl
@[simp] theorem State.modDamper_rate (s : State) (i : Nat) (f : DamperState → DamperState) : (s.modDamper i f).rate = s.rate := rfl
@[simp] theorem State.modDamper_store (s : State) (i : Nat) (f : DamperState → DamperState) : (s.modDamper i f).store = s.store := rfl
@[simp] theorem State.modDamper_links (s : State) (i : Nat) (f : DamperState → DamperState) : (s.modDamper i f).links = s.links := rfl
@[simp] theorem State.modDamper_regs (s : State) (i : Nat) (f : DamperState → DamperState) : (s.modDamper i f).regs = s.regs := rfl
@[simp] theorem State.modDamper_table (s : State) (i : Nat) (f : DamperState → DamperState) : (s.modDamper i f).table = s.table := rfl
@[simp] theorem State.modDamper_figures (s : State) (i : Nat) (f : DamperState → DamperState) : (s.modDamper i f).figures = s.figures := rfl
@[simp] theorem State.modDamper_generators (s : State) (i : Nat) (f : DamperState → DamperState) : (s.modDamper i f).generators = s.generators := rfl
@[simp] theorem State.modDamper_shutters (s : State) (i : Nat) (f : DamperState → DamperState) : (s.modDamper i f).shutters = s.shutters := rfl
@[simp] theorem State.modDamper_ports (s : State) (i : Nat) (f : DamperState → DamperState) : (s.modDamper i f).ports = s.ports := rfl
@[simp] theorem State.modDamper_supply (s : State) (i : Nat) (f : DamperState → DamperState) : (s.modDamper i f).supply = s.supply := rfl
@[simp] theorem State.modDamper_memory (s : State) (i : Nat) (f : DamperState → DamperState) : (s.modDamper i f).memory = s.memory := rfl
@[simp] theorem State.modDamper_cue (s : State) (i : Nat) (f : DamperState → DamperState) : (s.modDamper i f).cue = s.cue := rfl
@[simp] theorem State.modDamper_counters (s : State) (i : Nat) (f : DamperState → DamperState) : (s.modDamper i f).counters = s.counters := rfl
@[simp] theorem State.modDamper_pending (s : State) (i : Nat) (f : DamperState → DamperState) : (s.modDamper i f).pending = s.pending := rfl
@[simp] theorem damperOnset_now (s : State) (i : Nat) : (damperOnset i s).now = s.now := rfl
@[simp] theorem damperOnset_rate (s : State) (i : Nat) : (damperOnset i s).rate = s.rate := rfl
@[simp] theorem damperOnset_store (s : State) (i : Nat) : (damperOnset i s).store = s.store := rfl
@[simp] theorem damperOnset_links (s : State) (i : Nat) : (damperOnset i s).links = s.links := rfl
@[simp] theorem damperOnset_regs (s : State) (i : Nat) : (damperOnset i s).regs = s.regs := rfl
@[simp] theorem damperOnset_table (s : State) (i : Nat) : (damperOnset i s).table = s.table := rfl
@[simp] theorem damperOnset_figures (s : State) (i : Nat) : (damperOnset i s).figures = s.figures := rfl
@[simp] theorem damperOnset_generators (s : State) (i : Nat) : (damperOnset i s).generators = s.generators := rfl
@[simp] theorem damperOnset_shutters (s : State) (i : Nat) : (damperOnset i s).shutters = s.shutters := rfl
@[simp] theorem damperOnset_ports (s : State) (i : Nat) : (damperOnset i s).ports = s.ports := rfl
@[simp] theorem damperOnset_supply (s : State) (i : Nat) : (damperOnset i s).supply = s.supply := rfl
@[simp] theorem damperOnset_memory (s : State) (i : Nat) : (damperOnset i s).memory = s.memory := rfl
@[simp] theorem damperOnset_cue (s : State) (i : Nat) : (damperOnset i s).cue = s.cue := rfl
@[simp] theorem damperOnset_counters (s : State) (i : Nat) : (damperOnset i s).counters = s.counters := rfl
@[simp] theorem damperOnset_pending (s : State) (i : Nat) : (damperOnset i s).pending = s.pending := rfl
@[simp] theorem silenceStrikes_now (s : State) : (silenceStrikes s).now = s.now := rfl
@[simp] theorem silenceStrikes_rate (s : State) : (silenceStrikes s).rate = s.rate := rfl
@[simp] theorem silenceStrikes_store (s : State) : (silenceStrikes s).store = s.store := rfl
@[simp] theorem silenceStrikes_links (s : State) : (silenceStrikes s).links = s.links := rfl
@[simp] theorem silenceStrikes_regs (s : State) : (silenceStrikes s).regs = s.regs := rfl
@[simp] theorem silenceStrikes_figures (s : State) : (silenceStrikes s).figures = s.figures := rfl
@[simp] theorem silenceStrikes_generators (s : State) : (silenceStrikes s).generators = s.generators := rfl
@[simp] theorem silenceStrikes_shutters (s : State) : (silenceStrikes s).shutters = s.shutters := rfl
@[simp] theorem silenceStrikes_ports (s : State) : (silenceStrikes s).ports = s.ports := rfl
@[simp] theorem silenceStrikes_supply (s : State) : (silenceStrikes s).supply = s.supply := rfl
@[simp] theorem silenceStrikes_memory (s : State) : (silenceStrikes s).memory = s.memory := rfl
@[simp] theorem silenceStrikes_cue (s : State) : (silenceStrikes s).cue = s.cue := rfl
@[simp] theorem silenceStrikes_counters (s : State) : (silenceStrikes s).counters = s.counters := rfl
@[simp] theorem silenceStrikes_pending (s : State) : (silenceStrikes s).pending = s.pending := rfl
@[simp] theorem State.setPlayer_now (s : State) (p : Nat) (run : Option Run) : (s.setPlayer p run).now = s.now := rfl
@[simp] theorem State.setPlayer_rate (s : State) (p : Nat) (run : Option Run) : (s.setPlayer p run).rate = s.rate := rfl
@[simp] theorem State.setPlayer_store (s : State) (p : Nat) (run : Option Run) : (s.setPlayer p run).store = s.store := rfl
@[simp] theorem State.setPlayer_links (s : State) (p : Nat) (run : Option Run) : (s.setPlayer p run).links = s.links := rfl
@[simp] theorem State.setPlayer_regs (s : State) (p : Nat) (run : Option Run) : (s.setPlayer p run).regs = s.regs := rfl
@[simp] theorem State.setPlayer_table (s : State) (p : Nat) (run : Option Run) : (s.setPlayer p run).table = s.table := rfl
@[simp] theorem State.setPlayer_sched (s : State) (p : Nat) (run : Option Run) : (s.setPlayer p run).sched = s.sched := rfl
@[simp] theorem State.setPlayer_generators (s : State) (p : Nat) (run : Option Run) : (s.setPlayer p run).generators = s.generators := rfl
@[simp] theorem State.setPlayer_shutters (s : State) (p : Nat) (run : Option Run) : (s.setPlayer p run).shutters = s.shutters := rfl
@[simp] theorem State.setPlayer_ports (s : State) (p : Nat) (run : Option Run) : (s.setPlayer p run).ports = s.ports := rfl
@[simp] theorem State.setPlayer_supply (s : State) (p : Nat) (run : Option Run) : (s.setPlayer p run).supply = s.supply := rfl
@[simp] theorem State.setPlayer_memory (s : State) (p : Nat) (run : Option Run) : (s.setPlayer p run).memory = s.memory := rfl
@[simp] theorem State.setPlayer_cue (s : State) (p : Nat) (run : Option Run) : (s.setPlayer p run).cue = s.cue := rfl
@[simp] theorem State.setPlayer_counters (s : State) (p : Nat) (run : Option Run) : (s.setPlayer p run).counters = s.counters := rfl
@[simp] theorem State.setPlayer_pending (s : State) (p : Nat) (run : Option Run) : (s.setPlayer p run).pending = s.pending := rfl
@[simp] theorem stopPlayers_now (s : State) : (stopPlayers s).now = s.now := rfl
@[simp] theorem stopPlayers_rate (s : State) : (stopPlayers s).rate = s.rate := rfl
@[simp] theorem stopPlayers_store (s : State) : (stopPlayers s).store = s.store := rfl
@[simp] theorem stopPlayers_links (s : State) : (stopPlayers s).links = s.links := rfl
@[simp] theorem stopPlayers_regs (s : State) : (stopPlayers s).regs = s.regs := rfl
@[simp] theorem stopPlayers_table (s : State) : (stopPlayers s).table = s.table := rfl
@[simp] theorem stopPlayers_sched (s : State) : (stopPlayers s).sched = s.sched := rfl
@[simp] theorem stopPlayers_generators (s : State) : (stopPlayers s).generators = s.generators := rfl
@[simp] theorem stopPlayers_shutters (s : State) : (stopPlayers s).shutters = s.shutters := rfl
@[simp] theorem stopPlayers_ports (s : State) : (stopPlayers s).ports = s.ports := rfl
@[simp] theorem stopPlayers_supply (s : State) : (stopPlayers s).supply = s.supply := rfl
@[simp] theorem stopPlayers_memory (s : State) : (stopPlayers s).memory = s.memory := rfl
@[simp] theorem stopPlayers_cue (s : State) : (stopPlayers s).cue = s.cue := rfl
@[simp] theorem stopPlayers_counters (s : State) : (stopPlayers s).counters = s.counters := rfl
@[simp] theorem stopPlayers_pending (s : State) : (stopPlayers s).pending = s.pending := rfl
@[simp] theorem setTempo_now (s : State) (n : Nat) : (setTempo n s).now = s.now := rfl
@[simp] theorem setTempo_rate (s : State) (n : Nat) : (setTempo n s).rate = s.rate := rfl
@[simp] theorem setTempo_store (s : State) (n : Nat) : (setTempo n s).store = s.store := rfl
@[simp] theorem setTempo_links (s : State) (n : Nat) : (setTempo n s).links = s.links := rfl
@[simp] theorem setTempo_regs (s : State) (n : Nat) : (setTempo n s).regs = s.regs := rfl
@[simp] theorem setTempo_table (s : State) (n : Nat) : (setTempo n s).table = s.table := rfl
@[simp] theorem setTempo_sched (s : State) (n : Nat) : (setTempo n s).sched = s.sched := rfl
@[simp] theorem setTempo_generators (s : State) (n : Nat) : (setTempo n s).generators = s.generators := rfl
@[simp] theorem setTempo_shutters (s : State) (n : Nat) : (setTempo n s).shutters = s.shutters := rfl
@[simp] theorem setTempo_ports (s : State) (n : Nat) : (setTempo n s).ports = s.ports := rfl
@[simp] theorem setTempo_supply (s : State) (n : Nat) : (setTempo n s).supply = s.supply := rfl
@[simp] theorem setTempo_memory (s : State) (n : Nat) : (setTempo n s).memory = s.memory := rfl
@[simp] theorem setTempo_cue (s : State) (n : Nat) : (setTempo n s).cue = s.cue := rfl
@[simp] theorem setTempo_counters (s : State) (n : Nat) : (setTempo n s).counters = s.counters := rfl
@[simp] theorem setTempo_pending (s : State) (n : Nat) : (setTempo n s).pending = s.pending := rfl
@[simp] theorem State.modGenerator_now (s : State) (j : Nat) (f : Generator → Generator) : (s.modGenerator j f).now = s.now := rfl
@[simp] theorem State.modGenerator_rate (s : State) (j : Nat) (f : Generator → Generator) : (s.modGenerator j f).rate = s.rate := rfl
@[simp] theorem State.modGenerator_store (s : State) (j : Nat) (f : Generator → Generator) : (s.modGenerator j f).store = s.store := rfl
@[simp] theorem State.modGenerator_links (s : State) (j : Nat) (f : Generator → Generator) : (s.modGenerator j f).links = s.links := rfl
@[simp] theorem State.modGenerator_regs (s : State) (j : Nat) (f : Generator → Generator) : (s.modGenerator j f).regs = s.regs := rfl
@[simp] theorem State.modGenerator_table (s : State) (j : Nat) (f : Generator → Generator) : (s.modGenerator j f).table = s.table := rfl
@[simp] theorem State.modGenerator_sched (s : State) (j : Nat) (f : Generator → Generator) : (s.modGenerator j f).sched = s.sched := rfl
@[simp] theorem State.modGenerator_figures (s : State) (j : Nat) (f : Generator → Generator) : (s.modGenerator j f).figures = s.figures := rfl
@[simp] theorem State.modGenerator_shutters (s : State) (j : Nat) (f : Generator → Generator) : (s.modGenerator j f).shutters = s.shutters := rfl
@[simp] theorem State.modGenerator_ports (s : State) (j : Nat) (f : Generator → Generator) : (s.modGenerator j f).ports = s.ports := rfl
@[simp] theorem State.modGenerator_supply (s : State) (j : Nat) (f : Generator → Generator) : (s.modGenerator j f).supply = s.supply := rfl
@[simp] theorem State.modGenerator_memory (s : State) (j : Nat) (f : Generator → Generator) : (s.modGenerator j f).memory = s.memory := rfl
@[simp] theorem State.modGenerator_cue (s : State) (j : Nat) (f : Generator → Generator) : (s.modGenerator j f).cue = s.cue := rfl
@[simp] theorem State.modGenerator_counters (s : State) (j : Nat) (f : Generator → Generator) : (s.modGenerator j f).counters = s.counters := rfl
@[simp] theorem State.modGenerator_pending (s : State) (j : Nat) (f : Generator → Generator) : (s.modGenerator j f).pending = s.pending := rfl
@[simp] theorem stopGenerators_now (s : State) : (stopGenerators s).now = s.now := rfl
@[simp] theorem stopGenerators_rate (s : State) : (stopGenerators s).rate = s.rate := rfl
@[simp] theorem stopGenerators_store (s : State) : (stopGenerators s).store = s.store := rfl
@[simp] theorem stopGenerators_links (s : State) : (stopGenerators s).links = s.links := rfl
@[simp] theorem stopGenerators_regs (s : State) : (stopGenerators s).regs = s.regs := rfl
@[simp] theorem stopGenerators_table (s : State) : (stopGenerators s).table = s.table := rfl
@[simp] theorem stopGenerators_sched (s : State) : (stopGenerators s).sched = s.sched := rfl
@[simp] theorem stopGenerators_figures (s : State) : (stopGenerators s).figures = s.figures := rfl
@[simp] theorem stopGenerators_shutters (s : State) : (stopGenerators s).shutters = s.shutters := rfl
@[simp] theorem stopGenerators_ports (s : State) : (stopGenerators s).ports = s.ports := rfl
@[simp] theorem stopGenerators_supply (s : State) : (stopGenerators s).supply = s.supply := rfl
@[simp] theorem stopGenerators_memory (s : State) : (stopGenerators s).memory = s.memory := rfl
@[simp] theorem stopGenerators_cue (s : State) : (stopGenerators s).cue = s.cue := rfl
@[simp] theorem stopGenerators_counters (s : State) : (stopGenerators s).counters = s.counters := rfl
@[simp] theorem stopGenerators_pending (s : State) : (stopGenerators s).pending = s.pending := rfl
@[simp] theorem State.modChamber_now (s : State) (c : Nat) (f : ChamberState → ChamberState) : (s.modChamber c f).now = s.now := rfl
@[simp] theorem State.modChamber_rate (s : State) (c : Nat) (f : ChamberState → ChamberState) : (s.modChamber c f).rate = s.rate := rfl
@[simp] theorem State.modChamber_store (s : State) (c : Nat) (f : ChamberState → ChamberState) : (s.modChamber c f).store = s.store := rfl
@[simp] theorem State.modChamber_links (s : State) (c : Nat) (f : ChamberState → ChamberState) : (s.modChamber c f).links = s.links := rfl
@[simp] theorem State.modChamber_regs (s : State) (c : Nat) (f : ChamberState → ChamberState) : (s.modChamber c f).regs = s.regs := rfl
@[simp] theorem State.modChamber_table (s : State) (c : Nat) (f : ChamberState → ChamberState) : (s.modChamber c f).table = s.table := rfl
@[simp] theorem State.modChamber_sched (s : State) (c : Nat) (f : ChamberState → ChamberState) : (s.modChamber c f).sched = s.sched := rfl
@[simp] theorem State.modChamber_figures (s : State) (c : Nat) (f : ChamberState → ChamberState) : (s.modChamber c f).figures = s.figures := rfl
@[simp] theorem State.modChamber_generators (s : State) (c : Nat) (f : ChamberState → ChamberState) : (s.modChamber c f).generators = s.generators := rfl
@[simp] theorem State.modChamber_ports (s : State) (c : Nat) (f : ChamberState → ChamberState) : (s.modChamber c f).ports = s.ports := rfl
@[simp] theorem State.modChamber_supply (s : State) (c : Nat) (f : ChamberState → ChamberState) : (s.modChamber c f).supply = s.supply := rfl
@[simp] theorem State.modChamber_memory (s : State) (c : Nat) (f : ChamberState → ChamberState) : (s.modChamber c f).memory = s.memory := rfl
@[simp] theorem State.modChamber_cue (s : State) (c : Nat) (f : ChamberState → ChamberState) : (s.modChamber c f).cue = s.cue := rfl
@[simp] theorem State.modChamber_counters (s : State) (c : Nat) (f : ChamberState → ChamberState) : (s.modChamber c f).counters = s.counters := rfl
@[simp] theorem State.modChamber_pending (s : State) (c : Nat) (f : ChamberState → ChamberState) : (s.modChamber c f).pending = s.pending := rfl
@[simp] theorem releaseStages_now (s : State) : (releaseStages s).now = s.now := rfl
@[simp] theorem releaseStages_rate (s : State) : (releaseStages s).rate = s.rate := rfl
@[simp] theorem releaseStages_store (s : State) : (releaseStages s).store = s.store := rfl
@[simp] theorem releaseStages_links (s : State) : (releaseStages s).links = s.links := rfl
@[simp] theorem releaseStages_regs (s : State) : (releaseStages s).regs = s.regs := rfl
@[simp] theorem releaseStages_table (s : State) : (releaseStages s).table = s.table := rfl
@[simp] theorem releaseStages_sched (s : State) : (releaseStages s).sched = s.sched := rfl
@[simp] theorem releaseStages_figures (s : State) : (releaseStages s).figures = s.figures := rfl
@[simp] theorem releaseStages_generators (s : State) : (releaseStages s).generators = s.generators := rfl
@[simp] theorem releaseStages_ports (s : State) : (releaseStages s).ports = s.ports := rfl
@[simp] theorem releaseStages_supply (s : State) : (releaseStages s).supply = s.supply := rfl
@[simp] theorem releaseStages_memory (s : State) : (releaseStages s).memory = s.memory := rfl
@[simp] theorem releaseStages_cue (s : State) : (releaseStages s).cue = s.cue := rfl
@[simp] theorem releaseStages_counters (s : State) : (releaseStages s).counters = s.counters := rfl
@[simp] theorem releaseStages_pending (s : State) : (releaseStages s).pending = s.pending := rfl
@[simp] theorem settle_now (s : State) : (settle s).now = s.now := rfl
@[simp] theorem settle_rate (s : State) : (settle s).rate = s.rate := rfl
@[simp] theorem settle_store (s : State) : (settle s).store = s.store := rfl
@[simp] theorem settle_links (s : State) : (settle s).links = s.links := rfl
@[simp] theorem settle_regs (s : State) : (settle s).regs = s.regs := rfl
@[simp] theorem settle_table (s : State) : (settle s).table = s.table := rfl
@[simp] theorem settle_sched (s : State) : (settle s).sched = s.sched := rfl
@[simp] theorem settle_figures (s : State) : (settle s).figures = s.figures := rfl
@[simp] theorem settle_generators (s : State) : (settle s).generators = s.generators := rfl
@[simp] theorem settle_shutters (s : State) : (settle s).shutters = s.shutters := rfl
@[simp] theorem settle_supply (s : State) : (settle s).supply = s.supply := rfl
@[simp] theorem settle_memory (s : State) : (settle s).memory = s.memory := rfl
@[simp] theorem settle_cue (s : State) : (settle s).cue = s.cue := rfl
@[simp] theorem settle_counters (s : State) : (settle s).counters = s.counters := rfl
@[simp] theorem settle_pending (s : State) : (settle s).pending = s.pending := rfl
@[simp] theorem portsOff_now (s : State) : (portsOff s).now = s.now := rfl
@[simp] theorem portsOff_rate (s : State) : (portsOff s).rate = s.rate := rfl
@[simp] theorem portsOff_store (s : State) : (portsOff s).store = s.store := rfl
@[simp] theorem portsOff_links (s : State) : (portsOff s).links = s.links := rfl
@[simp] theorem portsOff_regs (s : State) : (portsOff s).regs = s.regs := rfl
@[simp] theorem portsOff_table (s : State) : (portsOff s).table = s.table := rfl
@[simp] theorem portsOff_sched (s : State) : (portsOff s).sched = s.sched := rfl
@[simp] theorem portsOff_figures (s : State) : (portsOff s).figures = s.figures := rfl
@[simp] theorem portsOff_generators (s : State) : (portsOff s).generators = s.generators := rfl
@[simp] theorem portsOff_shutters (s : State) : (portsOff s).shutters = s.shutters := rfl
@[simp] theorem portsOff_supply (s : State) : (portsOff s).supply = s.supply := rfl
@[simp] theorem portsOff_memory (s : State) : (portsOff s).memory = s.memory := rfl
@[simp] theorem portsOff_cue (s : State) : (portsOff s).cue = s.cue := rfl
@[simp] theorem portsOff_counters (s : State) : (portsOff s).counters = s.counters := rfl
@[simp] theorem portsOff_pending (s : State) : (portsOff s).pending = s.pending := rfl
@[simp] theorem portsAtCommit_now (s : State) : (portsAtCommit s).now = s.now := rfl
@[simp] theorem portsAtCommit_rate (s : State) : (portsAtCommit s).rate = s.rate := rfl
@[simp] theorem portsAtCommit_store (s : State) : (portsAtCommit s).store = s.store := rfl
@[simp] theorem portsAtCommit_links (s : State) : (portsAtCommit s).links = s.links := rfl
@[simp] theorem portsAtCommit_regs (s : State) : (portsAtCommit s).regs = s.regs := rfl
@[simp] theorem portsAtCommit_table (s : State) : (portsAtCommit s).table = s.table := rfl
@[simp] theorem portsAtCommit_sched (s : State) : (portsAtCommit s).sched = s.sched := rfl
@[simp] theorem portsAtCommit_figures (s : State) : (portsAtCommit s).figures = s.figures := rfl
@[simp] theorem portsAtCommit_generators (s : State) : (portsAtCommit s).generators = s.generators := rfl
@[simp] theorem portsAtCommit_shutters (s : State) : (portsAtCommit s).shutters = s.shutters := rfl
@[simp] theorem portsAtCommit_supply (s : State) : (portsAtCommit s).supply = s.supply := rfl
@[simp] theorem portsAtCommit_memory (s : State) : (portsAtCommit s).memory = s.memory := rfl
@[simp] theorem portsAtCommit_cue (s : State) : (portsAtCommit s).cue = s.cue := rfl
@[simp] theorem portsAtCommit_counters (s : State) : (portsAtCommit s).counters = s.counters := rfl
@[simp] theorem portsAtCommit_pending (s : State) : (portsAtCommit s).pending = s.pending := rfl
@[simp] theorem disablePort_now (s : State) (p : Nat) : (disablePort p s).now = s.now := rfl
@[simp] theorem disablePort_rate (s : State) (p : Nat) : (disablePort p s).rate = s.rate := rfl
@[simp] theorem disablePort_store (s : State) (p : Nat) : (disablePort p s).store = s.store := rfl
@[simp] theorem disablePort_links (s : State) (p : Nat) : (disablePort p s).links = s.links := rfl
@[simp] theorem disablePort_regs (s : State) (p : Nat) : (disablePort p s).regs = s.regs := rfl
@[simp] theorem disablePort_figures (s : State) (p : Nat) : (disablePort p s).figures = s.figures := rfl
@[simp] theorem disablePort_generators (s : State) (p : Nat) : (disablePort p s).generators = s.generators := rfl
@[simp] theorem disablePort_shutters (s : State) (p : Nat) : (disablePort p s).shutters = s.shutters := rfl
@[simp] theorem disablePort_supply (s : State) (p : Nat) : (disablePort p s).supply = s.supply := rfl
@[simp] theorem disablePort_memory (s : State) (p : Nat) : (disablePort p s).memory = s.memory := rfl
@[simp] theorem disablePort_cue (s : State) (p : Nat) : (disablePort p s).cue = s.cue := rfl
@[simp] theorem disablePort_pending (s : State) (p : Nat) : (disablePort p s).pending = s.pending := rfl
@[simp] theorem State.modCue_now (s : State) (f : CueUnit → CueUnit) : (s.modCue f).now = s.now := rfl
@[simp] theorem State.modCue_rate (s : State) (f : CueUnit → CueUnit) : (s.modCue f).rate = s.rate := rfl
@[simp] theorem State.modCue_store (s : State) (f : CueUnit → CueUnit) : (s.modCue f).store = s.store := rfl
@[simp] theorem State.modCue_links (s : State) (f : CueUnit → CueUnit) : (s.modCue f).links = s.links := rfl
@[simp] theorem State.modCue_regs (s : State) (f : CueUnit → CueUnit) : (s.modCue f).regs = s.regs := rfl
@[simp] theorem State.modCue_table (s : State) (f : CueUnit → CueUnit) : (s.modCue f).table = s.table := rfl
@[simp] theorem State.modCue_sched (s : State) (f : CueUnit → CueUnit) : (s.modCue f).sched = s.sched := rfl
@[simp] theorem State.modCue_figures (s : State) (f : CueUnit → CueUnit) : (s.modCue f).figures = s.figures := rfl
@[simp] theorem State.modCue_generators (s : State) (f : CueUnit → CueUnit) : (s.modCue f).generators = s.generators := rfl
@[simp] theorem State.modCue_shutters (s : State) (f : CueUnit → CueUnit) : (s.modCue f).shutters = s.shutters := rfl
@[simp] theorem State.modCue_ports (s : State) (f : CueUnit → CueUnit) : (s.modCue f).ports = s.ports := rfl
@[simp] theorem State.modCue_supply (s : State) (f : CueUnit → CueUnit) : (s.modCue f).supply = s.supply := rfl
@[simp] theorem State.modCue_memory (s : State) (f : CueUnit → CueUnit) : (s.modCue f).memory = s.memory := rfl
@[simp] theorem State.modCue_counters (s : State) (f : CueUnit → CueUnit) : (s.modCue f).counters = s.counters := rfl
@[simp] theorem State.modCue_pending (s : State) (f : CueUnit → CueUnit) : (s.modCue f).pending = s.pending := rfl
@[simp] theorem markRecord_now (s : State) (i : Nat) (x : RecordState) : (markRecord i x s).now = s.now := rfl
@[simp] theorem markRecord_rate (s : State) (i : Nat) (x : RecordState) : (markRecord i x s).rate = s.rate := rfl
@[simp] theorem markRecord_store (s : State) (i : Nat) (x : RecordState) : (markRecord i x s).store = s.store := rfl
@[simp] theorem markRecord_links (s : State) (i : Nat) (x : RecordState) : (markRecord i x s).links = s.links := rfl
@[simp] theorem markRecord_regs (s : State) (i : Nat) (x : RecordState) : (markRecord i x s).regs = s.regs := rfl
@[simp] theorem markRecord_table (s : State) (i : Nat) (x : RecordState) : (markRecord i x s).table = s.table := rfl
@[simp] theorem markRecord_sched (s : State) (i : Nat) (x : RecordState) : (markRecord i x s).sched = s.sched := rfl
@[simp] theorem markRecord_figures (s : State) (i : Nat) (x : RecordState) : (markRecord i x s).figures = s.figures := rfl
@[simp] theorem markRecord_generators (s : State) (i : Nat) (x : RecordState) : (markRecord i x s).generators = s.generators := rfl
@[simp] theorem markRecord_shutters (s : State) (i : Nat) (x : RecordState) : (markRecord i x s).shutters = s.shutters := rfl
@[simp] theorem markRecord_ports (s : State) (i : Nat) (x : RecordState) : (markRecord i x s).ports = s.ports := rfl
@[simp] theorem markRecord_supply (s : State) (i : Nat) (x : RecordState) : (markRecord i x s).supply = s.supply := rfl
@[simp] theorem markRecord_cue (s : State) (i : Nat) (x : RecordState) : (markRecord i x s).cue = s.cue := rfl
@[simp] theorem markRecord_counters (s : State) (i : Nat) (x : RecordState) : (markRecord i x s).counters = s.counters := rfl
@[simp] theorem markRecord_pending (s : State) (i : Nat) (x : RecordState) : (markRecord i x s).pending = s.pending := rfl
@[simp] theorem addPlace_now (s : State) (l : Link) (p : Place) : (addPlace l p s).now = s.now := rfl
@[simp] theorem addPlace_rate (s : State) (l : Link) (p : Place) : (addPlace l p s).rate = s.rate := rfl
@[simp] theorem addPlace_store (s : State) (l : Link) (p : Place) : (addPlace l p s).store = s.store := rfl
@[simp] theorem addPlace_regs (s : State) (l : Link) (p : Place) : (addPlace l p s).regs = s.regs := rfl
@[simp] theorem addPlace_table (s : State) (l : Link) (p : Place) : (addPlace l p s).table = s.table := rfl
@[simp] theorem addPlace_sched (s : State) (l : Link) (p : Place) : (addPlace l p s).sched = s.sched := rfl
@[simp] theorem addPlace_figures (s : State) (l : Link) (p : Place) : (addPlace l p s).figures = s.figures := rfl
@[simp] theorem addPlace_generators (s : State) (l : Link) (p : Place) : (addPlace l p s).generators = s.generators := rfl
@[simp] theorem addPlace_shutters (s : State) (l : Link) (p : Place) : (addPlace l p s).shutters = s.shutters := rfl
@[simp] theorem addPlace_ports (s : State) (l : Link) (p : Place) : (addPlace l p s).ports = s.ports := rfl
@[simp] theorem addPlace_supply (s : State) (l : Link) (p : Place) : (addPlace l p s).supply = s.supply := rfl
@[simp] theorem addPlace_memory (s : State) (l : Link) (p : Place) : (addPlace l p s).memory = s.memory := rfl
@[simp] theorem addPlace_cue (s : State) (l : Link) (p : Place) : (addPlace l p s).cue = s.cue := rfl
@[simp] theorem addPlace_counters (s : State) (l : Link) (p : Place) : (addPlace l p s).counters = s.counters := rfl
@[simp] theorem addPlace_pending (s : State) (l : Link) (p : Place) : (addPlace l p s).pending = s.pending := rfl
@[simp] theorem addReply_now (s : State) (l : Link) (tag kind : Byte) (code : ReplyCode) (contents : List Byte) : (addReply l tag kind code contents s).now = s.now := rfl
@[simp] theorem addReply_rate (s : State) (l : Link) (tag kind : Byte) (code : ReplyCode) (contents : List Byte) : (addReply l tag kind code contents s).rate = s.rate := rfl
@[simp] theorem addReply_store (s : State) (l : Link) (tag kind : Byte) (code : ReplyCode) (contents : List Byte) : (addReply l tag kind code contents s).store = s.store := rfl
@[simp] theorem addReply_regs (s : State) (l : Link) (tag kind : Byte) (code : ReplyCode) (contents : List Byte) : (addReply l tag kind code contents s).regs = s.regs := rfl
@[simp] theorem addReply_table (s : State) (l : Link) (tag kind : Byte) (code : ReplyCode) (contents : List Byte) : (addReply l tag kind code contents s).table = s.table := rfl
@[simp] theorem addReply_sched (s : State) (l : Link) (tag kind : Byte) (code : ReplyCode) (contents : List Byte) : (addReply l tag kind code contents s).sched = s.sched := rfl
@[simp] theorem addReply_figures (s : State) (l : Link) (tag kind : Byte) (code : ReplyCode) (contents : List Byte) : (addReply l tag kind code contents s).figures = s.figures := rfl
@[simp] theorem addReply_generators (s : State) (l : Link) (tag kind : Byte) (code : ReplyCode) (contents : List Byte) : (addReply l tag kind code contents s).generators = s.generators := rfl
@[simp] theorem addReply_shutters (s : State) (l : Link) (tag kind : Byte) (code : ReplyCode) (contents : List Byte) : (addReply l tag kind code contents s).shutters = s.shutters := rfl
@[simp] theorem addReply_ports (s : State) (l : Link) (tag kind : Byte) (code : ReplyCode) (contents : List Byte) : (addReply l tag kind code contents s).ports = s.ports := rfl
@[simp] theorem addReply_supply (s : State) (l : Link) (tag kind : Byte) (code : ReplyCode) (contents : List Byte) : (addReply l tag kind code contents s).supply = s.supply := rfl
@[simp] theorem addReply_memory (s : State) (l : Link) (tag kind : Byte) (code : ReplyCode) (contents : List Byte) : (addReply l tag kind code contents s).memory = s.memory := rfl
@[simp] theorem addReply_cue (s : State) (l : Link) (tag kind : Byte) (code : ReplyCode) (contents : List Byte) : (addReply l tag kind code contents s).cue = s.cue := rfl
@[simp] theorem addReply_counters (s : State) (l : Link) (tag kind : Byte) (code : ReplyCode) (contents : List Byte) : (addReply l tag kind code contents s).counters = s.counters := rfl
@[simp] theorem addReply_pending (s : State) (l : Link) (tag kind : Byte) (code : ReplyCode) (contents : List Byte) : (addReply l tag kind code contents s).pending = s.pending := rfl
@[simp] theorem fillReservation_now (s : State) (code : ReplyCode) (contents : List Byte) : (fillReservation code contents s).now = s.now := rfl
@[simp] theorem fillReservation_rate (s : State) (code : ReplyCode) (contents : List Byte) : (fillReservation code contents s).rate = s.rate := rfl
@[simp] theorem fillReservation_store (s : State) (code : ReplyCode) (contents : List Byte) : (fillReservation code contents s).store = s.store := rfl
@[simp] theorem fillReservation_regs (s : State) (code : ReplyCode) (contents : List Byte) : (fillReservation code contents s).regs = s.regs := rfl
@[simp] theorem fillReservation_table (s : State) (code : ReplyCode) (contents : List Byte) : (fillReservation code contents s).table = s.table := rfl
@[simp] theorem fillReservation_sched (s : State) (code : ReplyCode) (contents : List Byte) : (fillReservation code contents s).sched = s.sched := rfl
@[simp] theorem fillReservation_figures (s : State) (code : ReplyCode) (contents : List Byte) : (fillReservation code contents s).figures = s.figures := rfl
@[simp] theorem fillReservation_generators (s : State) (code : ReplyCode) (contents : List Byte) : (fillReservation code contents s).generators = s.generators := rfl
@[simp] theorem fillReservation_shutters (s : State) (code : ReplyCode) (contents : List Byte) : (fillReservation code contents s).shutters = s.shutters := rfl
@[simp] theorem fillReservation_ports (s : State) (code : ReplyCode) (contents : List Byte) : (fillReservation code contents s).ports = s.ports := rfl
@[simp] theorem fillReservation_supply (s : State) (code : ReplyCode) (contents : List Byte) : (fillReservation code contents s).supply = s.supply := rfl
@[simp] theorem fillReservation_memory (s : State) (code : ReplyCode) (contents : List Byte) : (fillReservation code contents s).memory = s.memory := rfl
@[simp] theorem fillReservation_cue (s : State) (code : ReplyCode) (contents : List Byte) : (fillReservation code contents s).cue = s.cue := rfl
@[simp] theorem fillReservation_counters (s : State) (code : ReplyCode) (contents : List Byte) : (fillReservation code contents s).counters = s.counters := rfl
@[simp] theorem fillReservation_pending (s : State) (code : ReplyCode) (contents : List Byte) : (fillReservation code contents s).pending = s.pending := rfl
@[simp] theorem State.setReceiver_now (s : State) (l : Link) (r : Receiver) : (s.setReceiver l r).now = s.now := rfl
@[simp] theorem State.setReceiver_rate (s : State) (l : Link) (r : Receiver) : (s.setReceiver l r).rate = s.rate := rfl
@[simp] theorem State.setReceiver_store (s : State) (l : Link) (r : Receiver) : (s.setReceiver l r).store = s.store := rfl
@[simp] theorem State.setReceiver_regs (s : State) (l : Link) (r : Receiver) : (s.setReceiver l r).regs = s.regs := rfl
@[simp] theorem State.setReceiver_table (s : State) (l : Link) (r : Receiver) : (s.setReceiver l r).table = s.table := rfl
@[simp] theorem State.setReceiver_sched (s : State) (l : Link) (r : Receiver) : (s.setReceiver l r).sched = s.sched := rfl
@[simp] theorem State.setReceiver_figures (s : State) (l : Link) (r : Receiver) : (s.setReceiver l r).figures = s.figures := rfl
@[simp] theorem State.setReceiver_generators (s : State) (l : Link) (r : Receiver) : (s.setReceiver l r).generators = s.generators := rfl
@[simp] theorem State.setReceiver_shutters (s : State) (l : Link) (r : Receiver) : (s.setReceiver l r).shutters = s.shutters := rfl
@[simp] theorem State.setReceiver_ports (s : State) (l : Link) (r : Receiver) : (s.setReceiver l r).ports = s.ports := rfl
@[simp] theorem State.setReceiver_supply (s : State) (l : Link) (r : Receiver) : (s.setReceiver l r).supply = s.supply := rfl
@[simp] theorem State.setReceiver_memory (s : State) (l : Link) (r : Receiver) : (s.setReceiver l r).memory = s.memory := rfl
@[simp] theorem State.setReceiver_cue (s : State) (l : Link) (r : Receiver) : (s.setReceiver l r).cue = s.cue := rfl
@[simp] theorem State.setReceiver_counters (s : State) (l : Link) (r : Receiver) : (s.setReceiver l r).counters = s.counters := rfl
@[simp] theorem State.setReceiver_pending (s : State) (l : Link) (r : Receiver) : (s.setReceiver l r).pending = s.pending := rfl
@[simp] theorem setDeferral_now (s : State) (d : Nat) : (setDeferral d s).now = s.now := rfl
@[simp] theorem setDeferral_rate (s : State) (d : Nat) : (setDeferral d s).rate = s.rate := rfl
@[simp] theorem setDeferral_store (s : State) (d : Nat) : (setDeferral d s).store = s.store := rfl
@[simp] theorem setDeferral_links (s : State) (d : Nat) : (setDeferral d s).links = s.links := rfl
@[simp] theorem setDeferral_regs (s : State) (d : Nat) : (setDeferral d s).regs = s.regs := rfl
@[simp] theorem setDeferral_table (s : State) (d : Nat) : (setDeferral d s).table = s.table := rfl
@[simp] theorem setDeferral_figures (s : State) (d : Nat) : (setDeferral d s).figures = s.figures := rfl
@[simp] theorem setDeferral_generators (s : State) (d : Nat) : (setDeferral d s).generators = s.generators := rfl
@[simp] theorem setDeferral_shutters (s : State) (d : Nat) : (setDeferral d s).shutters = s.shutters := rfl
@[simp] theorem setDeferral_ports (s : State) (d : Nat) : (setDeferral d s).ports = s.ports := rfl
@[simp] theorem setDeferral_supply (s : State) (d : Nat) : (setDeferral d s).supply = s.supply := rfl
@[simp] theorem setDeferral_memory (s : State) (d : Nat) : (setDeferral d s).memory = s.memory := rfl
@[simp] theorem setDeferral_cue (s : State) (d : Nat) : (setDeferral d s).cue = s.cue := rfl
@[simp] theorem setDeferral_pending (s : State) (d : Nat) : (setDeferral d s).pending = s.pending := rfl
@[simp] theorem rearm_now (s : State) (a : Addr) (i : Nat) : (rearm a i s).now = s.now := rfl
@[simp] theorem rearm_rate (s : State) (a : Addr) (i : Nat) : (rearm a i s).rate = s.rate := rfl
@[simp] theorem rearm_store (s : State) (a : Addr) (i : Nat) : (rearm a i s).store = s.store := rfl
@[simp] theorem rearm_links (s : State) (a : Addr) (i : Nat) : (rearm a i s).links = s.links := rfl
@[simp] theorem rearm_regs (s : State) (a : Addr) (i : Nat) : (rearm a i s).regs = s.regs := rfl
@[simp] theorem rearm_table (s : State) (a : Addr) (i : Nat) : (rearm a i s).table = s.table := rfl
@[simp] theorem rearm_figures (s : State) (a : Addr) (i : Nat) : (rearm a i s).figures = s.figures := rfl
@[simp] theorem rearm_generators (s : State) (a : Addr) (i : Nat) : (rearm a i s).generators = s.generators := rfl
@[simp] theorem rearm_shutters (s : State) (a : Addr) (i : Nat) : (rearm a i s).shutters = s.shutters := rfl
@[simp] theorem rearm_ports (s : State) (a : Addr) (i : Nat) : (rearm a i s).ports = s.ports := rfl
@[simp] theorem rearm_supply (s : State) (a : Addr) (i : Nat) : (rearm a i s).supply = s.supply := rfl
@[simp] theorem rearm_memory (s : State) (a : Addr) (i : Nat) : (rearm a i s).memory = s.memory := rfl
@[simp] theorem rearm_cue (s : State) (a : Addr) (i : Nat) : (rearm a i s).cue = s.cue := rfl
@[simp] theorem rearm_counters (s : State) (a : Addr) (i : Nat) : (rearm a i s).counters = s.counters := rfl
@[simp] theorem rearm_pending (s : State) (a : Addr) (i : Nat) : (rearm a i s).pending = s.pending := rfl
@[simp] theorem clearCounters_now (s : State) : (clearCounters s).now = s.now := rfl
@[simp] theorem clearCounters_rate (s : State) : (clearCounters s).rate = s.rate := rfl
@[simp] theorem clearCounters_store (s : State) : (clearCounters s).store = s.store := rfl
@[simp] theorem clearCounters_links (s : State) : (clearCounters s).links = s.links := rfl
@[simp] theorem clearCounters_regs (s : State) : (clearCounters s).regs = s.regs := rfl
@[simp] theorem clearCounters_table (s : State) : (clearCounters s).table = s.table := rfl
@[simp] theorem clearCounters_sched (s : State) : (clearCounters s).sched = s.sched := rfl
@[simp] theorem clearCounters_figures (s : State) : (clearCounters s).figures = s.figures := rfl
@[simp] theorem clearCounters_generators (s : State) : (clearCounters s).generators = s.generators := rfl
@[simp] theorem clearCounters_shutters (s : State) : (clearCounters s).shutters = s.shutters := rfl
@[simp] theorem clearCounters_ports (s : State) : (clearCounters s).ports = s.ports := rfl
@[simp] theorem clearCounters_supply (s : State) : (clearCounters s).supply = s.supply := rfl
@[simp] theorem clearCounters_memory (s : State) : (clearCounters s).memory = s.memory := rfl
@[simp] theorem clearCounters_cue (s : State) : (clearCounters s).cue = s.cue := rfl
@[simp] theorem clearCounters_pending (s : State) : (clearCounters s).pending = s.pending := rfl
@[simp] theorem tick_rate (s : State) : (tick s).rate = s.rate := rfl
@[simp] theorem tick_store (s : State) : (tick s).store = s.store := rfl
@[simp] theorem tick_links (s : State) : (tick s).links = s.links := rfl
@[simp] theorem tick_regs (s : State) : (tick s).regs = s.regs := rfl
@[simp] theorem tick_table (s : State) : (tick s).table = s.table := rfl
@[simp] theorem tick_sched (s : State) : (tick s).sched = s.sched := rfl
@[simp] theorem tick_figures (s : State) : (tick s).figures = s.figures := rfl
@[simp] theorem tick_generators (s : State) : (tick s).generators = s.generators := rfl
@[simp] theorem tick_shutters (s : State) : (tick s).shutters = s.shutters := rfl
@[simp] theorem tick_ports (s : State) : (tick s).ports = s.ports := rfl
@[simp] theorem tick_supply (s : State) : (tick s).supply = s.supply := rfl
@[simp] theorem tick_memory (s : State) : (tick s).memory = s.memory := rfl
@[simp] theorem tick_cue (s : State) : (tick s).cue = s.cue := rfl
@[simp] theorem tick_counters (s : State) : (tick s).counters = s.counters := rfl
@[simp] theorem tick_pending (s : State) : (tick s).pending = s.pending := rfl
@[simp] theorem ignoreEntry_now (s : State) : (ignoreEntry s).now = s.now := rfl
@[simp] theorem ignoreEntry_rate (s : State) : (ignoreEntry s).rate = s.rate := rfl
@[simp] theorem ignoreEntry_store (s : State) : (ignoreEntry s).store = s.store := rfl
@[simp] theorem ignoreEntry_links (s : State) : (ignoreEntry s).links = s.links := rfl
@[simp] theorem ignoreEntry_regs (s : State) : (ignoreEntry s).regs = s.regs := rfl
@[simp] theorem ignoreEntry_table (s : State) : (ignoreEntry s).table = s.table := rfl
@[simp] theorem ignoreEntry_sched (s : State) : (ignoreEntry s).sched = s.sched := rfl
@[simp] theorem ignoreEntry_figures (s : State) : (ignoreEntry s).figures = s.figures := rfl
@[simp] theorem ignoreEntry_generators (s : State) : (ignoreEntry s).generators = s.generators := rfl
@[simp] theorem ignoreEntry_shutters (s : State) : (ignoreEntry s).shutters = s.shutters := rfl
@[simp] theorem ignoreEntry_ports (s : State) : (ignoreEntry s).ports = s.ports := rfl
@[simp] theorem ignoreEntry_supply (s : State) : (ignoreEntry s).supply = s.supply := rfl
@[simp] theorem ignoreEntry_memory (s : State) : (ignoreEntry s).memory = s.memory := rfl
@[simp] theorem ignoreEntry_cue (s : State) : (ignoreEntry s).cue = s.cue := rfl
@[simp] theorem ignoreEntry_pending (s : State) : (ignoreEntry s).pending = s.pending := rfl

end Sys2Proof.Machine
end

