-- ==== Sys2Proof/Laws/Only.lean ====
section
/-! SUPPORT. How `Only` is used: reading one field, composing, widening, and running along a fold. -/

namespace Sys2Proof.Machine

theorem Only.refl (fs : List Field) (s : State) : Only fs s s := by
  intro f _
  cases f <;> rfl

theorem Only.trans {fs : List Field} {s t u : State} (h : Only fs s t) (k : Only fs t u) : Only fs s u := by
  intro f hf
  have h1 := h f hf
  have h2 := k f hf
  cases f <;> exact Eq.trans h2 h1

theorem Only.mono {fs gs : List Field} {s t : State} (h : Only fs s t) (sub : ∀ f ∈ fs, f ∈ gs := by decide) : Only gs s t :=
  fun f hf => h f fun hm => hf (sub f hm)

theorem Only.foldl {α : Type} {fs : List Field} {g : State → α → State} (hg : ∀ s x, Only fs s (g s x)) :
    ∀ (xs : List α) (s : State), Only fs s (xs.foldl g s)
  | [], s => Only.refl fs s
  | x :: xs, s => (hg s x).trans (Only.foldl hg xs (g s x))

theorem Only.ite {fs : List Field} {s t u : State} {c : Prop} [Decidable c] (h : Only fs s t) (k : Only fs s u) :
    Only fs s (if c then t else u) := by
  split
  · exact h
  · exact k

theorem Only.now {fs : List Field} {s t : State} (h : Only fs s t) (hf : Field.now ∉ fs := by decide) : t.now = s.now := h .now hf
theorem Only.rate {fs : List Field} {s t : State} (h : Only fs s t) (hf : Field.rate ∉ fs := by decide) : t.rate = s.rate := h .rate hf
theorem Only.store {fs : List Field} {s t : State} (h : Only fs s t) (hf : Field.store ∉ fs := by decide) : t.store = s.store := h .store hf
theorem Only.links {fs : List Field} {s t : State} (h : Only fs s t) (hf : Field.links ∉ fs := by decide) : t.links = s.links := h .links hf
theorem Only.regs {fs : List Field} {s t : State} (h : Only fs s t) (hf : Field.regs ∉ fs := by decide) : t.regs = s.regs := h .regs hf
theorem Only.table {fs : List Field} {s t : State} (h : Only fs s t) (hf : Field.table ∉ fs := by decide) : t.table = s.table := h .table hf
theorem Only.sched {fs : List Field} {s t : State} (h : Only fs s t) (hf : Field.sched ∉ fs := by decide) : t.sched = s.sched := h .sched hf
theorem Only.figures {fs : List Field} {s t : State} (h : Only fs s t) (hf : Field.figures ∉ fs := by decide) : t.figures = s.figures := h .figures hf
theorem Only.generators {fs : List Field} {s t : State} (h : Only fs s t) (hf : Field.generators ∉ fs := by decide) : t.generators = s.generators := h .generators hf
theorem Only.shutters {fs : List Field} {s t : State} (h : Only fs s t) (hf : Field.shutters ∉ fs := by decide) : t.shutters = s.shutters := h .shutters hf
theorem Only.ports {fs : List Field} {s t : State} (h : Only fs s t) (hf : Field.ports ∉ fs := by decide) : t.ports = s.ports := h .ports hf
theorem Only.supply {fs : List Field} {s t : State} (h : Only fs s t) (hf : Field.supply ∉ fs := by decide) : t.supply = s.supply := h .supply hf
theorem Only.memory {fs : List Field} {s t : State} (h : Only fs s t) (hf : Field.memory ∉ fs := by decide) : t.memory = s.memory := h .memory hf
theorem Only.cue {fs : List Field} {s t : State} (h : Only fs s t) (hf : Field.cue ∉ fs := by decide) : t.cue = s.cue := h .cue hf
theorem Only.counters {fs : List Field} {s t : State} (h : Only fs s t) (hf : Field.counters ∉ fs := by decide) : t.counters = s.counters := h .counters hf
theorem Only.pending {fs : List Field} {s t : State} (h : Only fs s t) (hf : Field.pending ∉ fs := by decide) : t.pending = s.pending := h .pending hf

/-- Agreement in every field is equality. -/
theorem Only.eq {s t : State} (h : Only [] s t) : t = s := by
  have e : ∀ f : Field, f.same s t := fun f => h f (by simp)
  obtain ⟨⟩ := s
  obtain ⟨⟩ := t
  have := e .now; have := e .rate; have := e .store; have := e .links; have := e .regs; have := e .table; have := e .sched
  have := e .figures; have := e .generators; have := e .shutters; have := e .ports; have := e .supply; have := e .memory
  have := e .cue; have := e .counters; have := e .pending
  simp_all [Field.same]

end Sys2Proof.Machine
end

