-- ==== Sys2Proof/Laws/Claims.lean ====
section
/-! SUPPORT. The claims of R54: what their count depends on, and the changes of the demand table that leave R54's law as it is. -/

namespace Sys2Proof.Machine

@[simp] theorem Record.linkCount_one (r : Record) : r.linkCount .one = r.link1 := rfl
@[simp] theorem Record.linkCount_two (r : Record) : r.linkCount .two = r.link2 := rfl
@[simp] theorem Record.linkCount_stroke (l : Link) (r : Record) (k : Option Stroke) :
    ({ r with stroke := k } : Record).linkCount l = r.linkCount l := by
  cases l <;> rfl
@[simp] theorem Record.linkCount_cue (l : Link) (r : Record) (n : Nat) : ({ r with cue := n } : Record).linkCount l = r.linkCount l := by
  cases l <;> rfl

/-- The claims that stand depend on the link's registration and the specification alone. -/
theorem State.standing_congr {s t : State} (l : Link) (x : Target) (hr : t.reg l = s.reg l) (ht : t.store.tables = s.store.tables) :
    t.standing l x = s.standing l x := by
  unfold State.standing State.stop State.resolve State.source
  rw [hr, ht]

/-- A link with no stop drawn has no claim that stands. -/
theorem State.standing_of_no_stops {s : State} {l : Link} (h : (s.reg l).stops = []) (x : Target) : s.standing l x = 0 := by
  unfold State.standing
  rw [h]
  rfl

/-- Tables with the same targets have one record a target together. -/
theorem TargetsDistinct.of_targets {s t : State} (h : TargetsDistinct s) (e : t.table.map (·.target) = s.table.map (·.target)) :
    TargetsDistinct t := by
  unfold TargetsDistinct
  rw [e]
  exact h

/-- R54's law stands where every record's counts are another state's, on the same target, under the same registrations and tables. -/
theorem ClaimLaw.of_counts {s t : State} (h : ClaimLaw s) (hr : t.regs = s.regs) (ht : t.store.tables = s.store.tables)
    (e : ∀ r ∈ t.table, ∃ r' ∈ s.table, r'.target = r.target ∧ ∀ l, r'.linkCount l = r.linkCount l) : ClaimLaw t := by
  intro l r hm
  obtain ⟨r', hm', hx, hc⟩ := e r hm
  rw [State.standing_congr l r.target (by unfold State.reg; rw [hr]) ht, ← hc l, ← hx]
  exact h l r' hm'

/-- R54's law and its shapes pass over every change outside the specification, the registrations and the table. -/
theorem ClaimsShaped.of_only {fs : List Field} {s t : State} (h : ClaimsShaped s) (k : Only fs s t) (hs : Field.store ∉ fs := by decide)
    (hr : Field.regs ∉ fs := by decide) (ht : Field.table ∉ fs := by decide) : ClaimsShaped t := by
  have er : ∀ l, t.reg l = s.reg l := fun l => by unfold State.reg; rw [k.regs hr]
  refine ⟨h.targets.of_targets (by rw [k.table ht]), fun l => by rw [er l]; exact h.places l, fun l => by rw [er l]; exact h.stops l, ?_⟩
  unfold State.division
  rw [k.store hs]
  exact h.divisions

theorem ClaimLaw.of_only {fs : List Field} {s t : State} (h : ClaimLaw s) (k : Only fs s t) (hs : Field.store ∉ fs := by decide)
    (hr : Field.regs ∉ fs := by decide) (ht : Field.table ∉ fs := by decide) : ClaimLaw t :=
  h.of_counts (k.regs hr) (by rw [k.store hs]) fun r hm => ⟨r, by rwa [k.table ht] at hm, rfl, fun _ => rfl⟩

end Sys2Proof.Machine
end

