-- ==== Sys2Proof/Laws/Follow.lean ====
section
/-! SUPPORT. The terms of Safety that say what follows an event: generators and their demand (R104, R106), and the pass over the strike
queue (R72). -/

namespace Sys2Proof.Machine

/-! ## Generators -/

/-- Generators that stand as they were, with their demand, follow it. -/
theorem GeneratorsFollow.of_same {s t : State} (hg : t.generators = s.generators) (hd : ∀ j, t.demanded j = s.demanded j) :
    GeneratorsFollow s t := by
  have e : ∀ j, t.generator j = s.generator j := fun j => by unfold State.generator; rw [hg]
  refine ⟨fun j x _ _ h0 h1 => ?_, fun j h1 h0 => ?_, fun j _ _ => by rw [e], fun j _ _ h => by rw [e]; exact h⟩
  · rw [hd, h0] at h1; cases h1
  · rw [hd, h1] at h0; cases h0

/-- Demand is judged by the engine state, the tab sets and the generators' flags alone. -/
theorem State.demanded_of_only {fs : List Field} {s t : State} (h : Only fs s t) (hs : Field.store ∉ fs := by decide)
    (hr : Field.regs ∉ fs := by decide) (hg : Field.generators ∉ fs := by decide) (j : Nat) : t.demanded j = s.demanded j := by
  unfold State.demanded State.ready State.reg State.generator
  rw [h.store hs, h.regs hr, h.generators hg]

/-- An event that leaves the engine state, the tab sets and the generators leaves every generator following its demand. -/
theorem GeneratorsFollow.of_only {fs : List Field} {s t : State} (h : Only fs s t) (hs : Field.store ∉ fs := by decide)
    (hr : Field.regs ∉ fs := by decide) (hg : Field.generators ∉ fs := by decide) : GeneratorsFollow s t :=
  .of_same (h.generators hg) (State.demanded_of_only h hs hr hg)

/-- Where the generators follow their demand, each present one is OFF if and only if it is not demanded, as it was before. -/
theorem TremulantLaw.followed {s t : State} (h : TremulantLaw s) (g : GeneratorsFollow s t) (ht : t.store.tables = s.store.tables)
    (hl : t.generators.length = s.generators.length) (j : Nat) (x : Tremulant) (hx : t.tremulant j = some x)
    (hj : j < t.generators.length) : (t.generator j).phase = .off ↔ t.demanded j = false := by
  have hx' : s.tremulant j = some x := by unfold State.tremulant at *; rwa [ht] at hx
  rw [hl] at hj
  have law := h.present j x hx' hj
  cases hs : s.demanded j <;> cases hd : t.demanded j
  · simp [g.rests j hs hd (law.2 hs)]
  · simp [g.opens j x hx' hj hs hd]
  · simp [g.ends j hs hd]
  · rw [g.stands j hs hd, law, hs]

/-! ## The pass over the strike queue -/

@[simp] theorem State.starting_nil (s : State) (started : List Addr) : s.starting started [] = started := rfl

@[simp] theorem State.starting_cons (s : State) (started : List Addr) (x : QueuedStrike) (rest : List QueuedStrike) :
    s.starting started (x :: rest) = s.starting (if s.mayStart started x.out then started ++ [x.out] else started) rest := rfl

/-- What a pass has started it keeps, and it starts only outputs of the entries that it looks at. -/
theorem State.mem_starting {s : State} {a : Addr} : ∀ {queue : List QueuedStrike} {started : List Addr},
    a ∈ s.starting started queue → a ∈ started ∨ ∃ x ∈ queue, x.out = a
  | [], _, h => .inl h
  | x :: rest, started, h => by
    rw [State.starting_cons] at h
    rcases State.mem_starting h with k | ⟨y, hy, e⟩
    · split at k
      · rcases List.mem_append.1 k with k | k
        · exact .inl k
        · exact .inr ⟨x, List.mem_cons_self, (List.mem_singleton.1 k).symm⟩
      · exact .inl k
    · exact .inr ⟨y, List.mem_cons_of_mem _ hy, e⟩

/-! ## Notices -/

/-- A judgement that leaves the flow state tells nothing. -/
theorem LinkIf.flowNotices_of_same {i : LinkIf} {fill : Nat} (h : i.flowAt fill = i.flow) : i.flowNotices fill = [] := by
  unfold LinkIf.flowNotices
  rw [if_pos h]

end Sys2Proof.Machine
end

