-- ==== Sys2Proof/Laws/Frames.lean ====
section
/-! SUPPORT. What each named operation may change: one lemma an operation, in the terms of `Only`. A later proof reads a field through
`Only.<field>` and never unfolds the operation. -/

namespace Sys2Proof.Machine

-- One theorem after another, so that the compile needs few threads.
set_option Elab.async false

/-! ## Plain updates -/

theorem modLink_only (s : State) (l : Link) (f : LinkIf → LinkIf) : Only [.links] s (s.modLink l f) := by
  intro x hx
  cases x <;> first | rfl | exact absurd (by decide) hx

theorem modReg_only (s : State) (l : Link) (f : Registration → Registration) : Only [.regs] s (s.modReg l f) := by
  intro x hx
  cases x <;> first | rfl | exact absurd (by decide) hx

theorem bumpBy_only (s : State) (n : Nat) (c : Counter) : Only [.counters] s (s.bumpBy n c) := by
  intro x hx
  cases x <;> first | rfl | exact absurd (by decide) hx

theorem bump_only (s : State) (c : Counter) : Only [.counters] s (s.bump c) := bumpBy_only s 1 c

theorem modRecord_only (s : State) (t : Target) (f : Record → Record) : Only [.table] s (s.modRecord t f) := by
  intro x hx
  cases x <;> first | rfl | exact absurd (by decide) hx

theorem modPort_only (s : State) (p : Nat) (f : Port → Port) : Only [.ports] s (s.modPort p f) := by
  intro x hx
  cases x <;> first | rfl | exact absurd (by decide) hx

theorem modDamper_only (s : State) (i : Nat) (f : DamperState → DamperState) : Only [.sched] s (s.modDamper i f) := by
  intro x hx
  cases x <;> first | rfl | exact absurd (by decide) hx

theorem setPlayer_only (s : State) (p : Nat) (run : Option Run) : Only [.figures] s (s.setPlayer p run) := by
  intro x hx
  cases x <;> first | rfl | exact absurd (by decide) hx

theorem modGenerator_only (s : State) (j : Nat) (f : Generator → Generator) : Only [.generators] s (s.modGenerator j f) := by
  intro x hx
  cases x <;> first | rfl | exact absurd (by decide) hx

theorem modChamber_only (s : State) (c : Nat) (f : ChamberState → ChamberState) : Only [.shutters] s (s.modChamber c f) := by
  intro x hx
  cases x <;> first | rfl | exact absurd (by decide) hx

theorem modCue_only (s : State) (f : CueUnit → CueUnit) : Only [.cue] s (s.modCue f) := by
  intro x hx
  cases x <;> first | rfl | exact absurd (by decide) hx

theorem markRecord_only (i : Nat) (st : RecordState) (s : State) : Only [.memory] s (markRecord i st s) := by
  intro x hx
  cases x <;> first | rfl | exact absurd (by decide) hx

theorem settle_only (s : State) : Only [.ports] s (settle s) := by
  intro x hx
  cases x <;> first | rfl | exact absurd (by decide) hx

theorem fillReservation_only (code : ReplyCode) (contents : List Byte) (s : State) :
    Only [.links] s (fillReservation code contents s) := by
  intro x hx
  cases x <;> first | rfl | exact absurd (by decide) hx

theorem setDeferral_only (d : Nat) (s : State) : Only [.sched, .counters] s (setDeferral d s) := by
  intro x hx
  cases x <;> first | rfl | exact absurd (by decide) hx

theorem dropStrikes_only (reached : Addr → Bool) (s : State) : Only [.table, .sched, .counters] s (dropStrikes reached s) := by
  intro x hx
  cases x <;> first | rfl | exact absurd (by decide) hx

/-! ## Notices, flow, the taking of a message, the transmitter -/

theorem notify_only (s : State) (l : Link) (n : Notice) : Only [.links, .counters] s (s.notify l n) := by
  unfold State.notify
  split
  · exact Only.refl _ _
  · dsimp only
    split
    · exact (modLink_only _ _ _).mono.trans (bump_only _ _).mono
    · exact (modLink_only _ _ _).mono

theorem notifyAll_only (s : State) (n : Notice) : Only [.links, .counters] s (s.notifyAll n) :=
  (notify_only _ _ _).trans (notify_only _ _ _)

theorem judgeFlow_only (l : Link) (s : State) : Only [.links, .counters] s (judgeFlow l s) := by
  unfold judgeFlow
  split <;> split <;> first
    | exact Only.refl _ _
    | exact (modLink_only _ _ _).mono.trans (notify_only _ _ _)

theorem takeHead_only (l : Link) (s : State) : Only [.links, .counters] s (takeHead l s) :=
  (modLink_only _ _ _).mono.trans (judgeFlow_only _ _)

theorem addReply_only (l : Link) (tag kind : Byte) (code : ReplyCode) (contents : List Byte) (s : State) :
    Only [.links] s (addReply l tag kind code contents s) := modLink_only _ _ _

theorem beginTransmission_only (l : Link) (s : State) : Only [.links] s (beginTransmission l s) := by
  unfold beginTransmission
  split
  · exact Only.refl _ _
  · split
    · split
      · exact modLink_only _ _ _
      · exact Only.refl _ _
    · split
      · exact (modLink_only _ _ _).trans (modLink_only _ _ _)
      · exact Only.refl _ _

theorem endTransmission_only (l : Link) (s : State) : Only [.links] s (endTransmission l s) := by
  unfold endTransmission
  split <;> first
    | exact Only.refl _ _
    | exact modLink_only _ _ _

/-! ## The strike scheduler -/

theorem startStroke_only (a : Addr) (s : State) : Only [.table, .ports, .counters] s (startStroke a s) := by
  unfold startStroke
  split
  · exact ((modRecord_only _ _ _).mono.trans (modPort_only _ _ _).mono).trans (bump_only _ _).mono
  · exact Only.refl _ _

theorem queueStrike_only (a : Addr) (s : State) : Only [.sched, .counters] s (queueStrike a s) := by
  unfold queueStrike
  split
  · exact (bump_only _ _).mono
  · split
    · exact (bump_only _ _).mono
    · intro x hx
      cases x <;> first | rfl | exact absurd (by decide) hx

theorem requestStrike_only (a : Addr) (s : State) : Only [.table, .ports, .counters, .sched] s (requestStrike a s) := by
  unfold requestStrike
  split
  · exact (bump_only _ _).mono
  · split
    · exact (startStroke_only _ _).mono
    · exact (queueStrike_only _ _).mono

theorem dequeue_only (a : Addr) (s : State) : Only [.sched] s (dequeue a s) := by
  intro x hx
  cases x <;> first | rfl | exact absurd (by decide) hx

theorem serveEntry_only (s : State) (e : QueuedStrike) : Only [.table, .ports, .counters, .sched] s (serveEntry s e) := by
  unfold serveEntry
  split
  · exact (dequeue_only _ _).mono.trans (startStroke_only _ _).mono
  · exact Only.refl _ _

theorem serveQueue_only (s : State) : Only [.table, .ports, .counters, .sched] s (serveQueue s) :=
  Only.foldl serveEntry_only _ _

theorem beginReiteration_only (a : Addr) (interval : Nat) (s : State) :
    Only [.table, .ports, .counters, .sched] s (beginReiteration a interval s) := by
  unfold beginReiteration
  split
  · refine Only.trans ?_ (requestStrike_only _ _)
    intro x hx
    cases x <;> first | rfl | exact absurd (by decide) hx
  · exact (bump_only _ _).mono.trans (requestStrike_only _ _)

theorem endReiteration_only (a : Addr) (s : State) : Only [.sched] s (endReiteration a s) := by
  intro x hx
  cases x <;> first | rfl | exact absurd (by decide) hx

theorem damperRelease_only (i : Nat) (s : State) : Only [.sched] s (damperRelease i s) := by
  unfold damperRelease
  split
  · exact modDamper_only _ _ _
  · exact Only.refl _ _

theorem percussionOnset_only (i : Nat) (a : Addr) (s : State) :
    Only [.table, .ports, .counters, .sched] s (percussionOnset i a s) := by
  unfold percussionOnset
  split
  · exact (modDamper_only _ _ _).mono.trans (beginReiteration_only _ _ _)
  · exact (modDamper_only _ _ _).mono.trans (requestStrike_only _ _)
  · exact Only.refl _ _

theorem percussionRelease_only (i : Nat) (a : Addr) (s : State) : Only [.sched] s (percussionRelease i a s) := by
  unfold percussionRelease
  split
  · exact (endReiteration_only _ _).trans (damperRelease_only _ _)
  · exact damperRelease_only _ _
  · exact Only.refl _ _

theorem trapOnset_only (mode : TrapMode) (a : Addr) (s : State) :
    Only [.table, .ports, .counters, .sched] s (trapOnset mode a s) := by
  unfold trapOnset
  split
  · exact requestStrike_only _ _
  · exact beginReiteration_only _ _ _
  · exact Only.refl _ _

theorem trapRelease_only (mode : TrapMode) (a : Addr) (s : State) : Only [.sched] s (trapRelease mode a s) := by
  unfold trapRelease
  split
  · exact Only.refl _ _
  · exact endReiteration_only _ _
  · exact Only.refl _ _

/-! ## The figure block -/

theorem strikeVoice_only (voices : List Nat) (s : State) (i : Nat) :
    Only [.table, .ports, .counters, .sched] s (strikeVoice voices s i) := by
  unfold strikeVoice
  split
  · exact requestStrike_only _ _
  · exact Only.refl _ _

theorem beginStep_only (p step : Nat) (s : State) :
    Only [.table, .ports, .counters, .sched, .figures] s (beginStep p step s) := by
  unfold beginStep
  split
  · split
    · split
      · exact (Only.foldl (strikeVoice_only _) _ _).mono.trans (setPlayer_only _ _ _).mono
      · exact Only.refl _ _
    · exact Only.refl _ _
  · exact Only.refl _ _

theorem startFigure_only (figure : Nat) (owner : FigureOwner) (s : State) :
    Only [.table, .ports, .counters, .sched, .figures] s (startFigure figure owner s).1 := by
  unfold startFigure
  split
  · split
    · exact (setPlayer_only _ _ _).mono
    · exact Only.refl _ _
  · split
    · exact (setPlayer_only _ _ _).mono.trans (beginStep_only _ _ _)
    · exact (bump_only _ _).mono

theorem removeOwner_only (owner : FigureOwner) (p : Nat) (s : State) : Only [.figures] s (removeOwner owner p s) := by
  unfold removeOwner
  split
  · split
    · exact setPlayer_only _ _ _
    · exact Only.refl _ _
  · exact Only.refl _ _

theorem removeFigureOwner_only (owner : FigureOwner) (figure : Nat) (s : State) :
    Only [.figures] s (removeFigureOwner owner figure s) := by
  unfold removeFigureOwner
  split
  · exact removeOwner_only _ _ _
  · exact Only.refl _ _

theorem removeOwnerEverywhere_only (owner : FigureOwner) (s : State) : Only [.figures] s (removeOwnerEverywhere owner s) :=
  Only.foldl (fun t p => removeOwner_only owner p t) _ _

theorem claimOnset_only (i : Nat) (s : State) :
    Only [.table, .ports, .counters, .sched, .figures] s (claimOnset i s) := by
  unfold claimOnset
  split
  · exact startFigure_only _ _ _
  · exact Only.refl _ _

theorem claimRelease_only (i : Nat) (s : State) : Only [.figures] s (claimRelease i s) := by
  unfold claimRelease
  split
  · split
    · exact Only.refl _ _
    · exact removeFigureOwner_only _ _ _
  · exact Only.refl _ _

/-! ## The unit relay -/

theorem reportOnset_only (r : Record) (s : State) :
    Only [.table, .ports, .counters, .sched, .figures] s (reportOnset r s) := by
  unfold reportOnset
  split <;> first
    | exact Only.refl _ _
    | exact (percussionOnset_only _ _ _).mono
    | exact (trapOnset_only _ _ _).mono
    | exact claimOnset_only _ _

theorem reportRelease_only (r : Record) (s : State) : Only [.sched, .figures] s (reportRelease r s) := by
  unfold reportRelease
  split <;> first
    | exact Only.refl _ _
    | exact (percussionRelease_only _ _ _).mono
    | exact (trapRelease_only _ _ _).mono
    | exact (claimRelease_only _ _).mono

theorem reportChange_only (before after : Record) (s : State) :
    Only [.table, .ports, .counters, .sched, .figures] s (reportChange before after s) := by
  unfold reportChange
  split
  · exact reportOnset_only _ _
  · split
    · exact (reportRelease_only _ _).mono
    · exact Only.refl _ _

theorem countClaim_only (x : Target) (f : Record → Record) (s : State) :
    Only [.table, .ports, .counters, .sched, .figures] s (countClaim x f s) := by
  unfold countClaim
  split
  · exact (modRecord_only _ _ _).mono.trans (reportChange_only _ _ _)
  · exact Only.refl _ _

theorem handClaim_only (l : Link) (add : Bool) (st : Stop) (key : Nat) (s : State) :
    Only [.table, .ports, .counters, .sched, .figures] s (handClaim l add st key s) := by
  unfold handClaim
  split
  · exact countClaim_only _ _ _
  · exact Only.refl _ _

theorem rewriteCounts_only (f : Record → Record) (s : State) : Only [.table, .sched, .figures] s (rewriteCounts f s) := by
  unfold rewriteCounts
  refine Only.trans (t := { s with table := s.table.map f }) ?_ (Only.foldl (fun t r => (reportRelease_only (f r) t).mono) _ _)
  intro x hx
  cases x <;> first | rfl | exact absurd (by decide) hx

/-! ## The registration blocks -/

theorem takeTransposition_only (l : Link) (s : State) : Only [.regs] s (takeTransposition l s) := by
  unfold takeTransposition
  split
  · exact modReg_only _ _ _
  · exact Only.refl _ _

theorem changeUnderStop_only (l : Link) (d k : Nat) (a b : Level) (s : State) (i : Nat) :
    Only [.table, .ports, .counters, .sched, .figures] s (changeUnderStop l d k a b s i) := by
  unfold changeUnderStop
  split
  · split
    · split
      · exact handClaim_only _ _ _ _ _
      · split
        · exact handClaim_only _ _ _ _ _
        · exact Only.refl _ _
    · exact Only.refl _ _
  · exact Only.refl _ _

theorem setKey_only (l : Link) (d k : Nat) (b : Level) (s : State) :
    Only [.table, .ports, .counters, .sched, .figures, .regs] s (setKey l d k b s) :=
  (modReg_only _ _ _).mono.trans (Only.foldl (changeUnderStop_only l d k _ b) _ _).mono

theorem drawStop_only (l : Link) (i : Nat) (s : State) :
    Only [.table, .ports, .counters, .sched, .figures, .regs] s (drawStop l i s) := by
  unfold drawStop
  split
  · exact (modReg_only _ _ _).mono.trans (Only.foldl (fun t k => (handClaim_only l true _ k t).mono) _ _)
  · exact Only.refl _ _

theorem cancelStop_only (l : Link) (i : Nat) (s : State) :
    Only [.table, .ports, .counters, .sched, .figures, .regs] s (cancelStop l i s) := by
  unfold cancelStop
  split
  · exact (modReg_only _ _ _).mono.trans (Only.foldl (fun t k => (handClaim_only l false _ k t).mono) _ _)
  · exact Only.refl _ _

theorem releaseKeys_only (l : Link) (s : State) :
    Only [.table, .ports, .counters, .sched, .figures, .regs] s (releaseKeys l s) := by
  refine Only.foldl (fun t d => Only.foldl (fun u k => ?_) _ _) _ _
  split
  · exact Only.refl _ _
  · exact setKey_only _ _ _ _ _

/-! ## Tremulants, shutters, ports -/

theorem judgeDemand_only (before : Bool) (j : Nat) (s : State) : Only [.generators] s (judgeDemand before j s) := by
  unfold judgeDemand
  split
  · split
    · exact modGenerator_only _ _ _
    · exact Only.refl _ _
  · split
    · exact modGenerator_only _ _ _
    · exact Only.refl _ _

theorem setTab_only (l : Link) (j : Nat) (on : Bool) (s : State) : Only [.regs, .generators] s (setTab l j on s) := by
  unfold setTab
  split
  · exact Only.refl _ _
  · exact (modReg_only _ _ _).mono.trans (judgeDemand_only _ _ _).mono

theorem setCueFlag_only (j : Nat) (on : Bool) (s : State) : Only [.generators] s (setCueFlag j on s) :=
  (modGenerator_only _ _ _).trans (judgeDemand_only _ _ _)

theorem clearCueFlags_only (s : State) : Only [.generators] s (clearCueFlags s) :=
  Only.foldl (fun t j => setCueFlag_only j false t) _ _

theorem stepChamber_only (c : Nat) (s : State) : Only [.shutters, .ports] s (stepChamber c s) := by
  unfold stepChamber
  split <;> try exact Only.refl _ _
  dsimp only
  split
  · split
    · exact (modChamber_only _ _ _).mono.trans (modPort_only _ _ _).mono
    · exact (modChamber_only _ _ _).mono
  · split
    · exact (modChamber_only _ _ _).mono
    · exact Only.refl _ _

theorem followChannel_only (k old new : Nat) (s : State) (c : Nat) :
    Only [.shutters, .ports] s (followChannel k old new s c) := by
  unfold followChannel
  split <;> try exact Only.refl _ _
  split
  · exact stepChamber_only _ _
  · exact Only.refl _ _

theorem writeChannel_only (k position : Nat) (s : State) : Only [.shutters, .ports] s (writeChannel k position s) := by
  unfold writeChannel
  refine Only.trans ?_ (Only.foldl (followChannel_only _ _ _) _ _)
  intro x hx
  cases x <;> first | rfl | exact absurd (by decide) hx

theorem startDetect_only (p : Nat) (s : State) : Only [.ports] s (startDetect p s) := by
  unfold startDetect
  split
  · split
    · exact modPort_only _ _ _
    · exact Only.refl _ _
  · exact Only.refl _ _

theorem tripPort_only (p : Nat) (e : PortEntry) (pt : Port) (s : State) :
    Only [.ports, .links, .counters, .table, .sched] s (tripPort p e pt s) := by
  unfold tripPort
  dsimp only
  split
  · exact ((((bump_only _ _).mono.trans (modPort_only _ _ _).mono).trans (bump_only _ _).mono).trans
      (notifyAll_only _ _).mono).trans (dropStrikes_only _ _).mono
  · exact (((bump_only _ _).mono.trans (modPort_only _ _ _).mono).trans (notifyAll_only _ _).mono).trans (dropStrikes_only _ _).mono

theorem restorePort_only (p : Nat) (history : List Nat) (s : State) :
    Only [.ports, .links, .counters] s (restorePort p history s) :=
  ((modPort_only _ _ _).mono.trans (startDetect_only _ _).mono).trans (notifyAll_only _ _).mono

theorem disablePort_only (p : Nat) (s : State) : Only [.ports, .table, .sched, .counters] s (disablePort p s) :=
  (modPort_only _ _ _).mono.trans (dropStrikes_only _ _).mono

theorem supplyFails_only (s : State) : Only [.supply, .ports, .links, .counters, .table, .sched] s (supplyFails s) := by
  refine Only.trans ?_ ((dropStrikes_only _ _).mono.trans (notifyAll_only _ _).mono)
  intro x hx
  cases x <;> first | rfl | exact absurd (by decide) hx

theorem supplyReturns_only (s : State) : Only [.supply, .ports, .links, .counters] s (supplyReturns s) := by
  refine Only.trans (t := { s with supply := { state := .good, dwell := none } }) ?_
    ((Only.foldl (fun t p => (startDetect_only p t).mono) _ _).trans (notifyAll_only _ _).mono)
  intro x hx
  cases x <;> first | rfl | exact absurd (by decide) hx

/-! ## The cue unit -/

theorem cueGoesIdle_only (reason : StopReason) (s : State) :
    Only [.table, .sched, .figures, .generators, .cue, .links, .counters] s (cueGoesIdle reason s) := by
  have given : Only [.table, .sched, .figures, .generators, .cue] s
      (removeOwnerEverywhere .cue (clearCueFlags (rewriteCounts Record.withoutCue (s.modCue fun c => { c with state := .idle })))) :=
    (((modCue_only _ _).mono.trans (rewriteCounts_only _ _).mono).trans (clearCueFlags_only _).mono).trans
      (removeOwnerEverywhere_only _ _).mono
  exact (given.mono.trans (modCue_only _ _).mono).trans (notifyAll_only _ _).mono

theorem instantAction_only (action : Action) (s : State) :
    Only [.table, .ports, .counters, .sched, .figures, .generators, .shutters] s (instantAction action s) := by
  unfold instantAction
  split <;> try exact Only.refl _ _
  · split <;> first
      | exact Only.refl _ _
      | exact (requestStrike_only _ _).mono
  · split
    · exact (countClaim_only _ _ _).mono
    · exact Only.refl _ _
  · exact (startFigure_only _ _ _).mono
  · exact (removeFigureOwner_only _ _ _).mono
  · exact (writeChannel_only _ _ _).mono
  · intro x hx
    cases x <;> first | rfl | exact absurd (by decide) hx
  · exact (setCueFlag_only _ _ _).mono

theorem completeRecord_only (i : Nat) (body : CueBody) (atTaking : Bool) (s : State) :
    Only [.memory, .table, .sched, .figures, .generators, .cue, .links, .counters] s (completeRecord i body atTaking s) := by
  have told : Only [.memory, .cue, .links, .counters] s
      (if body.indicate then
        (((markRecord i .done s).modCue fun c =>
          { c with lastCompleted := some i, runCount := if atTaking then c.runCount + 1 else c.runCount }).notifyAll (.cueDone i))
       else ((markRecord i .done s).modCue fun c =>
          { c with lastCompleted := some i, runCount := if atTaking then c.runCount + 1 else c.runCount })) := by
    have done := ((markRecord_only i .done s).mono (gs := [.memory, .cue, .links, .counters])).trans
      ((modCue_only _ (fun c => { c with
        lastCompleted := some i, runCount := if atTaking then c.runCount + 1 else c.runCount })).mono)
    split
    · exact done.trans (notifyAll_only _ _).mono
    · exact done
  have wide : ∀ {t u : State}, Only [.memory, .cue, .links, .counters] s t → Only [.cue, .counters] t u →
      Only [.memory, .table, .sched, .figures, .generators, .cue, .links, .counters] s u :=
    fun h k => h.mono.trans k.mono
  unfold completeRecord
  dsimp only
  cases body.next with
  | none => exact (wide told (modCue_only _ _).mono).trans (cueGoesIdle_only _ _).mono
  | some next =>
    refine Only.ite (wide told (modCue_only _ _).mono) (Only.ite ?_ (wide told (modCue_only _ _).mono))
    exact (wide told ((modCue_only _ _).mono.trans (bump_only _ _).mono)).trans (cueGoesIdle_only _ _).mono

theorem completeCurrent_only (s : State) :
    Only [.memory, .table, .sched, .figures, .generators, .cue, .links, .counters] s (completeCurrent s) := by
  unfold completeCurrent
  split
  · split
    · exact completeRecord_only _ _ _ _
    · exact Only.refl _ _
  · exact Only.refl _ _

theorem carryOut_only (i : Nat) (body : CueBody) (s : State) :
    Only [.memory, .table, .sched, .figures, .generators, .cue, .links, .counters, .ports, .shutters] s (carryOut i body s) := by
  unfold carryOut
  split
  · exact (modCue_only _ _).mono
  · split
    · exact (modCue_only _ _).mono.trans (completeRecord_only _ _ _ _).mono
    · exact (modCue_only _ _).mono
  · exact (instantAction_only _ _).mono.trans (completeRecord_only _ _ _ _).mono

theorem takeCurrent_only (s : State) :
    Only [.memory, .table, .sched, .figures, .generators, .cue, .links, .counters, .ports, .shutters] s (takeCurrent s) := by
  unfold takeCurrent
  split
  · split
    · exact (cueGoesIdle_only _ _).mono
    · split
      · exact carryOut_only _ _ _
      · exact (markRecord_only _ _ _).mono.trans (cueGoesIdle_only _ _).mono
  · exact Only.refl _ _

theorem takeGo_only (s : State) :
    Only [.memory, .table, .sched, .figures, .generators, .cue, .links, .counters] s (takeGo s) := by
  unfold takeGo
  split
  · exact completeCurrent_only _
  · exact (bump_only _ _).mono
  all_goals
    split
    · exact (bump_only _ _).mono
    · exact (modCue_only _ _).mono

theorem cueOwnerLost_only (l : Link) (s : State) : Only [.cue, .links, .counters] s (cueOwnerLost l s) := by
  unfold cueOwnerLost
  split
  · exact (modCue_only _ _).mono.trans (notifyAll_only _ _).mono
  · exact Only.refl _ _

/-! ## The end of every event -/

theorem settleAndServe_only (serve : Bool) (s : State) :
    Only [.table, .ports, .counters, .sched] s (settleAndServe serve s) := by
  unfold settleAndServe
  split
  · exact ((settle_only _).mono.trans (serveQueue_only _)).trans (settle_only _).mono
  · exact (settle_only _).mono

theorem finish_only (serve : Bool) (s : State) : Only [.table, .ports, .counters, .sched, .links] s (finish serve s) :=
  ((settleAndServe_only _ _).mono.trans (beginTransmission_only _ _).mono).trans (beginTransmission_only _ _).mono

end Sys2Proof.Machine
end

