-- ==== Sys2Proof/Laws/Steps.lean ====
section
/-! SUPPORT. The end of an event and what a command can answer: settling is idempotent, a done state has nothing left to do, every
command answers a state that the end of an event leaves, or the state it found. -/

namespace Sys2Proof.Machine

-- One theorem after another, so that the compile needs few threads.
set_option Elab.async false

/-! ## Settling -/

@[simp] theorem settle_demands (s : State) (r : Record) : (settle s).demands r = s.demands r := rfl

@[simp] theorem settle_recordLoad (s : State) (r : Record) : (settle s).recordLoad r = s.recordLoad r := rfl

@[simp] theorem settle_demanding (s : State) (p : Nat) : (settle s).demanding p = s.demanding p := rfl

@[simp] theorem settlePort_state (s : State) (p : Nat) (pt : Port) : (settlePort s p pt).state = pt.state := by
  unfold settlePort
  split <;> rfl

theorem settlePort_idem (s : State) (p : Nat) (pt : Port) : settlePort s p (settlePort s p pt) = settlePort s p pt := by
  unfold settlePort
  by_cases h : pt.state = .active ∧ s.supplyGood = true
  · simp [h]
  · rw [if_neg h]
    dsimp only
    rw [if_neg h]

theorem settle_settled (s : State) : Settled (settle s) := by
  have h : (s.ports.mapIdx (settlePort s)).mapIdx (settlePort (settle s)) = s.ports.mapIdx (settlePort s) := by
    apply List.ext_getElem?
    intro i
    simp only [List.getElem?_mapIdx]
    cases s.ports[i]? with
    | none => rfl
    | some pt => exact congrArg some (settlePort_idem s i pt)
  exact congrArg (fun x => { s with ports := x }) h

/-- What settling reads: the ports, the table, the scheduler, the tables, the shutters, the generators, the supply. An event that
leaves these as they are leaves the ports settled. -/
theorem Settled.of_only {s t : State} (hs : Settled s)
    (h : Only [.now, .rate, .links, .regs, .figures, .memory, .cue, .counters, .pending] s t) : Settled t := by
  have e : settlePort t = settlePort s := by
    funext p pt
    unfold settlePort State.demanding State.demands State.recordLoad State.supplyGood State.damperDemand State.chamberState
      State.generator State.source State.chamber State.tremulant
    rw [h.table, h.sched, h.store, h.shutters, h.generators, h.supply]
  have k : t.ports.mapIdx (settlePort t) = t.ports := by
    rw [e, h.ports]
    exact congrArg State.ports hs
  exact congrArg (fun x => { t with ports := x }) k

theorem loadFell_self (s : State) : loadFell s s = false := by
  unfold loadFell
  rw [Bool.eq_false_iff]
  intro h
  rw [List.any_eq_true] at h
  obtain ⟨p, hp, hd⟩ := h
  have : p.1 = p.2 := by
    have := List.of_mem_zip hp
    obtain ⟨i, hi, rfl⟩ := List.getElem_of_mem hp
    simp
  rw [this] at hd
  simp at hd

theorem settleAndServe_of_settled {s : State} (h : Settled s) : settleAndServe false s = s := by
  unfold settleAndServe
  rw [h, loadFell_self]
  rfl

theorem settled_settleAndServe (serve : Bool) (s : State) : Settled (settleAndServe serve s) := by
  unfold settleAndServe
  split
  · exact settle_settled _
  · exact settle_settled _

/-! ## Transmission -/

theorem findReply_none {ps : List Place} (h : ∀ p ∈ ps, p.reply? = none) : ps.findIdx? (fun p => p.reply?.isSome) = none := by
  rw [List.findIdx?_eq_none_iff]
  intro p hp
  rw [h p hp]
  rfl

theorem beginTransmission_of_quiet {l : Link} {s : State} (h : (s.link l).Quiet) : beginTransmission l s = s := by
  unfold beginTransmission
  cases ht : (s.link l).transmitter with
  | sending a b c => rfl
  | idle =>
    obtain ⟨hn, hr⟩ := h ht
    simp only [findReply_none hr, hn]

theorem beginTransmission_other (l m : Link) (h : m ≠ l) (s : State) : (beginTransmission l s).link m = s.link m := by
  unfold beginTransmission
  split
  · rfl
  · split
    · split
      · exact State.link_modLink_of_ne _ h _
      · rfl
    · split
      · rw [State.link_modLink_of_ne _ h, State.link_modLink_of_ne _ h]
      · rfl

/-- What a link's transmitter does at the end of an event: nothing, or it begins the oldest reply, or the oldest notice, which leaves
its queue (R168). -/
theorem beginTransmission_cases (l : Link) (s : State) :
    (beginTransmission l s = s ∧ (s.link l).Quiet) ∨
    (∃ place r, (s.link l).transmitter = .idle ∧ (s.link l).replies.findIdx? (fun p => p.reply?.isSome) = some place ∧
      (s.link l).replies[place]? = some (.holding r) ∧
      beginTransmission l s = s.modLink l fun i =>
        { i with transmitter := .sending (.reply place) (frameOf Kind.reply (s.statusPrefix l ++ r.bytes)) s.now }) ∨
    (∃ n rest, (s.link l).transmitter = .idle ∧ (∀ p ∈ (s.link l).replies, p.reply? = none) ∧
      (s.link l).notices = n :: rest ∧
      beginTransmission l s = s.modLink l fun i =>
        { i with
          notices := rest
          transmitter := .sending (.notice n)
            (frameOf Kind.notice ((s.modLink l fun i => { i with notices := rest }).statusPrefix l ++ n.bytes)) s.now }) := by
  unfold beginTransmission
  cases ht : (s.link l).transmitter with
  | sending a b c => exact .inl ⟨rfl, fun h => by rw [ht] at h; cases h⟩
  | idle =>
    cases hf : (s.link l).replies.findIdx? (fun p => p.reply?.isSome) with
    | some place =>
      obtain ⟨hlt, hp, -⟩ := List.findIdx?_eq_some_iff_getElem.1 hf
      cases hq : (s.link l).replies[place] with
      | reserved tag => rw [hq] at hp; cases hp
      | holding r =>
        have hg : (s.link l).replies[place]? = some (.holding r) := by rw [List.getElem?_eq_getElem hlt, hq]
        refine .inr (.inl ⟨place, r, rfl, rfl, hg, ?_⟩)
        simp [hg, Place.reply?]
    | none =>
      have hr : ∀ p ∈ (s.link l).replies, p.reply? = none := fun p hp => by
        have := (List.findIdx?_eq_none_iff.1 hf) p hp
        simpa using this
      cases hn : (s.link l).notices with
      | nil => exact .inl ⟨rfl, fun _ => ⟨hn, hr⟩⟩
      | cons n rest =>
        refine .inr (.inr ⟨n, rest, rfl, hr, rfl, ?_⟩)
        dsimp only
        unfold State.modLink State.link
        cases l <;> rfl

theorem beginTransmission_quiet (l : Link) (s : State) : ((beginTransmission l s).link l).Quiet := by
  rcases beginTransmission_cases l s with ⟨e, q⟩ | ⟨place, r, -, -, -, e⟩ | ⟨n, rest, -, -, -, e⟩
  · rw [e]
    exact q
  · rw [e, State.link_modLink_same]
    intro h
    cases h
  · rw [e, State.link_modLink_same]
    intro h
    cases h

/-! ## Done -/

theorem done_finish (serve : Bool) (s : State) : Done (finish serve s) where
  settled := (settled_settleAndServe serve s).of_only
    ((beginTransmission_only _ _).mono.trans (beginTransmission_only _ _).mono)
  quiet := fun l => by
    cases l with
    | two => exact beginTransmission_quiet _ _
    | one =>
      show ((beginTransmission .two _).link .one).Quiet
      rw [beginTransmission_other .two .one (by decide)]
      exact beginTransmission_quiet _ _

theorem finish_of_done {s : State} (h : Done s) : finish false s = s := by
  unfold finish
  rw [settleAndServe_of_settled h.settled, beginTransmission_of_quiet (h.quiet .one), beginTransmission_of_quiet (h.quiet .two)]

/-- The end of an event whose effect left alone all that settling reads: the transmitters alone may begin. -/
theorem finish_of_settled {s : State} (h : Settled s) : finish false s = beginTransmission .two (beginTransmission .one s) := by
  unfold finish
  rw [settleAndServe_of_settled h]

/-! ## What a command can answer -/

/-- A meaning answers the state the end of an event leaves, or the state it found. -/
def Finishes (s : State) (o : Host.Outcome State Fault Refusal) : Prop := o = .next s ∨ ∃ serve u, o = .next (finish serve u)

theorem finishes_event (s : State) (serve : Bool) (u : State) : Finishes s (event serve u) := .inr ⟨serve, u, rfl⟩

theorem finishes_nothing (s : State) : Finishes s (nothing s) := .inl rfl

theorem takePlay_finishes (l : Link) (kind : Byte) (owner : List Byte → State → State) (s : State) :
    Finishes s (takePlay l kind owner s) := by
  unfold takePlay
  split
  · split
    · split <;> exact finishes_event _ _ _
    · exact finishes_nothing _
  · exact finishes_nothing _

theorem takeCommandThen_finishes (l : Link) (kind : Byte) (gate : Gate)
    (act : Byte → List Byte → State → Host.Outcome State Fault Refusal)
    (h : ∀ tag fields t, ∃ serve u, act tag fields t = .next (finish serve u)) (s : State) :
    Finishes s (takeCommandThen l kind gate act s) := by
  unfold takeCommandThen
  split
  · split
    · dsimp only
      split
      · exact finishes_event _ _ _
      · exact finishes_event _ _ _
      · exact .inr (h _ _ _)
    · exact finishes_nothing _
  · exact finishes_nothing _

theorem takeCommand_finishes (l : Link) (kind : Byte) (gate : Gate) (owner : List Byte → State → Answer) (s : State) :
    Finishes s (takeCommand l kind gate owner s) :=
  takeCommandThen_finishes l kind gate _ (fun _ _ _ => ⟨_, _, rfl⟩) s

theorem execSpecCommit_finishes (l : Link) (s : State) : Finishes s (execSpecCommit l s) := by
  refine takeCommandThen_finishes l _ _ _ (fun tag fields t => ?_) s
  cases readNoField fields with
  | none => exact ⟨_, _, rfl⟩
  | some u => exact ⟨_, _, rfl⟩

/-- Every command answers a next state: the one it found, or one that the end of an event leaves. -/
theorem exec_finishes (c : Instr) (s : State) : Finishes s (exec c s) := by
  cases c <;> dsimp only [exec]
  case specCommit l => exact execSpecCommit_finishes l s
  case powerOn r u o => exact finishes_event _ _ _
  case byteArrival l b => exact finishes_event _ _ _
  case currentRising p => exact finishes_event _ _ _
  case currentFalling p => exact finishes_event _ _ _
  case keyChange l => exact takePlay_finishes _ _ _ _
  case stopChange l => exact takePlay_finishes _ _ _ _
  case tremulantTab l => exact takePlay_finishes _ _ _ _
  case registration l => exact takePlay_finishes _ _ _ _
  case transpose l => exact takePlay_finishes _ _ _ _
  case expression l => exact takePlay_finishes _ _ _ _
  case go l => exact takePlay_finishes _ _ _ _
  case tempo l => exact takePlay_finishes _ _ _ _
  case interByteTimerExpiry l => unfold execInterByteTimerExpiry; split <;> first | exact finishes_event _ _ _ | exact finishes_nothing _
  case silenceTimerExpiry l => unfold execSilenceTimerExpiry; split <;> first | exact finishes_event _ _ _ | exact finishes_nothing _
  case transmitEnd l =>
    unfold execTransmitEnd
    split
    · split <;> exact finishes_event _ _ _
    · exact finishes_nothing _
  case fullResetTakesEffect l =>
    unfold execFullResetTakesEffect
    split
    · split
      · exact finishes_event _ _ _
      · split
        · exact finishes_event _ _ _
        · exact finishes_nothing _
    · exact finishes_nothing _
  case unknownKind l =>
    unfold execUnknownKind
    split
    · split
      · exact finishes_event _ _ _
      · exact finishes_nothing _
    · exact finishes_nothing _
  case checkCompletion =>
    unfold execCheckCompletion
    split
    · split <;> exact finishes_event _ _ _
    · exact finishes_nothing _
  case strokeTimerExpiry a =>
    unfold execStrokeTimerExpiry
    split
    · split
      · split <;> exact finishes_event _ _ _
      · exact finishes_nothing _
    · exact finishes_nothing _
  case restTimerExpiry a =>
    unfold execRestTimerExpiry
    split <;> try exact finishes_nothing _
    split
    · exact finishes_event _ _ _
    · exact finishes_nothing _
  case deferralLimitExpiry a =>
    unfold execDeferralLimitExpiry
    split <;> try exact finishes_nothing _
    split
    · exact finishes_event _ _ _
    · exact finishes_nothing _
  case reiterationDue a =>
    unfold execReiterationDue
    split <;> try exact finishes_nothing _
    split
    · exact finishes_event _ _ _
    · exact finishes_nothing _
  case holdoverTimerExpiry i =>
    unfold execHoldoverTimerExpiry
    split <;> try exact finishes_nothing _
    split
    · exact finishes_event _ _ _
    · exact finishes_nothing _
  case stepTimerExpiry p =>
    unfold execStepTimerExpiry
    split <;> try exact finishes_nothing _
    split
    · exact finishes_event _ _ _
    · exact finishes_nothing _
  case phaseTimerExpiry j =>
    unfold execPhaseTimerExpiry
    split <;> try exact finishes_nothing _
    all_goals
      split
      · exact finishes_event _ _ _
      · exact finishes_nothing _
  case stageTimerExpiry c => unfold execStageTimerExpiry; split <;> first | exact finishes_event _ _ _ | exact finishes_nothing _
  case detectTimerExpiry p =>
    unfold execDetectTimerExpiry
    split <;> try exact finishes_nothing _
    split
    · exact finishes_event _ _ _
    · exact finishes_nothing _
  case offTimerExpiry p =>
    unfold execOffTimerExpiry
    split <;> try exact finishes_nothing _
    split
    · exact finishes_event _ _ _
    · exact finishes_nothing _
  case supplyDropping => unfold execSupplyDropping; split <;> exact finishes_event _ _ _
  case supplyRising =>
    unfold execSupplyRising
    split <;> first | exact finishes_event _ _ _ | exact finishes_nothing _
  case dwellTimerExpiry => unfold execDwellTimerExpiry; split <;> first | exact finishes_event _ _ _ | exact finishes_nothing _
  case takeRecord => unfold execTakeRecord; split <;> first | exact finishes_event _ _ _ | exact finishes_nothing _
  case waitTimerExpiry => unfold execWaitTimerExpiry; split <;> first | exact finishes_event _ _ _ | exact finishes_nothing _
  all_goals exact takeCommand_finishes _ _ _ _ _

/-- What a step does: a millisecond passes, or a command is carried out, which answers a next state. -/
theorem step_cases {s t : State} (h : step s = .next t) :
    (t = tick s ∧ s.pending = [] ∧ s.ownEvents = []) ∨
    (∃ c rest, s.pending = c :: rest ∧ exec c { s with pending := rest } = .next t) ∨
    (∃ c rest, s.pending = [] ∧ s.ownEvents = c :: rest ∧ exec c s = .next t) := by
  unfold step at h
  cases hp : s.pending with
  | cons c rest =>
    rw [hp] at h
    exact .inr (.inl ⟨c, rest, rfl, h⟩)
  | nil =>
    rw [hp] at h
    dsimp only at h
    cases ho : s.ownEvents with
    | cons c rest =>
      rw [ho] at h
      exact .inr (.inr ⟨c, rest, rfl, rfl, h⟩)
    | nil =>
      rw [ho] at h
      cases h
      exact .inl ⟨rfl, rfl, rfl⟩

/-! ## What settled ports say (R120, R121) -/

theorem Settled.port {s : State} (h : Settled s) {p : Nat} {pt : Port} (hp : s.ports[p]? = some pt) : settlePort s p pt = pt := by
  have e : (s.ports.mapIdx (settlePort s))[p]? = s.ports[p]? := congrArg (fun u => u.ports[p]?) h
  rw [List.getElem?_mapIdx, hp] at e
  exact Option.some.inj e

theorem Settled.energizedLaw {s : State} (h : Settled s) : EnergizedLaw s := by
  intro a
  unfold State.energized State.portActive
  cases hp : s.ports[a.port]? with
  | none => simp [hp]
  | some pt =>
    have e := congrArg Port.energized (h.port hp)
    unfold settlePort at e
    simp only [hp]
    by_cases c : pt.state = .active ∧ s.supplyGood = true
    · rw [if_pos c] at e
      rw [← e]
      simp only [List.contains_iff_mem, List.mem_filterMap, c.1, c.2, decide_true, and_true]
      unfold State.demanding
      simp only [List.mem_filter, Bool.and_eq_true]
      constructor
      · rintro ⟨r, ⟨hr, ho, hd⟩, hi⟩
        refine ⟨r, hr, ?_, hd⟩
        unfold Record.onPort at ho
        unfold Record.index? at hi
        cases ht : r.target with
        | claim i => rw [ht] at ho; cases ho
        | output b =>
          rw [ht] at ho hi
          obtain ⟨bp, bi⟩ := b
          obtain ⟨ap, ai⟩ := a
          simp at ho hi
          rw [ho, hi]
      · rintro ⟨r, hr, ht, hd⟩
        refine ⟨r, ⟨hr, ?_, hd⟩, ?_⟩
        · unfold Record.onPort
          rw [ht]
          simp
        · unfold Record.index?
          rw [ht]
    · rw [if_neg c] at e
      rw [← e]
      simp only [List.contains_nil, Bool.false_eq_true, decide_eq_true_eq, false_iff]
      rintro ⟨-, h1, h2⟩
      exact c ⟨h1, h2⟩

theorem Settled.loadLaw {s : State} (h : Settled s) : LoadLaw s := by
  intro p pt hp
  have e := congrArg Port.load (h.port hp)
  unfold settlePort at e
  by_cases c : pt.state = .active ∧ s.supply.state = .good
  · have c' : pt.state = .active ∧ s.supplyGood = true := ⟨c.1, by unfold State.supplyGood; simp [c.2]⟩
    rw [if_pos c'] at e
    rw [if_pos c, ← e]
    rfl
  · have c' : ¬ (pt.state = .active ∧ s.supplyGood = true) := fun k => c ⟨k.1, by simpa [State.supplyGood] using k.2⟩
    rw [if_neg c'] at e
    rw [if_neg c, ← e]

end Sys2Proof.Machine
end

