-- ==== Sys2Proof/Laws/Taking.lean ====
section
/-! SUPPORT. What the taking of a message does at the interfaces, once for all: the head that is taken, what it leaves at both links,
and the three ways a meaning ends: a play message, an answered command, a refusal by the engine state. -/

namespace Sys2Proof.Machine

-- One theorem after another, so that the compile needs few threads.
set_option Elab.async false

/-! ## The head -/

theorem head_of_waits {s : State} {l : Link} {kind : Byte} {body : List Byte} (h : Waits s l kind body) :
    s.head l = some { kind := kind, body := body } := by
  unfold State.head
  rw [h.noReset]
  cases hi : (s.link l).input with
  | nil => have := h.front; rw [hi] at this; cases this
  | cons m rest =>
    have hf := h.front
    rw [hi] at hf
    cases hf
    rcases h.place with hp | hp
    · simp [hp]
    · simp [hp, Config.replyPlaces]

/-! ## Notices and flow -/

theorem notify_facing (l m : Link) (n : Notice) (s : State) : ((s.notify l n).link m).facing = (s.link m).facing := by
  unfold State.notify
  split
  · rfl
  · dsimp only
    split
    · by_cases e : m = l
      · subst e
        rw [State.link_of_links (State.bump_links _ _), State.link_modLink_same]
        rfl
      · rw [State.link_of_links (State.bump_links _ _), State.link_modLink_of_ne _ e]
    · by_cases e : m = l
      · subst e
        rw [State.link_modLink_same]
        rfl
      · rw [State.link_modLink_of_ne _ e]

theorem notify_of_ne {l m : Link} (h : m ≠ l) (n : Notice) (s : State) : (s.notify l n).link m = s.link m := by
  unfold State.notify
  split
  · rfl
  · dsimp only
    split
    · rw [State.link_of_links (State.bump_links _ _), State.link_modLink_of_ne _ h]
    · rw [State.link_modLink_of_ne _ h]

theorem notifyAll_facing (m : Link) (n : Notice) (s : State) : ((s.notifyAll n).link m).facing = (s.link m).facing := by
  unfold State.notifyAll
  rw [notify_facing, notify_facing]

theorem CountedOnly.refl (is : List Nat) (s : State) : CountedOnly is s s := fun _ _ => rfl

theorem CountedOnly.trans {is : List Nat} {s t u : State} (h : CountedOnly is s t) (k : CountedOnly is t u) : CountedOnly is s u :=
  fun i hi => (k i hi).trans (h i hi)

theorem CountedOnly.mono {is js : List Nat} {s t : State} (h : CountedOnly is s t) (sub : ∀ i ∈ is, i ∈ js) : CountedOnly js s t :=
  fun i hi => h i fun hm => hi (sub i hm)

theorem CountedOnly.of_counters {is : List Nat} {s t : State} (h : t.counters = s.counters) : CountedOnly is s t :=
  fun _ _ => by rw [h]

theorem bumpBy_counted (s : State) (n : Nat) (c : Counter) : CountedOnly [c.index] s (s.bumpBy n c) := by
  intro i hi
  unfold State.bumpBy
  rw [List.getElem?_modify]
  have : c.index ≠ i := fun e => hi (by simp [e])
  simp [this]

theorem bumpBy_raised (s : State) (n : Nat) (c : Counter) : Raised n c s (s.bumpBy n c) := by
  unfold Raised State.bumpBy
  rw [List.getElem?_modify]
  simp

theorem notify_counted (l : Link) (n : Notice) (s : State) : CountedOnly [discards l] s (s.notify l n) := by
  unfold State.notify
  split
  · exact CountedOnly.refl _ _
  · dsimp only
    split
    · exact bumpBy_counted _ _ _
    · exact CountedOnly.refl _ _

theorem judgeFlow_facing (l : Link) (s : State) :
    ((judgeFlow l s).link l).facing = ({ s.link l with flow := (s.link l).flowAt (s.link l).input.length } : LinkIf).facing := by
  unfold judgeFlow LinkIf.flowAt
  cases hf : (s.link l).flow with
  | flowing =>
    dsimp only
    split
    · rw [notify_facing, State.link_modLink_same]
    · rw [← hf]
  | held =>
    dsimp only
    split
    · rw [notify_facing, State.link_modLink_same]
    · rw [← hf]

theorem judgeFlow_of_ne {l m : Link} (h : m ≠ l) (s : State) : (judgeFlow l s).link m = s.link m := by
  unfold judgeFlow
  split <;> split <;> first
    | rfl
    | rw [notify_of_ne h, State.link_modLink_of_ne _ h]

theorem judgeFlow_counted (l : Link) (s : State) : CountedOnly [discards l] s (judgeFlow l s) := by
  unfold judgeFlow
  split <;> split <;> first
    | exact CountedOnly.refl _ _
    | exact notify_counted _ _ _

/-! ## The taking of the head -/

theorem takeHead_facing (l : Link) (s : State) :
    ((takeHead l s).link l).facing =
      ({ s.link l with
          input := (s.link l).input.tail
          flow := (s.link l).flowAt (s.link l).input.tail.length } : LinkIf).facing := by
  unfold takeHead
  rw [judgeFlow_facing, State.link_modLink_same]
  rfl

theorem takeHead_of_ne {l m : Link} (h : m ≠ l) (s : State) : (takeHead l s).link m = s.link m := by
  unfold takeHead
  rw [judgeFlow_of_ne h, State.link_modLink_of_ne _ h]

theorem takeHead_counted (l : Link) (s : State) : CountedOnly [discards l] s (takeHead l s) := by
  unfold takeHead
  exact judgeFlow_counted _ _

theorem takeHead_engine (l : Link) (s : State) : (takeHead l s).engine = s.engine :=
  congrArg Store.engine (takeHead_only l s).store

theorem takeHead_ready (l : Link) (s : State) : (takeHead l s).ready = s.ready := by
  unfold State.ready
  rw [(takeHead_only l s).store]

/-! ## The end of an event -/

theorem beginTransmission_facing (l m : Link) (s : State) : ((beginTransmission l s).link m).facing = (s.link m).facing := by
  by_cases e : m = l
  · subst e
    rcases beginTransmission_cases m s with ⟨h, -⟩ | ⟨place, r, -, -, -, h⟩ | ⟨n, rest, -, -, -, h⟩
    · rw [h]
    · rw [h, State.link_modLink_same]
      rfl
    · rw [h, State.link_modLink_same]
      rfl
  · rw [beginTransmission_other l m e]

theorem finish_facing (serve : Bool) (m : Link) (s : State) : ((finish serve s).link m).facing = (s.link m).facing := by
  unfold finish
  rw [beginTransmission_facing, beginTransmission_facing, State.link_of_links (settleAndServe_only serve s).links]

theorem finish_of_settled_only {s : State} (h : Settled s) : Only [.links] s (finish false s) := by
  rw [finish_of_settled h]
  exact (beginTransmission_only _ _).trans (beginTransmission_only _ _)

theorem Settled.of_links_counters {s t : State} (hs : Settled s) (h : Only [.links, .counters] s t) : Settled t :=
  hs.of_only h.mono

/-! ## Took and Acted -/

/-- The places that the end of an event leaves at the links are those that stood before it. -/
theorem Took.finish {l : Link} {places : List Place} {s u : State} (h : Took l places s u) (serve : Bool) :
    Took l places s (finish serve u) where
  this := (finish_facing serve l u).trans h.this
  other := (finish_facing serve (otherLink l) u).trans h.other

/-- A message taken whose effect leaves the links alone. -/
theorem Took.of_takeHead {l : Link} {s u : State} (h : u.links = (takeHead l s).links) : Took l [] s u where
  this := by
    rw [State.link_of_links h, takeHead_facing]
    simp
  other := by
    rw [State.link_of_links h, takeHead_of_ne (otherLink_ne l)]

theorem Took.addPlace {l : Link} {s u : State} (h : Took l [] s u) (p : Place) : Took l [p] s (addPlace l p u) where
  this := by
    have e := h.this
    unfold Sys2Proof.Machine.addPlace
    rw [State.link_modLink_same]
    unfold LinkIf.facing at e ⊢
    simp only [List.append_nil] at e
    have e2 := congrArg (fun i : LinkIf => { i with replies := i.replies ++ [p] }) e
    simpa using e2
  other := by
    unfold Sys2Proof.Machine.addPlace
    rw [State.link_modLink_of_ne _ (otherLink_ne l)]
    exact h.other

theorem Took.congr {l : Link} {places : List Place} {s e t : State} (h : Took l places s t) (k : e.links = s.links) :
    Took l places e t where
  this := by rw [State.link_of_links k, h.this]
  other := by rw [State.link_of_links k, h.other]

theorem Acted.of_pre {l : Link} {places : List Place} {e u : State} (h : Took l places e u) (ho : Only [.links, .counters] e u)
    (hc : CountedOnly [discards l] e u) (hs : Settled e) : Acted l places e (Sys2Proof.Machine.finish false u) where
  took := h.finish false
  only := ho.trans (finish_of_settled_only (hs.of_links_counters ho)).mono
  counted := hc.trans (CountedOnly.of_counters (finish_of_settled_only (hs.of_links_counters ho)).counters)

/-- The taking of a play message in READY whose effect stays away from the links, the counters and what settling reads. -/
theorem takePlay_acted {l : Link} {kind : Byte} {body : List Byte} {owner : List Byte → State → State} {s e : State}
    (hw : Waits s l kind body) (hr : s.engine = .ready)
    (hl : (owner body (takeHead l s)).links = (takeHead l s).links)
    (hc : (owner body (takeHead l s)).counters = (takeHead l s).counters)
    (he : Only [.links, .counters] e (owner body (takeHead l s))) (hel : e.links = s.links) (hec : e.counters = s.counters)
    (hs : Settled e) : ∃ t, takePlay l kind owner s = .next t ∧ Acted l [] e t := by
  have hready : s.ready = true := by unfold State.ready; exact decide_eq_true hr
  refine ⟨_, ?_, Acted.of_pre (u := owner body (takeHead l s)) ((Took.of_takeHead hl).congr hel) he ?_ hs⟩
  · unfold takePlay
    rw [head_of_waits hw]
    simp [hready, event]
  · exact (CountedOnly.of_counters hec.symm).trans ((takeHead_counted l s).trans (CountedOnly.of_counters hc))

/-- A command that its engine state refuses (R5). -/
theorem takeCommandThen_refused {l : Link} {kind : Byte} {gate : Gate} {body : List Byte} {code : ReplyCode}
    {act : Byte → List Byte → State → Host.Outcome State Fault Refusal} {s : State}
    (hw : Waits s l kind body) (hg : gate.refusal s.engine = some code) (hs : Settled s) :
    ∃ t, takeCommandThen l kind gate act s = .next t ∧ Acted l [refusalPlace (body.headD 0) kind code] s t := by
  refine ⟨_, ?_, Acted.of_pre (u := addReply l (body.headD 0) kind code [] (takeHead l s))
    ((Took.of_takeHead rfl).addPlace _) ((takeHead_only l s).trans (modLink_only _ _ _).mono) (takeHead_counted l s) hs⟩
  unfold takeCommandThen
  rw [head_of_waits hw]
  simp [hg, event]

/-- What an answered command comes to (R165): the state its owner leaves, with the reply in its place, then the end of the event. -/
theorem takeCommand_next {l : Link} {kind : Byte} {gate : Gate} {tag : Byte} {fields : List Byte}
    {owner : List Byte → State → Answer} {s : State} (hw : Waits s l kind (tag :: fields)) (hg : gate.refusal s.engine = none) :
    takeCommand l kind gate owner s = .next (Sys2Proof.Machine.finish (owner fields (takeHead l s)).serve
      (addReply l tag kind (owner fields (takeHead l s)).code (owner fields (takeHead l s)).contents
        (owner fields (takeHead l s)).state)) := by
  unfold takeCommand takeCommandThen
  rw [head_of_waits hw]
  simp [hg, event]

/-- An answered command whose effect stays away from the links, the counters and what settling reads. -/
theorem takeCommand_acted {l : Link} {kind : Byte} {gate : Gate} {tag : Byte} {fields : List Byte}
    {owner : List Byte → State → Answer} {s e : State} {a : Answer} (hw : Waits s l kind (tag :: fields))
    (hg : gate.refusal s.engine = none) (ha : owner fields (takeHead l s) = a) (hserve : a.serve = false)
    (hl : a.state.links = (takeHead l s).links) (hc : a.state.counters = (takeHead l s).counters)
    (he : Only [.links, .counters] e a.state) (hel : e.links = s.links) (hec : e.counters = s.counters) (hs : Settled e) :
    ∃ t, takeCommand l kind gate owner s = .next t ∧
      Acted l [.holding { tag := tag, kind := kind, code := a.code, contents := a.contents }] e t := by
  refine ⟨_, takeCommand_next hw hg, ?_⟩
  rw [ha, hserve]
  refine Acted.of_pre (((Took.of_takeHead hl).congr hel).addPlace _) (he.trans (modLink_only _ _ _).mono) ?_ hs
  exact (CountedOnly.of_counters hec.symm).trans ((takeHead_counted l s).trans (CountedOnly.of_counters hc))

/-- A refusal changes nothing but the links. -/
theorem takeCommand_refuses {l : Link} {kind : Byte} {gate : Gate} {tag : Byte} {fields : List Byte}
    {owner : List Byte → State → Answer} {s : State} {code : ReplyCode} (hw : Waits s l kind (tag :: fields))
    (hg : gate.refusal s.engine = none) (ha : owner fields (takeHead l s) = .refuse code (takeHead l s)) (hs : Settled s) :
    ∃ t, takeCommand l kind gate owner s = .next t ∧ Acted l [refusalPlace tag kind code] s t :=
  takeCommand_acted hw hg ha rfl rfl rfl (takeHead_only l s) rfl rfl hs

end Sys2Proof.Machine
end

