-- ==== Sys2Proof/WellFormed.lean ====
section
/-! DEFINITION. Which commands name a thing the part has: every index lies in the range that 00's table of indices gives it. A
command outside these ranges names nothing, and its meaning finds nothing to act on (log 3). -/

namespace Sys2Proof

/-- An output address of the part: ports 0..7, outputs 0..511 (00, Numbering). -/
def Addr.wf (a : Addr) : Bool := decide (a.port < 8) && decide (a.index < 512)

/-- The index of a command lies in the range of 00's table of indices. -/
def Instr.wf : Instr → Bool
  | .strokeTimerExpiry a | .restTimerExpiry a | .deferralLimitExpiry a | .reiterationDue a => a.wf
  | .holdoverTimerExpiry source => decide (source < 64)
  | .stepTimerExpiry player => decide (player < 8)
  | .phaseTimerExpiry tremulant => decide (tremulant < 8)
  | .stageTimerExpiry chamber => decide (chamber < 4)
  | .currentRising port | .currentFalling port | .detectTimerExpiry port | .offTimerExpiry port => decide (port < 8)
  | .powerOn _ _ _ | .byteArrival _ _ | .interByteTimerExpiry _ | .silenceTimerExpiry _ | .transmitEnd _
  | .fullResetTakesEffect _ | .keyChange _ | .stopChange _ | .tremulantTab _ | .registration _ | .transpose _ | .expression _
  | .go _ | .tempo _ | .specBegin _ | .specDivision _ | .specSource _ | .specStop _ | .specChamber _ | .specTremulant _
  | .specPort _ | .specFigure _ | .specCommit _ | .checkCompletion | .silence _ | .fullReset _ | .linkRelease _
  | .configure _ | .status _ | .countersRead _ | .countersReadAndClear _ | .queryOutput _ | .cueWrite _ | .cueRead _
  | .cueStart _ | .cueSuspend _ | .cueResume _ | .cueAbort _ | .figureStart _ | .figureStop _ | .figureSync _
  | .portRestore _ | .portDisable _ | .unknownKind _ | .supplyDropping | .supplyRising | .dwellTimerExpiry | .takeRecord
  | .waitTimerExpiry => true

end Sys2Proof
end

