-- ==== Sys2Proof/Tests/Slice0.lean ====
section
/-! SUPPORT. The model's own tests. Expected values come from the manual's worked tables and sequences, or from hand calculation by its
rules; each test names its source. The last part shows, for every statement with hypotheses, states that meet them. -/

namespace Sys2Proof.Machine.Tests

-- One theorem after another: the kernel evaluations below would otherwise all run at once.
set_option Elab.async false

/-! ## Small states -/

/-- A small specification: a rank, a percussion with a damper, three traps and a FIGURE-mode trap, a chamber, a tremulant, two figures,
two ports. The lists hold the entries the tests use and no absent ones after them. -/
def tables : Tables where
  divisions := [some 3]
  sources := [some (.rank ⟨36, 37, .off⟩ ⟨0, 0, 3⟩),
    some (.percussion ⟨36, 36, .off⟩ ⟨1, 0, 5⟩ ⟨10, 20⟩ .single (some ⟨⟨1, 10⟩, 2, 40⟩)), some (.trap ⟨1, 20, 6⟩ ⟨12, 0⟩ .single),
    some (.trap ⟨1, 21, 3⟩ ⟨5, 30⟩ (.reiterate 50)), some (.figureTrap 0), some (.trap ⟨0, 20, 2⟩ ⟨5, 10⟩ .hold)]
  stops := [some ⟨0, 0, 0, .first⟩, some ⟨0, 1, 0, .second⟩, some ⟨0, 3, 0, .first⟩, some ⟨0, 4, 0, .first⟩]
  chambers := [some (.enclosed 2 ⟨0, 30, 4⟩ 0 (some 30))]
  tremulants := [some ⟨⟨0, 40, 3⟩, 68, 40⟩]
  ports := [some ⟨12, 500, 20, 30, 2, 1⟩, some ⟨12, 500, 20, 30, 3, 1⟩]
  figures := [some ⟨[2, 3], [⟨20, [0, 1]⟩, ⟨30, [1]⟩], true⟩, some ⟨[2], [⟨15, [0]⟩], false⟩]

/-- A link that is UP with nothing queued. -/
def linkUp : LinkIf := { LinkIf.atPowerOn with state := .up, silenceTimer := some 250 }

/-- An empty registration of the four keys that the tests use. -/
def fourKeys : Registration := { Registration.empty with keys := List.replicate 4 .released }

/-- LOADING with some tables, both links UP and the supply GOOD; the key maps and cue memory are as long as the tests need. -/
def loadingWith (t : Tables) : State :=
  { State.reset with
    store := { engine := .loading, lastCheck := .none, checkBegan := none, tables := t }
    links := { one := linkUp, two := linkUp }
    regs := { one := fourKeys, two := fourKeys }
    supply := { state := .good, dwell := none }
    memory := [] }

/-- LOADING with every entry absent. -/
def loading : State := loadingWith Tables.blank

/-- CHECKING, the check begun at 0, at 1 ms. -/
def checking : State :=
  { loadingWith tables with
    store := { engine := .checking, lastCheck := .none, checkBegan := some 0, tables := tables }
    now := 1 }

/-- READY, the check just passed. -/
def playing : State := finish false (enterReady checking)

/-- A state with a message at the front of a link's queue. -/
def asked (l : Link) (kind : Byte) (body : List Byte) (s : State) : State :=
  s.modLink l fun i => { i with input := { kind := kind, body := body } :: i.input }

/-- The state a command leaves. -/
def after (c : Instr) (s : State) : State :=
  match exec c s with
  | .next t => t
  | .fault _ | .refused _ => s

/-- Whether the event before a state is done, as a computation. -/
def done (s : State) : Bool :=
  decide (s.ports.mapIdx (settlePort s) = s.ports) && [Link.one, .two].all fun l =>
    !decide ((s.link l).transmitter = .idle) || (s.link l).notices.isEmpty && (s.link l).replies.all fun p => p.reply?.isNone

theorem done_of {s : State} (h : done s = true) : Done s := by
  unfold done at h
  simp only [List.all_cons, List.all_nil, Bool.and_true, Bool.and_eq_true, Bool.or_eq_true, Bool.not_eq_true',
    decide_eq_true_eq, decide_eq_false_iff_not, List.isEmpty_iff, List.all_eq_true, Option.isNone_iff_eq_none] at h
  obtain ⟨hs, h1, h2⟩ := h
  have settled : settle s = s := congrArg (fun x : List Port => { s with ports := x }) hs
  refine ⟨settled, fun l hi => ?_⟩
  cases l
  · exact h1.resolve_left fun k => k hi
  · exact h2.resolve_left fun k => k hi

/-- Whether a message waits, as a computation. -/
def waits (s : State) (l : Link) (kind : Byte) (body : List Byte) : Bool :=
  decide ((s.link l).input.head? = some { kind := kind, body := body }) && !(s.link l).resetPending &&
    (Kind.play.contains kind || decide ((s.link l).replies.length < 8))

theorem waits_of {s : State} {l : Link} {kind : Byte} {body : List Byte} (h : waits s l kind body = true) : Waits s l kind body := by
  unfold waits at h
  simp only [Bool.and_eq_true, Bool.or_eq_true, Bool.not_eq_true', decide_eq_true_eq] at h
  obtain ⟨⟨h1, h2⟩, h3⟩ := h
  exact ⟨h1, h2, h3.imp (fun k => by simpa using k) id⟩

/-! ## The manual's worked tables -/

/-- R163: over the nine bytes 0x31 to 0x39 the check is 0x29B1. -/
theorem test_crc_of_the_nine_bytes : crc [0x31, 0x32, 0x33, 0x34, 0x35, 0x36, 0x37, 0x38, 0x39] = 0x29B1#16 := by decide +kernel

/-- 03, Resolution, worked: the Tibia (24..108, TOP) and the glockenspiel (67..74, BOTH), with the raw notes of the tables. -/
theorem test_resolution_worked :
    (resolveNote ⟨24, 108, .top⟩ (rawNote 60 2 24) = some 98 ∧ resolveNote ⟨24, 108, .top⟩ (rawNote 36 2 24) = some 98) ∧
    (resolveNote ⟨24, 108, .top⟩ (rawNote 0 (-6) (-12)) = none ∧ resolveNote ⟨24, 108, .both⟩ (rawNote 0 (-6) (-12)) = some 30) ∧
    (resolveNote ⟨24, 108, .top⟩ (rawNote 63 6 48) = some 105 ∧ resolveNote ⟨24, 108, .off⟩ (rawNote 63 6 48) = none) ∧
    (resolveNote ⟨24, 108, .both⟩ (rawNote 0 (-6) (-24)) = some 30 ∧ resolveNote ⟨24, 108, .top⟩ 109 = some 97) ∧
    (resolveNote ⟨24, 108, .off⟩ 108 = some 108 ∧ resolveNote ⟨24, 108, .both⟩ 23 = some 35) ∧
    (resolveNote ⟨67, 74, .both⟩ 78 = none ∧ resolveNote ⟨67, 74, .both⟩ 80 = some 68) ∧
    (resolveNote ⟨67, 74, .both⟩ 62 = some 74 ∧ resolveNote ⟨67, 74, .both⟩ 64 = none) := by decide +kernel

/-- R96: rows of the tempo table. -/
theorem test_tempo_table :
    (scaledDuration 120 100 = 120 ∧ scaledDuration 120 80 = 150 ∧ scaledDuration 120 200 = 60) ∧
    (scaledDuration 100 67 = 149 ∧ scaledDuration 100 150 = 67 ∧ scaledDuration 15 200 = 10) ∧
    (scaledDuration 10 200 = 10 ∧ scaledDuration 2000 50 = 4000) := by decide +kernel

/-- R105: rows of the tremulant table. -/
theorem test_tremulant_table :
    ((⟨⟨0, 0, 1⟩, 68, 40⟩ : Tremulant).period = 147 ∧ (⟨⟨0, 0, 1⟩, 68, 40⟩ : Tremulant).openTime = 59) ∧
    ((⟨⟨0, 0, 1⟩, 68, 40⟩ : Tremulant).closedTime = 88 ∧ (⟨⟨0, 0, 1⟩, 150, 20⟩ : Tremulant).openTime = 13) ∧
    ((⟨⟨0, 0, 1⟩, 150, 80⟩ : Tremulant).closedTime = 13 ∧ (⟨⟨0, 0, 1⟩, 33, 50⟩ : Tremulant).openTime = 152) := by decide +kernel

/-- R112: rows of the target table. -/
theorem test_target_table :
    (stageTarget 127 16 = 16 ∧ stageTarget 64 16 = 8 ∧ stageTarget 59 16 = 7 ∧ stageTarget 0 16 = 0) ∧
    (stageTarget 100 6 = 5 ∧ stageTarget 40 6 = 2 ∧ stageTarget 13 5 = 1 ∧ stageTarget 12 5 = 0) := by decide +kernel

/-- 07, the lockout window: entries 2000 and 9000 at a window of 10 s, with trips at 11500, 12000 and 13500. -/
theorem test_lockout_window :
    prunedHistory 11500 10 [2000, 9000] = [2000, 9000] ∧ prunedHistory 12000 10 [2000, 9000] = [2000, 9000] ∧
    prunedHistory 13500 10 [2000, 9000] = [9000] := by decide +kernel

/-- The tables of 01, A loading session, worked, with the ports, divisions and xylophone as a commit finds them. -/
def session (port3 : Option PortEntry) (base interval : Nat) (pedal : Option Nat) : Tables :=
  { Tables.blank with
    divisions := (Tables.blank.divisions.set 2 (some 61)).set 3 pedal
    sources := (Tables.blank.sources.set 5 (some (.rank ⟨24, 108, .top⟩ ⟨2, 100, 2⟩))).set 6
      (some (.percussion ⟨53, 89, .off⟩ ⟨2, base, 3⟩ ⟨12, 30⟩ (.reiterate interval) none))
    stops := (Tables.blank.stops.set 10 (some ⟨2, 5, 24, .first⟩)).set 11 (some ⟨3, 6, 0, .first⟩)
    tremulants := Tables.blank.tremulants.set 0 (some ⟨⟨3, 0, 4⟩, 68, 40⟩)
    ports := (Tables.blank.ports.set 2 (some ⟨40, 2500, 20, 500, 3, 10⟩)).set 3 port3 }

/-- 01, A loading session, worked: the five commits. -/
theorem test_loading_session :
    let port : Option PortEntry := some ⟨40, 2500, 20, 500, 3, 10⟩
    checkTables (session none 150 40 none) = some ⟨.noPort, .tremulant, 0⟩ ∧
    checkTables (session port 150 40 none) = some ⟨.overlap, .source, 6⟩ ∧
    checkTables (session port 200 40 none) = some ⟨.badTiming, .source, 6⟩ ∧
    checkTables (session port 200 60 none) = some ⟨.badLink, .stop, 11⟩ ∧
    checkTables (session port 200 60 (some 37)) = none ∧
    (demandTable (session port 200 60 (some 37))).length = 123 := by decide +kernel

/-- The same session's writes, byte by byte from R174's layouts: port 2, division 2, source 6, stop 10. -/
theorem test_session_writes :
    readEntry 8 readPort [2, 1, 0x00, 0x28, 0x09, 0xC4, 20, 0x01, 0xF4, 3, 10] = some ⟨2, some ⟨40, 2500, 20, 500, 3, 10⟩⟩ ∧
    readEntry 6 readDivision [2, 1, 61] = some ⟨2, some 61⟩ ∧
    readEntry 64 readSource [6, 1, 1, 53, 89, 0, 1, 2, 0, 200, 3, 12, 30, 0, 40, 0xFF, 0xFF, 0xFF, 0xFF, 0xFF, 0xFF, 0xFF] =
      some ⟨6, some (.percussion ⟨53, 89, .off⟩ ⟨2, 200, 3⟩ ⟨12, 30⟩ (.reiterate 40) none)⟩ ∧
    readEntry 192 readStop [10, 1, 2, 5, 24, 0] = some ⟨10, some ⟨2, 5, 24, .first⟩⟩ ∧
    readEntry 192 readStop [10, 0] = some ⟨10, none⟩ ∧ readEntry 6 readDivision [2, 1, 65] = none := by decide +kernel

/-! ## Well-formed commands -/

theorem test_wf_output : Instr.wf (.strokeTimerExpiry ⟨7, 511⟩) = true ∧ Instr.wf (.strokeTimerExpiry ⟨8, 0⟩) = false ∧
    Instr.wf (.restTimerExpiry ⟨0, 512⟩) = false ∧ Instr.wf (.deferralLimitExpiry ⟨8, 0⟩) = false ∧
    Instr.wf (.reiterationDue ⟨0, 512⟩) = false := by decide

theorem test_wf_source : Instr.wf (.holdoverTimerExpiry 63) = true ∧ Instr.wf (.holdoverTimerExpiry 64) = false := by decide

theorem test_wf_player : Instr.wf (.stepTimerExpiry 7) = true ∧ Instr.wf (.stepTimerExpiry 8) = false := by decide

theorem test_wf_tremulant : Instr.wf (.phaseTimerExpiry 7) = true ∧ Instr.wf (.phaseTimerExpiry 8) = false := by decide

theorem test_wf_chamber : Instr.wf (.stageTimerExpiry 3) = true ∧ Instr.wf (.stageTimerExpiry 4) = false := by decide

theorem test_wf_port : Instr.wf (.currentRising 7) = true ∧ Instr.wf (.currentRising 8) = false ∧
    Instr.wf (.currentFalling 8) = false ∧ Instr.wf (.detectTimerExpiry 8) = false ∧ Instr.wf (.offTimerExpiry 8) = false := by decide

theorem test_no_word_spells_a_command : decodeTableWord 8 0x41 = none ∧ (State.reset.withFetchWord 8 0x41).pending = [] := by decide

/-! ## One command at a time -/

/-- Stop 0 drawn and key 0 held on Link 1, by hand from R28 and R30. -/
def held : State := after (.keyChange .one) (asked .one 0x01 [0, 1, 0, 1] (after (.stopChange .one) (asked .one 0x02 [1, 0, 1] playing)))

/-- The front reply of a link, by its tag, kind and code. -/
def replied (l : Link) (s : State) : Option (Byte × Byte × ReplyCode) :=
  (s.link l).replies.getLast?.bind fun p =>
    match p with
    | .holding r => some (r.tag, r.kind, r.code)
    | .reserved _ => none

theorem test_power_on : (after (.powerOn .mbit1 true 0x02) playing).supply = { state := .low, dwell := some 101 } ∧
    ((after (.powerOn .mbit1 true 0x02) playing).ports[1]?).map Port.overload = some true := by decide +kernel

theorem test_lead_byte : ((after (.byteArrival .one 0xC5) playing).link .one).receiver = .inFrame none [] 3 := by decide +kernel

theorem test_length_zero_is_bad :
    (after (.byteArrival .one 0) (after (.byteArrival .one 0xC5) playing)).counter (.framesBad .one) = 1 := by decide +kernel

theorem test_frame_cut :
    (after (.interByteTimerExpiry .two) { after (.byteArrival .two 0xC5) playing with now := 3 }).counter (.framesCut .two) = 1 := by
  decide +kernel

theorem test_link_lost : ((after (.silenceTimerExpiry .one) { held with now := 250 }).link .one).state = .down ∧
    ((after (.silenceTimerExpiry .one) { held with now := 250 }).ports[0]?).map Port.load = some 0 := by decide +kernel

/-- A reply of 12 bytes takes 480 microseconds at 250 kbit/s, so it has ended by the next whole millisecond (log 10). -/
theorem test_reply_sent :
    ((after (.transmitEnd .one) (after (.linkRelease .one) (asked .one 0x32 [9] playing))).link .one).replies = [] := by decide +kernel

/-- A part whose Link 1 sends the reply of a FULL RESET. -/
def resetting : State := after (.fullReset .one) (asked .one 0x31 [7] held)

theorem test_full_reset_waits : resetting.engine = .ready ∧ (resetting.link .one).resetPending = true ∧
    replied .one resetting = some (7, 0x31, .ok) := by decide +kernel

theorem test_full_reset_acts : (after (.fullResetTakesEffect .one) resetting).engine = .unconfigured ∧
    (after (.fullResetTakesEffect .one) resetting).cue.stopReason = some .reset ∧
    ((after (.transmitEnd .one) resetting).link .one).state = .up := by decide +kernel

/-- R48, R120: note 36 of the rank is output (0, 0), its load 3. -/
theorem test_key_sounds : held.energized (.output ⟨0, 0⟩) = true ∧ (held.ports[0]?).map Port.load = some 3 := by decide +kernel

theorem test_stop_cancelled :
    (after (.stopChange .one) (asked .one 0x02 [1, 0, 0] held)).energized (.output ⟨0, 0⟩) = false := by decide +kernel

theorem test_tab_opens : ((after (.tremulantTab .one) (asked .one 0x03 [1, 0, 1] playing)).generator 0).phase = .opened 60 := by
  decide +kernel

theorem test_registration : ((after (.registration .two) (asked .two 0x04 [2, 0, 191, 1, 0, 0x80] playing)).reg .two) =
    { fourKeys with stops := [0], tabs := [0], requested := -6, effective := -6 } := by decide +kernel

/-- R33, R34: with a key held the request waits. -/
theorem test_transposition_waits : ((after (.transpose .one) (asked .one 0x05 [9] held)).reg .one).requested = 6 ∧
    ((after (.transpose .one) (asked .one 0x05 [9] held)).reg .one).effective = 0 := by decide +kernel

/-- R113: load 4 fits a budget of 12, and the second stage waits 30 ms. -/
theorem test_pedal_opens : (after (.expression .one) (asked .one 0x06 [0, 200] playing)).shutters =
    { channels := [127, 0, 0, 0], chambers := [⟨1, some 31⟩, ⟨0, none⟩, ⟨0, none⟩, ⟨0, none⟩] } := by decide +kernel

theorem test_go_overrun : (after (.go .one) (asked .one 0x07 [] playing)).counter .goOverruns = 1 := by decide +kernel

theorem test_tempo_clamped : (after (.tempo .two) (asked .two 0x08 [255] playing)).figures.tempo = 200 := by decide +kernel

theorem test_spec_begin : (after (.specBegin .one) (asked .one 0x20 [1, 0] held)).engine = .loading ∧
    (after (.specBegin .one) (asked .one 0x20 [1, 0] held)).table = [] ∧
    (after (.specBegin .one) (asked .one 0x20 [1, 2] held)).engine = .ready := by decide +kernel

theorem test_spec_division : (after (.specDivision .one) (asked .one 0x21 [1, 5, 1, 64] loading)).division 5 = some 64 := by
  decide +kernel

theorem test_spec_source : (after (.specSource .one) (asked .one 0x22 [1, 4, 0] loading)).source 4 = none ∧
    replied .one (after (.specSource .one) (asked .one 0x22 [1, 64, 0] loading)) = some (1, 0x22, .badArgument) := by decide +kernel

theorem test_spec_stop : (after (.specStop .one) (asked .one 0x23 [1, 191, 1, 0, 0, 0xE8, 1] loading)).stop 191 =
    some ⟨0, 0, -24, .second⟩ := by decide +kernel

theorem test_spec_chamber : (after (.specChamber .one) (asked .one 0x24 [1, 3, 1, 0, 0xFF, 0xFF, 0xFF, 0xFF, 0xFF, 0xFF, 0xFF] loading)).chamber 3 =
    some .unenclosed := by decide +kernel

theorem test_spec_tremulant : (after (.specTremulant .one) (asked .one 0x25 [1, 7, 1, 0, 1, 0xFF, 15, 150, 80] loading)).tremulant 7 =
    some ⟨⟨0, 511, 15⟩, 150, 80⟩ := by decide +kernel

theorem test_spec_port : replied .one (after (.specPort .one) (asked .one 0x26 [1, 7, 1, 0x10, 0x00, 1, 0, 20, 1, 0, 3, 1] loading)) =
    some (1, 0x26, .badArgument) := by decide +kernel

theorem test_spec_figure : (after (.specFigure .one) (asked .one 0x27 [1, 15, 1, 1, 2, 1, 0, 10, 1, 0] loading)).figure 15 =
    some ⟨[2], [⟨10, [0]⟩], false⟩ := by decide +kernel

theorem test_spec_commit : (after (.specCommit .two) (asked .two 0x28 [3] loading)).engine = .checking ∧
    ((after (.specCommit .two) (asked .two 0x28 [3] loading)).link .two).replies = [.reserved 3] := by decide +kernel

/-- R51, by hand: rank 2, percussion 1 and damper 1, traps 3, stages 2, valve 1, claim 1. -/
theorem test_check_passes : (after .checkCompletion checking).engine = .ready ∧ (after .checkCompletion checking).table.length = 11 := by
  decide +kernel

theorem test_silence : (after (.silence .two) (asked .two 0x30 [1] held)).energized (.output ⟨0, 0⟩) = false ∧
    ((after (.silence .two) (asked .two 0x30 [1] held)).reg .one).stops = [0] := by decide +kernel

theorem test_link_release : ((after (.linkRelease .one) (asked .one 0x32 [1] held)).reg .one).holdsNoKey = true := by decide +kernel

theorem test_configure : ((after (.configure .one) (asked .one 0x33 [1, 1, 2, 0, 50, 100] playing)).link .one).high = 2 ∧
    replied .one (after (.configure .one) (asked .one 0x33 [1, 2, 2, 0, 50, 100] playing)) = some (1, 0x33, .badArgument) := by
  decide +kernel

theorem test_status_length : playing.statusContents.length = 5 + 8 + 32 + 1 + 7 + 32 + 8 + 8 + 1 := by decide +kernel

theorem test_counters_cleared :
    (after (.countersReadAndClear .one) (asked .one 0x3A [1] (after (.go .two) (asked .two 0x07 [] playing)))).counter .goOverruns = 0 := by
  decide +kernel

/-- R64 on the sounding pipe: RANK 0 note 36 at (0, 0), counts 1, 0, 0, total 1, demand and energized yes, stroke NONE. -/
theorem test_query_output : held.queryContents (.output ⟨0, 0⟩) = [0, 0, 36, 0, 0, 0, 0, 1, 0, 0, 0, 0, 0, 1, 1, 1, 3] := by
  decide +kernel

/-- Cue memory with AWAIT GO at 0, a WAIT of 5 ms at 1, and a STRIKE on trap 2 at 2, in one list. -/
def listed : State :=
  { playing with
    memory := [some ⟨.written, ⟨some 1, .awaitGo, false, true⟩⟩, some ⟨.written, ⟨some 2, .wait 5, false, false⟩⟩,
      some ⟨.written, ⟨none, .strike 2 none, false, false⟩⟩,
      none] }

/-- The list started by Link 1 at record i. -/
def running (i : Byte) : State := after (.cueStart .one) (asked .one 0x42 [1, 0, i] listed)

theorem test_cue_write : (after (.cueWrite .one) (asked .one 0x40 [1, 0, 3, 0xFF, 0xFF, 7, 2, 0, 0, 0, 0x00, 0x64] listed)).memory[3]? =
    some (some ⟨.written, ⟨none, .wait 100, false, true⟩⟩) := by decide +kernel

theorem test_cue_read : cueContents (some ⟨.done, ⟨some 256, .hold 5 none true, true, false⟩⟩) = [2, 1, 0, 2, 1, 5, 0xFF, 1, 0, 0] := by
  decide +kernel

theorem test_cue_start : (running 0).cue.state = .running ∧ (running 0).cue.owner = some .one ∧
    replied .one (running 3) = some (1, 0x42, .notWritten) := by decide +kernel

theorem test_await_go : (after .takeRecord (running 0)).cue.state = .awaiting ∧
    (after (.go .two) (asked .two 0x07 [] (after .takeRecord (running 0)))).cue.lastCompleted = some 0 := by decide +kernel

theorem test_wait : (after .takeRecord (running 1)).cue.state = .timing 6 ∧
    (after .waitTimerExpiry { after .takeRecord (running 1) with now := 6 }).cue.current = some 2 := by decide +kernel

theorem test_strike_record_ends_the_list : (after .takeRecord (running 2)).stroke ⟨1, 20⟩ = some (.striking 13) ∧
    (after .takeRecord (running 2)).cue.stopReason = some .ended := by decide +kernel

theorem test_suspend_and_resume :
    (after (.cueSuspend .two) (asked .two 0x43 [1] { after .takeRecord (running 1) with now := 2 })).cue.state = .suspended (.timing 4) ∧
    (after (.cueResume .two) (asked .two 0x44 [1]
      (after (.cueSuspend .two) (asked .two 0x43 [1] { after .takeRecord (running 1) with now := 2 })))).cue.owner = some .two := by
  decide +kernel

theorem test_abort : (after (.cueAbort .one) (asked .one 0x45 [1] (after .takeRecord (running 1)))).memory[1]? =
    some (some ⟨.aborted, ⟨some 2, .wait 5, false, false⟩⟩) := by decide +kernel

/-- Figure 0 begun by Link 1. -/
def rolling : State := after (.figureStart .one) (asked .one 0x48 [1, 0] playing)

theorem test_figure_start : rolling.playing 0 = some ⟨0, 0, 21, OwnerSet.only (.link .one)⟩ ∧
    rolling.stroke ⟨1, 20⟩ = some (.striking 13) ∧ rolling.stroke ⟨1, 21⟩ = some (.striking 6) := by decide +kernel

theorem test_figure_stop : (after (.figureStop .two) (asked .two 0x49 [1, 0] rolling)).playing 0 = rolling.playing 0 ∧
    (after (.figureStop .one) (asked .one 0x49 [1, 0] rolling)).playing 0 = none := by decide +kernel

theorem test_figure_sync : ((after (.figureSync .one) (asked .one 0x4A [1, 1, 0] { rolling with now := 11 })).playing 0).map (·.expiry) =
    some 31 := by decide +kernel

theorem test_step_timer : ((after (.stepTimerExpiry 0) { rolling with now := 21 }).playing 0).map (·.step) = some 1 ∧
    ((after (.stepTimerExpiry 0) { rolling with now := 21 }).playing 0).map (·.expiry) = some 51 := by decide +kernel

theorem test_stroke_ends : (after (.strokeTimerExpiry ⟨1, 21⟩) { rolling with now := 6 }).stroke ⟨1, 21⟩ = some (.resting 36) ∧
    (after (.strokeTimerExpiry ⟨1, 20⟩) { rolling with now := 13 }).stroke ⟨1, 20⟩ = some .idle := by decide +kernel

theorem test_rest_ends : (after (.restTimerExpiry ⟨1, 21⟩)
    { after (.strokeTimerExpiry ⟨1, 21⟩) { rolling with now := 6 } with now := 36 }).stroke ⟨1, 21⟩ = some .idle := by decide +kernel

/-- Stop 1 drawn and key 0 at level 2, on a port whose 12 units already carry 9 of strokes: the chime's 5 do not fit, and the strike is
queued (R69, R71). -/
def queued : State :=
  after (.keyChange .one) (asked .one 0x01 [0, 1, 0, 2] (after (.stopChange .one) (asked .one 0x02 [1, 1, 1] rolling)))

theorem test_strike_queued : queued.sched.queue = [⟨⟨1, 0⟩, 1⟩] ∧
    (after (.deferralLimitExpiry ⟨1, 0⟩) { queued with now := 31 }).counter .strikesLate = 1 := by decide +kernel

/-- Stroke and rest both served: at 13 the snare's 6 units fall away, and the chime strikes to 23 (R72). -/
theorem test_queue_served : (after (.strokeTimerExpiry ⟨1, 20⟩) { queued with now := 13 }).stroke ⟨1, 0⟩ = some (.striking 23) := by
  decide +kernel

/-- Stop 2, the REITERATE trap, drawn under the key that is held. -/
def reiterating : State := after (.stopChange .one) (asked .one 0x02 [1, 2, 1] held)

theorem test_reiteration : reiterating.sched.reiterations = [⟨⟨1, 21⟩, 51⟩] ∧
    (after (.reiterationDue ⟨1, 21⟩) { reiterating with now := 53 }).sched.reiterations = [⟨⟨1, 21⟩, 101⟩] := by decide +kernel

/-- 04, a chime and its damper: the holdover runs from the last release. -/
def released : State := after (.keyChange .one) (asked .one 0x01 [0, 1, 0, 0] queued)

theorem test_holdover : released.sched.dampers = [⟨1, 0, some 41⟩] ∧ released.damperDemand 1 = true ∧
    (after (.holdoverTimerExpiry 1) { released with now := 41 }).damperDemand 1 = false := by decide +kernel

/-- Tremulant 0 pulsing for Link 1. -/
def pulsing : State := after (.tremulantTab .one) (asked .one 0x03 [1, 0, 1] playing)

theorem test_phase_turns : ((after (.phaseTimerExpiry 0) { pulsing with now := 60 }).generator 0).phase = .closed 148 := by decide +kernel

/-- The pedal opened on Link 1. -/
def opening : State := after (.expression .one) (asked .one 0x06 [0, 127] playing)

theorem test_stage_steps : (after (.stageTimerExpiry 0) { opening with now := 31 }).chamberState 0 = ⟨2, some 61⟩ := by decide +kernel

/-- Port 0 over its threshold. -/
def surge : State := after (.currentRising 0) held

theorem test_current : (surge.ports[0]?).map Port.detect = some (some 21) ∧
    ((after (.currentFalling 0) surge).ports[0]?).map Port.detect = some none := by decide +kernel

/-- Port 0 tripped at 21. -/
def tripped : State := after (.detectTimerExpiry 0) { surge with now := 21 }

theorem test_trip : (tripped.ports[0]?).map (fun pt : Port => (pt.state, pt.off, pt.history, pt.load)) = some (.tripped, some 51, [21], 0) ∧
    ((after (.offTimerExpiry 0) { tripped with now := 51 }).ports[0]?).map (fun pt : Port => (pt.state, pt.load)) = some (.active, 3) := by
  decide +kernel

theorem test_port_restore : ((after (.portRestore .two) (asked .two 0x50 [1, 0] tripped)).ports[0]?).map Port.history = some [] := by
  decide +kernel

theorem test_port_disable : ((after (.portDisable .one) (asked .one 0x51 [1, 0] held)).ports[0]?).map Port.state = some .off := by
  decide +kernel

/-- The supply dropped under strokes. -/
def dropped : State := after .supplyDropping rolling

theorem test_supply_drops : dropped.stroke ⟨1, 21⟩ = some (.resting 31) ∧ (dropped.ports[1]?).map Port.load = some 0 := by decide +kernel

theorem test_supply_returns : (after .supplyRising dropped).supply.dwell = some 101 ∧
    (after .dwellTimerExpiry { after .supplyRising dropped with now := 101 }).supply = ⟨.good, none⟩ := by decide +kernel

theorem test_unknown_kind : replied .one (after (.unknownKind .one) (asked .one 0x52 [4] playing)) = some (4, 0x52, .unknownKind) ∧
    replied .one (after (.unknownKind .one) (asked .one 0x80 [] playing)) = some (0, 0x80, .unknownKind) := by decide +kernel

theorem test_counters_read : State.reset.counterContents = List.replicate 128 0 := by decide +kernel

theorem test_empty_queue_waits : State.reset.ownEvents = [] ∧ (tick State.reset).now = 1 := by decide +kernel

/-! ## Witnesses: states and operands that meet the hypotheses of each statement, clause by clause -/

/-- Every command answers a next state. -/
theorem exec_next (c : Instr) (s : State) : ∃ t, exec c s = .next t := by
  rcases exec_finishes c s with h | ⟨serve, u, h⟩
  · exact ⟨s, h⟩
  · exact ⟨_, h⟩

/-- Every step answers a next state. -/
theorem step_next (s : State) : ∃ t, step s = .next t := by
  unfold step
  split
  · exact exec_next _ _
  · split
    · exact exec_next _ _
    · exact ⟨_, rfl⟩

theorem restOutsideReady_of {s : State} (h : s.engine = .ready) : RestOutsideReady s :=
  ⟨fun k => absurd h k, fun k => absurd h k, fun k => absurd h k, fun k => absurd h k, fun k => absurd h k, fun k => absurd h k,
    fun k => absurd h k, fun k => absurd h k⟩

/-- Whether every stroke record has its times and its output, as a computation. -/
def timed (s : State) : Bool := s.table.all fun r =>
  decide (r.stroke = none) || (s.strikeTimes r).isSome && (match r.target with | .output _ => true | .claim _ => false)

theorem strokesTimed_of {s : State} (h : timed s = true) : StrokesTimed s := by
  intro r hr hk
  have k := List.all_eq_true.1 h r hr
  simp only [hk, decide_false, Bool.false_or, Bool.and_eq_true] at k
  refine ⟨k.1, ?_⟩
  cases ht : r.target with
  | output a => exact ⟨a, rfl⟩
  | claim i => rw [ht] at k; cases k.2

/-- Whether the players meet R89's law, as a computation. -/
def lawful (s : State) : Bool := (List.range s.figures.players.length).all fun p =>
  match s.playing p with
  | none => true
  | some a => !a.owners.isEmpty && (List.range s.figures.players.length).all fun q =>
    match s.playing q with
    | none => true
    | some b => decide (p = q) || decide (a.figure ≠ b.figure)

theorem playing_lt {s : State} {p : Nat} {a : Run} (h : s.playing p = some a) : p < s.figures.players.length := by
  unfold State.playing at h
  by_contra hn
  rw [List.getElem?_eq_none (by omega)] at h
  cases h

theorem playerLaw_of {s : State} (h : lawful s = true) : PlayerLaw s := by
  have k : ∀ p a, s.playing p = some a → (!a.owners.isEmpty) = true ∧ ∀ q b, s.playing q = some b → a.figure = b.figure → p = q := by
    intro p a ha
    have h1 := List.all_eq_true.1 h p (List.mem_range.2 (playing_lt ha))
    rw [ha] at h1
    simp only [Bool.and_eq_true] at h1
    refine ⟨h1.1, fun q b hb e => ?_⟩
    have h2 := List.all_eq_true.1 h1.2 q (List.mem_range.2 (playing_lt hb))
    rw [hb] at h2
    simp only [Bool.or_eq_true, decide_eq_true_eq] at h2
    exact h2.resolve_right fun n => n e
  exact ⟨fun p q a b ha hb e => (k p a ha).2 q b hb e, fun p a ha => by simpa using (k p a ha).1⟩

/-- LOADING with whole registrations and cue memory. -/
def fullLoading : State := { loading with regs := State.reset.regs, memory := State.reset.memory }

theorem rest_fullLoading : RestOutsideReady fullLoading :=
  ⟨fun _ => rfl, fun _ => ⟨rfl, rfl, rfl⟩, fun _ p hp => List.eq_of_mem_replicate hp, fun _ g hg => List.eq_of_mem_replicate hg,
    fun _ c hc => List.eq_of_mem_replicate hc, fun _ pt hp => by rw [List.eq_of_mem_replicate hp]; rfl,
    fun _ l => by cases l <;> rfl, fun _ => rfl⟩

theorem rest_asked {s : State} (h : RestOutsideReady s) (l : Link) (kind : Byte) (body : List Byte) :
    RestOutsideReady (asked l kind body s) := by
  obtain ⟨h1, h2, h3, h4, h5, h6, h7, h8⟩ := h
  exact ⟨h1, h2, h3, h4, h5, h6, h7, h8⟩

/-- A part on which Link 1 sends something, begun at 1 and at its end at 2: 25 bytes take 1 ms at 250 kbit/s. -/
def sending (what : Sending) (replies : List Place) (s : State) : State :=
  { s.modLink .one fun i => { i with transmitter := .sending what (List.replicate 25 0) 1, replies := replies } with now := 2 }

theorem witness_StepRunsTheCommandAtTheFront :
    ({ playing with pending := [.go .one, .takeRecord] } : State).pending = .go .one :: [.takeRecord] := rfl

theorem witness_StepOnAnEmptyQueueRunsADueEventOrPassesTime :
    (held.pending = [] ∧ ∃ rest, ({ surge with now := 21 } : State).ownEvents = .detectTimerExpiry 0 :: rest) ∧
    (State.reset.pending = [] ∧ State.reset.ownEvents = []) := by
  refine ⟨⟨by decide +kernel, List.head?_eq_some_iff.1 (by decide +kernel)⟩, by decide +kernel⟩

theorem witness_EveryStepKeepsTheEnergizedLaw : ∃ t, step held = .next t ∧ EnergizedLaw held ∧ LoadLaw held := by
  have h : Done held := done_of (by decide +kernel)
  obtain ⟨t, ht⟩ := step_next held
  exact ⟨t, ht, h.settled.energizedLaw, h.settled.loadLaw⟩

theorem witness_EveryStepLeavesTheEventDone : ∃ t, step held = .next t ∧ Done held := by
  obtain ⟨t, ht⟩ := step_next held
  exact ⟨t, ht, done_of (by decide +kernel)⟩

/-- A strike queued at 1, at the last moment of its deferral limit of 30 ms. -/
theorem witness_EveryStepKeepsTheStrikeQueueLaw :
    ∃ t, step { queued with now := 31 } = .next t ∧ StrikeQueueLaw { queued with now := 31 } := by
  obtain ⟨t, ht⟩ := step_next { queued with now := 31 }
  exact ⟨t, ht, by decide +kernel, by decide +kernel, by decide +kernel⟩

theorem witness_CountersNeverDecreaseExceptToZero :
    ∃ s t, Settled s ∧ exec (.countersReadAndClear .one) s = .next t ∧ s.counters[0]?.getD 0 = 4294967295 := by
  have h : Done held := done_of (by decide +kernel)
  obtain ⟨t, ht⟩ := exec_next (.countersReadAndClear .one) { held with counters := List.replicate 32 4294967295 }
  refine ⟨_, t, h.settled.of_only ?_, ht, rfl⟩
  intro f hf
  cases f <;> first | rfl | simp at hf

theorem witness_EveryStepKeepsTheCueIdleLaw : ∃ t, step rolling = .next t ∧ CueIdleLaw rolling := by
  obtain ⟨t, ht⟩ := step_next rolling
  refine ⟨t, ht, by decide +kernel, by decide +kernel, fun _ run hr => ?_, by decide +kernel⟩
  have k : (rolling.figures.players.all fun p => match p with | some r => !r.owners.cue | none => true) = true := by decide +kernel
  simpa using List.all_eq_true.1 k _ hr

theorem claimsShaped_of {s : State} (targets : TargetsDistinct s) (keys : ∀ l, (s.reg l).keys.length = 384)
    (stops : ∀ l, (s.reg l).stops.Nodup) (divisions : s.store.tables.divisions = [some 3]) : ClaimsShaped s := by
  refine ⟨targets, keys, stops, by rw [divisions]; decide, fun d n hd => ?_⟩
  unfold State.division at hd
  rw [divisions] at hd
  rcases d with _ | d <;> simp at hd
  omega

/-- A key held under a drawn stop, the key maps with their 384 places. -/
def claiming : State :=
  { held with regs := { one := { held.reg .one with keys := (held.reg .one).keys ++ List.replicate 380 .released },
                        two := Registration.empty } }

theorem claiming_meets : RestOutsideReady claiming ∧ ClaimsShaped claiming ∧ ClaimLaw claiming :=
  ⟨restOutsideReady_of (by decide +kernel),
    claimsShaped_of (by unfold TargetsDistinct; decide +kernel) (fun l => by cases l <;> decide +kernel) (fun l => by cases l <;> decide +kernel) rfl,
    fun l => by cases l <;> decide +kernel⟩

theorem witness_EveryStepKeepsTheTranspositionAndClaimLaws :
    (∃ t, step playing = .next t ∧ TranspositionLaw playing) ∧
    (∃ t, step claiming = .next t ∧ RestOutsideReady claiming ∧ ClaimsShaped claiming ∧ ClaimLaw claiming) ∧
    claiming.standing .one (.output ⟨0, 0⟩) = 1 := by
  obtain ⟨t, ht⟩ := step_next playing
  obtain ⟨u, hu⟩ := step_next claiming
  exact ⟨⟨t, ht, fun l => by cases l <;> decide +kernel⟩, ⟨u, hu, claiming_meets⟩, by decide +kernel⟩

theorem witness_EveryStepKeepsTheFigurePlayerLaw : ∃ t, step rolling = .next t ∧ PlayerLaw rolling := by
  obtain ⟨t, ht⟩ := step_next rolling
  exact ⟨t, ht, playerLaw_of (by decide +kernel)⟩

/-- A port TRIPPED once, which is one short of its lockout count of 2, with records in cue memory. -/
def ranged : State := { tripped with memory := listed.memory }

theorem ranged_inRanges : InRanges ranged where
  links l := by cases l <;> exact ⟨by decide +kernel, by decide +kernel, by decide +kernel, by decide +kernel, by decide +kernel⟩
  transpositions l := by cases l <;> decide +kernel
  drawn := ⟨by decide +kernel, fun l => by cases l <;> decide +kernel⟩
  tabs l := by cases l <;> decide +kernel
  cueCounts := by decide +kernel
  channels := by decide +kernel
  tempo := by decide +kernel
  steps := by
    have k : (ranged.store.tables.figures.all fun f => match f with | some f => decide (f.steps.length ≤ 32) | none => true) = true ∧
        (ranged.figures.players.all fun r => match r with | some r => decide (r.step < 32) | none => true) = true := by decide +kernel
    exact ⟨fun f hf => by simpa using List.all_eq_true.1 k.1 _ hf, fun r hr => by simpa using List.all_eq_true.1 k.2 _ hr⟩
  deferral := by decide +kernel
  strikes := by decide +kernel
  reiterations := by decide +kernel
  memory c hc := by
    change some c ∈ [_, _, _, none] at hc
    simp only [List.mem_cons, List.not_mem_nil, or_false, Option.some.injEq, reduceCtorEq] at hc
    rcases hc with rfl | rfl | rfl <;> simp [CueBody.InRange, Action.InRange]
  record := by decide +kernel
  runCount := by decide +kernel

theorem ranged_playRanges : PlayRanges ranged where
  stages c := by
    have k : ((List.range 4).all fun c => decide ((ranged.chamberState c).current ≤ ranged.stages c)) = true ∧
        ranged.shutters.chambers.length = 4 := by decide +kernel
    by_cases h : c < 4
    · exact of_decide_eq_true (List.all_eq_true.1 k.1 c (List.mem_range.2 h))
    · have e : ranged.shutters.chambers[c]? = none := List.getElem?_eq_none (by omega)
      simp [State.chamberState, e]
  lockouts p e h := by
    have k : ranged.store.tables.ports = [some ⟨12, 500, 20, 30, 2, 1⟩, some ⟨12, 500, 20, 30, 3, 1⟩] := rfl
    unfold State.portEntry at h
    rw [k] at h
    rcases p with _ | _ | p <;> simp at h <;> subst h <;> decide
  histories p pt h := by
    have k : (ranged.ports.mapIdx fun p (pt : Port) => decide (pt.history.length ≤ 1) &&
        (match ranged.portEntry p with | some e => decide (1 < e.lockout) | none => true)).all id = true := by decide +kernel
    have m := List.all_eq_true.1 k _ (List.mem_iff_getElem?.2 ⟨p, by rw [List.getElem?_mapIdx, h]; rfl⟩)
    simp only [id_eq, Bool.and_eq_true, decide_eq_true_eq] at m
    refine ⟨by omega, fun _ e he => ?_⟩
    rw [he] at m
    have := of_decide_eq_true m.2
    omega

theorem witness_EveryStepKeepsTheListedRanges :
    ∃ t, step ranged = .next t ∧ InRanges ranged ∧ RestOutsideReady ranged ∧ PlayRanges ranged := by
  obtain ⟨t, ht⟩ := step_next ranged
  exact ⟨t, ht, ranged_inRanges, restOutsideReady_of (by decide +kernel), ranged_playRanges⟩

theorem witness_EveryStepKeepsADownLinkEmpty : ∃ t, step State.reset = .next t ∧ DownLaw State.reset := by
  obtain ⟨t, ht⟩ := step_next State.reset
  exact ⟨t, ht, fun l => by cases l <;> decide +kernel, fun l _ => by cases l <;> decide +kernel, fun l _ => by cases l <;> decide +kernel⟩

theorem pulsing_tremulantLaw : TremulantLaw pulsing := by
  have tabs : pulsing.store.tables.tremulants = [some ⟨⟨0, 40, 3⟩, 68, 40⟩] := rfl
  have here : (pulsing.generator 0).phase = .opened 60 ∧ pulsing.demanded 0 = true := by decide +kernel
  have off : ((List.range 8).all fun j => decide (j = 0) || decide ((pulsing.generator j).phase = .off)) = true ∧
      pulsing.generators.length = 8 := by decide +kernel
  constructor
  · intro j x hx _
    unfold State.tremulant at hx
    rw [tabs] at hx
    rcases j with _ | j
    · rw [here.1, here.2]; simp
    · simp at hx
  · intro j hj
    by_cases h : j < 8
    · have k := List.all_eq_true.1 off.1 j (List.mem_range.2 h)
      simp only [Bool.or_eq_true, decide_eq_true_eq] at k
      refine k.resolve_left fun e => ?_
      subst e
      unfold State.tremulant at hj
      rw [tabs] at hj
      cases hj
    · have e : pulsing.generators[j]? = none := List.getElem?_eq_none (by omega)
      simp [State.generator, e]

theorem witness_EveryStepKeepsTheRestOutsideReady :
    (∃ t, step queued = .next t ∧ RestOutsideReady queued ∧ TargetsDistinct queued ∧ StrokesTimed queued) ∧
    (∃ t, step fullLoading = .next t ∧ RestOutsideReady fullLoading ∧ TargetsDistinct fullLoading ∧ StrokesTimed fullLoading) ∧
    (∃ t, step pulsing = .next t ∧ RestOutsideReady pulsing ∧ TremulantLaw pulsing ∧ pulsing.demanded 0 = true) := by
  obtain ⟨t, ht⟩ := step_next queued
  obtain ⟨u, hu⟩ := step_next fullLoading
  obtain ⟨v, hv⟩ := step_next pulsing
  exact ⟨⟨t, ht, restOutsideReady_of (by decide +kernel), by unfold TargetsDistinct; decide +kernel, strokesTimed_of (by decide +kernel)⟩,
    ⟨u, hu, rest_fullLoading, List.nodup_nil, strokesTimed_of rfl⟩,
    ⟨v, hv, restOutsideReady_of (by decide +kernel), pulsing_tremulantLaw, by decide +kernel⟩⟩

theorem witness_EngineAndTablesChangeOnlyAsTheManualSays : ∃ t, exec .checkCompletion checking = .next t := exec_next _ _

theorem witness_CueMemoryIsKeptByEveryOtherCommand :
    ∃ c s t, exec c s = .next t ∧ (∀ l, c ≠ .cueWrite l ∧ c ≠ .go l ∧ c ≠ .cueResume l ∧ c ≠ .cueAbort l) ∧ c ≠ .takeRecord ∧
      c ≠ .waitTimerExpiry ∧ ∀ rate supplyUp overs, c ≠ .powerOn rate supplyUp overs := by
  obtain ⟨t, ht⟩ := exec_next (.silence .one) (asked .one 0x30 [1] (running 0))
  exact ⟨_, _, t, ht, by simp, by simp, by simp, by simp⟩

theorem witness_ALinksMessagesLeaveTheOtherRegistration :
    ∃ c s t, c ∈ [.keyChange .one, .stopChange .one, .tremulantTab .one, .registration .one, .transpose .one, .linkRelease .one] ∧
      exec c s = .next t := by
  obtain ⟨t, ht⟩ := exec_next (.keyChange .one) (asked .one 0x01 [0, 1, 0, 1] held)
  exact ⟨_, _, t, by simp, ht⟩

theorem witness_FoldingDownReachesTheHighestOctaveInTheCompass :
    (((⟨36, 47, .top⟩ : Compass).high : Int) < 48 ∧ (⟨36, 47, .top⟩ : Compass).fold ≠ .off ∧ 36 + 11 ≤ 47) ∧
    ((⟨36, 46, .off⟩ : Compass).high : Int) < 47 := by decide

theorem witness_FoldingUpReachesTheLowestOctaveInTheCompass :
    ((35 : Int) ≤ 47 ∧ (35 : Int) < ((⟨36, 47, .both⟩ : Compass).low : Int)) ∧ (⟨36, 47, .top⟩ : Compass).fold ≠ .both := by decide

theorem witness_ResolutionReachesTheOutputOfTheNote :
    (playing.source (⟨0, 0, 0, .first⟩ : Stop).source = some (.rank ⟨36, 37, .off⟩ ⟨0, 0, 3⟩) ∧
      playing.resolve ⟨0, 0, 0, .first⟩ 1 0 = some (.output ⟨0, 1⟩) ∧ ((37 : Nat) : Int) = 36 + (1 : Nat) + 0 + 0) ∧
    (∃ k m d, playing.source 1 = some (.percussion ⟨36, 36, .off⟩ ⟨1, 0, 5⟩ k m d)) ∧
    playing.source 2 = some (.trap ⟨1, 20, 6⟩ ⟨12, 0⟩ .single) ∧ playing.source 4 = some (.figureTrap 0) := by
  refine ⟨by decide +kernel, ⟨⟨10, 20⟩, .single, some ⟨⟨1, 10⟩, 2, 40⟩, ?_⟩, ?_, ?_⟩ <;> decide +kernel

theorem witness_PulseTimesTargetsAndScaledDurationsKeepTheirBounds :
    (20 ≤ (⟨⟨0, 0, 1⟩, 20, 80⟩ : Tremulant).rate ∧ (⟨⟨0, 0, 1⟩, 150, 20⟩ : Tremulant).rate ≤ 150) ∧ 127 ≤ 127 ∧ 16 ≤ 16 ∧
    10 ≤ 10 ∧ 2000 ≤ 2000 ∧ 50 ≤ 50 ∧ 200 ≤ 200 := by decide

theorem witness_CueRecordBytesReadBackToTheRecord :
    511 < 512 ∧ (⟨some 511, .hold 63 (some 127) true, true, true⟩ : CueBody).InRange ∧
    (⟨none, .wait 60000, false, false⟩ : CueBody).InRange := by
  simp [CueBody.InRange, Action.InRange]

theorem witness_AFrameIsReceivedAsTheMessageItWasBuiltFrom :
    (playing.link .one).receiver = .hunting ∧ (List.replicate 251 (0xC5 : Byte)).length ≤ 251 := by decide +kernel

theorem witness_AKeysChangeOfLevelMovesTheCounts : ∃ r, held.record (.output ⟨0, 0⟩) = some r :=
  Option.isSome_iff_exists.1 (by decide +kernel)

/-- The strike queue full, with entries for other outputs. -/
def crowded : State :=
  { rolling with sched := { rolling.sched with queue := (List.range 64).map fun i => ⟨⟨1, 100 + i⟩, 1⟩ } }

theorem witness_AStrikeRequestEndsInOneOfFourWays :
    (playing.timesAt ⟨1, 0⟩ = some ⟨10, 20⟩ ∧ playing.stroke ⟨1, 0⟩ = some .idle ∧ playing.loadFits 1 5 = true) ∧
    (dropped.timesAt ⟨1, 0⟩ = some ⟨10, 20⟩ ∧ dropped.supply.state = .low) ∧
    (queued.timesAt ⟨1, 0⟩ = some ⟨10, 20⟩ ∧ ∃ e ∈ queued.sched.queue, e.out = ⟨1, 0⟩) ∧
    (crowded.timesAt ⟨1, 20⟩ = some ⟨12, 0⟩ ∧ 64 ≤ crowded.sched.queue.length ∧ crowded.stroke ⟨1, 20⟩ = some (.striking 13)) ∧
    (rolling.timesAt ⟨1, 20⟩ = some ⟨12, 0⟩ ∧ rolling.sched.queue.length < 64 ∧ rolling.stroke ⟨1, 20⟩ = some (.striking 13)) := by
  refine ⟨?_, ?_, ⟨?_, ⟨⟨1, 0⟩, 1⟩, ?_, rfl⟩, ?_, ?_⟩ <;> decide +kernel

/-- A link with some notices waiting. -/
def noticed (ns : List Notice) : State := playing.modLink .one fun i => { i with notices := ns }

theorem witness_ANoticeJoinsDisplacesOrIsDiscarded :
    (State.reset.link .one).state = .down ∧
    (((noticed (List.replicate 15 .hold)).link .one).state = .up ∧ ((noticed (List.replicate 15 .hold)).link .one).notices.length < 16) ∧
    (((noticed (.hold :: List.replicate 15 .supplyGood)).link .one).notices = [.hold] ++ .supplyGood :: List.replicate 14 .supplyGood ∧
      (∀ x ∈ [Notice.hold], x.urgent = true) ∧ Notice.supplyGood.urgent = false ∧ Notice.supplyLow.urgent = true) ∧
    ((∀ x ∈ ((noticed (List.replicate 16 .hold)).link .one).notices, x.urgent = true) ∧
      ((noticed (List.replicate 16 .hold)).link .one).notices.length = 16) := by
  refine ⟨?_, ⟨?_, ?_⟩, ⟨?_, ?_, ?_, ?_⟩, ?_, ?_⟩ <;> decide +kernel

theorem witness_AnIdleTransmitterBeginsTheOldestReplyOrNotice :
    ((sending (.notice .hold) [] playing).link .one).transmitter ≠ .idle ∧
    (((playing.modLink .one fun i => { i with replies := [.reserved 1, okPlace 2 0x39 []] }).link .one).replies =
        [.reserved 1] ++ okPlace 2 0x39 [] :: [] ∧ ∀ p ∈ [Place.reserved 1], ∃ tag, p = .reserved tag) ∧
    ((∀ p ∈ ((noticed [.hold]).link .one).replies, ∃ tag, p = .reserved tag) ∧ ((noticed [.hold]).link .one).notices = .hold :: []) ∧
    ((playing.link .one).transmitter = .idle ∧ (∀ p ∈ (playing.link .one).replies, ∃ tag, p = .reserved tag) ∧
      (playing.link .one).notices = []) := by
  have e : (playing.link .one).replies = [] := by decide +kernel
  have f : ((noticed [.hold]).link .one).replies = [] := by decide +kernel
  refine ⟨by decide +kernel, ⟨by decide +kernel, by simp⟩, ⟨?_, by decide +kernel⟩, by decide +kernel, ?_, by decide +kernel⟩
  · rw [f]; simp
  · rw [e]; simp

/-- A link's receiver inside a frame. -/
def receiving (length : Option Nat) (got : List Byte) : State :=
  playing.modLink .one fun i => { i with receiver := .inFrame length got 3 }

theorem witness_TheReceiverHuntsAssemblesAndDropsBadOrCutFrames :
    (Done playing ∧ (playing.link .one).receiver = .hunting) ∧
    (Done (receiving none []) ∧ ((receiving none []).link .one).receiver = .inFrame none [] 3 ∧ 252 < (253 : Byte).toNat ∧
      (1 : Byte).toNat = 1 ∧ (252 : Byte).toNat ≤ 252) ∧
    (Done (receiving (some 1) [9]) ∧ ([9] : List Byte).length + 1 < 1 + 2) ∧
    (Done (receiving (some 1) [9, 0]) ∧ [9, 0] ++ [(0 : Byte)] = 9 :: [] ++ [0, 0] ∧
      number2 0 0 ≠ (crc (byteOf 1 :: 9 :: [])).toNat) ∧
    ((receiving none []).link .one).receiver = .inFrame none [] 3 ∧ 3 ≤ ({ receiving none [] with now := 3 } : State).now := by
  refine ⟨⟨done_of ?_, ?_⟩, ⟨done_of ?_, ?_, ?_, ?_, ?_⟩, ⟨done_of ?_, ?_⟩, ⟨done_of ?_, ?_, ?_⟩, ?_, ?_⟩ <;> decide +kernel

/-- The last byte of a frame of one kind byte is due, with its first check byte in. -/
def lastByte (kind : Byte) (s : State) : State :=
  s.modLink .one fun i => { i with receiver := .inFrame (some 1) (kind :: (checkBytes [1, kind]).take 1) 3 }

/-- Sixty-four messages wait on Link 1. -/
def full : State := playing.modLink .one fun i => { i with input := List.replicate 64 { kind := 0x07, body := [] }, flow := .held }

theorem witness_AGoodFrameBringsItsLinkUpAndJoinsTheQueue :
    let b := ((checkBytes [1, 0x07]).drop 1).headD 0
    let got := (0x07 : Byte) :: (checkBytes [1, 0x07]).take 1
    (Done (lastByte 0x07 playing) ∧ ((lastByte 0x07 playing).link .one).receiver = .inFrame (some 1) got 3 ∧
      got ++ [b] = 0x07 :: [] ++ checkBytes (byteOf 1 :: 0x07 :: [])) ∧
    (Done (lastByte 0x07 full) ∧ 64 ≤ ((lastByte 0x07 full).link .one).input.length) ∧
    (Done (lastByte 0x07 State.reset) ∧ ((lastByte 0x07 State.reset).link .one).state = .down) := by
  refine ⟨⟨done_of ?_, ?_, ?_⟩, ⟨done_of ?_, ?_⟩, done_of ?_, ?_⟩ <;> decide +kernel

/-- A list of Link 1 waits, and its silence timer is out; the key maps have their 384 places. -/
def losing : State := { after .takeRecord (running 1) with now := 250, regs := State.reset.regs }

/-- A tab of Link 1 is a tremulant's sole claimant, and the link's silence timer is out. -/
def pulsingLost : State :=
  { pulsing with now := 250, regs := { one := { Registration.empty with tabs := [0] }, two := Registration.empty } }

theorem witness_TheLossOfALinkTearsDownWhatItHeld :
    (Done losing ∧ (losing.link .one).silenceTimer = some 250 ∧ 250 ≤ losing.now ∧ (losing.link .one).resetPending = false ∧
      (losing.reg .one).keys.length = 384 ∧ losing.cue.owner = some .one ∧ losing.cue.state ≠ .idle) ∧
    ((losing.link .two).silenceTimer = some 250 ∧ losing.cue.owner ≠ some .two) ∧
    ((losing.link .two).state = .up ∧ (losing.link .two).transmitter = .idle) ∧
    (Done { claiming with now := 250 } ∧ RestOutsideReady { claiming with now := 250 } ∧ ClaimsShaped { claiming with now := 250 } ∧
      ClaimLaw { claiming with now := 250 } ∧ (claiming.record (.output ⟨0, 0⟩)).map (·.linkCount .one) = some 1) ∧
    (Done pulsingLost ∧ (pulsingLost.reg .one).keys.length = 384 ∧ pulsingLost.demanded 0 = true ∧
      (after (.silenceTimerExpiry .one) pulsingLost).demanded 0 = false) := by
  obtain ⟨⟨h1, h2, h3, h4, h5, h6, h7, h8⟩, ⟨k1, k2, k3, k4⟩, law⟩ := claiming_meets
  refine ⟨⟨done_of ?_, ?_, ?_, ?_, ?_, ?_, ?_⟩, ⟨?_, ?_⟩, ⟨?_, ?_⟩,
    ⟨done_of ?_, ⟨h1, h2, h3, h4, h5, h6, h7, h8⟩, ⟨k1, k2, k3, k4⟩, law, ?_⟩, done_of ?_, ?_, ?_, ?_⟩ <;>
    decide +kernel

theorem witness_TheEndOfAFrameFreesItsPlaceAndBeginsTheNext :
    Done (sending (.notice .hold) [] playing) ∧ (sending (.notice .hold) [] playing).sendingReset .one = false ∧
    ((sending (.notice .hold) [] playing).link .one).transmitter = .sending (.notice .hold) (List.replicate 25 0) 1 ∧
    1 + lineTime (sending (.notice .hold) [] playing).rate (List.replicate 25 (0 : Byte)).length / 1000 ≤ 2 := by
  refine ⟨done_of ?_, ?_, ?_, ?_⟩ <;> decide +kernel

/-- Link 1 sends the reply of its FULL RESET. -/
def resetSending : State :=
  (sending (.reply 0) [okPlace 7 0x31 []] playing).modLink .one fun i => { i with resetPending := true }

/-- Link 1 waits to send the reply of its FULL RESET behind a notice, and its silence timer is out. -/
def resetLosing : State :=
  { (sending (.notice .hold) [okPlace 7 0x31 []] playing).modLink .one fun i => { i with resetPending := true } with now := 250 }

theorem witness_AFullResetTakingEffectLeavesThePowerOnValues :
    ((resetSending.link .one).resetPending = true ∧
      (resetSending.link .one).transmitter = .sending (.reply 0) (List.replicate 25 0) 1 ∧
      (resetSending.link .one).replies[0]? = some (.holding { tag := 7, kind := 0x31, code := .ok, contents := [] }) ∧
      1 + lineTime resetSending.rate (List.replicate 25 (0 : Byte)).length / 1000 ≤ resetSending.now) ∧
    ((resetLosing.link .one).resetPending = true ∧ (resetLosing.link .one).silenceTimer = some 250 ∧ 250 ≤ resetLosing.now ∧
      resetLosing.sendingReset .one = false) ∧
    ((resetSending.link .one).silenceTimer = some 250 ∧ 250 ≤ ({ resetSending with now := 250 } : State).now ∧
      ({ resetSending with now := 250 } : State).sendingReset .one = true) := by
  refine ⟨⟨?_, ?_, ?_, ?_⟩, ⟨?_, ?_, ?_, ?_⟩, ?_, ?_, ?_⟩ <;> decide +kernel

theorem witness_FullResetIsAnsweredBeforeItActsAndUnknownKindsAreRefused :
    (Done (asked .one 0x31 [7] playing) ∧ Waits (asked .one 0x31 [7] playing) .one 0x31 [7]) ∧
    (Done (asked .one 0x31 [7, 0] playing) ∧ Waits (asked .one 0x31 [7, 0] playing) .one 0x31 (7 :: 0 :: [])) ∧
    (Done (asked .one 0x52 [] playing) ∧ Waits (asked .one 0x52 [] playing) .one 0x52 [] ∧ Kind.unknown 0x52 = true) := by
  refine ⟨⟨done_of ?_, waits_of ?_⟩, ⟨done_of ?_, waits_of ?_⟩, done_of ?_, waits_of ?_, ?_⟩ <;> decide +kernel

theorem witness_PlayIsDiscardedOutsideReadyOrWhenMalformed :
    (Done (asked .one 0x07 [] loading) ∧ Waits (asked .one 0x07 [] loading) .one 0x07 [] ∧ (asked .one 0x07 [] loading).engine ≠ .ready) ∧
    (Done (asked .one 0x01 [0, 17] playing) ∧ Waits (asked .one 0x01 [0, 17] playing) .one 0x01 [0, 17] ∧
      (asked .one 0x01 [0, 17] playing).engine = .ready ∧ (readKeyChange [0, 17]).isNone = true) := by
  refine ⟨⟨done_of ?_, waits_of ?_, ?_⟩, done_of ?_, waits_of ?_, ?_, ?_⟩ <;> decide +kernel

/-- Sixteen entries. -/
def sixteen : List (Byte × Byte) := (List.range 16).map fun i => (byteOf i, 1)

theorem witness_KeyChangeSetsTheLevelsOfTheKeysThatExist :
    let body := sixteen.flatMap fun e => [e.1, e.2]
    Done (asked .one 0x01 (0 :: 16 :: body) held) ∧ (asked .one 0x01 (0 :: 16 :: body) held).engine = .ready ∧
    Waits (asked .one 0x01 (0 :: 16 :: body) held) .one 0x01 (0 :: 16 :: body) ∧ pairsOf body = some sixteen ∧
    sixteen.length = (16 : Byte).toNat ∧ 1 ≤ sixteen.length ∧ sixteen.length ≤ 16 := by
  refine ⟨done_of ?_, ?_, waits_of ?_, ?_, ?_, ?_, ?_⟩ <;> decide +kernel

theorem witness_StopChangeAndTremulantTabSetMembership :
    (Done (asked .one 0x02 [2, 0, 0, 191, 1] held) ∧ (asked .one 0x02 [2, 0, 0, 191, 1] held).engine = .ready ∧
      pairsOf [0, 0, 191, 1] = some [(0, 0), (191, 1)] ∧ Waits (asked .one 0x02 [2, 0, 0, 191, 1] held) .one 0x02 [2, 0, 0, 191, 1]) ∧
    (Done (asked .one 0x03 [2, 0, 1, 8, 1] held) ∧ pairsOf [0, 1, 8, 1] = some [(0, 1), (8, 1)] ∧
      Waits (asked .one 0x03 [2, 0, 1, 8, 1] held) .one 0x03 [2, 0, 1, 8, 1]) := by
  refine ⟨⟨done_of ?_, ?_, ?_, waits_of ?_⟩, done_of ?_, ?_, waits_of ?_⟩ <;> decide +kernel

theorem witness_RegistrationReplacesTheLinksRegistration :
    let body : List Byte := [2, 1, 191, 1, 8, 0x80]
    Done (asked .one 0x04 body held) ∧ (asked .one 0x04 body held).engine = .ready ∧ Waits (asked .one 0x04 body held) .one 0x04 body ∧
    readRegistration body = some { stops := [1, 191], tabs := [8], transposition := -128 } ∧
    (∀ i ∈ ((asked .one 0x04 body held).reg .one).stops, ((asked .one 0x04 body held).stop i).isSome) ∧
    (∀ j ∈ ((asked .one 0x04 body held).reg .one).tabs, j < 8) ∧
    (playing.demanded 0 = false ∧ (after (.registration .one) (asked .one 0x04 [0, 1, 0, 0] playing)).demanded 0 = true) ∧
    (pulsing.demanded 0 = true ∧ (after (.registration .one) (asked .one 0x04 [0, 0, 0] pulsing)).demanded 0 = false) := by
  refine ⟨done_of ?_, ?_, waits_of ?_, ?_, ?_, ?_, ⟨?_, ?_⟩, ?_, ?_⟩ <;> decide +kernel

theorem witness_TransposeAndTempoAreClampedAndSet :
    (Done (asked .one 0x05 [0x80] held) ∧ (asked .one 0x05 [0x80] held).engine = .ready ∧
      Waits (asked .one 0x05 [0x80] held) .one 0x05 [0x80]) ∧
    (Done (asked .one 0x08 [255] held) ∧ Waits (asked .one 0x08 [255] held) .one 0x08 [255]) := by
  refine ⟨⟨done_of ?_, ?_, waits_of ?_⟩, done_of ?_, waits_of ?_⟩ <;> decide +kernel

/-- Port 0 is disabled. -/
def shut : State := after (.portDisable .one) (asked .one 0x51 [1, 0] playing)

theorem witness_ExpressionWritesItsChannelAndStepsTheChambers :
    (Done (asked .one 0x06 [4, 0] playing) ∧ (asked .one 0x06 [4, 0] playing).engine = .ready ∧
      Waits (asked .one 0x06 [4, 0] playing) .one 0x06 [4, 0] ∧ (asked .one 0x06 [4, 0] playing).shutters.chambers.length = 4 ∧
      (asked .one 0x06 [4, 0] playing).shutters.channels.length = 4 ∧ 4 ≤ (4 : Byte).toNat) ∧
    (Done (asked .one 0x06 [0, 255] playing) ∧ Waits (asked .one 0x06 [0, 255] playing) .one 0x06 [0, 255] ∧
      (asked .one 0x06 [0, 255] playing).chamber 0 = some (.enclosed 2 ⟨0, 30, 4⟩ 0 (some 30)) ∧
      stageTarget ((asked .one 0x06 [0, 255] playing).channel 0) 2 = 0 ∧ stageTarget 127 2 = 2 ∧
      (asked .one 0x06 [0, 255] playing).chamberState 0 = ⟨0, none⟩) ∧
    (∃ pt e, (asked .one 0x06 [0, 255] playing).ports[0]? = some pt ∧ (asked .one 0x06 [0, 255] playing).portEntry 0 = some e ∧
      pt.state = .active ∧ (asked .one 0x06 [0, 255] playing).supply.state = .good ∧ pt.load + 4 ≤ e.budget) ∧
    (Done (asked .one 0x06 [0, 255] shut) ∧ Waits (asked .one 0x06 [0, 255] shut) .one 0x06 [0, 255] ∧
      ∀ pt, (asked .one 0x06 [0, 255] shut).ports[0]? = some pt → pt.state ≠ .active) := by
  have fits : ((asked .one 0x06 [0, 255] playing).ports[0]?).any (fun pt : Port => decide (pt.state = .active) && decide (pt.load = 0)) =
      true := by decide +kernel
  have off : ((asked .one 0x06 [0, 255] shut).ports[0]?).all (fun pt : Port => decide (pt.state ≠ .active)) = true := by decide +kernel
  obtain ⟨pt, hp, hf⟩ := Option.any_eq_true _ _ |>.1 fits
  simp only [Bool.and_eq_true, decide_eq_true_eq] at hf
  refine ⟨⟨done_of ?_, ?_, waits_of ?_, ?_, ?_, ?_⟩, ⟨done_of ?_, waits_of ?_, ?_, ?_, ?_, ?_⟩,
    ⟨pt, ⟨12, 500, 20, 30, 2, 1⟩, hp, ?_, hf.1, ?_, by rw [hf.2]; decide⟩, done_of ?_, waits_of ?_, fun pt hp => by
      rw [hp] at off; exact of_decide_eq_true off⟩ <;> decide +kernel

theorem witness_CommandsAreRefusedByTheEngineState :
    (Done (asked .one 0x40 [] checking) ∧ checking.engine = .checking ∧ Waits (asked .one 0x40 [] checking) .one 0x40 []) ∧
    (Done (asked .one 0x21 [5] playing) ∧ playing.engine = .ready ∧ Waits (asked .one 0x21 [5] playing) .one 0x21 [5]) ∧
    (Done (asked .one 0x30 [5] loading) ∧ loading.engine = .loading ∧ Waits (asked .one 0x30 [5] loading) .one 0x30 [5]) := by
  refine ⟨⟨done_of ?_, ?_, waits_of ?_⟩, ⟨done_of ?_, ?_, waits_of ?_⟩, done_of ?_, ?_, waits_of ?_⟩ <;> decide +kernel

theorem witness_ASpecWriteReplacesItsOwnEntryAlone :
    let at_ (kind : Byte) (fields : List Byte) := asked .one kind (1 :: fields) fullLoading
    (Done (at_ 0x21 [5, 1, 64]) ∧ RestOutsideReady (at_ 0x21 [5, 1, 64]) ∧ (at_ 0x21 [5, 1, 64]).engine = .loading ∧
      Waits (at_ 0x21 [5, 1, 64]) .one 0x21 (1 :: [5, 1, 64])) ∧
    (readEntry 6 readDivision [5, 1, 64] = some ⟨5, some 64⟩ ∧ readEntry 6 readDivision [6, 0] = none) ∧
    (readEntry 64 readSource [63, 0] = some ⟨63, none⟩ ∧ readEntry 64 readSource [64, 0] = none) ∧
    (readEntry 192 readStop [191, 0] = some ⟨191, none⟩ ∧ readEntry 192 readStop [192, 0] = none) ∧
    (readEntry 4 readChamber [3, 0] = some ⟨3, none⟩ ∧ readEntry 4 readChamber [4, 0] = none) ∧
    (readEntry 8 readTremulant [7, 0] = some ⟨7, none⟩ ∧ readEntry 8 readTremulant [8, 0] = none) ∧
    (readEntry 8 readPort [7, 0] = some ⟨7, none⟩ ∧ readEntry 8 readPort [8, 0] = none) ∧
    (readEntry 16 readFigure [15, 0] = some ⟨15, none⟩ ∧ readEntry 16 readFigure [16, 0] = none) := by
  refine ⟨⟨done_of ?_, rest_asked rest_fullLoading _ _ _, ?_, waits_of ?_⟩, ?_, ?_, ?_, ?_, ?_, ?_, ?_⟩ <;> decide +kernel

theorem witness_SpecBeginOpensALoadingSession :
    (Done (asked .one 0x20 [1, 2] playing) ∧ Waits (asked .one 0x20 [1, 2] playing) .one 0x20 [1, 2] ∧ 2 ≤ (2 : Byte).toNat) ∧
    (Done (asked .one 0x20 [1, 1] fullLoading) ∧ Waits (asked .one 0x20 [1, 1] fullLoading) .one 0x20 [1, 1] ∧
      (asked .one 0x20 [1, 1] fullLoading).engine ≠ .checking ∧ (asked .one 0x20 [1, 1] fullLoading).engine ≠ .ready ∧
      RestOutsideReady (asked .one 0x20 [1, 1] fullLoading)) ∧
    (Done (asked .one 0x20 [1, 0] (running 0)) ∧ Waits (asked .one 0x20 [1, 0] (running 0)) .one 0x20 [1, 0] ∧
      (asked .one 0x20 [1, 0] (running 0)).engine = .ready ∧ (asked .one 0x20 [1, 0] (running 0)).cue.state ≠ .idle) := by
  refine ⟨⟨done_of ?_, waits_of ?_, ?_⟩, ⟨done_of ?_, waits_of ?_, ?_, ?_, rest_asked rest_fullLoading _ _ _⟩, done_of ?_, waits_of ?_,
    ?_, ?_⟩ <;> decide +kernel

theorem witness_SpecCommitBeginsTheCheckAndReservesAPlace :
    (Done (asked .one 0x28 [1] fullLoading) ∧ RestOutsideReady (asked .one 0x28 [1] fullLoading) ∧
      (asked .one 0x28 [1] fullLoading).engine = .loading ∧ Waits (asked .one 0x28 [1] fullLoading) .one 0x28 [1]) ∧
    Waits (asked .one 0x28 [1, 0] fullLoading) .one 0x28 (1 :: 0 :: []) := by
  refine ⟨⟨done_of ?_, rest_asked rest_fullLoading _ _ _, ?_, waits_of ?_⟩, waits_of ?_⟩ <;> decide +kernel

/-- CHECKING at its shortest time, with some tables. -/
def fullChecking (t : Tables) : State :=
  { fullLoading with store := { engine := .checking, lastCheck := .none, checkBegan := some 0, tables := t }, now := 1 }

theorem rest_fullChecking (t : Tables) : RestOutsideReady (fullChecking t) := by
  obtain ⟨h1, h2, h3, h4, h5, h6, h7, h8⟩ := rest_fullLoading
  have k : fullLoading.engine ≠ .ready := by decide
  exact ⟨fun _ => h1 k, fun _ => h2 k, fun _ => h3 k, fun _ => h4 k, fun _ => h5 k, fun _ => h6 k, fun _ => h7 k, fun _ => h8 k⟩

/-- A part whose first channel stands fully open. -/
def pedalDown (s : State) : State := { s with shutters := { s.shutters with channels := s.shutters.channels.set 0 127 } }

theorem witness_TheCheckEndsInReadyOrInLoading :
    (Done (fullChecking tables) ∧ RestOutsideReady (fullChecking tables) ∧ (fullChecking tables).engine = .checking ∧
      (fullChecking tables).store.checkBegan = some 0 ∧ 0 + 1 ≤ (fullChecking tables).now ∧ checkTables tables = none) ∧
    (0 < (pedalDown (fullChecking tables)).shutters.chambers.length ∧ Done (pedalDown (fullChecking tables)) ∧
      RestOutsideReady (pedalDown (fullChecking tables)) ∧
      (pedalDown (fullChecking tables)).chamber 0 = some (.enclosed 2 ⟨0, 30, 4⟩ 0 (some 30)) ∧
      0 < stageTarget ((pedalDown (fullChecking tables)).channel 0) 2 ∧ (pedalDown (fullChecking tables)).supply.state = .good ∧
      ((pedalDown (fullChecking tables)).ports[0]?).isSome ∧
      (pedalDown (fullChecking tables)).portEntry 0 = some ⟨12, 500, 20, 30, 2, 1⟩ ∧ 0 + 4 ≤ 12) ∧
    (stageTarget ((fullChecking tables).channel 0) 2 = 0 ∧
      Done { pedalDown (fullChecking tables) with supply := { state := .low, dwell := none } }) ∧
    (Done (fullChecking { tables with ports := [] }) ∧ checkTables { tables with ports := [] } = some ⟨.noPort, .source, 0⟩) := by
  obtain ⟨h1, h2, h3, h4, h5, h6, h7, h8⟩ := rest_fullChecking tables
  refine ⟨⟨done_of ?_, rest_fullChecking _, ?_, ?_, ?_, ?_⟩, ⟨?_, done_of ?_, ⟨h1, h2, h3, h4, h5, h6, h7, h8⟩, ?_, ?_, ?_, ?_, ?_, ?_⟩,
    ⟨?_, done_of ?_⟩, done_of ?_, ?_⟩ <;> decide +kernel

/-- The list of Link 1 has set the Cue demand flag of tremulant 0. -/
def flagged : State :=
  after .takeRecord { running 0 with memory := [some ⟨.written, ⟨some 1, .tremulant 0 true, false, false⟩⟩, none] }

theorem witness_SilenceStopsEverySoundAndKeepsTheRegistrations :
    (Done (asked .one 0x30 [1] queued) ∧ StrokesTimed (asked .one 0x30 [1] queued) ∧ (asked .one 0x30 [1] queued).engine = .ready ∧
      Waits (asked .one 0x30 [1] queued) .one 0x30 [1] ∧ (asked .one 0x30 [1] queued).cue.state = .idle) ∧
    (Done (asked .one 0x30 [1] (running 0)) ∧ StrokesTimed (asked .one 0x30 [1] (running 0)) ∧
      Waits (asked .one 0x30 [1] (running 0)) .one 0x30 [1] ∧ (asked .one 0x30 [1] (running 0)).cue.state ≠ .idle) ∧
    (((running 0).link .two).state = .up ∧ ((running 0).link .two).transmitter = .idle ∧ ((running 0).link .one).state = .up) ∧
    (Done flagged ∧ flagged.demanded 0 = true ∧ (after (.silence .two) (asked .two 0x30 [1] flagged)).demanded 0 = false) := by
  refine ⟨⟨done_of ?_, strokesTimed_of ?_, ?_, waits_of ?_, ?_⟩, ⟨done_of ?_, strokesTimed_of ?_, waits_of ?_, ?_⟩, ⟨?_, ?_, ?_⟩,
    done_of ?_, ?_, ?_⟩ <;> decide +kernel

theorem witness_LinkReleaseAndConfigureActOnTheSendingLink :
    (Done (asked .one 0x32 [1] held) ∧ Waits (asked .one 0x32 [1] held) .one 0x32 [1] ∧ (asked .one 0x32 [1] held).engine = .ready) ∧
    (losing.reg .one).keys.length = 384 ∧
    (Done (asked .one 0x32 [1] loading) ∧ Waits (asked .one 0x32 [1] loading) .one 0x32 [1] ∧
      (asked .one 0x32 [1] loading).engine = .loading) ∧
    (Done (asked .one 0x33 [1, 63, 64, 0x07, 0xD0, 5] queued) ∧
      Waits (asked .one 0x33 [1, 63, 64, 0x07, 0xD0, 5] queued) .one 0x33 (1 :: [63, 64, 0x07, 0xD0, 5]) ∧
      (asked .one 0x33 [1, 63, 64, 0x07, 0xD0, 5] queued).engine ≠ .checking ∧
      readConfigure [63, 64, 0x07, 0xD0, 5] = some ⟨63, 64, 2000, 5⟩ ∧ readConfigure [63, 65, 0x07, 0xD0, 5] = none) := by
  refine ⟨⟨done_of ?_, waits_of ?_, ?_⟩, ?_, ⟨done_of ?_, waits_of ?_, ?_⟩, done_of ?_, waits_of ?_, ?_, ?_, ?_⟩ <;> decide +kernel

/-- READY as no run reaches it, with tables and no records. -/
def bare : State := { loadingWith tables with store := { (loadingWith tables).store with engine := .ready } }

theorem witness_ReadingReportsTheStateAndChangesNothing :
    (Done (asked .one 0x38 [1] held) ∧ Waits (asked .one 0x38 [1] held) .one 0x38 [1]) ∧
    (Done (asked .one 0x39 [1] held) ∧ Waits (asked .one 0x39 [1] held) .one 0x39 [1]) ∧
    (Done (asked .one 0x3A [1] held) ∧ Waits (asked .one 0x3A [1] held) .one 0x3A [1]) ∧
    (Done (asked .one 0x3B [1, 0, 7, 1, 255] held) ∧ (asked .one 0x3B [1, 0, 7, 1, 255] held).engine = .ready ∧
      Waits (asked .one 0x3B [1, 0, 7, 1, 255] held) .one 0x3B (1 :: [0, 7, 1, 255]) ∧
      readQuery [0, 7, 1, 255] = some (.output ⟨7, 511⟩) ∧ (asked .one 0x3B [1, 0, 7, 1, 255] held).record (.output ⟨7, 511⟩) = none) ∧
    (readQuery [0, 0, 0, 0] = some (.output ⟨0, 0⟩) ∧ ∃ r, held.record (.output ⟨0, 0⟩) = some r) ∧
    (readQuery [1, 4] = some (.claim 4) ∧ held.source 4 = some (.figureTrap 0) ∧ ∃ r, held.record (.claim 4) = some r) ∧
    (Done (asked .one 0x3B [1, 1, 4] bare) ∧ Waits (asked .one 0x3B [1, 1, 4] bare) .one 0x3B (1 :: [1, 4]) ∧
      bare.engine = .ready ∧ bare.source 4 = some (.figureTrap 0) ∧ bare.record (.claim 4) = none) ∧
    (readQuery [1, 63] = some (.claim 63) ∧ held.source 63 = none) ∧ readQuery [0, 8, 0, 0] = none := by
  refine ⟨⟨done_of ?_, waits_of ?_⟩, ⟨done_of ?_, waits_of ?_⟩, ⟨done_of ?_, waits_of ?_⟩, ⟨done_of ?_, ?_, waits_of ?_, ?_, ?_⟩,
    ⟨?_, Option.isSome_iff_exists.1 ?_⟩, ⟨?_, ?_, Option.isSome_iff_exists.1 ?_⟩, ⟨done_of ?_, waits_of ?_, ?_, ?_, ?_⟩, ?_, ?_⟩ <;>
    decide +kernel

/-- The list suspended while it was RUNNING, TIMING and AWAITING. -/
def suspended (sub : SubState) (go : Bool) : State :=
  { running 1 with cue := { (running 1).cue with state := .suspended sub, pendingGo := go } }

theorem witness_GoAndCueSuspendActByTheUnitState :
    (Done (asked .one 0x07 [] playing) ∧ Waits (asked .one 0x07 [] playing) .one 0x07 [] ∧ (asked .one 0x07 [] playing).engine = .ready ∧
      (asked .one 0x07 [] playing).cue.state = .idle) ∧
    (Done (asked .one 0x07 [] (suspended .running true)) ∧ Waits (asked .one 0x07 [] (suspended .running true)) .one 0x07 [] ∧
      (suspended .running true).cue.pendingGo = true) ∧
    (Done (asked .one 0x07 [] (running 0)) ∧ Waits (asked .one 0x07 [] (running 0)) .one 0x07 [] ∧ (running 0).cue.pendingGo = false) ∧
    (Done (asked .two 0x43 [1] (running 0)) ∧ Waits (asked .two 0x43 [1] (running 0)) .two 0x43 [1] ∧
      (asked .two 0x43 [1] (running 0)).engine ≠ .checking ∧ (running 0).cue.state = .running) ∧
    ((after .takeRecord (running 1)).cue.state = .timing 6 ∧ (after .takeRecord (running 0)).cue.state = .awaiting) ∧
    (Done (asked .two 0x43 [1] playing) ∧ Waits (asked .two 0x43 [1] playing) .two 0x43 [1] ∧ playing.cue.state = .idle) ∧
    (Done (asked .two 0x43 [1] checking) ∧ Waits (asked .two 0x43 [1] checking) .two 0x43 [1] ∧ checking.engine = .checking) ∧
    Waits (asked .two 0x43 [1, 0] (running 0)) .two 0x43 (1 :: 0 :: []) := by
  refine ⟨⟨done_of ?_, waits_of ?_, ?_, ?_⟩, ⟨done_of ?_, waits_of ?_, ?_⟩, ⟨done_of ?_, waits_of ?_, ?_⟩,
    ⟨done_of ?_, waits_of ?_, ?_, ?_⟩, ⟨?_, ?_⟩, ⟨done_of ?_, waits_of ?_, ?_⟩, ⟨done_of ?_, waits_of ?_, ?_⟩, waits_of ?_⟩ <;>
    decide +kernel

/-- The list at record 3, which is EMPTY, and at a STRIKE on an absent source. -/
def atEmpty : State := { running 0 with cue := { (running 0).cue with current := some 3 } }
def atAbsent : State := { running 0 with memory := [some ⟨.written, ⟨none, .strike 63 none, false, false⟩⟩] }

/-- The list of Link 1 with other records in cue memory, every one WRITTEN. -/
def reading (records : List CueBody) : State := { running 0 with memory := records.map fun b => some ⟨.written, b⟩ }

/-- STRIKE on trap 2, and on to record 1. -/
def struck : State := reading [⟨some 1, .strike 2 none, false, false⟩]

/-- FIGURE STOP of figure 0, which the list itself started, and on to record 0. -/
def figured : State := after .takeRecord (reading [⟨some 1, .figure 0 true, false, false⟩, ⟨some 0, .figure 0 false, false, false⟩])

/-- STRIKE on trap 2 with INDICATE, after a number of records of one run. -/
def signalled (n : Nat) : State :=
  let s := reading [⟨some 1, .strike 2 none, false, true⟩]
  { s with cue := { s.cue with runCount := n } }

/-- A record that brings the run count to 64 tells CUE DONE and then CUE STOPPED with RUNAWAY (R149, R150, R155). -/
theorem test_runaway_tells_both : ((after .takeRecord (signalled 63)).link .two).notices = [.cueStopped .runaway (some 0)] ∧
    (match ((after .takeRecord (signalled 63)).link .two).transmitter with
      | .sending (.notice n) _ _ => decide (n = .cueDone 0)
      | .sending (.reply _) _ _ | .idle => false) = true := by decide +kernel

/-- STRIKE on trap 2 as the 64th record of one run. -/
def ran : State := { struck with cue := { struck.cue with runCount := 63 } }

theorem witness_TheRunningUnitTakesItsRecord :
    (Done atEmpty ∧ atEmpty.cue.state = .running ∧ atEmpty.cue.current = some 3 ∧ atEmpty.memory[3]? = some none) ∧
    (Done atAbsent ∧ atAbsent.cue.current = some 0 ∧ atAbsent.memory[0]? = some (some ⟨.written, ⟨none, .strike 63 none, false, false⟩⟩) ∧
      atAbsent.referencesHold (.strike 63 none) = false) ∧
    (Done (running 1) ∧ (running 1).cue.current = some 1 ∧ (running 1).memory[1]? = some (some ⟨.written, ⟨some 2, .wait 5, false, false⟩⟩)) ∧
    (Done (running 0) ∧ (running 0).memory[0]? = some (some ⟨.written, ⟨some 1, .awaitGo, false, true⟩⟩) ∧ (running 0).cue.pendingGo = false) ∧
    (Done (running 2) ∧ (running 2).cue.current = some 2 ∧
      (running 2).memory[2]? = some (some ⟨.written, ⟨none, .strike 2 none, false, false⟩⟩) ∧
      (running 2).referencesHold (.strike 2 none) = true) ∧
    (Done struck ∧ struck.memory[0]? = some (some ⟨.written, ⟨some 1, .strike 2 none, false, false⟩⟩) ∧
      struck.cueTarget 2 none = some (.output ⟨1, 20⟩) ∧ (after .takeRecord struck).cue.state ≠ .idle) ∧
    (Done figured ∧ figured.cue.state = .running ∧ figured.cue.current = some 1 ∧
      figured.memory[1]? = some (some ⟨.written, ⟨some 0, .figure 0 false, false, false⟩⟩) ∧
      figured.referencesHold (.figure 0 false) = true ∧ figured.playing 0 = some ⟨0, 0, 21, ⟨false, true, false, false⟩⟩ ∧
      PlayerLaw figured ∧ (after .takeRecord figured).cue.state ≠ .idle) ∧
    ((running 2).link .two).state = .up ∧ ((running 2).link .two).transmitter = .idle ∧
    ((after .takeRecord (running 2)).completionNotices 2 ⟨none, .strike 2 none, false, false⟩ = [.cueStopped .ended (some 2)] ∧
      (after .takeRecord (signalled 63)).completionNotices 0 ⟨some 1, .strike 2 none, false, true⟩ =
        [.cueDone 0, .cueStopped .runaway (some 0)]) ∧
    (Done ran ∧ ran.cue.state = .running ∧ 64 ≤ ran.cue.runCount + 1 ∧ ran.referencesHold (.strike 2 none) = true) := by
  refine ⟨⟨done_of ?_, ?_, ?_, ?_⟩, ⟨done_of ?_, ?_, ?_, ?_⟩, ⟨done_of ?_, ?_, ?_⟩, ⟨done_of ?_, ?_, ?_⟩, ⟨done_of ?_, ?_, ?_, ?_⟩,
    ⟨done_of ?_, ?_, ?_, ?_⟩, ⟨done_of ?_, ?_, ?_, ?_, ?_, ?_, playerLaw_of ?_, ?_⟩, ?_, ?_, ⟨?_, ?_⟩, done_of ?_, ?_, ?_, ?_⟩ <;>
    decide +kernel

theorem witness_AWaitingRecordCompletesAtItsTimerItsGoOrItsResume :
    (Done { after .takeRecord (running 1) with now := 6 } ∧ (after .takeRecord (running 1)).cue.state = .timing 6 ∧
      (after .takeRecord (running 1)).cue.current = some 1 ∧
      (after .takeRecord (running 1)).memory[1]? = some (some ⟨.written, ⟨some 2, .wait 5, false, false⟩⟩)) ∧
    (Done (asked .two 0x07 [] (after .takeRecord (running 0))) ∧ Waits (asked .two 0x07 [] (after .takeRecord (running 0))) .two 0x07 [] ∧
      (after .takeRecord (running 0)).cue.state = .awaiting ∧ (after .takeRecord (running 0)).engine = .ready) ∧
    (Done (asked .two 0x44 [1] (suspended (.timing 0) false)) ∧ Waits (asked .two 0x44 [1] (suspended (.timing 0) false)) .two 0x44 [1] ∧
      (suspended (.timing 0) false).cue.state = .suspended (.timing 0)) ∧
    (Done (asked .two 0x44 [1] (suspended .awaiting true)) ∧ Waits (asked .two 0x44 [1] (suspended .awaiting true)) .two 0x44 [1] ∧
      (suspended .awaiting true).cue.pendingGo = true) := by
  refine ⟨⟨done_of ?_, ?_, ?_, ?_⟩, ⟨done_of ?_, waits_of ?_, ?_, ?_⟩, ⟨done_of ?_, waits_of ?_, ?_⟩, done_of ?_, waits_of ?_, ?_⟩ <;>
    decide +kernel

/-- CUE WRITE of a WAIT of 1 ms at record x. -/
def writing (x : Byte) : List Byte := [0, x, 0xFF, 0xFF, 7, 0, 0, 0, 0, 0, 1]

theorem witness_CueRecordsAreWrittenAndRead :
    (Done (asked .one 0x40 (1 :: writing 0) (running 0)) ∧ Waits (asked .one 0x40 (1 :: writing 0) (running 0)) .one 0x40 (1 :: writing 0) ∧
      (asked .one 0x40 (1 :: writing 0) (running 0)).engine ≠ .checking ∧
      readCueWrite (writing 0) = some ⟨0, ⟨none, .wait 1, false, false⟩⟩ ∧ (running 0).cue.state ≠ .idle ∧
      (running 0).cue.current = some 0) ∧
    ((running 0).cue.current ≠ some 1 ∧ readCueWrite (writing 1) = some ⟨1, ⟨none, .wait 1, false, false⟩⟩) ∧ readCueWrite [2, 0] = none ∧
    (Done (asked .one 0x41 [1, 2, 0] listed) ∧ Waits (asked .one 0x41 [1, 2, 0] listed) .one 0x41 [1, 2, 0] ∧ 512 ≤ number2 2 0) ∧
    (number2 1 255 < 512 ∧ State.reset.memory[number2 1 255]? = some none) ∧
    (Waits (asked .one 0x41 [1, 2] listed) .one 0x41 (1 :: [2]) ∧ ([2] : List Byte).length ≠ 2) := by
  refine ⟨⟨done_of ?_, waits_of ?_, ?_, ?_, ?_, ?_⟩, ?_, ?_, ⟨done_of ?_, waits_of ?_, ?_⟩, ?_, waits_of ?_, ?_⟩ <;> decide +kernel

theorem witness_CueStartResumeAndAbortMoveTheUnit :
    (Done (asked .one 0x42 [1, 2, 0] listed) ∧ Waits (asked .one 0x42 [1, 2, 0] listed) .one 0x42 [1, 2, 0] ∧ 512 ≤ number2 2 0) ∧
    (Done (asked .one 0x42 [1, 1, 255] loading) ∧ Waits (asked .one 0x42 [1, 1, 255] loading) .one 0x42 [1, 1, 255] ∧
      number2 1 255 < 512 ∧ loading.engine ≠ .ready) ∧
    (Done (asked .one 0x42 [1, 0, 0] (running 0)) ∧ Waits (asked .one 0x42 [1, 0, 0] (running 0)) .one 0x42 [1, 0, 0] ∧
      (running 0).cue.state ≠ .idle) ∧
    (Done (asked .one 0x42 [1, 0, 3] listed) ∧ Waits (asked .one 0x42 [1, 0, 3] listed) .one 0x42 [1, 0, 3] ∧
      listed.memory[3]? = some none) ∧
    (Done (asked .one 0x42 [1, 0, 2] listed) ∧ Waits (asked .one 0x42 [1, 0, 2] listed) .one 0x42 [1, 0, 2] ∧
      listed.memory[2]? = some (some ⟨.written, ⟨none, .strike 2 none, false, false⟩⟩) ∧ listed.cue.state = .idle) ∧
    (Done (asked .two 0x44 [1] (suspended (.timing 1) false)) ∧ Waits (asked .two 0x44 [1] (suspended (.timing 1) false)) .two 0x44 [1] ∧
      (asked .two 0x44 [1] (suspended (.timing 1) false)).engine ≠ .checking) ∧
    (Done (asked .two 0x45 [1] (running 0)) ∧ Waits (asked .two 0x45 [1] (running 0)) .two 0x45 [1] ∧ (running 0).cue.state.waiting = false) ∧
    (Done (asked .two 0x45 [1] (after .takeRecord (running 1))) ∧
      Waits (asked .two 0x45 [1] (after .takeRecord (running 1))) .two 0x45 [1] ∧
      (after .takeRecord (running 1)).cue.state.waiting = true) := by
  refine ⟨⟨done_of ?_, waits_of ?_, ?_⟩, ⟨done_of ?_, waits_of ?_, ?_, ?_⟩, ⟨done_of ?_, waits_of ?_, ?_⟩, ⟨done_of ?_, waits_of ?_, ?_⟩,
    ⟨done_of ?_, waits_of ?_, ?_, ?_⟩, ⟨done_of ?_, waits_of ?_, ?_⟩, ⟨done_of ?_, waits_of ?_, ?_⟩, done_of ?_, waits_of ?_, ?_⟩ <;>
    decide +kernel

/-- Every player runs some other figure. -/
def busyPlayers : State :=
  { playing with figures := { playing.figures with
      players := (List.range 8).map fun p => some ⟨p + 2, 0, 100, OwnerSet.only .cue⟩ } }

theorem witness_FigureCommandsStartStopAndRestartPlayers :
    (Done (asked .one 0x48 [1, 16] playing) ∧ PlayerLaw playing ∧ Waits (asked .one 0x48 [1, 16] playing) .one 0x48 [1, 16] ∧
      16 ≤ (16 : Byte).toNat ∧ playing.figure 15 = none) ∧
    (Done (asked .one 0x48 [1, 0] rolling) ∧ PlayerLaw (asked .one 0x48 [1, 0] rolling) ∧ (asked .one 0x48 [1, 0] rolling).engine = .ready ∧
      Waits (asked .one 0x48 [1, 0] rolling) .one 0x48 [1, 0] ∧
      (asked .one 0x48 [1, 0] rolling).playing 0 = some ⟨0, 0, 21, OwnerSet.only (.link .one)⟩) ∧
    (Done (asked .one 0x48 [1, 1] busyPlayers) ∧ PlayerLaw (asked .one 0x48 [1, 1] busyPlayers) ∧
      Waits (asked .one 0x48 [1, 1] busyPlayers) .one 0x48 [1, 1] ∧ busyPlayers.idlePlayer = none ∧ busyPlayers.playerOf 1 = none) ∧
    (Done (asked .one 0x48 [1, 1] rolling) ∧ Waits (asked .one 0x48 [1, 1] rolling) .one 0x48 [1, 1] ∧ rolling.playing 1 = none ∧
      1 < rolling.figures.players.length ∧ rolling.playerOf 1 = none) ∧
    (Waits (asked .one 0x49 [1, 0] rolling) .one 0x49 [1, 0] ∧ rolling.figure 0 = some ⟨[2, 3], [⟨20, [0, 1]⟩, ⟨30, [1]⟩], true⟩) ∧
    (Waits (asked .one 0x4A [1, 1, 0] rolling) .one 0x4A (1 :: 1 :: [0]) ∧ Waits (asked .one 0x4A [1, 2, 0] rolling) .one 0x4A (1 :: 2 :: [0]) ∧
      ([0] : List Byte).length ≠ (2 : Byte).toNat) := by
  refine ⟨⟨done_of ?_, playerLaw_of ?_, waits_of ?_, ?_, ?_⟩, ⟨done_of ?_, playerLaw_of ?_, ?_, waits_of ?_, ?_⟩,
    ⟨done_of ?_, playerLaw_of ?_, waits_of ?_, ?_, ?_⟩, ⟨done_of ?_, waits_of ?_, ?_, ?_, ?_⟩, ⟨waits_of ?_, ?_⟩, waits_of ?_, waits_of ?_, ?_⟩ <;>
    decide +kernel

/-- Figure 1, one step that does not loop. -/
def once : State := after (.figureStart .one) (asked .one 0x48 [1, 1] playing)

theorem witness_AStepTimerMovesItsPlayerToTheNextStepOrStopsIt :
    (Done { rolling with now := 21 } ∧ rolling.playing 0 = some ⟨0, 0, 21, OwnerSet.only (.link .one)⟩ ∧
      rolling.figure 0 = some ⟨[2, 3], [⟨20, [0, 1]⟩, ⟨30, [1]⟩], true⟩ ∧
      (⟨30, [1]⟩ : FigureStep).voices.map (fun v => (([2, 3] : List Nat)[v]?).bind rolling.voiceOutput) = [⟨1, 21⟩].map some) ∧
    (Done { once with now := 16 } ∧ once.playing 0 = some ⟨1, 0, 16, OwnerSet.only (.link .one)⟩ ∧
      once.figure 1 = some ⟨[2], [⟨15, [0]⟩], false⟩) := by
  refine ⟨⟨done_of ?_, ?_, ?_, ?_⟩, done_of ?_, ?_, ?_⟩ <;> decide +kernel

theorem witness_PortRestoreAndPortDisableActOnTheirPort :
    (Done (asked .one 0x50 [1, 8] playing) ∧ StrokesTimed (asked .one 0x50 [1, 8] playing) ∧
      Waits (asked .one 0x50 [1, 8] playing) .one 0x50 [1, 8] ∧ 8 ≤ (8 : Byte).toNat ∧ playing.portEntry 7 = none) ∧
    (Done (asked .one 0x50 [1, 1] playing) ∧ Waits (asked .one 0x50 [1, 1] playing) .one 0x50 [1, 1] ∧
      playing.portEntry 1 = some ⟨12, 500, 20, 30, 3, 1⟩ ∧ (playing.ports[1]?).map Port.state = some .active) ∧
    (Done (asked .one 0x50 [1, 0] tripped) ∧ StrokesTimed (asked .one 0x50 [1, 0] tripped) ∧
      Waits (asked .one 0x50 [1, 0] tripped) .one 0x50 [1, 0] ∧ (tripped.ports[0]?).map Port.state = some .tripped) ∧
    (Done (asked .one 0x51 [1, 1] queued) ∧ StrokesTimed (asked .one 0x51 [1, 1] queued) ∧
      Waits (asked .one 0x51 [1, 1] queued) .one 0x51 [1, 1] ∧ (queued.ports[1]?).map Port.state = some .active) := by
  refine ⟨⟨done_of ?_, strokesTimed_of ?_, waits_of ?_, ?_, ?_⟩, ⟨done_of ?_, waits_of ?_, ?_, ?_⟩,
    ⟨done_of ?_, strokesTimed_of ?_, waits_of ?_, ?_⟩, done_of ?_, strokesTimed_of ?_, waits_of ?_, ?_⟩ <;> decide +kernel

theorem witness_OvercurrentIsTimedAndTripsThePort :
    (Done held ∧ (held.ports[7]?).isSome = true) ∧
    (Done { surge with now := 21 } ∧ 0 < 8 ∧ StrokesTimed { surge with now := 21 } ∧ surge.portEntry 0 = some ⟨12, 500, 20, 30, 2, 1⟩ ∧
      (surge.ports[0]?).map (fun pt : Port => (pt.state, pt.detect)) = some (.active, some 21)) := by
  refine ⟨⟨done_of ?_, ?_⟩, done_of ?_, ?_, strokesTimed_of ?_, ?_, ?_⟩ <;> decide +kernel

theorem witness_OffTimersAndTheSupplyMonitorSwitchTheDrive :
    (Done { tripped with now := 51 } ∧ (tripped.ports[0]?).map (fun pt : Port => (pt.state, pt.off)) = some (.tripped, some 51)) ∧
    (Done rolling ∧ rolling.supply.state = .good ∧ StrokesTimed rolling) ∧
    (Done dropped ∧ dropped.supply.state = .low ∧ dropped.supply.dwell = none) ∧
    (Done { after .supplyRising dropped with now := 101 } ∧ (after .supplyRising dropped).supply = ⟨.low, some 101⟩ ∧
      (after .supplyRising dropped).ports.length = 8) := by
  refine ⟨⟨done_of ?_, ?_⟩, ⟨done_of ?_, ?_, strokesTimed_of ?_⟩, ⟨done_of ?_, ?_, ?_⟩, done_of ?_, ?_, ?_⟩ <;> decide +kernel

/-- A HOLD trap that a Cue claim holds and a stroke strikes besides, at the stroke's end: its port's load does not fall. -/
def holding : State :=
  { settle (playing.modRecord (.output ⟨0, 20⟩) fun r => { r with cue := 1, stroke := some (.striking 5) }) with now := 5 }

/-- The snare's stroke, with no rest time, ends while its next strike stands at the front of the queue. -/
def rolled : State := { rolling with now := 13, sched := { rolling.sched with queue := [⟨⟨1, 20⟩, 1⟩] } }

theorem witness_AStrokeRestsAndAnIdleOutputServesTheQueue :
    (Done { rolling with now := 6 } ∧ StrokesTimed { rolling with now := 6 } ∧ rolling.timesAt ⟨1, 21⟩ = some ⟨5, 30⟩ ∧
      rolling.stroke ⟨1, 21⟩ = some (.striking 6) ∧ (rolling.ports[1]?).map Port.load = some 9 ∧
      ((settle (({ rolling with now := 6 } : State).setStroke ⟨1, 21⟩ (.resting 36))).ports[1]?).map Port.load = some 6) ∧
    (Done holding ∧ StrokesTimed holding ∧ holding.timesAt ⟨0, 20⟩ = some ⟨5, 10⟩ ∧ holding.stroke ⟨0, 20⟩ = some (.striking 5) ∧
      (settle (holding.setStroke ⟨0, 20⟩ (.resting 15))).ports = holding.ports) ∧
    (Done { rolling with now := 13 } ∧ rolling.timesAt ⟨1, 20⟩ = some ⟨12, 0⟩ ∧ rolling.stroke ⟨1, 20⟩ = some (.striking 13)) ∧
    (Done { dropped with now := 31 } ∧ dropped.timesAt ⟨1, 21⟩ = some ⟨5, 30⟩ ∧ dropped.stroke ⟨1, 21⟩ = some (.resting 31)) := by
  refine ⟨⟨done_of ?_, strokesTimed_of ?_, ?_, ?_, ?_, ?_⟩, ⟨done_of ?_, strokesTimed_of ?_, ?_, ?_, ?_⟩, ⟨done_of ?_, ?_, ?_⟩,
    done_of ?_, ?_, ?_⟩ <;> decide +kernel

/-- The trap's rest is over while its next strike stands at the front of the queue. -/
def rested : State :=
  { playing with
    table := playing.table.map fun r => if r.target = .output ⟨1, 21⟩ then { r with stroke := some (.resting 1) } else r
    sched := { playing.sched with queue := [⟨⟨1, 21⟩, 1⟩] } }

theorem witness_AStrokeRestsAndAnIdleOutputServesTheQueue_front :
    (Done rested ∧ rested.stroke ⟨1, 21⟩ = some (.resting 1) ∧ rested.sched.queue = ⟨⟨1, 21⟩, 1⟩ :: [] ∧
      rested.portEntry 1 = some ⟨12, 500, 20, 30, 3, 1⟩ ∧ rested.supply.state = .good ∧
      ((settle (rested.setStroke ⟨1, 21⟩ .idle)).ports[1]?).map (fun pt : Port => (pt.state, pt.load)) = some (.active, 0) ∧
      0 + rested.strikeLoad ⟨1, 21⟩ ≤ 12) ∧
    (Done rolled ∧ rolled.stroke ⟨1, 20⟩ = some (.striking 13) ∧ rolled.timesAt ⟨1, 20⟩ = some ⟨12, 0⟩ ∧
      rolled.sched.queue = ⟨⟨1, 20⟩, 1⟩ :: [] ∧
      ((settle (rolled.setStroke ⟨1, 20⟩ .idle)).ports[1]?).map (fun pt : Port => (pt.state, pt.load)) = some (.active, 3) ∧
      3 + rolled.strikeLoad ⟨1, 20⟩ ≤ 12) := by
  refine ⟨⟨done_of ?_, ?_, ?_, ?_, ?_, ?_, ?_⟩, done_of ?_, ?_, ?_, ?_, ?_, ?_⟩ <;> decide +kernel

/-- R72: the pass takes the trap's 3 units first and leaves the snare's 6 and the chime's 5 to fit with it: 3 + 6 does, 9 + 5 does not. -/
theorem test_serving_pass : playing.starting [] [⟨⟨1, 21⟩, 1⟩, ⟨⟨1, 20⟩, 1⟩, ⟨⟨1, 0⟩, 1⟩] = [⟨1, 21⟩, ⟨1, 20⟩] := by decide +kernel

/-- R174: READY, AWAITING, supply GOOD, FLOWING, nothing waiting, no record completed; then a port not ACTIVE. -/
theorem test_prefix : (after .takeRecord (running 0)).prefixBytes .two = [0b11011000, 0, 0xFF, 0xFF] ∧
    (after (.portDisable .one) (asked .one 0x51 [1, 0] playing)).prefixBytes .one = [0b11000010, 0, 0xFF, 0xFF] := by decide +kernel

theorem witness_QueuedStrikesReiterationsAndHoldoversEndOnTime :
    (Done { queued with now := 31 } ∧ queued.sched.queue = [] ++ ⟨⟨1, 0⟩, 1⟩ :: [] ∧ 1 + queued.sched.deferral ≤ 31) ∧
    (Done { reiterating with now := 51 } ∧ reiterating.sched.reiterations = [] ++ ⟨⟨1, 21⟩, 51⟩ :: [] ∧
      reiterating.intervalAt ⟨1, 21⟩ = some 50) ∧
    (Done { released with now := 41 } ∧ released.sched.dampers = [] ++ ⟨1, 0, some 41⟩ :: []) := by
  refine ⟨⟨done_of ?_, ?_, ?_⟩, ⟨done_of ?_, ?_, ?_⟩, done_of ?_, ?_⟩ <;> decide +kernel

theorem witness_TremulantsAlternateAndChambersStepToTheirTargets :
    (Done { pulsing with now := 60 } ∧ 0 < pulsing.generators.length ∧ pulsing.tremulant 0 = some ⟨⟨0, 40, 3⟩, 68, 40⟩ ∧
      (pulsing.generator 0).phase = .opened 60) ∧
    ((after (.phaseTimerExpiry 0) { pulsing with now := 60 }).generator 0).phase = .closed 148 ∧
    (Done { opening with now := 31 } ∧ 0 < opening.shutters.chambers.length ∧
      opening.chamber 0 = some (.enclosed 2 ⟨0, 30, 4⟩ 0 (some 30)) ∧ opening.chamberState 0 = ⟨1, some 31⟩ ∧
      stageTarget (opening.channel 0) 2 = 2 ∧ (opening.ports[0]?).map (fun pt : Port => (pt.state, pt.load)) = some (.active, 4)) := by
  refine ⟨⟨done_of ?_, ?_, ?_, ?_⟩, ?_, done_of ?_, ?_, ?_, ?_, ?_, ?_⟩ <;> decide +kernel

end Sys2Proof.Machine.Tests
end

