-- ==== Sys2Proof/Proofs/Resolution.lean ====
section
/-! PROOF. Note resolution beyond the compass (03 R46, R47). `octavesDown` and `octavesUp` count octaves by a division; each is
described once by the octave it lands in, which only one note a whole number of octaves away can meet, and the two obligations are
read off that. -/

namespace Sys2Proof.Machine

/-! ## The folded note is the only one in its octave -/

/-- R46: what is left of a note above the compass is the note of the octave that ends at H. -/
theorem sub_octavesDown_eq_iff {c : Compass} {n : Int} (hn : (c.high : Int) < n) (m : Int) :
    n - 12 * octavesDown c n = m ↔ m ≤ c.high ∧ c.high < m + 12 ∧ ∃ k : Nat, n = m + 12 * k := by
  unfold octavesDown
  constructor
  · rintro rfl
    exact ⟨by omega, by omega, ((n - c.high + 11) / 12).toNat, by omega⟩
  · rintro ⟨hle, hlt, k, hk⟩
    omega

/-- R47: a note below the compass is brought to the note of the octave that begins at L. -/
theorem add_octavesUp_eq_iff {c : Compass} {n : Int} (hn : n < (c.low : Int)) (m : Int) :
    n + 12 * octavesUp c n = m ↔ c.low ≤ m ∧ m < c.low + 12 ∧ ∃ k : Nat, m = n + 12 * k := by
  unfold octavesUp
  constructor
  · rintro rfl
    exact ⟨by omega, by omega, ((c.low - n + 11) / 12).toNat, by omega⟩
  · rintro ⟨hle, hlt, k, hk⟩
    omega

/-! ## `resolveNote` by side of the compass and fold -/

theorem resolveNote_above_of_fold_off {c : Compass} {n : Int} (hn : (c.high : Int) < n) (hf : c.fold = .off) :
    resolveNote c n = none := by
  simp [resolveNote, hn, hf]

theorem resolveNote_above_of_fold_ne_off {c : Compass} {n : Int} (hn : (c.high : Int) < n) (hf : c.fold ≠ .off) :
    resolveNote c n =
      if (c.low : Int) ≤ n - 12 * octavesDown c n then some (n - 12 * octavesDown c n).toNat else none := by
  cases h : c.fold with
  | off => exact absurd h hf
  | top => simp [resolveNote, hn, h]
  | both => simp [resolveNote, hn, h]

theorem resolveNote_below_of_fold_ne_both {c : Compass} {n : Int} (hh : n ≤ (c.high : Int)) (hn : n < (c.low : Int))
    (hf : c.fold ≠ .both) : resolveNote c n = none := by
  cases h : c.fold with
  | off => simp [resolveNote, hh.not_gt, hn, h]
  | top => simp [resolveNote, hh.not_gt, hn, h]
  | both => exact absurd h hf

theorem resolveNote_below_of_fold_both {c : Compass} {n : Int} (hh : n ≤ (c.high : Int)) (hn : n < (c.low : Int))
    (hf : c.fold = .both) :
    resolveNote c n =
      if n + 12 * octavesUp c n ≤ (c.high : Int) then some (n + 12 * octavesUp c n).toNat else none := by
  simp [resolveNote, hh.not_gt, hn, hf]

/-- The guards of both folds admit no negative note, so the reading as a natural number loses nothing. -/
theorem ite_some_toNat_eq_some_iff {p : Prop} [Decidable p] {x : Int} (hx : p → 0 ≤ x) (m : Nat) :
    (if p then some x.toNat else none) = some m ↔ p ∧ x = m := by
  by_cases hp : p
  · have := hx hp
    simp only [hp, if_true, Option.some.injEq, true_and]
    omega
  · simp [hp]

/-! ## R46 -/

theorem resolveNote_above_eq_some_iff {c : Compass} {n : Int} (hn : (c.high : Int) < n) (hf : c.fold ≠ .off) (m : Nat) :
    resolveNote c n = some m ↔ c.low ≤ m ∧ m ≤ c.high ∧ c.high < m + 12 ∧ ∃ k : Nat, n = (m : Int) + 12 * k := by
  rw [resolveNote_above_of_fold_ne_off hn hf, ite_some_toNat_eq_some_iff (by omega)]
  constructor
  · rintro ⟨hlow, hm⟩
    obtain ⟨hle, hlt, hk⟩ := (sub_octavesDown_eq_iff hn m).1 hm
    exact ⟨by omega, by omega, by omega, hk⟩
  · rintro ⟨hlow, hle, hlt, hk⟩
    have hm := (sub_octavesDown_eq_iff hn m).2 ⟨by omega, by omega, hk⟩
    exact ⟨by omega, hm⟩

/-- R46: with twelve notes or more, the octave that ends at H lies within the compass. -/
theorem resolveNote_above_isSome {c : Compass} {n : Int} (hn : (c.high : Int) < n) (hf : c.fold ≠ .off)
    (hc : c.low + 11 ≤ c.high) : (resolveNote c n).isSome = true := by
  obtain ⟨-, hlt, -⟩ := (sub_octavesDown_eq_iff hn _).1 rfl
  have hlow : (c.low : Int) ≤ n - 12 * octavesDown c n := by omega
  simp [resolveNote_above_of_fold_ne_off hn hf, hlow]

/-- Settles O18, from the octave that `octavesDown` lands in. -/
theorem foldingDownReachesTheHighestOctaveInTheCompass : Obligations.FoldingDownReachesTheHighestOctaveInTheCompass :=
  fun _ _ hn =>
    ⟨resolveNote_above_of_fold_off hn, resolveNote_above_eq_some_iff hn, resolveNote_above_isSome hn⟩

/-! ## R47 -/

theorem resolveNote_below_eq_some_iff {c : Compass} {n : Int} (hh : n ≤ (c.high : Int)) (hn : n < (c.low : Int))
    (hf : c.fold = .both) (m : Nat) :
    resolveNote c n = some m ↔ c.low ≤ m ∧ m ≤ c.high ∧ m < c.low + 12 ∧ ∃ k : Nat, (m : Int) = n + 12 * k := by
  obtain ⟨hlow, -, -⟩ := (add_octavesUp_eq_iff hn _).1 rfl
  rw [resolveNote_below_of_fold_both hh hn hf, ite_some_toNat_eq_some_iff (fun _ => by omega)]
  constructor
  · rintro ⟨hhigh, hm⟩
    obtain ⟨hle, hlt, hk⟩ := (add_octavesUp_eq_iff hn m).1 hm
    exact ⟨by omega, by omega, by omega, hk⟩
  · rintro ⟨hle, hhigh, hlt, hk⟩
    have hm := (add_octavesUp_eq_iff hn m).2 ⟨by omega, by omega, hk⟩
    exact ⟨by omega, hm⟩

/-- Settles O19, from the octave that `octavesUp` lands in. -/
theorem foldingUpReachesTheLowestOctaveInTheCompass : Obligations.FoldingUpReachesTheLowestOctaveInTheCompass :=
  fun _ _ hh hn => ⟨resolveNote_below_of_fold_ne_both hh hn, resolveNote_below_eq_some_iff hh hn⟩

end Sys2Proof.Machine
end

