-- ==== Sys2Proof/Proofs/StrikeRequests.lean ====
section
/-! PROOF. What a strike request comes to (04 R68, R69, R71). `State.mayStrike` and `State.strikeStarts` name the two tests that a
request meets, as the manual words them; the model's Boolean tests are read as these once. An equation for each way a request ends then
gives each clause of the obligation. -/

namespace Sys2Proof.Machine

/-! ## A record and its stroke after a rewrite -/

theorem State.record_modRecord (s : State) (x y : Target) {f : Record → Record} (hf : ∀ r, (f r).target = r.target) :
    (s.modRecord x f).record y = if y = x then (s.record y).map f else s.record y := by
  have hp : (fun r => decide (r.target = y)) ∘ (fun r => if r.target = x then f r else r) = fun r => decide (r.target = y) := by
    funext r
    by_cases hr : r.target = x <;> simp [hr, hf]
  unfold State.record State.modRecord
  rw [List.find?_map, hp]
  cases hy : s.table.find? (fun r => decide (r.target = y)) with
  | none => simp
  | some r =>
    have hr : r.target = y := by simpa using List.find?_some hy
    by_cases e : y = x <;> simp [hr, e]

theorem State.stroke_of_table {s t : State} (h : t.table = s.table) (a : Addr) : t.stroke a = s.stroke a := by
  unfold State.stroke State.record
  rw [h]

theorem State.record_setStroke (s : State) (a : Addr) (k : Stroke) (y : Target) :
    (s.setStroke a k).record y =
      if y = .output a then (s.record y).map fun r => { r with stroke := some k } else s.record y :=
  s.record_modRecord _ y fun _ => rfl

theorem State.stroke_setStroke_same {s : State} {a : Addr} (h : (s.record (.output a)).isSome) (k : Stroke) :
    (s.setStroke a k).stroke a = some k := by
  obtain ⟨r, hr⟩ := Option.isSome_iff_exists.1 h
  simp [State.stroke, State.record_setStroke, hr]

theorem State.stroke_setStroke_of_ne {s : State} {a b : Addr} (h : b ≠ a) (k : Stroke) : (s.setStroke a k).stroke b = s.stroke b := by
  simp [State.stroke, State.record_setStroke, h]

theorem State.record_isSome_of_timesAt {s : State} {a : Addr} {k : Strike} (h : s.timesAt a = some k) :
    (s.record (.output a)).isSome := by
  obtain ⟨r, hr, -⟩ := Option.bind_eq_some_iff.1 h
  exact Option.isSome_of_eq_some hr

/-! ## The tests of a request -/

/-- R68: the engine is READY, the output's port ACTIVE and the supply GOOD. -/
def State.mayStrike (s : State) (a : Addr) : Prop :=
  s.engine = .ready ∧ s.portActive a.port = true ∧ s.supply.state = .good

/-- R68, R69: a request that is not shed finds its output IDLE and its load within the port's budget. -/
def State.strikeStarts (s : State) (a : Addr) : Prop :=
  s.mayStrike a ∧ s.stroke a = some .idle ∧
    ∃ pt e, s.ports[a.port]? = some pt ∧ s.portEntry a.port = some e ∧ pt.load + pt.admitted + s.strikeLoad a ≤ e.budget

theorem State.loadFits_iff {s : State} {p load : Nat} :
    s.loadFits p load = true ↔
      ∃ pt e, s.ports[p]? = some pt ∧ s.portEntry p = some e ∧ pt.load + pt.admitted + load ≤ e.budget := by
  unfold State.loadFits
  cases s.ports[p]? with
  | none => simp
  | some pt => cases s.portEntry p <;> simp

theorem State.ready_and_drivable_iff {s : State} {a : Addr} : (s.ready && s.drivable a) = true ↔ s.mayStrike a := by
  simp [State.ready, State.drivable, State.supplyGood, State.mayStrike, State.engine]

theorem State.startable_iff {s : State} {a : Addr} (h : s.mayStrike a) : s.startable a = true ↔ s.strikeStarts a := by
  simp [State.startable, State.strikeStarts, State.loadFits_iff, h]

/-! ## The ways a request ends -/

theorem requestStrike_of_not_mayStrike {s : State} {a : Addr} (h : ¬ s.mayStrike a) :
    requestStrike a s = s.bump .strikesShed := by
  rw [← State.ready_and_drivable_iff] at h
  simp [requestStrike, h]

theorem requestStrike_of_strikeStarts {s : State} {a : Addr} (h : s.strikeStarts a) : requestStrike a s = startStroke a s := by
  have hm := State.ready_and_drivable_iff.2 h.1
  have hs := (State.startable_iff h.1).2 h
  simp [requestStrike, hm, hs]

theorem requestStrike_of_not_strikeStarts {s : State} {a : Addr} (hm : s.mayStrike a) (h : ¬ s.strikeStarts a) :
    requestStrike a s = queueStrike a s := by
  rw [← State.startable_iff hm] at h
  rw [← State.ready_and_drivable_iff] at hm
  simp [requestStrike, hm, h]

theorem startStroke_of_timesAt {s : State} {a : Addr} {k : Strike} (h : s.timesAt a = some k) :
    startStroke a s =
      ((s.setStroke a (.striking (s.now + k.stroke))).addLoad a.port (s.strikeLoad a)).bump .strikesStarted := by
  unfold startStroke
  rw [h]

/-- R71: an output that is already queued is counted as merged, at a full queue too. -/
theorem queueStrike_of_queued {s : State} {a : Addr} (h : ∃ e ∈ s.sched.queue, e.out = a) :
    queueStrike a s = s.bump .strikesMerged := by
  simp [queueStrike, h]

theorem queueStrike_of_full {s : State} {a : Addr} (h : ¬ ∃ e ∈ s.sched.queue, e.out = a) (hf : 64 ≤ s.sched.queue.length) :
    queueStrike a s = s.bump .strikesShed := by
  simp [queueStrike, h, Config.strikeQueueSize, hf]

theorem queueStrike_of_room {s : State} {a : Addr} (h : ¬ ∃ e ∈ s.sched.queue, e.out = a) (hf : s.sched.queue.length < 64) :
    queueStrike a s = { s with sched := { s.sched with queue := s.sched.queue ++ [{ out := a, joined := s.now }] } } := by
  simp [queueStrike, h, Config.strikeQueueSize, Nat.not_le.2 hf]

/-! ## What each way leaves as it was -/

/-- A request that does not start reaches no stroke and no port. -/
theorem requestStrike_only_of_not_strikeStarts {s : State} {a : Addr} (h : ¬ s.strikeStarts a) :
    Only [.sched, .counters] s (requestStrike a s) := by
  by_cases hm : s.mayStrike a
  · rw [requestStrike_of_not_strikeStarts hm h]
    exact queueStrike_only a s
  · rw [requestStrike_of_not_mayStrike hm]
    exact (bump_only s _).mono

theorem startStroke_stroke_same {s : State} {a : Addr} {k : Strike} (h : s.timesAt a = some k) :
    (startStroke a s).stroke a = some (.striking (s.now + k.stroke)) := by
  rw [startStroke_of_timesAt h]
  exact State.stroke_setStroke_same (State.record_isSome_of_timesAt h) _

theorem startStroke_stroke_of_ne {s : State} {a b : Addr} (hb : b ≠ a) : (startStroke a s).stroke b = s.stroke b := by
  cases h : s.timesAt a with
  | none => simp [startStroke, h]
  | some k =>
    rw [startStroke_of_timesAt h]
    exact State.stroke_setStroke_of_ne hb _

theorem requestStrike_stroke_of_ne {s : State} {a b : Addr} (hb : b ≠ a) : (requestStrike a s).stroke b = s.stroke b := by
  by_cases h : s.strikeStarts a
  · rw [requestStrike_of_strikeStarts h, startStroke_stroke_of_ne hb]
  · exact State.stroke_of_table (requestStrike_only_of_not_strikeStarts h).table b

/-- Settles O25, a clause from the equation of its way. -/
theorem aStrikeRequestEndsInOneOfFourWays : Obligations.AStrikeRequestEndsInOneOfFourWays := by
  intro a s k hk
  refine ⟨fun hs => ?started, fun hs => ?frame, fun hm => ?shed, fun hm hs hq => ?merged, fun hm hs hq hf => ?full,
    fun hm hs hq hf => ?joined, fun b hb => requestStrike_stroke_of_ne hb⟩
  case started =>
    rw [requestStrike_of_strikeStarts hs]
    refine ⟨startStroke_stroke_same hk, (startStroke_only a s).sched, ?_⟩
    rw [startStroke_of_timesAt hk]
    rfl
  case frame =>
    have ho := requestStrike_only_of_not_strikeStarts hs
    exact ⟨ho.table, ho.ports⟩
  case shed =>
    rw [requestStrike_of_not_mayStrike hm]
    exact ⟨rfl, rfl⟩
  case merged =>
    rw [requestStrike_of_not_strikeStarts hm hs, queueStrike_of_queued hq]
    exact ⟨rfl, rfl⟩
  case full =>
    rw [requestStrike_of_not_strikeStarts hm hs, queueStrike_of_full hq hf]
    exact ⟨rfl, rfl⟩
  case joined =>
    rw [requestStrike_of_not_strikeStarts hm hs, queueStrike_of_room hq hf]
    exact ⟨rfl, rfl⟩

end Sys2Proof.Machine
end

