-- ==== Sys2Proof/Proofs/GoAndCueSuspend.lean ====
section
/-! PROOF. GO and CUE SUSPEND by the state of the cue unit (08 R151, R152). `takeGo` and `CueUnit.remembered` are each described once
by the states in which they act; that the taking of the message reaches neither the unit nor the clock, and that settling does not read
the unit, then gives the clauses of the obligation. -/

namespace Sys2Proof.Machine

/-! ## Rewriting the unit -/

/-- Where the rewritten unit is the same on both sides, a rewrite of it reaches no field that was not reached before. -/
theorem Only.modCue {fs : List Field} {s t : State} (h : Only fs s t) (f : CueUnit → CueUnit) (hf : Field.cue ∉ fs := by decide) :
    Only fs (s.modCue f) (t.modCue f) := by
  intro x hx
  cases x with
  | cue => exact congrArg f (h.cue hf)
  | _ => exact h _ hx

theorem Settled.modCue {s : State} (h : Settled s) (f : CueUnit → CueUnit) : Settled (s.modCue f) :=
  h.of_only (modCue_only s f).mono

/-! ## What GO and CUE SUSPEND find -/

/-- R151: a GO that finds no list to wait for, or another waiting, is an overrun. -/
theorem takeGo_of_overrun {s : State} (h : s.cue.state = .idle ∨ s.cue.state ≠ .awaiting ∧ s.cue.pendingGo = true) :
    takeGo s = s.bump .goOverruns := by
  unfold takeGo
  cases hs : s.cue.state with
  | idle => rfl
  | awaiting => simp [hs] at h
  | running | timing | suspended =>
    have hp : s.cue.pendingGo = true := by simpa [hs] using h
    simp [hp]

/-- R151: a GO that finds the unit RUNNING, TIMING or SUSPENDED with none waiting is the pending GO. -/
theorem takeGo_of_pending {s : State} (hi : s.cue.state ≠ .idle) (ha : s.cue.state ≠ .awaiting) (hp : s.cue.pendingGo = false) :
    takeGo s = s.modCue fun c => { c with pendingGo := true } := by
  unfold takeGo
  cases hs : s.cue.state with
  | idle => exact absurd hs hi
  | awaiting => exact absurd hs ha
  | running | timing | suspended => simp [hp]

theorem CueUnit.remembered_of_running {c : CueUnit} (h : c.state = .running) (now : Nat) : c.remembered now = some .running := by
  simp [CueUnit.remembered, h]

theorem CueUnit.remembered_of_timing {c : CueUnit} {e : Nat} (h : c.state = .timing e) (now : Nat) :
    c.remembered now = some (.timing (e - now)) := by
  simp [CueUnit.remembered, h]

theorem CueUnit.remembered_of_awaiting {c : CueUnit} (h : c.state = .awaiting) (now : Nat) :
    c.remembered now = some .awaiting := by
  simp [CueUnit.remembered, h]

theorem CueUnit.remembered_eq_none_iff {c : CueUnit} {now : Nat} :
    c.remembered now = none ↔ c.state = .idle ∨ ∃ sub, c.state = .suspended sub := by
  unfold CueUnit.remembered
  cases c.state <;> simp

/-! ## The taking of the message -/

/-- The taking of the head reaches neither the unit nor the clock. -/
theorem takeHead_cue (l : Link) (s : State) : (takeHead l s).cue = s.cue := (takeHead_only l s).cue

theorem takeHead_remembered (l : Link) (s : State) :
    (takeHead l s).cue.remembered (takeHead l s).now = s.cue.remembered s.now := by
  rw [takeHead_cue, (takeHead_only l s).now]

theorem Gate.idle_refusal_of_ne_checking {e : EngineState} (h : e ≠ .checking) : Gate.idle.refusal e = none := by
  cases e with
  | checking => exact absurd rfl h
  | unconfigured | loading | ready => rfl

/-- What a play message comes to in READY (R165): the state its owner leaves, then the end of the event. -/
theorem takePlay_next {l : Link} {kind : Byte} {body : List Byte} {owner : List Byte → State → State} {s : State}
    (hw : Waits s l kind body) (hr : s.engine = .ready) :
    takePlay l kind owner s = .next (finish false (owner body (takeHead l s))) := by
  have hready : s.ready = true := decide_eq_true hr
  simp [takePlay, head_of_waits hw, hready, event]

/-- Taking a message counts notices discarded at most, so the increment of another counter behind it is seen from the state before. -/
theorem takeHead_bump_raised {l : Link} {c : Counter} (hc : c.index ≠ discards l) (s : State) :
    Raised 1 c s ((takeHead l s).bump c) := by
  have h : Raised 1 c (takeHead l s) ((takeHead l s).bump c) := bumpBy_raised _ 1 c
  have hk : (takeHead l s).counters[c.index]? = s.counters[c.index]? := takeHead_counted l s _ (by simpa using hc)
  unfold Raised at h ⊢
  rw [h, hk]

theorem takeHead_bump_counted (l : Link) (c : Counter) (s : State) :
    CountedOnly [c.index, discards l] s ((takeHead l s).bump c) :=
  ((takeHead_counted l s).mono (by simp)).trans ((bumpBy_counted _ 1 c).mono (by simp))

theorem goOverruns_index_ne_discards (l : Link) : Counter.goOverruns.index ≠ discards l := by
  cases l <;> decide

/-! ## GO -/

section
variable {l : Link} {s : State}

theorem execGo_of_overrun (hd : Done s) (hw : Waits s l 0x07 []) (hr : s.engine = .ready)
    (h : s.cue.state = .idle ∨ s.cue.state ≠ .awaiting ∧ s.cue.pendingGo = true) :
    ∃ t, execGo l s = .next t ∧ Took l [] s t ∧ Only [.links, .counters] s t ∧ Raised 1 .goOverruns s t ∧
      CountedOnly [30, discards l] s t := by
  have hgo : playGo [] (takeHead l s) = (takeHead l s).bump .goOverruns := takeGo_of_overrun (by rwa [takeHead_cue])
  have ho : Only [.links, .counters] s ((takeHead l s).bump .goOverruns) := (takeHead_only l s).trans (bump_only _ _).mono
  have hf : Only [.links] _ (finish false ((takeHead l s).bump .goOverruns)) :=
    finish_of_settled_only (hd.settled.of_links_counters ho)
  refine ⟨_, takePlay_next hw hr, ?_⟩
  rw [hgo]
  refine ⟨(Took.of_takeHead (State.bump_links _ _)).finish false, ho.trans hf.mono, ?raised, ?counted⟩
  case raised =>
    unfold Raised
    rw [hf.counters]
    exact takeHead_bump_raised (goOverruns_index_ne_discards l) s
  case counted => exact (takeHead_bump_counted l .goOverruns s).trans (.of_counters hf.counters)

theorem execGo_of_pending (hd : Done s) (hw : Waits s l 0x07 []) (hr : s.engine = .ready) (hi : s.cue.state ≠ .idle)
    (ha : s.cue.state ≠ .awaiting) (hp : s.cue.pendingGo = false) :
    ∃ t, execGo l s = .next t ∧ Acted l [] (s.modCue fun c => { c with pendingGo := true }) t := by
  have hgo : playGo [] (takeHead l s) = (takeHead l s).modCue fun c => { c with pendingGo := true } :=
    takeGo_of_pending (by rwa [takeHead_cue]) (by rwa [takeHead_cue]) (by rwa [takeHead_cue])
  refine takePlay_acted hw hr ?_ ?_ ?_ rfl rfl (hd.settled.modCue _) <;> rw [hgo]
  · rfl
  · rfl
  · exact (takeHead_only l s).modCue _

/-! ## CUE SUSPEND -/

theorem execCueSuspend_of_remembered {tag : Byte} {sub : SubState} (hd : Done s) (hw : Waits s l 0x43 [tag])
    (he : s.engine ≠ .checking) (hsub : s.cue.remembered s.now = some sub) :
    ∃ t, execCueSuspend l s = .next t ∧
      Acted l [okPlace tag 0x43 []] (s.modCue fun c => { c with state := .suspended sub }) t := by
  refine takeCommand_acted
    (a := { state := (takeHead l s).modCue fun c => { c with state := .suspended sub }, code := .ok })
    hw (Gate.idle_refusal_of_ne_checking he) ?_ rfl rfl rfl ((takeHead_only l s).modCue _) rfl rfl (hd.settled.modCue _)
  simp [answerPlain, readNoField, takeHead_remembered, hsub]

theorem execCueSuspend_of_not_remembered {tag : Byte} (hd : Done s) (hw : Waits s l 0x43 [tag]) (he : s.engine ≠ .checking)
    (hsub : s.cue.remembered s.now = none) :
    ∃ t, execCueSuspend l s = .next t ∧ Acted l [refusalPlace tag 0x43 .badState] s t := by
  refine takeCommand_refuses hw (Gate.idle_refusal_of_ne_checking he) ?_ hd.settled
  simp [answerPlain, readNoField, takeHead_remembered, hsub]

theorem execCueSuspend_of_checking {tag : Byte} (hd : Done s) (hw : Waits s l 0x43 [tag]) (he : s.engine = .checking) :
    ∃ t, execCueSuspend l s = .next t ∧ Acted l [refusalPlace tag 0x43 .busy] s t := by
  have hg : Gate.idle.refusal s.engine = some .busy := by rw [he]; rfl
  unfold execCueSuspend takeCommand
  exact takeCommandThen_refused hw hg hd.settled

/-- R165: a CUE SUSPEND with fields behind its tag is too long. -/
theorem execCueSuspend_of_fields {tag x : Byte} {rest : List Byte} (hd : Done s) (hw : Waits s l 0x43 (tag :: x :: rest))
    (he : s.engine ≠ .checking) : ∃ t, execCueSuspend l s = .next t ∧ Acted l [refusalPlace tag 0x43 .badArgument] s t :=
  takeCommand_refuses hw (Gate.idle_refusal_of_ne_checking he) rfl hd.settled

end

/-- Settles O48: what GO and CUE SUSPEND find decides what they come to, clause by clause. -/
theorem goAndCueSuspendActByTheUnitState : Obligations.GoAndCueSuspendActByTheUnitState := by
  intro l s tag hd
  refine ⟨fun hw hr => ⟨execGo_of_overrun hd hw hr, execGo_of_pending hd hw hr⟩, fun hw he => ⟨?running, ?timing, ?awaiting, ?refused⟩,
    execCueSuspend_of_checking hd, fun _ _ => execCueSuspend_of_fields hd⟩
  case running => exact fun h => execCueSuspend_of_remembered hd hw he (CueUnit.remembered_of_running h _)
  case timing => exact fun e h => execCueSuspend_of_remembered hd hw he (CueUnit.remembered_of_timing h _)
  case awaiting => exact fun h => execCueSuspend_of_remembered hd hw he (CueUnit.remembered_of_awaiting h _)
  case refused => exact fun h => execCueSuspend_of_not_remembered hd hw he (CueUnit.remembered_eq_none_iff.2 h)

end Sys2Proof.Machine
end

