-- ==== Sys2Proof/Proofs/Events.lean ====
section
/-! PROOF. What a command comes to, before the end of its event. `MessageEffect` says what the owner of a message may make of the part that
the taking of the message leaves, `OwnEffect` what the part's own events and the events at its links and inputs make of it;
`exec_effect` reads both off `exec` once, and every law that the steps keep goes through it. -/

namespace Sys2Proof.Machine

-- One theorem after another, so that the compile needs few threads.
set_option Elab.async false

/-! ## The effects -/

/-- What the taking of a message from a link makes of the part `t` that the message's leaving its queue has left. -/
inductive MessageEffect (l : Link) (t : State) : Instr → State → Prop
  | unchanged (c : Instr) : MessageEffect l t c t
  | discarded (c : Instr) : MessageEffect l t c (t.bump (.playDiscarded l))
  | ignored (c : Instr) : MessageEffect l t c (ignoreEntry t)
  | keys (d : Nat) (es : List (Nat × Level)) : t.engine = .ready → MessageEffect l t (.keyChange l) (es.foldl (keyEntry l d) t)
  | stops (es : List (Nat × Option Bool)) : t.engine = .ready → MessageEffect l t (.stopChange l) (es.foldl (stopEntry l) t)
  | tabs (es : List (Nat × Option Bool)) : t.engine = .ready → MessageEffect l t (.tremulantTab l) (es.foldl (tabEntry l) t)
  | registration (b : RegistrationBody) : t.engine = .ready → MessageEffect l t (.registration l) (replaceRegistration l b t)
  | transpose (v : Int) : t.engine = .ready → MessageEffect l t (.transpose l) (requestTransposition l v t)
  | expression (k p : Nat) : t.engine = .ready → k < 4 → p ≤ 127 → MessageEffect l t (.expression l) (writeChannel k p t)
  | go : t.engine = .ready → MessageEffect l t (.go l) (takeGo t)
  | tempo (n : Nat) : t.engine = .ready → 50 ≤ n → n ≤ 200 → MessageEffect l t (.tempo l) (setTempo n t)
  | specBegin (blank : Bool) : t.engine ≠ .checking →
      MessageEffect l t (.specBegin l) (beginLoading blank (if t.ready then stopAllPlaying t else t))
  | divisions (fields : List Byte) (w : EntryWrite Nat) : t.engine = .loading → readEntry 6 readDivision fields = some w →
      MessageEffect l t (.specDivision l) (t.modTables fun x => { x with divisions := x.divisions.set w.index w.entry })
  | sources (fields : List Byte) (w : EntryWrite Source) : t.engine = .loading → readEntry 64 readSource fields = some w →
      MessageEffect l t (.specSource l) (t.modTables fun x => { x with sources := x.sources.set w.index w.entry })
  | specStops (fields : List Byte) (w : EntryWrite Stop) : t.engine = .loading → readEntry 192 readStop fields = some w →
      MessageEffect l t (.specStop l) (t.modTables fun x => { x with stops := x.stops.set w.index w.entry })
  | chambers (fields : List Byte) (w : EntryWrite Chamber) : t.engine = .loading → readEntry 4 readChamber fields = some w →
      MessageEffect l t (.specChamber l) (t.modTables fun x => { x with chambers := x.chambers.set w.index w.entry })
  | tremulants (fields : List Byte) (w : EntryWrite Tremulant) : t.engine = .loading → readEntry 8 readTremulant fields = some w →
      MessageEffect l t (.specTremulant l) (t.modTables fun x => { x with tremulants := x.tremulants.set w.index w.entry })
  | ports (fields : List Byte) (w : EntryWrite PortEntry) : t.engine = .loading → readEntry 8 readPort fields = some w →
      MessageEffect l t (.specPort l) (t.modTables fun x => { x with ports := x.ports.set w.index w.entry })
  | figures (fields : List Byte) (w : EntryWrite Figure) : t.engine = .loading → readEntry 16 readFigure fields = some w →
      MessageEffect l t (.specFigure l) (t.modTables fun x => { x with figures := x.figures.set w.index w.entry })
  | commit : t.engine = .loading →
      MessageEffect l t (.specCommit l) { t with store := { t.store with engine := .checking, checkBegan := some t.now } }
  | silence : t.engine = .ready → MessageEffect l t (.silence l) (silenceEffects .silenced t)
  | release : t.engine = .ready → MessageEffect l t (.linkRelease l) (takeTransposition l (releaseKeys l t))
  | configure (fields : List Byte) (b : ConfigureBody) : readConfigure fields = some b →
      MessageEffect l t (.configure l) (configureLink l b t)
  | clear : MessageEffect l t (.countersReadAndClear l) (clearCounters t)
  | cueWrite (fields : List Byte) (w : CueWrite) : readCueWrite fields = some w →
      MessageEffect l t (.cueWrite l) { t with memory := t.memory.set w.index (some { state := .written, body := w.body }) }
  | cueStart (i : Nat) : t.engine = .ready → t.cue.state = .idle → i < 512 → MessageEffect l t (.cueStart l) (t.modCue fun _ =>
      { state := .running, current := some i, owner := some l, pendingGo := false, runCount := 0, lastCompleted := none,
        stopReason := none })
  | cueSuspend (sub : SubState) : t.cue.remembered t.now = some sub →
      MessageEffect l t (.cueSuspend l) (t.modCue fun c => { c with state := .suspended sub })
  | cueResume (sub : SubState) : t.cue.state = .suspended sub → MessageEffect l t (.cueResume l) (resumeCue l sub t)
  | cueAbort : t.cue.state ≠ .idle → MessageEffect l t (.cueAbort l) (abortCue t)
  | figureStart (f : Nat) : t.engine = .ready → MessageEffect l t (.figureStart l) (startFigure f (.link l) t).1
  | figureStop (f : Nat) : t.engine = .ready → MessageEffect l t (.figureStop l) (removeFigureOwner (.link l) f t)
  | figureSync (fs : List Nat) : t.engine = .ready →
      MessageEffect l t (.figureSync l) ((List.range t.figures.players.length).foldl (syncPlayer fs) t)
  | restore (p : Nat) : t.engine = .ready → MessageEffect l t (.portRestore l) (restorePort p [] t)
  | disable (p : Nat) : t.engine = .ready → MessageEffect l t (.portDisable l) (disablePort p t)
  | fullReset : MessageEffect l t (.fullReset l) (t.modLink l fun i => { i with resetPending := true })

/-- What an event that is no message makes of the part. -/
inductive OwnEffect (s : State) : Instr → State → Prop
  | powerOn (rate : LinkRate) (up : Bool) (overs : BitVec 8) : OwnEffect s (.powerOn rate up overs)
      { State.reset with
        now := s.now
        rate := rate
        supply := { state := .low, dwell := if up then some (s.now + Config.dwellTime) else none }
        ports := allPorts.map fun p => Port.atPowerOn (overs.getLsbD p)
        pending := s.pending }
  | byteArrival (l : Link) (b : Byte) : OwnEffect s (.byteArrival l b) (receiveByte l b s)
  | cut (l : Link) : OwnEffect s (.interByteTimerExpiry l) ((s.setReceiver l .hunting).bump (.framesCut l))
  | loss (l : Link) (c : Instr) (e : Nat) : c = .silenceTimerExpiry l ∨ c = .fullResetTakesEffect l ∧ (s.link l).resetPending = true →
      (s.link l).silenceTimer = some e → OwnEffect s c (loseLink l s)
  | reset (l : Link) (c : Instr) : c = .transmitEnd l ∨ c = .fullResetTakesEffect l → (s.link l).resetPending = true →
      OwnEffect s c (resetPart l true s)
  | sent (l : Link) : OwnEffect s (.transmitEnd l) (endTransmission l s)
  | passed : s.engine = .checking → checkTables s.store.tables = none → OwnEffect s .checkCompletion (enterReady s)
  | failed (f : Failure) : s.engine = .checking → OwnEffect s .checkCompletion (failCheck f s)
  | struck (a : Addr) (e n : Nat) : s.stroke a = some (.striking e) → OwnEffect s (.strokeTimerExpiry a) (s.setStroke a (.resting n))
  | rested (a : Addr) (c : Instr) (k : Stroke) : c = .strokeTimerExpiry a ∨ c = .restTimerExpiry a → s.stroke a = some k →
      OwnEffect s c (s.setStroke a .idle)
  | late (a : Addr) : OwnEffect s (.deferralLimitExpiry a) ((dequeue a s).bump .strikesLate)
  | reiterated (a : Addr) (interval : Nat) : OwnEffect s (.reiterationDue a) (requestStrike a (rearm a interval s))
  | heldOver (i : Nat) : OwnEffect s (.holdoverTimerExpiry i) (s.modDamper i fun x => { x with holdover := none })
  | stepped (p : Nat) (run : Run) : s.playing p = some run → OwnEffect s (.stepTimerExpiry p) (endStep p run s)
  | turned (j : Nat) (x : Tremulant) (phase : Phase) : s.tremulant j = some x → (s.generator j).phase ≠ .off → phase ≠ .off →
      OwnEffect s (.phaseTimerExpiry j) (s.modGenerator j fun g => { g with phase := phase })
  | staged (c : Nat) (e : Nat) : (s.chamberState c).timer = some e →
      OwnEffect s (.stageTimerExpiry c) (stepChamber c (s.modChamber c fun x => { x with timer := none }))
  | rising (p : Nat) : OwnEffect s (.currentRising p) (startDetect p (s.modPort p fun pt => { pt with overload := true }))
  | falling (p : Nat) : OwnEffect s (.currentFalling p) (s.modPort p fun pt => { pt with overload := false, detect := none })
  | tripped (p : Nat) (pt : Port) (e : PortEntry) : s.ports[p]? = some pt → s.portEntry p = some e → pt.state = .active →
      OwnEffect s (.detectTimerExpiry p) (tripPort p e pt s)
  | restored (p : Nat) (pt : Port) : s.ports[p]? = some pt → pt.state = .tripped →
      OwnEffect s (.offTimerExpiry p) (restorePort p pt.history s)
  | supplyFell : OwnEffect s .supplyDropping (supplyFails s)
  | dwelling (c : Instr) (d : Option Nat) : c = .supplyDropping ∨ c = .supplyRising →
      OwnEffect s c { s with supply := { s.supply with dwell := d } }
  | supplyRose : OwnEffect s .dwellTimerExpiry (supplyReturns s)
  | record : s.cue.state = .running → OwnEffect s .takeRecord (takeCurrent s)
  | waited (e : Nat) : s.cue.state = .timing e → OwnEffect s .waitTimerExpiry (completeCurrent s)

/-- What a command makes of the part before the end of its event: a play message taken, a command taken and answered, or an event that is no
message. -/
inductive Effect (c : Instr) (s : State) : State → Prop
  | played (l : Link) (m : Message) (v : State) : s.head l = some m → MessageEffect l (takeHead l s) c v → Effect c s v
  | answered (l : Link) (m : Message) (p : Place) (v : State) : s.head l = some m → (s.link l).replies.length < 8 →
      MessageEffect l (takeHead l s) c v → Effect c s (addPlace l p v)
  | own (v : State) : OwnEffect s c v → Effect c s v

/-! ## Reading them off the meanings -/

theorem State.ready_iff {s : State} : s.ready = true ↔ s.engine = .ready := by simp [State.ready, State.engine]

/-- A command finds nothing to act on, or its effect stands before the end of its event. -/
def Comes (c : Instr) (s : State) (o : Host.Outcome State Fault Refusal) : Prop :=
  o = .next s ∨ ∃ serve u, Effect c s u ∧ o = .next (finish serve u)

theorem comes_nothing (c : Instr) (s : State) : Comes c s (nothing s) := .inl rfl

theorem comes_own {c : Instr} {s v : State} (serve : Bool) (h : OwnEffect s c v) : Comes c s (event serve v) :=
  .inr ⟨serve, v, .own v h, rfl⟩

theorem takePlay_comes {l : Link} {kind : Byte} {owner : List Byte → State → State} {c : Instr} (s : State)
    (h : ∀ body t, t.engine = .ready → MessageEffect l t c (owner body t)) : Comes c s (takePlay l kind owner s) := by
  unfold takePlay
  cases hm : s.head l with
  | none => exact comes_nothing _ _
  | some m =>
    dsimp only
    split
    · split
      next hr =>
        exact .inr ⟨false, _, .played l m _ hm (h m.body _ (by rw [takeHead_engine]; exact State.ready_iff.1 hr)), rfl⟩
      next => exact .inr ⟨false, _, .played l m _ hm (.discarded c), rfl⟩
    · exact comes_nothing _ _

/-- The head of a queue may be a command only while the reply list has an empty place (R165). -/
theorem replies_of_head {s : State} {l : Link} {m : Message} (h : s.head l = some m) (hk : Kind.play.contains m.kind = false) :
    (s.link l).replies.length < 8 := by
  unfold State.head at h
  split at h
  · cases h
  · split at h
    · split at h
      next hp =>
        cases h
        rw [hk, Bool.false_or] at hp
        exact of_decide_eq_true hp
      next => cases h
    · cases h

theorem takeCommandThen_comes {l : Link} {kind : Byte} {gate : Gate} {act : Byte → List Byte → State → Host.Outcome State Fault Refusal}
    {c : Instr} (s : State) (hk : Kind.play.contains kind = false)
    (h : ∀ tag fields t, gate.refusal t.engine = none →
      ∃ serve p v, MessageEffect l t c v ∧ act tag fields t = event serve (addPlace l p v)) :
    Comes c s (takeCommandThen l kind gate act s) := by
  unfold takeCommandThen
  cases hm : s.head l with
  | none => exact comes_nothing _ _
  | some m =>
    dsimp only
    split
    next hkind =>
      have hplace := replies_of_head hm (by rw [hkind]; exact hk)
      split
      next => exact .inr ⟨false, _, .answered l m _ _ hm hplace (.unchanged c), rfl⟩
      next => exact .inr ⟨false, _, .answered l m _ _ hm hplace (.unchanged c), rfl⟩
      next _ _ tag fields hg _ =>
        obtain ⟨serve, p, v, hv, e⟩ := h tag fields (takeHead l s) (by rwa [takeHead_engine])
        exact .inr ⟨serve, _, .answered l m p v hm hplace hv, by rw [e]; rfl⟩
    next => exact comes_nothing _ _

theorem takeCommand_comes {l : Link} {kind : Byte} {gate : Gate} {owner : List Byte → State → Answer} {c : Instr} (s : State)
    (hk : Kind.play.contains kind = false)
    (h : ∀ fields t, gate.refusal t.engine = none → MessageEffect l t c (owner fields t).state) :
    Comes c s (takeCommand l kind gate owner s) :=
  takeCommandThen_comes s hk fun _ fields t hg => ⟨_, _, _, h fields t hg, rfl⟩

theorem answerPlain_effect {l : Link} {c : Instr} {act : State → Answer} {t : State} (h : MessageEffect l t c (act t).state)
    (fields : List Byte) : MessageEffect l t c (answerPlain act fields t).state := by
  unfold answerPlain
  split
  · exact h
  · exact .unchanged c

theorem answerWrite_effect {α : Type} {l : Link} {c : Instr} {size : Nat} {entry : List Byte → Option α}
    {put : Nat → Option α → Tables → Tables} {t : State} (fields : List Byte)
    (h : ∀ w, readEntry size entry fields = some w → MessageEffect l t c (t.modTables (put w.index w.entry))) :
    MessageEffect l t c (answerWrite size entry put fields t).state := by
  unfold answerWrite
  split
  next w hw => exact h w hw
  next => exact .unchanged c

/-! ## Which engine states a gate lets pass (R5) -/

theorem Gate.ready_of_pass {e : EngineState} (h : Gate.ready.refusal e = none) : e = .ready := by
  cases e <;> first | rfl | cases h

theorem Gate.loading_of_pass {e : EngineState} (h : Gate.loading.refusal e = none) : e = .loading := by
  cases e <;> first | rfl | cases h

theorem Gate.begin_of_pass {e : EngineState} (h : Gate.begin.refusal e = none) : e ≠ .checking := by
  rintro rfl
  cases h

/-! ## The play messages -/

theorem playKeys_effect (l : Link) (body : List Byte) {t : State} (h : t.engine = .ready) :
    MessageEffect l t (.keyChange l) (playKeys l body t) := by
  unfold playKeys
  split
  · exact .keys _ _ h
  · exact .ignored _

theorem playStops_effect (l : Link) (body : List Byte) {t : State} (h : t.engine = .ready) :
    MessageEffect l t (.stopChange l) (playStops l body t) := by
  unfold playStops
  split
  · exact .stops _ h
  · exact .ignored _

theorem playTabs_effect (l : Link) (body : List Byte) {t : State} (h : t.engine = .ready) :
    MessageEffect l t (.tremulantTab l) (playTabs l body t) := by
  unfold playTabs
  split
  · exact .tabs _ h
  · exact .ignored _

theorem playRegistration_effect (l : Link) (body : List Byte) {t : State} (h : t.engine = .ready) :
    MessageEffect l t (.registration l) (playRegistration l body t) := by
  unfold playRegistration
  split
  · exact .registration _ h
  · exact .ignored _

theorem playTranspose_effect (l : Link) (body : List Byte) {t : State} (h : t.engine = .ready) :
    MessageEffect l t (.transpose l) (playTranspose l body t) := by
  unfold playTranspose
  split
  · exact .transpose _ h
  · exact .ignored _

theorem playExpression_effect (l : Link) (body : List Byte) {t : State} (h : t.engine = .ready) :
    MessageEffect l t (.expression l) (playExpression body t) := by
  unfold playExpression
  split
  · split
    next hk => exact .expression _ _ h hk (by omega)
    next => exact .ignored _
  · exact .ignored _

theorem playGo_effect (l : Link) (body : List Byte) {t : State} (h : t.engine = .ready) :
    MessageEffect l t (.go l) (playGo body t) := by
  unfold playGo
  split
  · exact .go h
  · exact .ignored _

theorem playTempo_effect (l : Link) (body : List Byte) {t : State} (h : t.engine = .ready) :
    MessageEffect l t (.tempo l) (playTempo body t) := by
  unfold playTempo
  split
  · exact .tempo _ h (by omega) (by omega)
  · exact .ignored _

/-! ## The commands -/

theorem execSpecCommit_comes (l : Link) (s : State) : Comes (.specCommit l) s (execSpecCommit l s) := by
  refine takeCommandThen_comes s (by decide) fun tag fields t hg => ?_
  cases readNoField fields with
  | none => exact ⟨_, _, _, .unchanged _, rfl⟩
  | some u => exact ⟨_, _, _, .commit (Gate.loading_of_pass hg), rfl⟩

theorem execConfigure_comes (l : Link) (s : State) : Comes (.configure l) s (execConfigure l s) := by
  refine takeCommand_comes s (by decide) fun fields t _ => ?_
  cases h : readConfigure fields with
  | none => exact .unchanged _
  | some b => exact .configure fields b h

theorem execSpecBegin_comes (l : Link) (s : State) : Comes (.specBegin l) s (execSpecBegin l s) := by
  refine takeCommand_comes s (by decide) fun fields t hg => ?_
  unfold answerSpecBegin
  split
  · exact .specBegin _ (Gate.begin_of_pass hg)
  · exact .unchanged _

theorem execCueWrite_comes (l : Link) (s : State) : Comes (.cueWrite l) s (execCueWrite l s) := by
  refine takeCommand_comes s (by decide) fun fields t _ => ?_
  unfold answerCueWrite
  split
  next w hw =>
    split
    · exact .unchanged _
    · exact .cueWrite fields w hw
  next => exact .unchanged _

theorem field2_le {lo hi n : Nat} {high low : Byte} (h : field2 lo hi high low = some n) : lo ≤ n ∧ n ≤ hi := by
  unfold field2 at h
  split at h
  next hr =>
    cases h
    exact hr
  next => cases h

theorem readRecordIndex_lt {fields : List Byte} {i : Nat} (h : readRecordIndex fields = some i) : i < 512 := by
  unfold readRecordIndex at h
  split at h
  · have := field2_le h
    omega
  · cases h

theorem CueUnit.busy_iff {c : CueUnit} : c.busy = true ↔ c.state ≠ .idle := by simp [CueUnit.busy]

theorem execCueStart_comes (l : Link) (s : State) : Comes (.cueStart l) s (execCueStart l s) := by
  refine takeCommand_comes s (by decide) fun fields t _ => ?_
  unfold answerCueStart
  split
  · exact .unchanged _
  next i hi =>
    split
    · exact .unchanged _
    next hr =>
      split
      · exact .unchanged _
      next hb =>
        split
        · exact .unchanged _
        · refine .cueStart i (State.ready_iff.1 (by simpa using hr)) ?_ (readRecordIndex_lt hi)
          by_contra hn
          exact hb (CueUnit.busy_iff.2 hn)

theorem execCueSuspend_comes (l : Link) (s : State) : Comes (.cueSuspend l) s (execCueSuspend l s) := by
  refine takeCommand_comes s (by decide) fun fields t _ => answerPlain_effect ?_ fields
  cases h : t.cue.remembered t.now with
  | none => exact .unchanged _
  | some sub => exact .cueSuspend sub h

theorem execCueResume_comes (l : Link) (s : State) : Comes (.cueResume l) s (execCueResume l s) := by
  refine takeCommand_comes s (by decide) fun fields t _ => answerPlain_effect ?_ fields
  cases h : t.cue.state with
  | suspended sub => exact .cueResume sub h
  | idle | running | timing | awaiting => exact .unchanged _

theorem execCueAbort_comes (l : Link) (s : State) : Comes (.cueAbort l) s (execCueAbort l s) := by
  refine takeCommand_comes s (by decide) fun fields t _ => answerPlain_effect ?_ fields
  split
  next h => exact .cueAbort (CueUnit.busy_iff.1 h)
  next => exact .unchanged _

theorem execFigureStart_comes (l : Link) (s : State) : Comes (.figureStart l) s (execFigureStart l s) := by
  refine takeCommand_comes s (by decide) fun fields t hg => ?_
  cases t.namedFigure fields with
  | none => exact .unchanged _
  | some f => exact .figureStart f (Gate.ready_of_pass hg)

theorem execFigureStop_comes (l : Link) (s : State) : Comes (.figureStop l) s (execFigureStop l s) := by
  refine takeCommand_comes s (by decide) fun fields t hg => ?_
  cases t.namedFigure fields with
  | none => exact .unchanged _
  | some f => exact .figureStop f (Gate.ready_of_pass hg)

theorem execFigureSync_comes (l : Link) (s : State) : Comes (.figureSync l) s (execFigureSync l s) := by
  refine takeCommand_comes s (by decide) fun fields t hg => ?_
  cases readFigureList fields with
  | none => exact .unchanged _
  | some fs => exact .figureSync fs (Gate.ready_of_pass hg)

theorem execPortRestore_comes (l : Link) (s : State) : Comes (.portRestore l) s (execPortRestore l s) := by
  refine takeCommand_comes s (by decide) fun fields t hg => ?_
  cases t.namedPort fields with
  | none => exact .unchanged _
  | some p =>
    dsimp only
    split
    · exact .unchanged _
    all_goals exact .restore p (Gate.ready_of_pass hg)

theorem execPortDisable_comes (l : Link) (s : State) : Comes (.portDisable l) s (execPortDisable l s) := by
  refine takeCommand_comes s (by decide) fun fields t hg => ?_
  cases t.namedPort fields with
  | none => exact .unchanged _
  | some p =>
    dsimp only
    split
    · exact .unchanged _
    all_goals exact .disable p (Gate.ready_of_pass hg)

theorem execFullReset_comes (l : Link) (s : State) : Comes (.fullReset l) s (execFullReset l s) := by
  refine takeCommand_comes s (by decide) fun fields t _ => ?_
  cases readNoField fields with
  | none => exact .unchanged _
  | some u => exact .fullReset

theorem execQueryOutput_comes (l : Link) (s : State) : Comes (.queryOutput l) s (execQueryOutput l s) := by
  refine takeCommand_comes s (by decide) fun fields t _ => ?_
  cases t.queryTarget fields <;> exact .unchanged _

theorem execCueRead_comes (l : Link) (s : State) : Comes (.cueRead l) s (execCueRead l s) := by
  refine takeCommand_comes s (by decide) fun fields t _ => ?_
  cases readRecordIndex fields <;> exact .unchanged _

theorem execLinkRelease_comes (l : Link) (s : State) : Comes (.linkRelease l) s (execLinkRelease l s) := by
  refine takeCommand_comes s (by decide) fun fields t _ => answerPlain_effect ?_ fields
  dsimp only
  split
  next h => exact .release (State.ready_iff.1 h)
  next => exact .unchanged _

theorem execUnknownKind_comes (l : Link) (s : State) : Comes (.unknownKind l) s (execUnknownKind l s) := by
  unfold execUnknownKind
  cases hm : s.head l with
  | none => exact comes_nothing _ _
  | some m =>
    dsimp only
    split
    next hk =>
      have hp : Kind.play.contains m.kind = false := by
        cases h : Kind.play.contains m.kind with
        | false => rfl
        | true => rw [Kind.unknown, h] at hk; cases hk
      exact .inr ⟨false, _, .answered l m _ _ hm (replies_of_head hm hp) (.unchanged _), rfl⟩
    next => exact comes_nothing _ _

/-! ## The part's own events -/

/-- A timer that is due runs. -/
theorem State.due_some {s : State} {timer : Option Nat} (h : s.due timer = true) : ∃ e, timer = some e ∧ e ≤ s.now := by
  cases timer with
  | none => cases h
  | some e => exact ⟨e, rfl, by simpa [State.due] using h⟩

theorem execInterByteTimerExpiry_comes (l : Link) (s : State) :
    Comes (.interByteTimerExpiry l) s (execInterByteTimerExpiry l s) := by
  unfold execInterByteTimerExpiry
  split
  · exact comes_own _ (.cut l)
  · exact comes_nothing _ _

theorem execSilenceTimerExpiry_comes (l : Link) (s : State) : Comes (.silenceTimerExpiry l) s (execSilenceTimerExpiry l s) := by
  unfold execSilenceTimerExpiry
  split
  next h =>
    obtain ⟨e, he, -⟩ := State.due_some h
    exact comes_own _ (.loss l _ e (.inl rfl) he)
  next => exact comes_nothing _ _

theorem resetPending_of_sendingReset {s : State} {l : Link} (h : s.sendingReset l = true) : (s.link l).resetPending = true := by
  unfold State.sendingReset at h
  exact (Bool.and_eq_true _ _ ▸ h).1

theorem execTransmitEnd_comes (l : Link) (s : State) : Comes (.transmitEnd l) s (execTransmitEnd l s) := by
  unfold execTransmitEnd
  split
  · split
    next h => exact comes_own _ (.reset l _ (.inl rfl) (resetPending_of_sendingReset h))
    next => exact comes_own _ (.sent l)
  · exact comes_nothing _ _

theorem execFullResetTakesEffect_comes (l : Link) (s : State) :
    Comes (.fullResetTakesEffect l) s (execFullResetTakesEffect l s) := by
  unfold execFullResetTakesEffect
  split
  next hp =>
    split
    · exact comes_own _ (.reset l _ (.inr rfl) hp)
    · split
      next h =>
        obtain ⟨e, he, -⟩ := State.due_some h
        exact comes_own _ (.loss l _ e (.inr ⟨rfl, hp⟩) he)
      next => exact comes_nothing _ _
  next => exact comes_nothing _ _

theorem execCheckCompletion_comes (s : State) : Comes .checkCompletion s (execCheckCompletion s) := by
  unfold execCheckCompletion
  split
  next h =>
    cases hc : checkTables s.store.tables with
    | none => exact comes_own _ (.passed h.1 hc)
    | some f => exact comes_own _ (.failed f h.1)
  next => exact comes_nothing _ _

theorem execStrokeTimerExpiry_comes (a : Addr) (s : State) : Comes (.strokeTimerExpiry a) s (execStrokeTimerExpiry a s) := by
  unfold execStrokeTimerExpiry
  split
  next e k hs hk =>
    split
    · split
      · exact comes_own _ (.rested a _ _ (.inl rfl) hs)
      · exact comes_own _ (.struck a e _ hs)
    · exact comes_nothing _ _
  next => exact comes_nothing _ _

theorem execRestTimerExpiry_comes (a : Addr) (s : State) : Comes (.restTimerExpiry a) s (execRestTimerExpiry a s) := by
  unfold execRestTimerExpiry
  cases hs : s.stroke a with
  | none => exact comes_nothing _ _
  | some k =>
    cases k with
    | idle | striking => exact comes_nothing _ _
    | resting e =>
      dsimp only
      split
      · exact comes_own _ (.rested a _ _ (.inr rfl) hs)
      · exact comes_nothing _ _

theorem execDeferralLimitExpiry_comes (a : Addr) (s : State) :
    Comes (.deferralLimitExpiry a) s (execDeferralLimitExpiry a s) := by
  unfold execDeferralLimitExpiry
  split
  · split
    · exact comes_own _ (.late a)
    · exact comes_nothing _ _
  · exact comes_nothing _ _

theorem execReiterationDue_comes (a : Addr) (s : State) : Comes (.reiterationDue a) s (execReiterationDue a s) := by
  unfold execReiterationDue
  split
  · split
    · exact comes_own _ (.reiterated a _)
    · exact comes_nothing _ _
  · exact comes_nothing _ _

theorem execHoldoverTimerExpiry_comes (i : Nat) (s : State) :
    Comes (.holdoverTimerExpiry i) s (execHoldoverTimerExpiry i s) := by
  unfold execHoldoverTimerExpiry
  split
  · split
    · exact comes_own _ (.heldOver i)
    · exact comes_nothing _ _
  · exact comes_nothing _ _

theorem execStepTimerExpiry_comes (p : Nat) (s : State) : Comes (.stepTimerExpiry p) s (execStepTimerExpiry p s) := by
  unfold execStepTimerExpiry
  split
  next run hp =>
    split
    · exact comes_own _ (.stepped p run hp)
    · exact comes_nothing _ _
  next => exact comes_nothing _ _

theorem execPhaseTimerExpiry_comes (j : Nat) (s : State) : Comes (.phaseTimerExpiry j) s (execPhaseTimerExpiry j s) := by
  unfold execPhaseTimerExpiry
  split
  next e x hg hx =>
    split
    · exact comes_own _ (.turned j x _ hx (by rw [hg]; simp) (by simp))
    · exact comes_nothing _ _
  next e x hg hx =>
    split
    · exact comes_own _ (.turned j x _ hx (by rw [hg]; simp) (by simp))
    · exact comes_nothing _ _
  all_goals exact comes_nothing _ _

theorem execStageTimerExpiry_comes (c : Nat) (s : State) : Comes (.stageTimerExpiry c) s (execStageTimerExpiry c s) := by
  unfold execStageTimerExpiry
  split
  next h =>
    obtain ⟨e, he, -⟩ := State.due_some h
    exact comes_own _ (.staged c e he)
  next => exact comes_nothing _ _

theorem execDetectTimerExpiry_comes (p : Nat) (s : State) : Comes (.detectTimerExpiry p) s (execDetectTimerExpiry p s) := by
  unfold execDetectTimerExpiry
  split
  next pt e hp he =>
    split
    next h => exact comes_own _ (.tripped p pt e hp he h.2)
    next => exact comes_nothing _ _
  next => exact comes_nothing _ _

theorem execOffTimerExpiry_comes (p : Nat) (s : State) : Comes (.offTimerExpiry p) s (execOffTimerExpiry p s) := by
  unfold execOffTimerExpiry
  split
  next pt hp =>
    split
    next h => exact comes_own _ (.restored p pt hp h.2)
    next => exact comes_nothing _ _
  next => exact comes_nothing _ _

theorem execSupplyDropping_comes (s : State) : Comes .supplyDropping s (execSupplyDropping s) := by
  unfold execSupplyDropping
  split
  · exact comes_own _ .supplyFell
  · exact comes_own _ (.dwelling _ _ (.inl rfl))

theorem execSupplyRising_comes (s : State) : Comes .supplyRising s (execSupplyRising s) := by
  unfold execSupplyRising
  split
  · exact comes_own _ (.dwelling _ _ (.inr rfl))
  all_goals exact comes_nothing _ _

theorem execDwellTimerExpiry_comes (s : State) : Comes .dwellTimerExpiry s (execDwellTimerExpiry s) := by
  unfold execDwellTimerExpiry
  split
  · exact comes_own _ .supplyRose
  · exact comes_nothing _ _

theorem execTakeRecord_comes (s : State) : Comes .takeRecord s (execTakeRecord s) := by
  unfold execTakeRecord
  split
  next h => exact comes_own _ (.record h)
  next => exact comes_nothing _ _

theorem CueUnit.waitTimer_eq_some {c : CueUnit} {e : Nat} (h : c.waitTimer = some e) : c.state = .timing e := by
  unfold CueUnit.waitTimer at h
  split at h <;> simp_all

theorem execWaitTimerExpiry_comes (s : State) : Comes .waitTimerExpiry s (execWaitTimerExpiry s) := by
  unfold execWaitTimerExpiry
  split
  next h =>
    obtain ⟨e, he, -⟩ := State.due_some h
    exact comes_own _ (.waited e (CueUnit.waitTimer_eq_some he))
  next => exact comes_nothing _ _

/-! ## Every command -/

/-- Every command finds nothing to act on, or has one of the effects above and ends its event. -/
theorem exec_comes (c : Instr) (s : State) : Comes c s (exec c s) := by
  cases c with
  | powerOn r u o => exact comes_own _ (.powerOn r u o)
  | byteArrival l b => exact comes_own _ (.byteArrival l b)
  | interByteTimerExpiry l => exact execInterByteTimerExpiry_comes l s
  | silenceTimerExpiry l => exact execSilenceTimerExpiry_comes l s
  | transmitEnd l => exact execTransmitEnd_comes l s
  | fullResetTakesEffect l => exact execFullResetTakesEffect_comes l s
  | keyChange l => exact takePlay_comes s fun body t => playKeys_effect l body
  | stopChange l => exact takePlay_comes s fun body t => playStops_effect l body
  | tremulantTab l => exact takePlay_comes s fun body t => playTabs_effect l body
  | registration l => exact takePlay_comes s fun body t => playRegistration_effect l body
  | transpose l => exact takePlay_comes s fun body t => playTranspose_effect l body
  | expression l => exact takePlay_comes s fun body t => playExpression_effect l body
  | go l => exact takePlay_comes s fun body t => playGo_effect l body
  | tempo l => exact takePlay_comes s fun body t => playTempo_effect l body
  | specBegin l => exact execSpecBegin_comes l s
  | specDivision l =>
    exact takeCommand_comes s (by decide) fun f t hg => answerWrite_effect f fun w => .divisions f w (Gate.loading_of_pass hg)
  | specSource l =>
    exact takeCommand_comes s (by decide) fun f t hg => answerWrite_effect f fun w => .sources f w (Gate.loading_of_pass hg)
  | specStop l =>
    exact takeCommand_comes s (by decide) fun f t hg => answerWrite_effect f fun w => .specStops f w (Gate.loading_of_pass hg)
  | specChamber l =>
    exact takeCommand_comes s (by decide) fun f t hg => answerWrite_effect f fun w => .chambers f w (Gate.loading_of_pass hg)
  | specTremulant l =>
    exact takeCommand_comes s (by decide) fun f t hg => answerWrite_effect f fun w => .tremulants f w (Gate.loading_of_pass hg)
  | specPort l =>
    exact takeCommand_comes s (by decide) fun f t hg => answerWrite_effect f fun w => .ports f w (Gate.loading_of_pass hg)
  | specFigure l =>
    exact takeCommand_comes s (by decide) fun f t hg => answerWrite_effect f fun w => .figures f w (Gate.loading_of_pass hg)
  | specCommit l => exact execSpecCommit_comes l s
  | checkCompletion => exact execCheckCompletion_comes s
  | silence l =>
    exact takeCommand_comes s (by decide) fun f t hg => answerPlain_effect (.silence (Gate.ready_of_pass hg)) f
  | fullReset l => exact execFullReset_comes l s
  | linkRelease l => exact execLinkRelease_comes l s
  | configure l => exact execConfigure_comes l s
  | status l => exact takeCommand_comes s (by decide) fun f t _ => answerPlain_effect (.unchanged _) f
  | countersRead l => exact takeCommand_comes s (by decide) fun f t _ => answerPlain_effect (.unchanged _) f
  | countersReadAndClear l => exact takeCommand_comes s (by decide) fun f t _ => answerPlain_effect .clear f
  | queryOutput l => exact execQueryOutput_comes l s
  | cueWrite l => exact execCueWrite_comes l s
  | cueRead l => exact execCueRead_comes l s
  | cueStart l => exact execCueStart_comes l s
  | cueSuspend l => exact execCueSuspend_comes l s
  | cueResume l => exact execCueResume_comes l s
  | cueAbort l => exact execCueAbort_comes l s
  | figureStart l => exact execFigureStart_comes l s
  | figureStop l => exact execFigureStop_comes l s
  | figureSync l => exact execFigureSync_comes l s
  | portRestore l => exact execPortRestore_comes l s
  | portDisable l => exact execPortDisable_comes l s
  | unknownKind l => exact execUnknownKind_comes l s
  | strokeTimerExpiry a => exact execStrokeTimerExpiry_comes a s
  | restTimerExpiry a => exact execRestTimerExpiry_comes a s
  | deferralLimitExpiry a => exact execDeferralLimitExpiry_comes a s
  | reiterationDue a => exact execReiterationDue_comes a s
  | holdoverTimerExpiry i => exact execHoldoverTimerExpiry_comes i s
  | stepTimerExpiry p => exact execStepTimerExpiry_comes p s
  | phaseTimerExpiry j => exact execPhaseTimerExpiry_comes j s
  | stageTimerExpiry c => exact execStageTimerExpiry_comes c s
  | currentRising p => exact comes_own _ (.rising p)
  | currentFalling p => exact comes_own _ (.falling p)
  | detectTimerExpiry p => exact execDetectTimerExpiry_comes p s
  | offTimerExpiry p => exact execOffTimerExpiry_comes p s
  | supplyDropping => exact execSupplyDropping_comes s
  | supplyRising => exact execSupplyRising_comes s
  | dwellTimerExpiry => exact execDwellTimerExpiry_comes s
  | takeRecord => exact execTakeRecord_comes s
  | waitTimerExpiry => exact execWaitTimerExpiry_comes s

theorem exec_effect {c : Instr} {s t : State} (h : exec c s = .next t) :
    t = s ∨ ∃ serve u, Effect c s u ∧ t = finish serve u := by
  rcases exec_comes c s with e | ⟨serve, u, hu, e⟩
  · rw [h] at e
    cases e
    exact .inl rfl
  · rw [h] at e
    cases e
    exact .inr ⟨serve, u, hu, rfl⟩

end Sys2Proof.Machine
end

