-- ==== Sys2Proof/Proofs/StartAndStep.lean ====
section
/-! PROOF. The step and the start (00; 01 R3; 07 R120, R121; 09 R160, R168): what one step carries out, what POWER_ON leaves, that every law
holds there, and the two laws that the end of an event makes true by itself. -/

namespace Sys2Proof.Machine

-- One theorem after another, so that the compile needs few threads.
set_option Elab.async false

/-! ## The step -/

theorem step_of_pending {s : State} {c : Instr} {rest : List Instr} (h : s.pending = c :: rest) :
    step s = exec c { s with pending := rest } := by
  unfold step
  rw [h]

/-- Settles O1. -/
theorem stepRunsTheCommandAtTheFront : Obligations.StepRunsTheCommandAtTheFront := fun _ _ _ => step_of_pending

theorem step_of_due {s : State} {c : Instr} {rest : List Instr} (h : s.pending = []) (he : s.ownEvents = c :: rest) :
    step s = exec c s := by
  unfold step
  rw [h, he]

theorem step_of_nothing_due {s : State} (h : s.pending = []) (he : s.ownEvents = []) :
    step s = .next (tick s) := by
  unfold step
  rw [h]
  dsimp only
  rw [he]

/-- Settles O2. -/
theorem stepOnAnEmptyQueueRunsADueEventOrPassesTime : Obligations.StepOnAnEmptyQueueRunsADueEventOrPassesTime :=
  fun _ h => ⟨fun _ _ => step_of_due h, step_of_nothing_due h⟩

/-- A law that no command breaks, and that neither the command queue nor a millisecond's passing touches, is kept by every step. -/
theorem step_keeps {P : State → Prop} {s t : State} (h : step s = .next t) (hs : P s)
    (hpend : ∀ u rest, P u → P { u with pending := rest }) (htick : s.pending = [] → s.ownEvents = [] → P (tick s))
    (hexec : ∀ c u v, exec c u = .next v → P u → P v) : P t := by
  rcases step_cases h with ⟨rfl, hp, ho⟩ | ⟨c, rest, -, he⟩ | ⟨c, rest, -, -, he⟩
  · exact htick hp ho
  · exact hexec c _ t he (hpend s rest hs)
  · exact hexec c s t he hs

theorem pending_only (s : State) (rest : List Instr) : Only [.pending] s { s with pending := rest } := by
  intro x hx
  cases x <;> first | rfl | exact absurd (by decide) hx

theorem tick_only (s : State) : Only [.now] s (tick s) := by
  intro x hx
  cases x <;> first | rfl | exact absurd (by decide) hx

/-! ## What the end of an event makes true -/

theorem Done.of_only {s t : State} (h : Done s) (k : Only [.now, .pending] s t) : Done t where
  settled := h.settled.of_only k.mono
  quiet := fun l => by rw [State.link_of_links k.links]; exact h.quiet l

theorem exec_done {c : Instr} {s t : State} (h : exec c s = .next t) (hs : Done s) : Done t := by
  rcases exec_effect h with rfl | ⟨serve, u, -, rfl⟩
  · exact hs
  · exact done_finish serve u

/-- Settles O6: the end of an event settles the ports and begins what can be sent. -/
theorem everyStepLeavesTheEventDone : Obligations.EveryStepLeavesTheEventDone :=
  fun _ _ h hs => step_keeps h hs (fun u rest hu => hu.of_only (pending_only u rest).mono)
    (fun _ _ => hs.of_only (tick_only _).mono) (fun _ _ _ => exec_done)

/-- What the laws of R120 and R121 read. -/
theorem energizedLaw_and_loadLaw_of_only {s t : State} (h : EnergizedLaw s ∧ LoadLaw s) (k : Only [.now, .pending] s t) :
    EnergizedLaw t ∧ LoadLaw t := by
  have hd : t.demands = s.demands := by
    funext r
    unfold State.demands State.damperDemand State.chamberState State.generator
    rw [k.sched, k.shutters, k.generators]
  have hload : t.recordLoad = s.recordLoad := by
    funext r
    unfold State.recordLoad State.source State.chamber State.tremulant
    rw [k.store]
  constructor
  · intro a
    have := h.1 a
    unfold State.energized State.portActive State.supplyGood at this ⊢
    rw [hd, k.ports, k.supply, k.table]
    exact this
  · intro p pt hp
    rw [k.ports] at hp
    rw [hd, hload, k.supply, k.table]
    exact h.2 p pt hp

theorem exec_energizedLaw {c : Instr} {s t : State} (h : exec c s = .next t) (hs : EnergizedLaw s ∧ LoadLaw s) :
    EnergizedLaw t ∧ LoadLaw t := by
  rcases exec_effect h with rfl | ⟨serve, u, -, rfl⟩
  · exact hs
  · exact ⟨(done_finish serve u).settled.energizedLaw, (done_finish serve u).settled.loadLaw⟩

/-- Settles O5: settled ports meet both laws, and every event ends in settling. -/
theorem everyStepKeepsTheEnergizedLaw : Obligations.EveryStepKeepsTheEnergizedLaw :=
  fun _ _ h hs => step_keeps h hs (fun u rest hu => energizedLaw_and_loadLaw_of_only hu (pending_only u rest).mono)
    (fun _ _ => energizedLaw_and_loadLaw_of_only hs (tick_only _).mono) (fun _ _ _ => exec_energizedLaw)

/-! ## The start -/

/-- Ports that are OFF with nothing driven have settled. -/
theorem settled_of_atPowerOn {s : State} (h : ∀ pt ∈ s.ports, pt = Port.atPowerOn pt.overload) : Settled s := by
  have hp : s.ports.mapIdx (settlePort s) = s.ports := by
    apply List.ext_getElem?
    intro i
    rw [List.getElem?_mapIdx]
    cases hi : s.ports[i]? with
    | none => rfl
    | some pt =>
      have e := h pt (List.mem_of_getElem? hi)
      rw [e]
      rfl
  exact congrArg (fun x => { s with ports := x }) hp

theorem quiet_atPowerOn : LinkIf.atPowerOn.Quiet := fun _ => ⟨rfl, fun _ h => absurd h List.not_mem_nil⟩

/-- Settles O3: POWER_ON leaves ports that have settled and transmitters with nothing to send, so its event ends as it is. -/
theorem powerOnLeavesThePowerOnValues : Obligations.PowerOnLeavesThePowerOnValues := by
  intro rate supplyUp overs s
  refine congrArg Host.Outcome.next (finish_of_done ⟨settled_of_atPowerOn ?_, ?_⟩)
  · intro pt h
    obtain ⟨p, -, rfl⟩ := List.mem_map.1 h
    rfl
  · intro l
    cases l <;> exact quiet_atPowerOn

/-! ## Every law at the start -/

theorem reset_done : Done State.reset where
  settled := settled_of_atPowerOn fun pt h => by rw [List.eq_of_mem_replicate h]; rfl
  quiet := fun l => by cases l <;> exact quiet_atPowerOn

theorem reset_reg (l : Link) : State.reset.reg l = Registration.empty := by cases l <;> rfl

theorem reset_link (l : Link) : State.reset.link l = LinkIf.atPowerOn := by cases l <;> rfl

theorem join_getElem?_replicate_none {α : Type} (n i : Nat) : ((List.replicate n (none : Option α))[i]?).join = none := by
  rw [List.getElem?_replicate]
  split <;> rfl

theorem reset_playing (p : Nat) : State.reset.playing p = none := join_getElem?_replicate_none 8 p

theorem not_some_mem_replicate_none {α : Type} {n : Nat} {x : α} : some x ∉ List.replicate n none :=
  fun h => by cases List.eq_of_mem_replicate h

theorem reset_generator (j : Nat) : State.reset.generator j = { phase := .off, cueFlag := false } := by
  show (List.replicate 8 _)[j]?.getD _ = _
  rw [List.getElem?_replicate]
  split <;> rfl

theorem reset_chamberState (c : Nat) : State.reset.chamberState c = { current := 0, timer := none } := by
  show (List.replicate 4 _)[c]?.getD _ = _
  rw [List.getElem?_replicate]
  split <;> rfl

theorem reset_demanded (j : Nat) : State.reset.demanded j = false := rfl

theorem linkIf_atPowerOn_inRange : LinkIf.atPowerOn.InRange where
  input := by decide
  replies := by decide
  notices := by decide
  marks := by decide
  silenceTime := by decide

theorem reset_inRanges : InRanges State.reset where
  links := fun l => by rw [reset_link]; exact linkIf_atPowerOn_inRange
  transpositions := fun l => by rw [reset_reg]; decide
  drawn := ⟨List.length_replicate.le, fun l i hi => by rw [reset_reg] at hi; exact absurd hi List.not_mem_nil⟩
  tabs := fun l j hj => by rw [reset_reg] at hj; exact absurd hj List.not_mem_nil
  cueCounts := fun r hr => absurd hr List.not_mem_nil
  channels := fun p hp => by rw [List.eq_of_mem_replicate hp]; decide
  tempo := by decide
  steps := ⟨fun f hf => absurd hf not_some_mem_replicate_none, fun run hr => absurd hr not_some_mem_replicate_none⟩
  deferral := by decide
  strikes := by decide
  reiterations := by decide
  memory := fun c hc => absurd hc not_some_mem_replicate_none
  record := ⟨fun i hi => (by cases hi), fun i hi => (by cases hi)⟩
  runCount := by decide

theorem reset_portEntry (p : Nat) : State.reset.portEntry p = none := join_getElem?_replicate_none 8 p

theorem reset_playRanges : PlayRanges State.reset where
  stages := fun c => by rw [reset_chamberState]; exact Nat.zero_le _
  lockouts := fun p e he => by rw [reset_portEntry] at he; cases he
  histories := fun p pt hp => by
    have hm : pt = Port.atPowerOn false := List.eq_of_mem_replicate (List.mem_of_getElem? hp)
    rw [hm]
    exact ⟨Nat.zero_le _, fun _ e he => by rw [reset_portEntry] at he; cases he⟩

theorem reset_downLaw : DownLaw State.reset where
  places := fun l => by rw [reset_reg]; exact List.length_replicate
  registration := fun l _ => reset_reg l
  silent := fun l _ => by rw [reset_link]; exact ⟨rfl, rfl, rfl, rfl, rfl, rfl, rfl⟩

theorem reset_restOutsideReady : RestOutsideReady State.reset where
  table := fun _ => rfl
  scheduler := fun _ => ⟨rfl, rfl, rfl⟩
  players := fun _ _ h => List.eq_of_mem_replicate h
  generators := fun _ _ h => List.eq_of_mem_replicate h
  chambers := fun _ _ h => List.eq_of_mem_replicate h
  ports := fun _ pt h => by rw [List.eq_of_mem_replicate h]; rfl
  registrations := fun _ => reset_reg
  unit := fun _ => rfl

theorem reset_cueIdleLaw : CueIdleLaw State.reset where
  counts := fun _ r hr => absurd hr List.not_mem_nil
  flags := fun _ g hg => by rw [List.eq_of_mem_replicate hg]
  owners := fun _ run hr => absurd hr not_some_mem_replicate_none
  go := fun _ => rfl

theorem reset_claimsShaped : ClaimsShaped State.reset where
  targets := List.nodup_nil
  places := fun l => by rw [reset_reg]; exact List.length_replicate
  stops := fun l => by rw [reset_reg]; exact List.nodup_nil
  divisions := ⟨by decide, fun d n hn => by
    have e : State.reset.division d = none := join_getElem?_replicate_none 6 d
    rw [e] at hn
    cases hn⟩

/-- Settles O4, a law at a time: nothing is held, drawn, played, queued or driven at power-on. -/
theorem resetMeetsEveryLaw : Obligations.ResetMeetsEveryLaw :=
  ⟨reset_done, reset_done.settled.energizedLaw, reset_done.settled.loadLaw,
    ⟨by decide, List.nodup_nil, fun e he => absurd he List.not_mem_nil⟩,
    reset_cueIdleLaw, fun l _ => by rw [reset_reg]; rfl, reset_claimsShaped, fun l r hr => absurd hr List.not_mem_nil,
    ⟨fun p q a b ha => (by rw [reset_playing] at ha; cases ha), fun p a ha => (by rw [reset_playing] at ha; cases ha)⟩,
    reset_inRanges, reset_playRanges, reset_downLaw, reset_restOutsideReady, fun r hr => absurd hr List.not_mem_nil,
    ⟨fun j x _ _ => by simp [reset_generator, reset_demanded], fun j _ => by rw [reset_generator]⟩,
    fun n hn => List.eq_of_mem_replicate hn⟩

end Sys2Proof.Machine
end

