-- ==== Sys2Proof/Proofs/Touches.lean ====
section
/-! PROOF. What each command may change (01 Engine states; 02 Two links together; 08 Cue memory). `reaches` lists the fields that a
command's effect may reach, besides those that the end of any event may; `exec_only` holds `exec` to the list, and what the manual says a
command leaves alone is read off it. -/

namespace Sys2Proof.Machine

-- One theorem after another, so that the compile needs few threads.
set_option Elab.async false

/-! ## The operations that Laws/Frames does not name -/

theorem sched_only (s : State) (f : Scheduler → Scheduler) : Only [.sched] s { s with sched := f s.sched } := by
  intro x hx
  cases x <;> first | rfl | exact absurd (by decide) hx

theorem store_only (s : State) (f : Store → Store) : Only [.store] s { s with store := f s.store } := by
  intro x hx
  cases x <;> first | rfl | exact absurd (by decide) hx

theorem figures_only (s : State) (f : Figures → Figures) : Only [.figures] s { s with figures := f s.figures } := by
  intro x hx
  cases x <;> first | rfl | exact absurd (by decide) hx

theorem shutters_only (s : State) (f : Shutters → Shutters) : Only [.shutters] s { s with shutters := f s.shutters } := by
  intro x hx
  cases x <;> first | rfl | exact absurd (by decide) hx

theorem generators_only (s : State) (f : List Generator → List Generator) :
    Only [.generators] s { s with generators := f s.generators } := by
  intro x hx
  cases x <;> first | rfl | exact absurd (by decide) hx

theorem ports_only (s : State) (f : List Port → List Port) : Only [.ports] s { s with ports := f s.ports } := by
  intro x hx
  cases x <;> first | rfl | exact absurd (by decide) hx

theorem memory_only (s : State) (f : List (Option CueRecord) → List (Option CueRecord)) :
    Only [.memory] s { s with memory := f s.memory } := by
  intro x hx
  cases x <;> first | rfl | exact absurd (by decide) hx

theorem counters_only (s : State) (f : List Nat → List Nat) : Only [.counters] s { s with counters := f s.counters } := by
  intro x hx
  cases x <;> first | rfl | exact absurd (by decide) hx

theorem supply_only (s : State) (f : Supply → Supply) : Only [.supply] s { s with supply := f s.supply } := by
  intro x hx
  cases x <;> first | rfl | exact absurd (by decide) hx

/-! ### Play messages -/

theorem keyEntry_only (l : Link) (d : Nat) (s : State) (e : Nat × Level) :
    Only [.table, .ports, .counters, .sched, .figures, .regs] s (keyEntry l d s e) := by
  unfold keyEntry
  split
  · split
    · exact (setKey_only l d e.1 e.2 s).trans (takeTransposition_only l _).mono
    · exact (bump_only _ _).mono
  · exact (bump_only _ _).mono

theorem stopEntry_only (l : Link) (s : State) (e : Nat × Option Bool) :
    Only [.table, .ports, .counters, .sched, .figures, .regs] s (stopEntry l s e) := by
  unfold stopEntry
  split
  · split
    · exact Only.refl _ _
    · split
      · exact drawStop_only _ _ _
      · exact cancelStop_only _ _ _
  all_goals exact (bump_only _ _).mono

theorem tabEntry_only (l : Link) (s : State) (e : Nat × Option Bool) :
    Only [.regs, .generators, .counters] s (tabEntry l s e) := by
  unfold tabEntry
  split
  · split
    · exact (setTab_only _ _ _ _).mono
    · exact (bump_only _ _).mono
  · exact (bump_only _ _).mono

theorem requestTransposition_only (l : Link) (v : Int) (s : State) : Only [.regs] s (requestTransposition l v s) :=
  (modReg_only _ _ _).trans (takeTransposition_only _ _)

theorem replaceRegistration_only (l : Link) (b : RegistrationBody) (s : State) :
    Only [.table, .ports, .counters, .sched, .figures, .regs, .generators] s (replaceRegistration l b s) := by
  unfold replaceRegistration
  dsimp only
  refine Only.trans ?_ (requestTransposition_only _ _ _).mono
  refine Only.trans ?_ (Only.foldl (fun t j => (setTab_only l j _ t).mono) _ _)
  refine Only.trans ?_ (Only.foldl (fun t i => (cancelStop_only l i t).mono) _ _)
  refine Only.trans ?_ (Only.foldl (fun t i => (drawStop_only l i t).mono) _ _)
  exact (bumpBy_only _ _ _).mono

/-! ### What reaches every block at once -/

theorem cutStrokes_only (reached : Addr → Bool) (s : State) : Only [.table] s (cutStrokes reached s) := by
  intro x hx
  cases x <;> first | rfl | exact absurd (by decide) hx

theorem silenceStrikes_only (s : State) : Only [.table, .sched] s (silenceStrikes s) := by
  intro x hx
  cases x <;> first | rfl | exact absurd (by decide) hx

theorem stopPlayers_only (s : State) : Only [.figures] s (stopPlayers s) := by
  intro x hx
  cases x <;> first | rfl | exact absurd (by decide) hx

/-- A registration whose keys are all released, with the requested transposition taken (R22, R35). -/
def Registration.quieted (r : Registration) : Registration :=
  { r with keys := r.keys.map fun _ => .released, effective := r.requested }

/-- The effects of SILENCE but for the cue unit's going IDLE (R22). -/
def silencedPart (s : State) : State :=
  stopPlayers (silenceStrikes (((rewriteCounts Record.silenced s).modReg .one Registration.quieted).modReg .two Registration.quieted))

theorem silenceEffects_eq (reason : StopReason) (s : State) :
    silenceEffects reason s = if (silencedPart s).cue.busy then cueGoesIdle reason (silencedPart s) else silencedPart s := rfl

theorem silencedPart_only (s : State) : Only [.table, .sched, .figures, .regs] s (silencedPart s) :=
  ((((rewriteCounts_only Record.silenced s).mono.trans (modReg_only _ .one _).mono).trans (modReg_only _ .two _).mono).trans
    (silenceStrikes_only _).mono).trans (stopPlayers_only _).mono

theorem silenceEffects_only (reason : StopReason) (s : State) :
    Only [.table, .sched, .figures, .regs, .generators, .cue, .links, .counters] s (silenceEffects reason s) := by
  rw [silenceEffects_eq]
  exact Only.ite ((silencedPart_only s).mono.trans (cueGoesIdle_only _ _).mono) (silencedPart_only s).mono

theorem stopAllPlaying_only (s : State) :
    Only [.table, .sched, .figures, .regs, .generators, .cue, .links, .counters, .shutters, .ports] s (stopAllPlaying s) := by
  unfold stopAllPlaying
  refine ((silenceEffects_only .reset s).mono).trans ?_
  generalize silenceEffects .reset s = u
  intro x hx
  cases x <;> first | rfl | exact absurd (by decide) hx

theorem beginLoading_only (blank : Bool) (s : State) : Only [.store] s (beginLoading blank s) := by
  intro x hx
  cases x <;> first | rfl | exact absurd (by decide) hx

theorem resetPart_only (l : Link) (up : Bool) (s : State) :
    Only [.store, .links, .regs, .table, .sched, .figures, .generators, .shutters, .ports, .cue] s (resetPart l up s) := by
  intro x hx
  cases x <;> first | rfl | exact absurd (by decide) hx

theorem tellLoss_only (l : Link) (s : State) : Only [.cue, .links, .counters] s (tellLoss l s) := by
  unfold tellLoss
  split
  · exact (notify_only _ _ _).mono.trans (cueOwnerLost_only _ _)
  · exact (cueOwnerLost_only _ _).trans (notify_only _ _ _).mono

/-- The loss of a link up to what it tells, before a pending reset takes effect (R171, R40, R100). -/
def emptiedLink (l : Link) (s : State) : State :=
  let released := releaseKeys l (s.modLink l fun i => { i with state := .down, silenceTimer := none })
  let untabbed := (s.reg l).tabs.foldl (fun t j => setTab l j false t) (released.modReg l fun r => { r with stops := [] })
  (removeOwnerEverywhere (.link l) (untabbed.modReg l fun r => { r with requested := 0, effective := 0 })).modLink l fun i =>
    { i with input := [], replies := [], notices := [], transmitter := .idle, flow := .flowing, resetPending := false }

theorem loseLink_eq (l : Link) (s : State) :
    loseLink l s = if (s.link l).resetPending then resetPart l false ((tellLoss l (emptiedLink l s)).bump (.linkLosses l))
      else (tellLoss l (emptiedLink l s)).bump (.linkLosses l) := rfl

theorem emptiedLink_only (l : Link) (s : State) :
    Only [.links, .table, .ports, .counters, .sched, .figures, .regs, .generators] s (emptiedLink l s) := by
  unfold emptiedLink
  dsimp only
  refine Only.trans ?_ (modLink_only _ _ _).mono
  refine Only.trans ?_ (removeOwnerEverywhere_only _ _).mono
  refine Only.trans ?_ (modReg_only _ _ _).mono
  refine Only.trans ?_ (Only.foldl (fun t j => (setTab_only l j false t).mono) _ _)
  exact ((modLink_only _ _ _).mono.trans (releaseKeys_only _ _).mono).trans (modReg_only _ _ _).mono

theorem toldLoss_only (l : Link) (s : State) :
    Only [.links, .table, .ports, .counters, .sched, .figures, .regs, .generators, .cue] s
      ((tellLoss l (emptiedLink l s)).bump (.linkLosses l)) :=
  ((emptiedLink_only l s).mono.trans (tellLoss_only _ _).mono).trans (bump_only _ _).mono

theorem loseLink_only_of_no_reset {l : Link} {s : State} (h : (s.link l).resetPending = false) :
    Only [.links, .table, .ports, .counters, .sched, .figures, .regs, .generators, .cue] s (loseLink l s) := by
  rw [loseLink_eq, h]
  exact toldLoss_only l s

theorem loseLink_only (l : Link) (s : State) :
    Only [.links, .table, .ports, .counters, .sched, .figures, .regs, .generators, .cue, .store, .shutters] s (loseLink l s) := by
  rw [loseLink_eq]
  exact Only.ite ((toldLoss_only l s).mono.trans (resetPart_only _ _ _).mono) (toldLoss_only l s).mono

theorem portsAtCommit_only (s : State) : Only [.ports] s (portsAtCommit s) := by
  intro x hx
  cases x <;> first | rfl | exact absurd (by decide) hx

theorem enterReady_only (s : State) : Only [.store, .links, .table, .sched, .shutters, .ports] s (enterReady s) := by
  unfold enterReady
  dsimp only
  refine Only.trans ?_ (Only.foldl (fun u c => Only.ite (stepChamber_only c u).mono (Only.refl _ _)) _ _)
  refine Only.trans ?_ (Only.foldl (fun u p => (startDetect_only p u).mono) _ _)
  refine Only.trans ?_ (portsAtCommit_only _).mono
  refine Only.trans ?_ (fillReservation_only _ _ _).mono
  intro x hx
  cases x <;> first | rfl | exact absurd (by decide) hx

theorem failCheck_only (f : Failure) (s : State) : Only [.store, .links] s (failCheck f s) := by
  refine Only.trans (store_only s fun x => { x with engine := .loading, lastCheck := .failed f, checkBegan := none }).mono ?_
  exact (fillReservation_only _ _ _).mono

/-! ### The receiver and CONFIGURE -/

theorem goodFrame_only (l : Link) (m : Message) (s : State) : Only [.links, .counters] s (goodFrame l m s) := by
  unfold goodFrame
  have up : Only [.links, .counters] s (match (s.link l).state with
      | .down => ((s.bump (.framesGood l)).modLink l fun i => { i with state := .up }).notifyAll (.linkUp l)
      | .up => s.bump (.framesGood l)) := by
    split
    · exact ((bump_only _ _).mono.trans (modLink_only _ _ _).mono).trans (notifyAll_only _ _)
    · exact (bump_only _ _).mono
  have timed := up.trans (modLink_only _ l fun i => { i with silenceTimer := some (s.now + i.silenceTime) }).mono
  exact Only.ite timed (Only.ite ((timed.trans (modLink_only _ _ _).mono).trans (judgeFlow_only _ _)) (timed.trans (bump_only _ _).mono))

theorem completeFrame_only (l : Link) (n : Nat) (got : List Byte) (s : State) : Only [.links, .counters] s (completeFrame l n got s) := by
  unfold completeFrame
  split
  · exact Only.ite (goodFrame_only _ _ _) (bump_only _ _).mono
  · exact (bump_only _ _).mono

theorem setReceiver_only (s : State) (l : Link) (r : Receiver) : Only [.links] s (s.setReceiver l r) := modLink_only _ _ _

theorem receiveByte_only (l : Link) (b : Byte) (s : State) : Only [.links, .counters] s (receiveByte l b s) := by
  unfold receiveByte
  split
  · exact Only.ite (setReceiver_only _ _ _).mono (Only.refl _ _)
  · exact Only.ite ((setReceiver_only _ _ _).mono.trans (bump_only _ _).mono) (setReceiver_only _ _ _).mono
  · exact Only.ite (setReceiver_only _ _ _).mono ((setReceiver_only _ _ _).mono.trans (completeFrame_only _ _ _ _))

theorem configureLink_only (l : Link) (b : ConfigureBody) (s : State) : Only [.links, .counters, .sched] s (configureLink l b s) :=
  (((modLink_only _ _ _).mono.trans (judgeFlow_only _ _).mono).trans (modLink_only _ _ _).mono).trans (setDeferral_only _ _).mono

/-! ### The cue unit, the figures and the strokes -/

theorem resumeCue_only (l : Link) (sub : SubState) (s : State) :
    Only [.memory, .table, .sched, .figures, .generators, .cue, .links, .counters] s (resumeCue l sub s) := by
  unfold resumeCue
  dsimp only
  split
  · exact ((modCue_only _ _).trans (modCue_only _ _)).mono
  · exact Only.ite ((modCue_only _ _).mono.trans (completeCurrent_only _)) ((modCue_only _ _).trans (modCue_only _ _)).mono
  · exact Only.ite (((modCue_only _ _).trans (modCue_only _ _)).mono.trans (completeCurrent_only _))
      ((modCue_only _ _).trans (modCue_only _ _)).mono

theorem abortCue_only (s : State) :
    Only [.memory, .table, .sched, .figures, .generators, .cue, .links, .counters] s (abortCue s) := by
  unfold abortCue
  split
  · exact (markRecord_only _ _ _).mono.trans (cueGoesIdle_only _ _).mono
  all_goals exact (cueGoesIdle_only _ _).mono

theorem syncPlayer_only (fs : List Nat) (s : State) (p : Nat) :
    Only [.table, .ports, .counters, .sched, .figures] s (syncPlayer fs s p) := by
  unfold syncPlayer
  split
  · exact Only.ite (beginStep_only _ _ _) (Only.refl _ _)
  · exact Only.refl _ _

theorem endStep_only (p : Nat) (run : Run) (s : State) : Only [.table, .ports, .counters, .sched, .figures] s (endStep p run s) := by
  unfold endStep
  split
  · exact Only.ite (beginStep_only _ _ _) (Only.ite (beginStep_only _ _ _) (setPlayer_only _ _ _).mono)
  · exact Only.refl _ _

theorem setStroke_only (s : State) (a : Addr) (k : Stroke) : Only [.table] s (s.setStroke a k) := modRecord_only _ _ _

theorem rearm_only (a : Addr) (interval : Nat) (s : State) : Only [.sched] s (rearm a interval s) := by
  intro x hx
  cases x <;> first | rfl | exact absurd (by decide) hx

theorem setTempo_only (n : Nat) (s : State) : Only [.figures] s (setTempo n s) :=
  figures_only s fun x => { x with tempo := n }

theorem clearCounters_only (s : State) : Only [.counters] s (clearCounters s) :=
  counters_only s fun x => x.map fun _ => 0

theorem modTables_only (s : State) (f : Tables → Tables) : Only [.store] s (s.modTables f) :=
  store_only s fun x => { x with tables := f x.tables }

theorem addPlace_only (l : Link) (p : Place) (s : State) : Only [.links] s (addPlace l p s) := modLink_only _ _ _

/-! ## The fields that a command's effect may reach -/

/-- The fields that the end of any event may reach (R72, R120, R168). -/
def endFields : List Field := [.table, .ports, .counters, .sched, .links]

/-- The fields that a command's effect may reach before the end of its event, apart from the counters; for a message, behind its taking. -/
def reaches : Instr → List Field
  | .powerOn _ _ _ => [.links, .table, .sched, .ports, .rate, .store, .regs, .figures, .generators, .shutters, .supply, .memory, .cue]
  | .byteArrival _ _ | .interByteTimerExpiry _ | .fullReset _ => [.links]
  | .silenceTimerExpiry _ | .fullResetTakesEffect _ | .transmitEnd _ =>
    [.links, .table, .ports, .sched, .figures, .regs, .generators, .cue, .store, .shutters]
  | .keyChange _ | .stopChange _ | .linkRelease _ => [.table, .ports, .sched, .figures, .regs]
  | .tremulantTab _ => [.regs, .generators]
  | .registration _ => [.table, .ports, .sched, .figures, .regs, .generators]
  | .transpose _ => [.regs]
  | .expression _ | .stageTimerExpiry _ => [.shutters, .ports]
  | .go _ | .cueResume _ | .cueAbort _ | .waitTimerExpiry => [.memory, .table, .sched, .figures, .generators, .cue, .links]
  | .takeRecord => [.memory, .table, .sched, .figures, .generators, .cue, .links, .ports, .shutters]
  | .tempo _ | .figureStop _ => [.figures]
  | .figureStart _ | .figureSync _ | .stepTimerExpiry _ => [.table, .ports, .sched, .figures]
  | .specBegin _ => [.table, .sched, .figures, .regs, .generators, .cue, .links, .shutters, .ports, .store]
  | .specDivision _ | .specSource _ | .specStop _ | .specChamber _ | .specTremulant _ | .specPort _ | .specFigure _
  | .specCommit _ => [.store]
  | .checkCompletion => [.store, .links, .table, .sched, .shutters, .ports]
  | .silence _ => [.table, .sched, .figures, .regs, .generators, .cue, .links]
  | .configure _ => [.links, .sched]
  | .status _ | .countersRead _ | .countersReadAndClear _ | .queryOutput _ | .cueRead _ | .unknownKind _ => []
  | .cueWrite _ => [.memory]
  | .cueStart _ | .cueSuspend _ => [.cue]
  | .portRestore _ | .offTimerExpiry _ => [.ports, .links]
  | .portDisable _ => [.ports, .table, .sched]
  | .strokeTimerExpiry _ | .restTimerExpiry _ => [.table]
  | .deferralLimitExpiry _ | .holdoverTimerExpiry _ => [.sched]
  | .reiterationDue _ => [.table, .ports, .sched]
  | .phaseTimerExpiry _ => [.generators]
  | .currentRising _ | .currentFalling _ => [.ports]
  | .detectTimerExpiry _ => [.ports, .links, .table, .sched]
  | .supplyDropping => [.supply, .ports, .links, .table, .sched]
  | .supplyRising => [.supply]
  | .dwellTimerExpiry => [.supply, .ports, .links]

theorem Only.listed {c : Instr} {fs : List Field} {s t : State} (h : Only fs s t)
    (sub : (fs.all fun f => decide (f ∈ .counters :: reaches c)) = true := by rfl) : Only (.counters :: reaches c) s t :=
  h.mono fun f hf => of_decide_eq_true (List.all_eq_true.1 sub f hf)

theorem Only.cons {fs : List Field} {s t : State} (f : Field) (h : Only fs s t) : Only (f :: fs) s t :=
  h.mono fun _ => List.mem_cons_of_mem f

theorem Only.append_right {fs gs : List Field} {s t : State} (h : Only gs s t) : Only (fs ++ gs) s t :=
  h.mono fun _ => List.mem_append_right fs

theorem Only.append_left {fs gs : List Field} {s t : State} (h : Only fs s t) : Only (fs ++ gs) s t :=
  h.mono fun _ => List.mem_append_left gs

theorem Only.of_message {l : Link} {t v : State} {c : Instr} (h : MessageEffect l t c v) : Only (.counters :: reaches c) t v := by
  cases h with
  | unchanged => exact Only.refl _ _
  | discarded => exact (bump_only _ _).mono (by simp)
  | ignored => exact (bump_only _ _).mono (by simp)
  | keys d es => exact (Only.foldl (keyEntry_only l d) es t).listed
  | stops es => exact (Only.foldl (stopEntry_only l) es t).listed
  | tabs es => exact (Only.foldl (tabEntry_only l) es t).listed
  | registration b => exact (replaceRegistration_only l b t).listed
  | transpose v => exact (requestTransposition_only l v t).listed
  | expression k p => exact (writeChannel_only k p t).listed
  | go => exact (takeGo_only t).listed
  | tempo n => exact (setTempo_only n t).listed
  | specBegin blank =>
    exact (Only.ite (stopAllPlaying_only t) (Only.refl _ _)).listed.trans (beginLoading_only blank _).listed
  | divisions | sources | specStops | chambers | tremulants | ports | figures => exact (modTables_only t _).listed
  | commit => exact (store_only t fun x => { x with engine := .checking, checkBegan := some t.now }).listed
  | silence => exact (silenceEffects_only _ t).listed
  | release => exact (releaseKeys_only l t).listed.trans (takeTransposition_only l _).listed
  | configure fields b => exact (configureLink_only l b t).listed
  | clear => exact (clearCounters_only t).listed
  | cueWrite fields w => exact (memory_only t fun m => m.set w.index (some { state := .written, body := w.body })).listed
  | cueStart | cueSuspend => exact (modCue_only t _).listed
  | cueResume sub => exact (resumeCue_only l sub t).listed
  | cueAbort => exact (abortCue_only t).listed
  | figureStart f => exact (startFigure_only f _ t).listed
  | figureStop f => exact (removeFigureOwner_only _ f t).listed
  | figureSync fs => exact (Only.foldl (syncPlayer_only fs) _ t).listed
  | restore p => exact (restorePort_only p [] t).listed
  | disable p => exact (disablePort_only p t).listed
  | fullReset => exact (modLink_only t l _).listed

theorem powerOn_only (s : State) (rate : LinkRate) (supply : Supply) (ports : List Port) :
    Only [.links, .counters, .table, .sched, .ports, .rate, .store, .regs, .figures, .generators, .shutters, .supply, .memory, .cue] s
      { State.reset with now := s.now, rate := rate, supply := supply, ports := ports, pending := s.pending } := by
  intro x hx
  cases x <;> first | rfl | exact absurd (by decide) hx

theorem Only.of_own {s v : State} {c : Instr} (h : OwnEffect s c v) : Only (.counters :: reaches c) s v := by
  cases h with
  | powerOn => exact (powerOn_only _ _ _ _).listed
  | byteArrival l b => exact (receiveByte_only l b s).listed
  | cut l => exact (setReceiver_only _ _ _).listed.trans (bump_only _ _).listed
  | loss l c e hc => rcases hc with rfl | ⟨rfl, -⟩ <;> exact (loseLink_only l s).listed
  | reset l c hc => rcases hc with rfl | rfl <;> exact (resetPart_only l true s).listed
  | sent l => exact (endTransmission_only l s).listed
  | passed => exact (enterReady_only s).listed
  | failed f => exact (failCheck_only f s).listed
  | struck a => exact (setStroke_only s a _).listed
  | rested a c k hc => rcases hc with rfl | rfl <;> exact (setStroke_only s a _).listed
  | late a => exact (dequeue_only a s).listed.trans (bump_only _ _).listed
  | reiterated a n => exact (rearm_only a n s).listed.trans (requestStrike_only a _).listed
  | heldOver i => exact (modDamper_only s i _).listed
  | stepped p run => exact (endStep_only p run s).listed
  | turned j => exact (modGenerator_only s j _).listed
  | staged c => exact (modChamber_only s c _).listed.trans (stepChamber_only c _).listed
  | rising p => exact (modPort_only s p _).listed.trans (startDetect_only p _).listed
  | falling p => exact (modPort_only s p _).listed
  | tripped p pt e => exact (tripPort_only p e pt s).listed
  | restored p pt => exact (restorePort_only p _ s).listed
  | supplyFell => exact (supplyFails_only s).listed
  | dwelling c d hc => rcases hc with rfl | rfl <;> exact (supply_only s fun x => { x with dwell := d }).listed
  | supplyRose => exact (supplyReturns_only s).listed
  | record => exact (takeCurrent_only s).listed
  | waited => exact (completeCurrent_only s).listed

theorem Effect.only {c : Instr} {s u : State} (h : Effect c s u) : Only (.links :: .counters :: reaches c) s u := by
  have head : ∀ l, Only (.links :: .counters :: reaches c) s (takeHead l s) := fun l => (takeHead_only l s).mono (by simp)
  cases h with
  | played l m v _ hv => exact (head l).trans ((Only.of_message hv).cons _)
  | answered l m p v _ _ hv => exact ((head l).trans ((Only.of_message hv).cons _)).trans ((addPlace_only l p v).mono (by simp))
  | own v hv => exact (Only.of_own hv).cons _

/-- A command reaches the fields of its list and those that the end of any event may reach, and no other. -/
theorem exec_only {c : Instr} {s t : State} (h : exec c s = .next t) : Only (endFields ++ reaches c) s t := by
  rcases exec_effect h with rfl | ⟨serve, u, hu, rfl⟩
  · exact Only.refl _ _
  · exact (hu.only.mono (by simp +contextual [endFields])).trans (finish_only serve u).append_left

/-! ## What stands through a command -/

/-- Settles O16: no other command's list has cue memory. -/
theorem cueMemoryIsKeptByEveryOtherCommand : Obligations.CueMemoryIsKeptByEveryOtherCommand := by
  intro c s t h hmsg hrecord hwait hpower
  refine (exec_only h).memory ?_
  cases c with
  | cueWrite l => exact absurd rfl (hmsg l).1
  | go l => exact absurd rfl (hmsg l).2.1
  | cueResume l => exact absurd rfl (hmsg l).2.2.1
  | cueAbort l => exact absurd rfl (hmsg l).2.2.2
  | takeRecord => exact absurd rfl hrecord
  | waitTimerExpiry => exact absurd rfl hwait
  | powerOn r u o => exact absurd rfl (hpower r u o)
  | _ => simp [endFields, reaches]

end Sys2Proof.Machine
end

