-- ==== Sys2Proof/Proofs/Registrations.lean ====
section
/-! PROOF. What the operations on a registration block make of the two blocks (02 The registration block; Two links together). Each
operation rewrites its own link's block by a function of that block alone, named here; `Rewrites` says so, and composes along the
entries of a message. -/

namespace Sys2Proof.Machine

-- One theorem after another, so that the compile needs few threads.
set_option Elab.async false

/-! ## Rewriting one block -/

/-- Of the two registration blocks the second state has the link's rewritten, and the other as it was. -/
def Rewrites (l : Link) (f : Registration → Registration) (s t : State) : Prop := t.regs = (s.modReg l f).regs

theorem Rewrites.reg_same {l : Link} {f : Registration → Registration} {s t : State} (h : Rewrites l f s t) : t.reg l = f (s.reg l) := by
  rw [State.reg_of_regs h, State.reg_modReg_same]

theorem Rewrites.reg_of_ne {l m : Link} {f : Registration → Registration} {s t : State} (h : Rewrites l f s t) (hm : m ≠ l) :
    t.reg m = s.reg m := by
  rw [State.reg_of_regs h, State.reg_modReg_of_ne _ hm]

theorem Rewrites.reg_other {l : Link} {f : Registration → Registration} {s t : State} (h : Rewrites l f s t) :
    t.reg (otherLink l) = s.reg (otherLink l) := h.reg_of_ne (otherLink_ne l)

theorem rewrites_iff {l : Link} {f : Registration → Registration} {s t : State} :
    Rewrites l f s t ↔ t.reg l = f (s.reg l) ∧ t.reg (otherLink l) = s.reg (otherLink l) := by
  refine ⟨fun h => ⟨h.reg_same, h.reg_other⟩, fun ⟨hs, ho⟩ => Pair.ext_get fun m => ?_⟩
  show t.reg m = (s.modReg l f).reg m
  by_cases hm : m = l
  · rw [hm, hs, State.reg_modReg_same]
  · have e : m = otherLink l := by revert hm; cases l <;> cases m <;> simp [otherLink]
    rw [e, ho, State.reg_modReg_of_ne _ (otherLink_ne l)]

theorem Rewrites.trans {l : Link} {f g : Registration → Registration} {s t u : State} (h : Rewrites l f s t) (k : Rewrites l g t u) :
    Rewrites l (g ∘ f) s u :=
  rewrites_iff.2 ⟨by rw [k.reg_same, h.reg_same, Function.comp], by rw [k.reg_other, h.reg_other]⟩

theorem Rewrites.then_only {l : Link} {f : Registration → Registration} {fs : List Field} {s t u : State} (h : Rewrites l f s t)
    (k : Only fs t u) (hf : Field.regs ∉ fs := by decide) : Rewrites l f s u := (k.regs hf).trans h

theorem rewrites_of_only {fs : List Field} {s t : State} (l : Link) (k : Only fs s t) (hf : Field.regs ∉ fs := by decide) :
    Rewrites l id s t :=
  rewrites_iff.2 ⟨State.reg_of_regs (k.regs hf) l, State.reg_of_regs (k.regs hf) _⟩

theorem rewrites_modReg (l : Link) (f : Registration → Registration) (s : State) : Rewrites l f s (s.modReg l f) := rfl

/-- Entries that each rewrite the link's block, while the tables stand. -/
theorem rewrites_foldl {α : Type} {l : Link} {f : State → α → Registration → Registration} {g : State → α → State}
    (hg : ∀ s x, Rewrites l (f s x) s (g s x)) (hstore : ∀ s x, (g s x).store = s.store)
    (hf : ∀ s t x, t.store = s.store → f t x = f s x) :
    ∀ (xs : List α) (s : State), Rewrites l (fun r => xs.foldl (fun q x => f s x q) r) s (xs.foldl g s)
  | [], s => rewrites_of_only l (Only.refl [] s)
  | x :: xs, s => by
    have h := (hg s x).trans (rewrites_foldl hg hstore hf xs (g s x))
    have e : (fun (q : Registration) y => f (g s x) y q) = fun q y => f s y q := by
      funext q y
      rw [hf s (g s x) y (hstore s x)]
    rw [e] at h
    exact h

/-! ## The rewritings -/

/-- A key goes to a level (R27). -/
def Registration.press (d k : Nat) (b : Level) (r : Registration) : Registration := { r with keys := r.keys.set (keyPlace d k) b }

/-- The requested transposition is taken where no key is held (R33, R35). -/
def Registration.taken (r : Registration) : Registration := if r.holdsNoKey then { r with effective := r.requested } else r

/-- A stop joins the drawn ones (R30). -/
def Registration.draw (i : Nat) (r : Registration) : Registration := { r with stops := insertMember i r.stops }

/-- A stop leaves the drawn ones (R30). -/
def Registration.cancel (i : Nat) (r : Registration) : Registration := { r with stops := r.stops.filter fun j => !decide (j = i) }

/-- A tab is turned (R31). -/
def Registration.tab (j : Nat) (on : Bool) (r : Registration) : Registration :=
  if r.tabs.contains j = on then r
  else { r with tabs := if on then insertMember j r.tabs else r.tabs.filter fun i => !decide (i = j) }

/-- A transposition is requested (R34). -/
def Registration.request (v : Int) (r : Registration) : Registration :=
  ({ r with requested := max (-6) (min 6 v) } : Registration).taken

/-- A held key is released (R36). -/
def Registration.lift (d k : Nat) (r : Registration) : Registration :=
  if r.level d k = .released then r else r.press d k .released

/-- Every held key is released, in ascending division and key order (R36). -/
def Registration.lifted (r : Registration) : Registration :=
  (List.range 6).foldl (fun q d => allKeys.foldl (fun p k => p.lift d k) q) r

/-! ## The operations -/

theorem setKey_rewrites (l : Link) (d k : Nat) (b : Level) (s : State) : Rewrites l (.press d k b) s (setKey l d k b s) :=
  (rewrites_modReg l _ s).then_only (Only.foldl (changeUnderStop_only l d k _ b) _ _)

theorem takeTransposition_rewrites (l : Link) (s : State) : Rewrites l .taken s (takeTransposition l s) := by
  unfold takeTransposition
  split
  next h =>
    refine rewrites_iff.2 ⟨?_, State.reg_modReg_of_ne _ (otherLink_ne l) _⟩
    rw [State.reg_modReg_same, Registration.taken, if_pos h]
  next h => exact rewrites_iff.2 ⟨by rw [Registration.taken, if_neg h], rfl⟩

theorem drawStop_rewrites {l : Link} {i : Nat} {s : State} {st : Stop} (h : s.stop i = some st) :
    Rewrites l (.draw i) s (drawStop l i s) := by
  unfold drawStop
  rw [h]
  exact (rewrites_modReg l _ s).then_only (Only.foldl (fun t k => handClaim_only l true st k t) _ _)

theorem cancelStop_rewrites {l : Link} {i : Nat} {s : State} {st : Stop} (h : s.stop i = some st) :
    Rewrites l (.cancel i) s (cancelStop l i s) := by
  unfold cancelStop
  rw [h]
  exact (rewrites_modReg l _ s).then_only (Only.foldl (fun t k => handClaim_only l false st k t) _ _)

theorem setTab_rewrites (l : Link) (j : Nat) (on : Bool) (s : State) : Rewrites l (.tab j on) s (setTab l j on s) := by
  unfold setTab
  split
  next h => exact rewrites_iff.2 ⟨by rw [Registration.tab, if_pos h], rfl⟩
  next h =>
    refine Rewrites.then_only (t := s.modReg l (.tab j on)) (rewrites_modReg l _ s) ?_ (fs := [.generators])
    have e : s.modReg l (.tab j on) = s.modReg l fun r =>
        { r with tabs := if on then insertMember j r.tabs else r.tabs.filter fun i => !decide (i = j) } := by
      unfold State.modReg
      rw [Registration.tab, if_neg h]
    rw [e]
    exact judgeDemand_only _ _ _

theorem requestTransposition_rewrites (l : Link) (v : Int) (s : State) :
    Rewrites l (.request v) s (requestTransposition l v s) :=
  (rewrites_modReg l _ s).trans (takeTransposition_rewrites l _)

theorem releaseKeys_rewrites (l : Link) (s : State) : Rewrites l .lifted s (releaseKeys l s) := by
  refine rewrites_foldl (f := fun _ d r => allKeys.foldl (fun p k => p.lift d k) r) (fun t d => ?_) (fun t d => ?_) (fun _ _ _ _ => rfl) _ s
  · refine rewrites_foldl (f := fun _ k r => r.lift d k) (fun u k => ?_) (fun u k => ?_) (fun _ _ _ _ => rfl) _ t
    · split
      next h => exact rewrites_iff.2 ⟨by rw [Registration.lift, if_pos h], rfl⟩
      next h =>
        have hk := setKey_rewrites l d k .released u
        exact rewrites_iff.2 ⟨by rw [hk.reg_same, Registration.lift, if_neg h], hk.reg_other⟩
    · split
      · rfl
      · exact (setKey_only l d k .released u).store
  · refine (Only.foldl (fs := [.table, .ports, .counters, .sched, .figures, .regs]) (fun u k => ?_) _ t).store
    exact Only.ite (Only.refl _ _) (setKey_only l d k .released u)

/-! ## The entries of a message -/

/-- An entry of a KEY CHANGE at a key that exists presses it and takes the transposition where no key is held then (R27, R35). -/
def State.keyed (s : State) (d : Nat) (e : Nat × Level) (r : Registration) : Registration :=
  match s.division d with
  | some count => if e.1 < count then (r.press d e.1 e.2).taken else r
  | none => r

theorem State.division_of_store {s t : State} (h : t.store = s.store) (d : Nat) : t.division d = s.division d := by
  unfold State.division
  rw [h]

theorem State.stop_of_store {s t : State} (h : t.store = s.store) (i : Nat) : t.stop i = s.stop i := by
  unfold State.stop
  rw [h]

theorem keyEntry_rewrites (l : Link) (d : Nat) (s : State) (e : Nat × Level) : Rewrites l (s.keyed d e) s (keyEntry l d s e) := by
  unfold keyEntry State.keyed
  cases s.division d with
  | none => exact rewrites_of_only l (bump_only s _)
  | some count =>
    by_cases h : e.1 < count
    · simp only [h, if_true]
      exact Rewrites.trans (g := .taken) (setKey_rewrites l d e.1 e.2 s) (takeTransposition_rewrites l _)
    · simp only [h, if_false]
      exact rewrites_of_only l (bump_only s _)

theorem keyEntries_rewrites (l : Link) (d : Nat) (es : List (Nat × Level)) (s : State) :
    Rewrites l (fun r => es.foldl (fun q e => s.keyed d e q) r) s (es.foldl (keyEntry l d) s) :=
  rewrites_foldl (keyEntry_rewrites l d) (fun t e => (keyEntry_only l d t e).store)
    (fun _ _ e h => by funext r; unfold State.keyed; rw [State.division_of_store h]) es s

/-- An entry of a STOP CHANGE that names a stop draws or cancels it (R30). -/
def State.stopped (s : State) (e : Nat × Option Bool) (r : Registration) : Registration :=
  match s.stop e.1, e.2 with
  | some _, some drawn => if r.stops.contains e.1 = drawn then r else if drawn then r.draw e.1 else r.cancel e.1
  | none, _ | some _, none => r

theorem stopEntry_rewrites (l : Link) (s : State) (e : Nat × Option Bool) : Rewrites l (s.stopped e) s (stopEntry l s e) := by
  unfold stopEntry State.stopped
  cases h : s.stop e.1 with
  | none => exact rewrites_of_only l (bump_only s _)
  | some st =>
    cases e.2 with
    | none => exact rewrites_of_only l (bump_only s _)
    | some drawn =>
      refine rewrites_iff.2 ?_
      dsimp only
      by_cases hc : (s.reg l).stops.contains e.1 = drawn
      · rw [if_pos hc, if_pos hc]
        exact ⟨rfl, rfl⟩
      · rw [if_neg hc, if_neg hc]
        cases drawn with
        | true => exact rewrites_iff.1 (drawStop_rewrites h)
        | false => exact rewrites_iff.1 (cancelStop_rewrites h)

theorem stopEntries_rewrites (l : Link) (es : List (Nat × Option Bool)) (s : State) :
    Rewrites l (fun r => es.foldl (fun q e => s.stopped e q) r) s (es.foldl (stopEntry l) s) :=
  rewrites_foldl (stopEntry_rewrites l) (fun t e => (stopEntry_only l t e).store)
    (fun _ _ e h => by funext r; unfold State.stopped; rw [State.stop_of_store h]) es s

/-- An entry of a TREMULANT TAB that names a tremulant turns its tab (R31). -/
def tabbed (e : Nat × Option Bool) (r : Registration) : Registration :=
  match e.2 with
  | some on => if e.1 < 8 then r.tab e.1 on else r
  | none => r

theorem tabEntry_rewrites (l : Link) (s : State) (e : Nat × Option Bool) : Rewrites l (tabbed e) s (tabEntry l s e) := by
  unfold tabEntry tabbed
  cases e.2 with
  | none => exact rewrites_of_only l (bump_only s _)
  | some on =>
    by_cases h : e.1 < 8
    · simp only [h, if_true]
      exact setTab_rewrites l e.1 on s
    · simp only [h, if_false]
      exact rewrites_of_only l (bump_only s _)

theorem tabEntries_rewrites (l : Link) (es : List (Nat × Option Bool)) (s : State) :
    Rewrites l (fun r => es.foldl (fun q e => tabbed e q) r) s (es.foldl (tabEntry l) s) :=
  rewrites_foldl (tabEntry_rewrites l) (fun t e => (tabEntry_only l t e).store) (fun _ _ _ _ => rfl) es s

/-! ## REGISTRATION -/

/-- Every listed stop that is present joins the drawn ones. -/
def State.drawing (s : State) (i : Nat) (r : Registration) : Registration :=
  match s.stop i with
  | some _ => r.draw i
  | none => r

/-- Every listed stop that is present leaves the drawn ones. -/
def State.cancelling (s : State) (i : Nat) (r : Registration) : Registration :=
  match s.stop i with
  | some _ => r.cancel i
  | none => r

theorem drawStop_rewrites_any (l : Link) (s : State) (i : Nat) : Rewrites l (s.drawing i) s (drawStop l i s) := by
  unfold State.drawing
  cases h : s.stop i with
  | some st => exact drawStop_rewrites h
  | none =>
    unfold drawStop
    rw [h]
    exact rewrites_of_only l (Only.refl [] s)

theorem cancelStop_rewrites_any (l : Link) (s : State) (i : Nat) : Rewrites l (s.cancelling i) s (cancelStop l i s) := by
  unfold State.cancelling
  cases h : s.stop i with
  | some st => exact cancelStop_rewrites h
  | none =>
    unfold cancelStop
    rw [h]
    exact rewrites_of_only l (Only.refl [] s)

/-- The sets that a REGISTRATION lists, as ascending lists of what the specification has (R32). -/
def State.listedStops (s : State) (b : RegistrationBody) : List Nat :=
  (b.stops.filter fun i => (s.stop i).isSome).foldl (fun set i => insertMember i set) []

def listedTabs (b : RegistrationBody) : List Nat :=
  (b.tabs.filter fun j => decide (j < 8)).foldl (fun set j => insertMember j set) []

/-- The registration that a REGISTRATION leaves (R32). -/
def State.registered (s : State) (b : RegistrationBody) (r : Registration) : Registration :=
  let drawn := ((s.listedStops b).filter fun i => !r.stops.contains i).foldl (fun q i => s.drawing i q) r
  let cancelled := (r.stops.filter fun i => !(s.listedStops b).contains i).foldl (fun q i => s.cancelling i q) drawn
  let tabbed := ((List.range 8).filter fun j => r.tabs.contains j != (listedTabs b).contains j).foldl
    (fun q j => q.tab j ((listedTabs b).contains j)) cancelled
  tabbed.request b.transposition

theorem replaceRegistration_rewrites (l : Link) (b : RegistrationBody) (s : State) :
    Rewrites l (fun _ => s.registered b (s.reg l)) s (replaceRegistration l b s) := by
  have hstop : ∀ (t u : State) (i : Nat), u.store = t.store → u.drawing i = t.drawing i := fun t u i h => by
    funext r
    unfold State.drawing
    rw [State.stop_of_store h]
  have hcancel : ∀ (t u : State) (i : Nat), u.store = t.store → u.cancelling i = t.cancelling i := fun t u i h => by
    funext r
    unfold State.cancelling
    rw [State.stop_of_store h]
  have counted := rewrites_of_only l
    (bumpBy_only s (b.stops.length - (b.stops.filter fun i => (s.stop i).isSome).length +
      (b.tabs.length - (b.tabs.filter fun j => decide (j < 8)).length)) .playEntriesIgnored)
  have drawn := counted.trans (rewrites_foldl (drawStop_rewrites_any l) (fun t i => (drawStop_only l i t).store) hstop
    ((s.listedStops b).filter fun i => !(s.reg l).stops.contains i) _)
  have cancelled := drawn.trans (rewrites_foldl (cancelStop_rewrites_any l) (fun t i => (cancelStop_only l i t).store) hcancel
    ((s.reg l).stops.filter fun i => !(s.listedStops b).contains i) _)
  have tabbed := cancelled.trans (rewrites_foldl (f := fun _ j r => r.tab j ((listedTabs b).contains j))
    (fun t j => setTab_rewrites l j ((listedTabs b).contains j) t) (fun t j => (setTab_only l j _ t).store) (fun _ _ _ _ => rfl)
    ((List.range 8).filter fun j => (s.reg l).tabs.contains j != (listedTabs b).contains j) _)
  have all := tabbed.trans (requestTransposition_rewrites l b.transposition _)
  refine rewrites_iff.2 ⟨all.reg_same.trans ?_, all.reg_other⟩
  have hd : ∀ i, (List.foldl (fun t i => drawStop l i t) (s.bumpBy (b.stops.length - (b.stops.filter fun i => (s.stop i).isSome).length +
      (b.tabs.length - (b.tabs.filter fun j => decide (j < 8)).length)) .playEntriesIgnored)
      ((s.listedStops b).filter fun i => !(s.reg l).stops.contains i)).cancelling i = s.cancelling i := fun i =>
    hcancel _ _ i ((Only.foldl (fun t i => drawStop_only l i t) _ _).store.trans rfl)
  simp only [hd]
  rfl

/-! ## The other link -/

/-- Settles O17: each of the six messages rewrites its own link's block alone. -/
theorem aLinksMessagesLeaveTheOtherRegistration : Obligations.ALinksMessagesLeaveTheOtherRegistration := by
  intro l c s t hc h
  have effect : ∀ {m v}, MessageEffect m (takeHead m s) c v → v.reg (otherLink l) = s.reg (otherLink l) := by
    intro m v hv
    have hs : ∀ m, (takeHead m s).reg (otherLink l) = s.reg (otherLink l) := fun m => State.reg_of_regs (takeHead_only m s).regs _
    cases hv with
    | unchanged => exact hs m
    | discarded | ignored => exact hs m
    | keys d es => simp at hc; subst hc; exact (keyEntries_rewrites _ d es _).reg_other.trans (hs _)
    | stops es => simp at hc; subst hc; exact (stopEntries_rewrites _ es _).reg_other.trans (hs _)
    | tabs es => simp at hc; subst hc; exact (tabEntries_rewrites _ es _).reg_other.trans (hs _)
    | registration b => simp at hc; subst hc; exact (replaceRegistration_rewrites _ b _).reg_other.trans (hs _)
    | transpose v => simp at hc; subst hc; exact (requestTransposition_rewrites _ v _).reg_other.trans (hs _)
    | release =>
      simp at hc
      subst hc
      exact ((releaseKeys_rewrites _ _).trans (takeTransposition_rewrites _ _)).reg_other.trans (hs _)
    | _ => simp at hc
  rcases exec_effect h with rfl | ⟨serve, u, hu, rfl⟩
  · rfl
  rw [State.reg_of_regs (finish_only serve u).regs]
  cases hu with
  | played m _ v _ hv => exact effect hv
  | answered m _ p v _ _ hv => exact (State.reg_of_regs (addPlace_only m p v).regs _).trans (effect hv)
  | own v hv =>
    simp only [List.mem_cons, List.not_mem_nil, or_false] at hc
    rcases hc with rfl | rfl | rfl | rfl | rfl | rfl <;> cases hv <;> simp at *

end Sys2Proof.Machine
end

