-- ==== Sys2Proof/Proofs/Relayed.lean ====
section
/-! PROOF. The induction over the operations of playing, packaged once. `Relaying fs R` asks of a relation between states that it holds where
only the fields `fs` differ, that it composes, and that it holds over the few updates from which strikes, figures and claims are made up;
the theorems here give it for every operation made up of them. Each law that the steps keep is such a relation. -/

namespace Sys2Proof.Machine

-- One theorem after another, so that the compile needs few threads.
set_option Elab.async false

/-- The counters that strikes, reiteration and players raise besides "strikes started" (R177). -/
def relayCounters : List Nat := [16, 17, 19, 20]

/-- A relation that holds over the plain updates of strikes, reiteration, dampers and players. -/
structure Relaying (fs : List Field) (R : State → State → Prop) : Prop where
  free : ∀ {s t}, Only fs s t → R s t
  trans : ∀ {s t u}, R s t → R t u → R s u
  count : ∀ s n c, c.index ∈ relayCounters → R s (s.bumpBy n c)
  settle : ∀ s, R s (settle s)
  start : ∀ s a, R s (startStroke a s)
  dequeue : ∀ s a, R s (dequeue a s)
  join : ∀ s a, (∀ e ∈ s.sched.queue, e.out ≠ a) → s.sched.queue.length < 64 →
    R s { s with sched := { s.sched with queue := s.sched.queue ++ [{ out := a, joined := s.now }] } }
  reiterate : ∀ s a n, s.sched.reiterations.length < 64 →
    R s { s with sched := { s.sched with reiterations := s.sched.reiterations ++ [{ out := a, due := s.now + n }] } }
  endReiteration : ∀ s a, R s (endReiteration a s)
  damper : ∀ s i f, R s (s.modDamper i f)
  joins : ∀ s p run o, s.playing p = some run → o ≠ .cue → R s (s.setPlayer p (some { run with owners := run.owners.put o true }))
  begins : ∀ s p f o, (∀ q run, s.playing q = some run → run.figure ≠ f) → s.playing p = none → p < s.figures.players.length →
    o ≠ .cue → R s (s.setPlayer p (some { figure := f, step := 0, expiry := s.now, owners := OwnerSet.only o }))
  steps : ∀ s p run fig k e, s.playing p = some run → s.figure run.figure = some fig → k < fig.steps.length →
    R s (s.setPlayer p (some { run with step := k, expiry := e }))
  leaves : ∀ s p run o, s.playing p = some run → run.owners.has o = true →
    R s (s.setPlayer p (if (run.owners.put o false).isEmpty then none else some { run with owners := run.owners.put o false }))

/-- The same of a relation that holds over every count. -/
structure Relayed (fs : List Field) (R : State → State → Prop) : Prop extends Relaying fs R where
  bump : ∀ s n c, R s (s.bumpBy n c)
  count := fun s n c _ => bump s n c

/-! ## What players the searches find -/

theorem State.playerOf_eq_some {s : State} {f p : Nat} (h : s.playerOf f = some p) : ∃ run, s.playing p = some run ∧ run.figure = f := by
  obtain ⟨hlt, hp, -⟩ := List.findIdx?_eq_some_iff_getElem.1 h
  cases hr : s.figures.players[p] with
  | none => rw [hr] at hp; simp at hp
  | some run =>
    rw [hr] at hp
    refine ⟨run, ?_, by simpa using hp⟩
    unfold State.playing
    rw [List.getElem?_eq_getElem hlt, hr]
    rfl

theorem State.playing_eq_some {s : State} {p : Nat} {run : Run} (h : s.playing p = some run) : s.figures.players[p]? = some (some run) := by
  unfold State.playing at h
  cases hp : s.figures.players[p]? with
  | none => rw [hp] at h; cases h
  | some x =>
    rw [hp] at h
    rw [show x = some run from h]

theorem State.mem_of_playing {s : State} {p : Nat} {run : Run} (h : s.playing p = some run) : some run ∈ s.figures.players :=
  List.mem_of_getElem? (State.playing_eq_some h)

theorem State.playerOf_eq_none {s : State} {f : Nat} (h : s.playerOf f = none) (q : Nat) (run : Run) (hq : s.playing q = some run) :
    run.figure ≠ f := by
  have := (List.findIdx?_eq_none_iff.1 h) (some run) (State.mem_of_playing hq)
  simpa using this

theorem State.idlePlayer_eq_some {s : State} {p : Nat} (h : s.idlePlayer = some p) : s.playing p = none ∧ p < s.figures.players.length := by
  obtain ⟨hlt, hp, -⟩ := List.findIdx?_eq_some_iff_getElem.1 h
  refine ⟨?_, hlt⟩
  unfold State.playing
  rw [List.getElem?_eq_getElem hlt, Option.isNone_iff_eq_none.1 hp]
  rfl

theorem State.playing_of_figures {s t : State} (h : t.figures = s.figures) (p : Nat) : t.playing p = s.playing p := by
  unfold State.playing
  rw [h]

theorem State.figure_of_store {s t : State} (h : t.store = s.store) (f : Nat) : t.figure f = s.figure f := by
  unfold State.figure
  rw [h]

theorem State.playing_setPlayer_same {s : State} {p : Nat} (h : p < s.figures.players.length) (run : Option Run) :
    (s.setPlayer p run).playing p = run := by
  unfold State.playing State.setPlayer
  simp [h]

theorem State.playing_setPlayer_of_ne {s : State} {p q : Nat} (h : q ≠ p) (run : Option Run) :
    (s.setPlayer p run).playing q = s.playing q := by
  unfold State.playing State.setPlayer
  simp [List.getElem?_set_ne (Ne.symm h)]

theorem State.lt_of_playing {s : State} {p : Nat} {run : Run} (h : s.playing p = some run) : p < s.figures.players.length :=
  (List.getElem?_eq_some_iff.1 (State.playing_eq_some h)).1

/-! ## The operations -/

namespace Relaying

variable {fs : List Field} {R : State → State → Prop}

theorem refl (k : Relaying fs R) (s : State) : R s s := k.free (Only.refl _ _)

theorem ite (_k : Relaying fs R) {s t u : State} {c : Prop} [Decidable c] (h : c → R s t) (h' : ¬ c → R s u) : R s (if c then t else u) := by
  split
  next hc => exact h hc
  next hc => exact h' hc

theorem foldl (k : Relaying fs R) {α : Type} {g : State → α → State} (hg : ∀ s x, R s (g s x)) : ∀ (xs : List α) (s : State), R s (xs.foldl g s)
  | [], s => k.refl s
  | x :: xs, s => k.trans (hg s x) (foldl k hg xs (g s x))

/-! ### Strikes -/

theorem queueStrike (k : Relaying fs R) (a : Addr) (s : State) : R s (queueStrike a s) := by
  unfold Machine.queueStrike
  split
  · exact k.count _ _ _ (by decide)
  next hq =>
    split
    · exact k.count _ _ _ (by decide)
    next hf =>
      refine k.join s a (fun e he heq => hq (List.any_eq_true.2 ⟨e, he, by simp [heq]⟩)) ?_
      have : ¬ 64 ≤ s.sched.queue.length := hf
      omega

theorem requestStrike (k : Relaying fs R) (a : Addr) (s : State) : R s (requestStrike a s) := by
  unfold Machine.requestStrike
  exact k.ite (fun _ => k.count _ _ _ (by decide)) fun _ => k.ite (fun _ => k.start _ _) fun _ => k.queueStrike _ _

theorem serveEntry (k : Relaying fs R) (s : State) (e : QueuedStrike) : R s (serveEntry s e) := by
  unfold Machine.serveEntry
  exact k.ite (fun _ => k.trans (k.dequeue _ _) (k.start _ _)) fun _ => k.refl _

theorem serveQueue (k : Relaying fs R) (s : State) : R s (serveQueue s) := k.foldl k.serveEntry _ _

theorem settleAndServe (k : Relaying fs R) (serve : Bool) (s : State) : R s (settleAndServe serve s) := by
  unfold Machine.settleAndServe
  exact k.ite (fun _ => k.trans (k.trans (k.settle _) (k.serveQueue _)) (k.settle _)) fun _ => k.settle _

theorem finish (k : Relaying fs R) (hl : Field.links ∈ fs) (serve : Bool) (s : State) : R s (finish serve s) := by
  have begin : ∀ l t, R t (beginTransmission l t) := fun l t => k.free ((beginTransmission_only l t).mono (by simp [hl]))
  exact k.trans (k.trans (k.settleAndServe serve s) (begin .one _)) (begin .two _)

theorem beginReiteration (k : Relaying fs R) (a : Addr) (n : Nat) (s : State) : R s (beginReiteration a n s) := by
  unfold Machine.beginReiteration
  split
  next h => exact k.trans (k.reiterate s a n h) (k.requestStrike _ _)
  next => exact k.trans (k.count _ _ _ (by decide)) (k.requestStrike _ _)

/-! ### Onsets and releases -/

theorem percussionOnset (k : Relaying fs R) (i : Nat) (a : Addr) (s : State) : R s (percussionOnset i a s) := by
  unfold Machine.percussionOnset
  split
  · exact k.trans (k.damper _ _ _) (k.beginReiteration _ _ _)
  · exact k.trans (k.damper _ _ _) (k.requestStrike _ _)
  · exact k.refl _

theorem damperRelease (k : Relaying fs R) (i : Nat) (s : State) : R s (damperRelease i s) := by
  unfold Machine.damperRelease
  split
  · exact k.damper _ _ _
  · exact k.refl _

theorem percussionRelease (k : Relaying fs R) (i : Nat) (a : Addr) (s : State) : R s (percussionRelease i a s) := by
  unfold Machine.percussionRelease
  split
  · exact k.trans (k.endReiteration _ _) (k.damperRelease _ _)
  · exact k.damperRelease _ _
  · exact k.refl _

theorem trapOnset (k : Relaying fs R) (mode : TrapMode) (a : Addr) (s : State) : R s (trapOnset mode a s) := by
  cases mode with
  | single => exact k.requestStrike a s
  | reiterate n => exact k.beginReiteration a n s
  | hold => exact k.refl s

theorem trapRelease (k : Relaying fs R) (mode : TrapMode) (a : Addr) (s : State) : R s (trapRelease mode a s) := by
  cases mode with
  | single => exact k.refl s
  | reiterate n => exact k.endReiteration s a
  | hold => exact k.refl s

/-! ### Players -/

theorem strikeVoice (k : Relaying fs R) (voices : List Nat) (s : State) (i : Nat) : R s (strikeVoice voices s i) := by
  unfold Machine.strikeVoice
  split
  · exact k.requestStrike _ _
  · exact k.refl _

theorem beginStep (k : Relaying fs R) (p n : Nat) (s : State) : R s (beginStep p n s) := by
  unfold Machine.beginStep
  split
  next run hp =>
    split
    next fig hf =>
      split
      next st hs =>
        have struck := Only.foldl (strikeVoice_only fig.voices) st.voices s
        refine k.trans (k.foldl (k.strikeVoice fig.voices) st.voices s) (k.steps _ p run fig n _ ?_ ?_ ?_)
        · rw [State.playing_of_figures struck.figures, hp]
        · rw [State.figure_of_store struck.store, hf]
        · exact (List.getElem?_eq_some_iff.1 hs).1
      next => exact k.refl _
    next => exact k.refl _
  next => exact k.refl _

theorem startFigureBy (k : Relaying fs R) {o : FigureOwner} {f : Nat} {s : State}
    (hjoin : ∀ p run, s.playing p = some run → run.figure = f → R s (s.setPlayer p (some { run with owners := run.owners.put o true })))
    (hbegin : ∀ p, (∀ q run, s.playing q = some run → run.figure ≠ f) → s.playing p = none → p < s.figures.players.length →
      R s (s.setPlayer p (some { figure := f, step := 0, expiry := s.now, owners := OwnerSet.only o }))) :
    R s (startFigure f o s).1 := by
  unfold Machine.startFigure
  cases hp : s.playerOf f with
  | some p =>
    obtain ⟨run, hr, hf⟩ := State.playerOf_eq_some hp
    dsimp only
    rw [hr]
    exact hjoin p run hr hf
  | none =>
    cases hi : s.idlePlayer with
    | none => exact k.count _ _ _ (by decide)
    | some p =>
      obtain ⟨h0, hlt⟩ := State.idlePlayer_eq_some hi
      exact k.trans (hbegin p (State.playerOf_eq_none hp) h0 hlt) (k.beginStep _ _ _)

theorem startFigure (k : Relaying fs R) {o : FigureOwner} (ho : o ≠ .cue) (f : Nat) (s : State) : R s (startFigure f o s).1 :=
  k.startFigureBy (fun p run hr _ => k.joins s p run o hr ho) fun p hn h0 hlt => k.begins s p f o hn h0 hlt ho

theorem removeOwner (k : Relaying fs R) (o : FigureOwner) (p : Nat) (s : State) : R s (removeOwner o p s) := by
  unfold Machine.removeOwner
  cases hp : s.playing p with
  | none => exact k.refl _
  | some run => exact k.ite (fun h => k.leaves s p run o hp h) fun _ => k.refl _

theorem removeFigureOwner (k : Relaying fs R) (o : FigureOwner) (f : Nat) (s : State) : R s (removeFigureOwner o f s) := by
  unfold Machine.removeFigureOwner
  split
  · exact k.removeOwner _ _ _
  · exact k.refl _

theorem removeOwnerEverywhere (k : Relaying fs R) (o : FigureOwner) (s : State) : R s (removeOwnerEverywhere o s) :=
  k.foldl (fun t p => k.removeOwner o p t) _ _

theorem syncPlayer (k : Relaying fs R) (figures : List Nat) (s : State) (p : Nat) : R s (syncPlayer figures s p) := by
  unfold Machine.syncPlayer
  split
  · exact k.ite (fun _ => k.beginStep _ _ _) fun _ => k.refl _
  · exact k.refl _

theorem endStep (k : Relaying fs R) {p : Nat} {s : State} (hstop : R s (s.setPlayer p none)) (run : Run) : R s (endStep p run s) := by
  unfold Machine.endStep
  split
  · exact k.ite (fun _ => k.beginStep _ _ _) fun _ => k.ite (fun _ => k.beginStep _ _ _) fun _ => hstop
  · exact k.refl _

/-! ### Claims -/

theorem claimOnset (k : Relaying fs R) (i : Nat) (s : State) : R s (claimOnset i s) := by
  unfold Machine.claimOnset
  split
  · exact k.startFigure (by simp) _ _
  · exact k.refl _

theorem claimRelease (k : Relaying fs R) (i : Nat) (s : State) : R s (claimRelease i s) := by
  unfold Machine.claimRelease
  split
  · exact k.ite (fun _ => k.refl _) fun _ => k.removeFigureOwner _ _ _
  · exact k.refl _

theorem reportOnset (k : Relaying fs R) (r : Record) (s : State) : R s (reportOnset r s) := by
  unfold Machine.reportOnset
  split <;> first
    | exact k.percussionOnset _ _ _
    | exact k.trapOnset _ _ _
    | exact k.claimOnset _ _
    | exact k.refl _

theorem reportRelease (k : Relaying fs R) (r : Record) (s : State) : R s (reportRelease r s) := by
  unfold Machine.reportRelease
  split <;> first
    | exact k.percussionRelease _ _ _
    | exact k.trapRelease _ _ _
    | exact k.claimRelease _ _
    | exact k.refl _

theorem reportChange (k : Relaying fs R) (before after : Record) (s : State) : R s (reportChange before after s) := by
  unfold Machine.reportChange
  exact k.ite (fun _ => k.reportOnset _ _) fun _ => k.ite (fun _ => k.reportRelease _ _) fun _ => k.refl _

theorem countClaim (k : Relaying fs R) {x : Target} {f : Record → Record} {s : State}
    (hc : ∀ r, s.record x = some r → R s (s.modRecord x fun _ => f r)) : R s (countClaim x f s) := by
  unfold Machine.countClaim
  cases hr : s.record x with
  | none => exact k.refl _
  | some r => exact k.trans (hc r hr) (k.reportChange _ _ _)

theorem rewriteCounts (k : Relaying fs R) {f : Record → Record} {s : State} (h : R s { s with table := s.table.map f }) :
    R s (rewriteCounts f s) := by
  unfold Machine.rewriteCounts
  exact k.trans h (k.foldl (fun t r => k.reportRelease (f r) t) _ _)

end Relaying

/-- A relation that holds where a link's count on a record moves by one. -/
def CountsMove (l : Link) (R : State → State → Prop) : Prop :=
  ∀ s x r add, s.record x = some r → R s (s.modRecord x fun _ => r.countLink l add)

/-- A relation that holds where a link's tab is turned. -/
def TabsTurn (l : Link) (R : State → State → Prop) : Prop := ∀ s j on, R s (setTab l j on s)

/-! ## The registration blocks -/

namespace Relaying

variable {fs : List Field} {R : State → State → Prop} {l : Link}

theorem handClaim (k : Relaying fs R) (hc : CountsMove l R) (add : Bool) (st : Stop) (key : Nat) (s : State) :
    R s (handClaim l add st key s) := by
  unfold Machine.handClaim
  split
  next x _ => exact k.countClaim fun r hr => hc s x r add hr
  next => exact k.refl _

theorem changeUnderStop (k : Relaying fs R) (hc : CountsMove l R) (d key : Nat) (a b : Level) (s : State) (i : Nat) :
    R s (changeUnderStop l d key a b s i) := by
  unfold Machine.changeUnderStop
  split
  · exact k.ite (fun _ => k.ite (fun _ => k.handClaim hc _ _ _ _) fun _ => k.ite (fun _ => k.handClaim hc _ _ _ _) fun _ => k.refl _)
      fun _ => k.refl _
  · exact k.refl _

theorem modReg (k : Relaying fs R) (hr : Field.regs ∈ fs) (m : Link) (f : Registration → Registration) (s : State) : R s (s.modReg m f) :=
  k.free ((modReg_only s m f).mono (by simp [hr]))

theorem setKey (k : Relaying fs R) (hc : CountsMove l R) (hr : Field.regs ∈ fs) (d key : Nat) (b : Level) (s : State) :
    R s (setKey l d key b s) :=
  k.trans (k.modReg hr _ _ _) (k.foldl (k.changeUnderStop hc d key _ b) _ _)

theorem drawStop (k : Relaying fs R) (hc : CountsMove l R) (hr : Field.regs ∈ fs) (i : Nat) (s : State) : R s (drawStop l i s) := by
  unfold Machine.drawStop
  split
  · exact k.trans (k.modReg hr _ _ _) (k.foldl (fun t key => k.handClaim hc true _ key t) _ _)
  · exact k.refl _

theorem cancelStop (k : Relaying fs R) (hc : CountsMove l R) (hr : Field.regs ∈ fs) (i : Nat) (s : State) : R s (cancelStop l i s) := by
  unfold Machine.cancelStop
  split
  · exact k.trans (k.modReg hr _ _ _) (k.foldl (fun t key => k.handClaim hc false _ key t) _ _)
  · exact k.refl _

theorem releaseKeys (k : Relaying fs R) (hc : CountsMove l R) (hr : Field.regs ∈ fs) (s : State) : R s (releaseKeys l s) :=
  k.foldl (fun t d => k.foldl (fun u key => k.ite (fun _ => k.refl u) fun _ => k.setKey hc hr d key .released u) _ t) _ s

theorem takeTransposition (k : Relaying fs R) (hr : Field.regs ∈ fs) (s : State) : R s (takeTransposition l s) :=
  k.free ((takeTransposition_only l s).mono (by simp [hr]))

theorem tabsTurn (k : Relaying fs R) (hr : Field.regs ∈ fs) (hg : Field.generators ∈ fs) (l : Link) : TabsTurn l R :=
  fun s j on => k.free ((setTab_only l j on s).mono (by simp [hr, hg]))

theorem requestTransposition (k : Relaying fs R) (hr : Field.regs ∈ fs) (v : Int) (s : State) : R s (requestTransposition l v s) :=
  k.free ((requestTransposition_only l v s).mono (by simp [hr]))

/-- The teardown of a lost link but for what it tells (R171, R40, R100). -/
theorem emptiedLink (k : Relaying fs R) (hc : CountsMove l R) (hl : Field.links ∈ fs) (hr : Field.regs ∈ fs) (ht : TabsTurn l R)
    (s : State) : R s (emptiedLink l s) := by
  have links : ∀ (f : LinkIf → LinkIf) t, R t (t.modLink l f) := fun f t => k.free ((modLink_only t l f).mono (by simp [hl]))
  unfold Machine.emptiedLink
  dsimp only
  refine k.trans ?_ (links _ _)
  refine k.trans ?_ (k.removeOwnerEverywhere _ _)
  refine k.trans ?_ (k.modReg hr _ _ _)
  refine k.trans ?_ (k.foldl (fun t j => ht t j false) _ _)
  exact k.trans (k.trans (links _ _) (k.releaseKeys hc hr _)) (k.modReg hr _ _ _)

end Relaying

/-! ### Messages, with the entries they ignore -/

namespace Relayed

variable {fs : List Field} {R : State → State → Prop} {l : Link}

theorem keyEntry (k : Relayed fs R) (hc : CountsMove l R) (hr : Field.regs ∈ fs) (d : Nat) (s : State) (e : Nat × Level) :
    R s (keyEntry l d s e) := by
  unfold Machine.keyEntry
  split
  · exact k.ite (fun _ => k.trans (k.setKey hc hr _ _ _ _) (k.takeTransposition hr _)) fun _ => k.bump _ _ _
  · exact k.bump _ _ _

theorem stopEntry (k : Relayed fs R) (hc : CountsMove l R) (hr : Field.regs ∈ fs) (s : State) (e : Nat × Option Bool) :
    R s (stopEntry l s e) := by
  unfold Machine.stopEntry
  split
  · exact k.ite (fun _ => k.refl _) fun _ => k.ite (fun _ => k.drawStop hc hr _ _) fun _ => k.cancelStop hc hr _ _
  all_goals exact k.bump _ _ _

theorem tabEntry (k : Relayed fs R) (ht : TabsTurn l R) (s : State) (e : Nat × Option Bool) :
    R s (tabEntry l s e) := by
  unfold Machine.tabEntry
  split
  · exact k.ite (fun _ => ht _ _ _) fun _ => k.bump _ _ _
  · exact k.bump _ _ _

theorem replaceRegistration (k : Relayed fs R) (hc : CountsMove l R) (hr : Field.regs ∈ fs) (ht : TabsTurn l R)
    (b : RegistrationBody) (s : State) : R s (replaceRegistration l b s) := by
  unfold Machine.replaceRegistration
  dsimp only
  refine k.trans ?_ (k.requestTransposition hr _ _)
  refine k.trans ?_ (k.foldl (fun t j => ht t j _) _ _)
  refine k.trans ?_ (k.foldl (fun t i => k.cancelStop hc hr i t) _ _)
  refine k.trans ?_ (k.foldl (fun t i => k.drawStop hc hr i t) _ _)
  exact k.bump _ _ _

end Relayed

end Sys2Proof.Machine
end

