-- ==== Sys2Proof/Proofs/CueDriven.lean ====
section
/-! PROOF. The induction over playing, carried on to the cue unit (08) and to the messages and events whose effect is made of nothing but
relayed operations. -/

namespace Sys2Proof.Machine

-- One theorem after another, so that the compile needs few threads.
set_option Elab.async false

/-- A relation that holds over the relayed operations, and over what the cue unit does besides them. -/
structure CueDriven (fs : List Field) (R : State → State → Prop) : Prop extends Relayed fs R where
  joinsCue : ∀ s p run, s.playing p = some run → R s (s.setPlayer p (some { run with owners := run.owners.put .cue true }))
  beginsCue : ∀ s p f, (∀ q run, s.playing q = some run → run.figure ≠ f) → s.playing p = none → p < s.figures.players.length →
    R s (s.setPlayer p (some { figure := f, step := 0, expiry := s.now, owners := OwnerSet.only .cue }))
  notify : ∀ s l n, R s (s.notify l n)
  mark : ∀ s i st, R s (markRecord i st s)
  modCue : ∀ s f, R s (s.modCue f)
  cueFlag : ∀ s j on, R s (setCueFlag j on s)
  withoutCue : ∀ s, R s { s with table := s.table.map Record.withoutCue }
  countCue : ∀ s x r on, s.record x = some r → R s (s.modRecord x fun _ => r.countCue on)

namespace CueDriven

variable {fs : List Field} {R : State → State → Prop}

theorem notifyAll (k : CueDriven fs R) (n : Notice) (s : State) : R s (s.notifyAll n) := k.trans (k.notify _ _ _) (k.notify _ _ _)

theorem clearCueFlags (k : CueDriven fs R) (s : State) : R s (clearCueFlags s) := k.foldl (fun t j => k.cueFlag t j false) _ _

theorem cueGoesIdle (k : CueDriven fs R) (reason : StopReason) (s : State) : R s (cueGoesIdle reason s) := by
  have claims : R s (rewriteCounts Record.withoutCue (s.modCue fun c => { c with state := .idle })) :=
    k.trans (k.modCue _ _) (k.rewriteCounts (k.withoutCue _))
  have owners := k.trans (k.trans claims (k.clearCueFlags _)) (k.removeOwnerEverywhere .cue _)
  exact k.trans (k.trans owners (k.modCue _ _)) (k.notifyAll _ _)

theorem startFigureCue (k : CueDriven fs R) (f : Nat) (s : State) : R s (startFigure f .cue s).1 :=
  k.startFigureBy (fun p run hr _ => k.joinsCue s p run hr) fun p hn h0 hlt => k.beginsCue s p f hn h0 hlt

theorem instantAction (k : CueDriven fs R) {action : Action} {s : State} (htempo : ∀ n, action = .tempo n → R s (setTempo n s))
    (hexpress : ∀ c p, action = .express c p → R s (writeChannel c p s)) : R s (instantAction action s) := by
  cases action with
  | strike source note =>
    dsimp only [Machine.instantAction]
    split
    · exact k.requestStrike _ _
    all_goals exact k.refl _
  | hold source note on =>
    dsimp only [Machine.instantAction]
    split
    · exact k.countClaim fun r hr => k.countCue _ _ r on hr
    · exact k.refl _
  | figure f on =>
    cases on with
    | true => exact k.startFigureCue f s
    | false => exact k.removeFigureOwner .cue f s
  | express c p => exact hexpress c p rfl
  | tempo n => exact htempo n rfl
  | tremulant j on => exact k.cueFlag s j on
  | wait d => exact k.refl s
  | awaitGo => exact k.refl s

theorem completeRecord (k : CueDriven fs R) (i : Nat) (body : CueBody) (atTaking : Bool) (s : State) :
    R s (completeRecord i body atTaking s) := by
  unfold Machine.completeRecord
  dsimp only
  have done : R s ((markRecord i .done s).modCue fun c =>
      { c with lastCompleted := some i, runCount := if atTaking then c.runCount + 1 else c.runCount }) :=
    k.trans (k.mark _ _ _) (k.modCue _ _)
  have told := k.ite (c := body.indicate = true) (fun _ => k.trans done (k.notifyAll (.cueDone i) _)) fun _ => done
  cases body.next with
  | none => exact k.trans (k.trans told (k.modCue _ _)) (k.cueGoesIdle _ _)
  | some next =>
    refine k.ite (fun _ => k.trans told (k.modCue _ _)) fun _ => k.ite (fun _ => ?_) fun _ => k.trans told (k.modCue _ _)
    exact k.trans (k.trans (k.trans told (k.modCue _ _)) (k.bump _ _ _)) (k.cueGoesIdle _ _)

theorem completeCurrent (k : CueDriven fs R) (s : State) : R s (completeCurrent s) := by
  unfold Machine.completeCurrent
  split
  · split
    · exact k.completeRecord _ _ _ _
    · exact k.refl _
  · exact k.refl _

/-- The tempo and the channels that a record of the memory may write are taken by the relation. -/
def Writes (R : State → State → Prop) (s : State) : Prop :=
  ∀ i r, s.cueRecord i = some r →
    (∀ n, r.body.action = .tempo n → R s (setTempo n s)) ∧ ∀ c p, r.body.action = .express c p → R s (writeChannel c p s)

theorem carryOut (k : CueDriven fs R) {i : Nat} {body : CueBody} {s : State} (htempo : ∀ n, body.action = .tempo n → R s (setTempo n s))
    (hexpress : ∀ c p, body.action = .express c p → R s (writeChannel c p s)) : R s (carryOut i body s) := by
  unfold Machine.carryOut
  split
  · exact k.modCue _ _
  · exact k.ite (fun _ => k.trans (k.modCue _ _) (k.completeRecord _ _ _ _)) fun _ => k.modCue _ _
  · exact k.trans (k.instantAction htempo hexpress) (k.completeRecord _ _ _ _)

theorem takeCurrent (k : CueDriven fs R) {s : State} (hw : Writes R s) : R s (takeCurrent s) := by
  unfold Machine.takeCurrent
  split
  next i _ =>
    split
    · exact k.cueGoesIdle _ _
    next r hr =>
      obtain ⟨htempo, hexpress⟩ := hw i r hr
      exact k.ite (fun _ => k.carryOut htempo hexpress) fun _ => k.trans (k.mark _ _ _) (k.cueGoesIdle _ _)
  · exact k.refl _

theorem takeGo (k : CueDriven fs R) (s : State) : R s (takeGo s) := by
  unfold Machine.takeGo
  split
  · exact k.completeCurrent _
  · exact k.bump _ _ _
  all_goals exact k.ite (fun _ => k.bump _ _ _) fun _ => k.modCue _ _

theorem resumeCue (k : CueDriven fs R) (l : Link) (sub : SubState) (s : State) : R s (resumeCue l sub s) := by
  unfold Machine.resumeCue
  dsimp only
  split
  · exact k.trans (k.modCue _ _) (k.modCue _ _)
  · exact k.ite (fun _ => k.trans (k.modCue _ _) (k.completeCurrent _)) fun _ => k.trans (k.modCue _ _) (k.modCue _ _)
  · exact k.ite (fun _ => k.trans (k.trans (k.modCue _ _) (k.modCue _ _)) (k.completeCurrent _)) fun _ =>
      k.trans (k.modCue _ _) (k.modCue _ _)

theorem abortCue (k : CueDriven fs R) (s : State) : R s (abortCue s) := by
  unfold Machine.abortCue
  split
  · exact k.trans (k.mark _ _ _) (k.cueGoesIdle _ _)
  all_goals exact k.cueGoesIdle _ _

theorem cueOwnerLost (k : CueDriven fs R) (l : Link) (s : State) : R s (cueOwnerLost l s) := by
  unfold Machine.cueOwnerLost
  exact k.ite (fun _ => k.trans (k.modCue _ _) (k.notifyAll _ _)) fun _ => k.refl _

theorem tellLoss (k : CueDriven fs R) (l : Link) (s : State) : R s (tellLoss l s) := by
  unfold Machine.tellLoss
  exact k.ite (fun _ => k.trans (k.notify _ _ _) (k.cueOwnerLost _ _)) fun _ => k.trans (k.cueOwnerLost _ _) (k.notify _ _ _)

theorem loseLink (k : CueDriven fs R) {l : Link} {s : State} (hempty : R s (emptiedLink l s))
    (hreset : ∀ t, (s.link l).resetPending = true → R s t → R s (resetPart l false t)) : R s (loseLink l s) := by
  rw [loseLink_eq]
  have told := k.trans (k.trans hempty (k.tellLoss l _)) (k.bump _ 1 (.linkLosses l))
  exact k.ite (fun h => hreset _ h told) fun _ => told

theorem silenceEffects (k : CueDriven fs R) {s : State} (h : R s (silencedPart s)) (reason : StopReason) :
    R s (silenceEffects reason s) := by
  rw [silenceEffects_eq]
  exact k.ite (fun _ => k.trans h (k.cueGoesIdle _ _)) fun _ => h

/-! ## Whole messages -/

/-- The messages whose effect is made of relayed operations and what the cue unit does besides. -/
def playing : Instr → Bool
  | .keyChange _ | .stopChange _ | .tremulantTab _ | .registration _ | .transpose _ | .linkRelease _ | .go _ | .cueResume _ | .cueAbort _
  | .figureStart _ | .figureStop _ | .figureSync _ | .cueStart _ | .cueSuspend _ => true
  | _ => false

theorem message (k : CueDriven fs R) (hregs : Field.regs ∈ fs) (ht : ∀ l, TabsTurn l R) (hc : ∀ l, CountsMove l R)
    {l : Link} {t v : State} {c : Instr} (h : MessageEffect l t c v) (hp : playing c = true) : R t v := by
  cases h with
  | unchanged => exact k.refl _
  | discarded => exact k.bump _ _ _
  | ignored => exact k.bump _ _ _
  | keys d es => exact k.foldl (k.keyEntry (hc l) hregs d) es t
  | stops es => exact k.foldl (k.stopEntry (hc l) hregs) es t
  | tabs es => exact k.foldl (k.tabEntry (ht l)) es t
  | registration b => exact k.replaceRegistration (hc l) hregs (ht l) b t
  | transpose v => exact k.requestTransposition hregs v t
  | release => exact k.trans (k.releaseKeys (hc l) hregs t) (k.takeTransposition hregs _)
  | go => exact k.takeGo t
  | cueStart | cueSuspend => exact k.modCue _ _
  | cueResume sub => exact k.resumeCue l sub t
  | cueAbort => exact k.abortCue t
  | figureStart f => exact k.startFigure (by simp) f t
  | figureStop f => exact k.removeFigureOwner _ f t
  | figureSync figures => exact k.foldl (k.syncPlayer figures) _ t
  | _ => cases hp

end CueDriven

/-- The cue unit's own updates are free, apart from its claims on records and players. -/
theorem Relayed.cueDriven {fs : List Field} {R : State → State → Prop} (k : Relayed fs R) (hnotify : ∀ s l n, R s (s.notify l n))
    (hmemory : Field.memory ∈ fs) (hcue : Field.cue ∈ fs) (hgens : Field.generators ∈ fs)
    (hjoin : ∀ s p run, s.playing p = some run → R s (s.setPlayer p (some { run with owners := run.owners.put .cue true })))
    (hbegin : ∀ s p f, (∀ q run, s.playing q = some run → run.figure ≠ f) → s.playing p = none → p < s.figures.players.length →
      R s (s.setPlayer p (some { figure := f, step := 0, expiry := s.now, owners := OwnerSet.only .cue })))
    (hwithout : ∀ s : State, R s { s with table := s.table.map Record.withoutCue })
    (hcount : ∀ s x r on, s.record x = some r → R s (s.modRecord x fun _ => r.countCue on)) : CueDriven fs R :=
  { k with
    joinsCue := hjoin
    beginsCue := hbegin
    notify := hnotify
    mark := fun s i st => k.free ((markRecord_only i st s).mono (by simp [hmemory]))
    modCue := fun s f => k.free ((modCue_only s f).mono (by simp [hcue]))
    cueFlag := fun s j on => k.free ((setCueFlag_only j on s).mono (by simp [hgens]))
    withoutCue := hwithout
    countCue := hcount }

/-- A relation that holds over every effect of a command, over the taking of a message and over the end of an event, holds over the
command. -/
theorem Relayed.exec {fs : List Field} {R : State → State → Prop} (k : Relayed fs R) (hl : Field.links ∈ fs)
    (hhead : ∀ l s, R s (takeHead l s)) {c : Instr} {s t : State} (hmessage : ∀ {l u v}, MessageEffect l u c v → R u v)
    (hown : ∀ {v}, OwnEffect s c v → R s v) (h : exec c s = .next t) : R s t := by
  rcases exec_effect h with rfl | ⟨serve, u, hu, rfl⟩
  · exact k.refl t
  · refine k.trans ?_ (k.finish hl serve u)
    cases hu with
    | played l m v _ hv => exact k.trans (hhead l s) (hmessage hv)
    | answered l m p v _ _ hv =>
      exact k.trans (k.trans (hhead l s) (hmessage hv)) (k.free ((addPlace_only l p v).mono (by simp [hl])))
    | own v hv => exact hown hv

/-! ## Every field but some -/

/-- Every field but the listed ones. -/
def allBut (gs : List Field) : List Field :=
  [Field.now, .rate, .store, .links, .regs, .table, .sched, .figures, .generators, .shutters, .ports, .supply, .memory, .cue, .counters,
    .pending].filter fun f => !decide (f ∈ gs)

theorem mem_allBut {gs : List Field} {f : Field} : f ∈ allBut gs ↔ f ∉ gs := by
  unfold allBut
  cases f <;> simp

/-- A change that misses the listed fields stays within the others. -/
theorem Only.but {fs gs : List Field} {s t : State} (h : Only fs s t)
    (sub : (gs.all fun f => !decide (f ∈ fs)) = true := by rfl) : Only (allBut gs) s t :=
  h.mono fun f hf => mem_allBut.2 fun hg => by
    have := List.all_eq_true.1 sub f hg
    simp [hf] at this

/-- The other way about: what stands through a change that is free of the listed fields' complement. -/
theorem Only.field {gs : List Field} {s t : State} (h : Only (allBut gs) s t) {f : Field} (hf : f ∈ gs) : f.same s t :=
  h f fun hm => mem_allBut.1 hm hf

end Sys2Proof.Machine
end

