-- ==== Sys2Proof/Proofs/StrikeQueue.lean ====
section
/-! PROOF. The strike queue (04, The strike queue): every step keeps the law of R70. Nothing but a request that is deferred, and a deferral
limit that is set, could break it: the request joins only where no entry has its output and fewer than 64 wait, and setting the limit
discards what has reached it. -/

namespace Sys2Proof.Machine

-- One theorem after another, so that the compile needs few threads.
set_option Elab.async false

/-- What keeps the law of R70. -/
def KeepsQueueLaw (s t : State) : Prop := StrikeQueueLaw s → StrikeQueueLaw t

theorem keepsQueueLaw_of_only {s t : State} (k : Only (allBut [.sched, .now]) s t) : KeepsQueueLaw s t := fun h =>
  have hs : t.sched = s.sched := k.field (by simp : Field.sched ∈ _)
  have hn : t.now = s.now := k.field (by simp : Field.now ∈ _)
  ⟨by rw [hs]; exact h.size, by rw [hs]; exact h.distinct, by rw [hs, hn]; exact h.young⟩

/-- A queue with entries taken out, under the same limit, keeps the law. -/
theorem keepsQueueLaw_of_sublist {s t : State} (hq : List.Sublist t.sched.queue s.sched.queue) (hd : t.sched.deferral = s.sched.deferral)
    (hn : t.now = s.now) : KeepsQueueLaw s t := fun h =>
  ⟨hq.length_le.trans h.size, (hq.map _).nodup h.distinct, fun e he => by rw [hn, hd]; exact h.young e (hq.mem he)⟩

theorem keepsQueueLaw_dequeue (a : Addr) (s : State) : KeepsQueueLaw s (dequeue a s) :=
  keepsQueueLaw_of_sublist List.filter_sublist rfl rfl

theorem keepsQueueLaw_join {s : State} {a : Addr} (hne : ∀ e ∈ s.sched.queue, e.out ≠ a) (hlt : s.sched.queue.length < 64) :
    KeepsQueueLaw s { s with sched := { s.sched with queue := s.sched.queue ++ [{ out := a, joined := s.now }] } } := fun h => by
  refine ⟨by simpa using hlt, ?_, fun e he => ?_⟩
  · simp only [List.map_append, List.map_cons, List.map_nil]
    refine List.nodup_append.2 ⟨h.distinct, List.nodup_singleton a, fun b hb c hc hbc => ?_⟩
    obtain ⟨e, he, rfl⟩ := List.mem_map.1 hb
    exact hne e he (hbc.trans (List.mem_singleton.1 hc))
  · rcases List.mem_append.1 he with he | he
    · exact h.young e he
    · rw [List.mem_singleton.1 he]
      exact Nat.le_add_right _ _

theorem relayed_keepsQueueLaw : Relayed (allBut [.sched, .now]) KeepsQueueLaw where
  free := keepsQueueLaw_of_only
  trans := fun h k hs => k (h hs)
  bump := fun s n c => keepsQueueLaw_of_only (bumpBy_only s n c).but
  settle := fun s => keepsQueueLaw_of_only (settle_only s).but
  start := fun s a => keepsQueueLaw_of_only (startStroke_only a s).but
  dequeue := fun s a => keepsQueueLaw_dequeue a s
  join := fun _ _ => keepsQueueLaw_join
  reiterate := fun _ _ _ _ => keepsQueueLaw_of_sublist (List.Sublist.refl _) rfl rfl
  endReiteration := fun _ _ => keepsQueueLaw_of_sublist (List.Sublist.refl _) rfl rfl
  damper := fun _ _ _ => keepsQueueLaw_of_sublist (List.Sublist.refl _) rfl rfl
  joins := fun s p run o _ _ => keepsQueueLaw_of_only (setPlayer_only s p _).but
  begins := fun s p f o _ _ _ _ => keepsQueueLaw_of_only (setPlayer_only s p _).but
  steps := fun s p run fig n e _ _ _ => keepsQueueLaw_of_only (setPlayer_only s p _).but
  leaves := fun s p run o _ _ => keepsQueueLaw_of_only (setPlayer_only s p _).but

theorem table_only (s : State) (f : List Record → List Record) : Only [.table] s { s with table := f s.table } := by
  intro x hx
  cases x <;> first | rfl | exact absurd (by decide) hx

theorem cueDriven_keepsQueueLaw : CueDriven (allBut [.sched, .now]) KeepsQueueLaw :=
  relayed_keepsQueueLaw.cueDriven (fun s l n => keepsQueueLaw_of_only (notify_only s l n).but) (by decide) (by decide) (by decide)
    (fun s p run _ => keepsQueueLaw_of_only (setPlayer_only s p _).but)
    (fun s p f _ _ _ => keepsQueueLaw_of_only (setPlayer_only s p _).but)
    (fun s => keepsQueueLaw_of_only (table_only s fun x => x.map Record.withoutCue).but)
    (fun s x r on _ => keepsQueueLaw_of_only (modRecord_only s x _).but)

theorem countsMove_keepsQueueLaw (l : Link) : CountsMove l KeepsQueueLaw :=
  fun s x _ _ _ => keepsQueueLaw_of_only (modRecord_only s x _).but

/-! ## The operations that set the queue -/

theorem keepsQueueLaw_dropStrikes (reached : Addr → Bool) (s : State) : KeepsQueueLaw s (dropStrikes reached s) :=
  keepsQueueLaw_of_sublist List.filter_sublist rfl rfl

/-- Setting the deferral limit discards every entry that has reached it (R74). -/
theorem keepsQueueLaw_setDeferral (d : Nat) (s : State) : KeepsQueueLaw s (setDeferral d s) := fun h =>
  have sub : List.Sublist (setDeferral d s).sched.queue s.sched.queue := List.filter_sublist
  ⟨sub.length_le.trans h.size, (sub.map _).nodup h.distinct, fun e he => by
    have : ¬ e.joined + d ≤ s.now := by simpa [QueuedStrike.expired] using (List.mem_filter.1 he).2
    show s.now ≤ e.joined + d
    omega⟩

theorem keepsQueueLaw_of_empty {s t : State} (h : t.sched.queue = []) : KeepsQueueLaw s t := fun _ =>
  ⟨by rw [h]; exact Nat.zero_le _, by rw [h]; exact List.nodup_nil, fun e he => by rw [h] at he; cases he⟩

theorem keepsQueueLaw_silencedPart (s : State) : KeepsQueueLaw s (silencedPart s) := keepsQueueLaw_of_empty rfl

theorem Only.foldl_sched {α : Type} {fs : List Field} {g : State → α → State} (hg : ∀ t x, Only fs t (g t x)) (hf : Field.sched ∉ fs)
    (xs : List α) (s : State) : (xs.foldl g s).sched = s.sched := (Only.foldl hg xs s).sched hf

theorem keepsQueueLaw_enterReady (s : State) : KeepsQueueLaw s (enterReady s) := by
  suffices h : (enterReady s).sched = { s.sched with queue := [], reiterations := [], dampers := damperStates s.store.tables } from
    keepsQueueLaw_of_empty (congrArg Scheduler.queue h)
  refine (Only.foldl_sched (fun u c => Only.ite (stepChamber_only c u).mono (Only.refl _ _)) (fs := [.shutters, .ports]) (by decide) _ _).trans
    ((Only.foldl_sched (fun u p => startDetect_only p u) (by decide) _ _).trans ?_)
  rfl

theorem keepsQueueLaw_emptiedLink (l : Link) (s : State) : KeepsQueueLaw s (emptiedLink l s) :=
  relayed_keepsQueueLaw.emptiedLink (countsMove_keepsQueueLaw l) (by decide) (by decide)
    (relayed_keepsQueueLaw.tabsTurn (by decide) (by decide) l) s

/-! ## Every event -/

open CueDriven (playing)

theorem keepsQueueLaw_of_message {l : Link} {t v : State} {c : Instr} (h : MessageEffect l t c v) : KeepsQueueLaw t v := by
  have k := cueDriven_keepsQueueLaw
  have reached := Only.of_message h
  by_cases hp : playing c = true
  · exact k.message (by decide) (k.tabsTurn (by decide) (by decide)) countsMove_keepsQueueLaw h hp
  · cases h with
    | unchanged => exact k.refl t
    | discarded | ignored => exact k.bump _ _ _
    | specBegin blank =>
      exact k.trans (k.ite (fun _ => keepsQueueLaw_of_empty rfl) fun _ => k.refl _) (keepsQueueLaw_of_only (beginLoading_only blank _).but)
    | silence => exact k.silenceEffects (keepsQueueLaw_silencedPart t) _
    | configure fields b =>
      refine k.trans (keepsQueueLaw_of_only ?_) (keepsQueueLaw_setDeferral b.deferral _)
      exact (((modLink_only t l _).mono.trans (judgeFlow_only l _)).trans (modLink_only _ l _).mono).but
    | disable p => exact k.trans (keepsQueueLaw_of_only (modPort_only t p _).but) (keepsQueueLaw_dropStrikes _ _)
    | _ => first
      | exact absurd rfl hp
      | exact keepsQueueLaw_of_only reached.but

theorem keepsQueueLaw_tripPort (p : Nat) (e : PortEntry) (pt : Port) (s : State) : KeepsQueueLaw s (tripPort p e pt s) := by
  have k := cueDriven_keepsQueueLaw
  unfold tripPort
  dsimp only
  split
  · refine k.trans (k.trans (k.trans (k.trans (k.bump s 1 (.portTrips p)) ?_) (k.bump _ 1 .lockouts)) (k.notifyAll _ _))
      (keepsQueueLaw_dropStrikes _ _)
    exact keepsQueueLaw_of_only (modPort_only _ p _).but
  · refine k.trans (k.trans (k.trans (k.bump s 1 (.portTrips p)) ?_) (k.notifyAll _ _)) (keepsQueueLaw_dropStrikes _ _)
    exact keepsQueueLaw_of_only (modPort_only _ p _).but

theorem keepsQueueLaw_supplyFails (s : State) : KeepsQueueLaw s (supplyFails s) := by
  have k := cueDriven_keepsQueueLaw
  refine k.trans (k.trans ?_ (keepsQueueLaw_dropStrikes _ _)) (k.notifyAll _ _)
  exact keepsQueueLaw_of_sublist (List.Sublist.refl _) rfl rfl

theorem keepsQueueLaw_of_own {s v : State} {c : Instr} (h : OwnEffect s c v) : KeepsQueueLaw s v := by
  have k := cueDriven_keepsQueueLaw
  have reached := Only.of_own h
  cases h with
  | powerOn | reset => exact keepsQueueLaw_of_empty rfl
  | loss l => exact k.loseLink (keepsQueueLaw_emptiedLink l s) fun t _ _ => keepsQueueLaw_of_empty rfl
  | sent l => exact keepsQueueLaw_of_only (endTransmission_only l s).but
  | passed => exact keepsQueueLaw_enterReady s
  | failed f => exact keepsQueueLaw_of_only (failCheck_only f s).but
  | rested a => exact keepsQueueLaw_of_only (setStroke_only s a _).but
  | late a => exact k.trans (k.dequeue s a) (k.bump _ _ _)
  | reiterated a n =>
    exact k.trans (keepsQueueLaw_of_sublist (t := rearm a n s) (List.Sublist.refl _) rfl rfl) (k.requestStrike a _)
  | heldOver i => exact k.damper s i _
  | stepped p run => exact k.endStep (keepsQueueLaw_of_only (setPlayer_only s p none).but) run
  | tripped p pt e => exact keepsQueueLaw_tripPort p e pt s
  | supplyFell => exact keepsQueueLaw_supplyFails s
  | dwelling c d => exact keepsQueueLaw_of_only (supply_only s fun x => { x with dwell := d }).but
  | record =>
    exact k.takeCurrent fun i r _ => ⟨fun n _ => keepsQueueLaw_of_only (setTempo_only n s).but,
      fun c p _ => keepsQueueLaw_of_only (writeChannel_only c p s).but⟩
  | waited => exact k.completeCurrent s
  | _ => exact keepsQueueLaw_of_only reached.but

theorem exec_keepsQueueLaw {c : Instr} {s t : State} (h : exec c s = .next t) : KeepsQueueLaw s t :=
  relayed_keepsQueueLaw.exec (by decide) (fun l u => keepsQueueLaw_of_only (takeHead_only l u).but) keepsQueueLaw_of_message
    keepsQueueLaw_of_own h

/-! ## Time -/

theorem deferralLimitExpiry_mem_ownEvents {s : State} {e : QueuedStrike} (he : e ∈ s.sched.queue)
    (hx : e.expired s.sched.deferral s.now = true) : .deferralLimitExpiry e.out ∈ s.ownEvents := by
  have : .deferralLimitExpiry e.out ∈ s.schedulerDue := by
    unfold State.schedulerDue
    exact List.mem_append_left _ (List.mem_append_right _ (List.mem_map_of_mem (List.mem_filter.2 ⟨he, hx⟩)))
  unfold State.ownEvents
  simp [this]

/-- While nothing is due no entry has reached the deferral limit, so a millisecond may pass (log 1). -/
theorem keepsQueueLaw_tick {s : State} (h : s.ownEvents = []) : KeepsQueueLaw s (tick s) := fun hs =>
  ⟨hs.size, hs.distinct, fun e he => by
    have hx : e.expired s.sched.deferral s.now ≠ true := fun hx => by
      have hm := deferralLimitExpiry_mem_ownEvents (s := s) he hx
      rw [h] at hm
      cases hm
    have : ¬ e.joined + s.sched.deferral ≤ s.now := by simpa [QueuedStrike.expired] using hx
    show s.now + 1 ≤ e.joined + s.sched.deferral
    omega⟩

/-- Settles O7. -/
theorem everyStepKeepsTheStrikeQueueLaw : Obligations.EveryStepKeepsTheStrikeQueueLaw :=
  fun _ _ h hs => step_keeps h hs (fun u rest hu => keepsQueueLaw_of_only (pending_only u rest).but hu)
    (fun _ ho => keepsQueueLaw_tick ho hs) (fun _ _ _ he hu => exec_keepsQueueLaw he hu)

end Sys2Proof.Machine
end

