-- ==== Sys2Proof/Proofs/Players.lean ====
section
/-! PROOF. The figure players (05, Players): every step keeps the law of R89. A figure begins only where no player runs it, and a player
left without owners stops. -/

namespace Sys2Proof.Machine

-- One theorem after another, so that the compile needs few threads.
set_option Elab.async false

/-! ## Owner sets -/

theorem OwnerSet.isEmpty_put_true (o : OwnerSet) (who : FigureOwner) : (o.put who true).isEmpty = false := by
  cases who with
  | claim | cue => simp [OwnerSet.put, OwnerSet.isEmpty]
  | link l => cases l <;> simp [OwnerSet.put, OwnerSet.isEmpty]

theorem OwnerSet.isEmpty_only (who : FigureOwner) : (OwnerSet.only who).isEmpty = false := by
  cases who with
  | claim | cue => rfl
  | link l => cases l <;> rfl

/-! ## What keeps the law -/

/-- What keeps the law of R89. -/
def KeepsPlayerLaw (s t : State) : Prop := PlayerLaw s → PlayerLaw t

theorem keepsPlayerLaw_of_players {s t : State} (h : t.figures.players = s.figures.players) : KeepsPlayerLaw s t := fun hs => by
  have e : t.playing = s.playing := by
    funext p
    unfold State.playing
    rw [h]
  exact ⟨by rw [e]; exact hs.single, by rw [e]; exact hs.owned⟩

theorem keepsPlayerLaw_of_only {s t : State} (k : Only (allBut [.figures]) s t) : KeepsPlayerLaw s t :=
  keepsPlayerLaw_of_players (congrArg Figures.players (k.field (by simp : Field.figures ∈ _)))

theorem keepsPlayerLaw_of_idle {s t : State} (h : ∀ x ∈ t.figures.players, x = none) : KeepsPlayerLaw s t := fun _ => by
  have e : ∀ p, t.playing p = none := fun p => by
    cases hp : t.playing p with
    | none => rfl
    | some run => cases h _ (State.mem_of_playing hp)
  exact ⟨fun p q a b ha => (by rw [e] at ha; cases ha), fun p a ha => (by rw [e] at ha; cases ha)⟩

/-- A player takes a run with an owner, of a figure that no other player runs. -/
theorem keepsPlayerLaw_setPlayer {s : State} {p : Nat} {run : Run} (hlt : p < s.figures.players.length) (ho : run.owners.isEmpty = false)
    (hf : PlayerLaw s → ∀ q b, q ≠ p → s.playing q = some b → b.figure ≠ run.figure) : KeepsPlayerLaw s (s.setPlayer p (some run)) :=
  fun hs => by
  have hp := State.playing_setPlayer_same hlt (some run)
  have hq : ∀ {q}, q ≠ p → (s.setPlayer p (some run)).playing q = s.playing q := fun h => State.playing_setPlayer_of_ne h _
  constructor
  · intro q r a b ha hb hab
    by_cases hqp : q = p <;> by_cases hrp : r = p
    · rw [hqp, hrp]
    · subst hqp
      rw [hp] at ha
      cases ha
      exact absurd hab.symm (hf hs r b hrp (by rw [← hq hrp]; exact hb))
    · subst hrp
      rw [hp] at hb
      cases hb
      exact absurd hab (hf hs q a hqp (by rw [← hq hqp]; exact ha))
    · exact hs.single q r a b (by rw [← hq hqp]; exact ha) (by rw [← hq hrp]; exact hb) hab
  · intro q a ha
    by_cases hqp : q = p
    · subst hqp
      rw [hp] at ha
      cases ha
      exact ho
    · exact hs.owned q a (by rw [← hq hqp]; exact ha)

/-- A running player keeps its figure. -/
theorem keepsPlayerLaw_rewrite {s : State} {p : Nat} {run run' : Run} (hp : s.playing p = some run) (hf : run'.figure = run.figure)
    (ho : PlayerLaw s → run'.owners.isEmpty = false) : KeepsPlayerLaw s (s.setPlayer p (some run')) := fun hs =>
  keepsPlayerLaw_setPlayer (State.lt_of_playing hp) (ho hs)
    (fun _ q _ hqp hq hfig => hqp (hs.single q p _ run hq hp (hfig.trans hf))) hs

theorem keepsPlayerLaw_stop (s : State) (p : Nat) : KeepsPlayerLaw s (s.setPlayer p none) := fun hs => by
  have hq : ∀ q a, (s.setPlayer p none).playing q = some a → s.playing q = some a := fun q a ha => by
    by_cases hqp : q = p
    · subst hqp
      unfold State.playing State.setPlayer at ha
      simp only [List.getElem?_set_self'] at ha
      cases hx : s.figures.players[q]? <;> simp [hx] at ha
    · rwa [State.playing_setPlayer_of_ne hqp] at ha
  exact ⟨fun q r a b ha hb => hs.single q r a b (hq q a ha) (hq r b hb), fun q a ha => hs.owned q a (hq q a ha)⟩

theorem relayed_keepsPlayerLaw : Relayed (allBut [.figures]) KeepsPlayerLaw where
  free := keepsPlayerLaw_of_only
  trans := fun h k hs => k (h hs)
  bump := fun s n c => keepsPlayerLaw_of_only (bumpBy_only s n c).but
  settle := fun s => keepsPlayerLaw_of_only (settle_only s).but
  start := fun s a => keepsPlayerLaw_of_only (startStroke_only a s).but
  dequeue := fun s a => keepsPlayerLaw_of_only (dequeue_only a s).but
  join := fun _ _ _ _ => keepsPlayerLaw_of_players rfl
  reiterate := fun _ _ _ _ => keepsPlayerLaw_of_players rfl
  endReiteration := fun s a => keepsPlayerLaw_of_only (endReiteration_only a s).but
  damper := fun s i f => keepsPlayerLaw_of_only (modDamper_only s i f).but
  joins := fun _ _ run o hp _ => keepsPlayerLaw_rewrite hp rfl fun _ => OwnerSet.isEmpty_put_true run.owners o
  begins := fun _ _ _ o hn _ hlt _ => keepsPlayerLaw_setPlayer hlt (OwnerSet.isEmpty_only o) fun _ q b _ hq => hn q b hq
  steps := fun _ p run _ _ _ hp _ _ => keepsPlayerLaw_rewrite hp rfl fun hs => hs.owned p run hp
  leaves := fun s p run o hp _ => by
    split
    · exact keepsPlayerLaw_stop s p
    next h => exact keepsPlayerLaw_rewrite hp rfl fun _ => by simpa using h

theorem cueDriven_keepsPlayerLaw : CueDriven (allBut [.figures]) KeepsPlayerLaw :=
  relayed_keepsPlayerLaw.cueDriven (fun s l n => keepsPlayerLaw_of_only (notify_only s l n).but) (by decide) (by decide) (by decide)
    (fun _ _ run hp => keepsPlayerLaw_rewrite hp rfl fun _ => OwnerSet.isEmpty_put_true run.owners .cue)
    (fun _ _ _ hn _ hlt => keepsPlayerLaw_setPlayer hlt (OwnerSet.isEmpty_only .cue) fun _ q b _ hq => hn q b hq)
    (fun s => keepsPlayerLaw_of_only (table_only s fun x => x.map Record.withoutCue).but)
    (fun s x r on _ => keepsPlayerLaw_of_only (modRecord_only s x _).but)

theorem countsMove_keepsPlayerLaw (l : Link) : CountsMove l KeepsPlayerLaw :=
  fun s x _ _ _ => keepsPlayerLaw_of_only (modRecord_only s x _).but

/-! ## Every event -/

theorem mem_map_none {α β : Type} {xs : List α} {x : Option β} (h : x ∈ xs.map fun _ => none) : x = none := by
  obtain ⟨_, _, rfl⟩ := List.mem_map.1 h
  rfl

theorem keepsPlayerLaw_silencedPart (s : State) : KeepsPlayerLaw s (silencedPart s) := keepsPlayerLaw_of_idle fun _ => mem_map_none

theorem keepsPlayerLaw_resetPart (l : Link) (up : Bool) (s t : State) : KeepsPlayerLaw s (resetPart l up t) :=
  keepsPlayerLaw_of_idle fun _ => mem_map_none

/-- What SPEC BEGIN in READY clears behind the effects of SILENCE (R7). -/
theorem stopAllPlaying_behind (s : State) : Only [.shutters, .generators, .ports, .regs, .table, .sched] (silenceEffects .reset s) (stopAllPlaying s) := by
  unfold stopAllPlaying
  generalize silenceEffects .reset s = u
  intro x hx
  cases x <;> first | rfl | exact absurd (by decide) hx

theorem keepsPlayerLaw_of_message {l : Link} {t v : State} {c : Instr} (h : MessageEffect l t c v) : KeepsPlayerLaw t v := by
  have k := cueDriven_keepsPlayerLaw
  have reached := Only.of_message h
  by_cases hp : CueDriven.playing c = true
  · exact k.message (by decide) (k.tabsTurn (by decide) (by decide)) countsMove_keepsPlayerLaw h hp
  · cases h with
    | unchanged => exact k.refl t
    | discarded | ignored => exact k.bump _ _ _
    | specBegin blank =>
      have silenced := k.silenceEffects (keepsPlayerLaw_silencedPart t) .reset
      refine k.trans (k.ite (fun _ => k.trans silenced ?_) fun _ => k.refl _) (keepsPlayerLaw_of_only (beginLoading_only blank _).but)
      exact keepsPlayerLaw_of_only (stopAllPlaying_behind t).but
    | silence => exact k.silenceEffects (keepsPlayerLaw_silencedPart t) _
    | tempo n => exact keepsPlayerLaw_of_players rfl
    | _ => first
      | exact absurd rfl hp
      | exact keepsPlayerLaw_of_only reached.but

theorem keepsPlayerLaw_of_own {s v : State} {c : Instr} (h : OwnEffect s c v) : KeepsPlayerLaw s v := by
  have k := cueDriven_keepsPlayerLaw
  have reached := Only.of_own h
  cases h with
  | powerOn => exact keepsPlayerLaw_of_idle fun _ => List.eq_of_mem_replicate
  | reset l => exact keepsPlayerLaw_resetPart l true s s
  | loss l =>
    exact k.loseLink (k.emptiedLink (countsMove_keepsPlayerLaw l) (by decide) (by decide) (k.tabsTurn (by decide) (by decide) l) s) fun t _ _ =>
      keepsPlayerLaw_resetPart l false s t
  | sent l => exact keepsPlayerLaw_of_only (endTransmission_only l s).but
  | rested a => exact keepsPlayerLaw_of_only (setStroke_only s a _).but
  | stepped p run => exact k.endStep (keepsPlayerLaw_stop s p) run
  | dwelling c d => exact keepsPlayerLaw_of_only (supply_only s fun x => { x with dwell := d }).but
  | record =>
    exact k.takeCurrent fun i r _ => ⟨fun n _ => keepsPlayerLaw_of_players rfl,
      fun c p _ => keepsPlayerLaw_of_only (writeChannel_only c p s).but⟩
  | waited => exact k.completeCurrent s
  | _ => exact keepsPlayerLaw_of_only reached.but

theorem exec_keepsPlayerLaw {c : Instr} {s t : State} (h : exec c s = .next t) : KeepsPlayerLaw s t :=
  relayed_keepsPlayerLaw.exec (by decide) (fun l u => keepsPlayerLaw_of_only (takeHead_only l u).but) keepsPlayerLaw_of_message
    keepsPlayerLaw_of_own h

/-- Settles O11. -/
theorem everyStepKeepsTheFigurePlayerLaw : Obligations.EveryStepKeepsTheFigurePlayerLaw :=
  fun _ _ h hs => step_keeps h hs (fun u rest hu => keepsPlayerLaw_of_only (pending_only u rest).but hu)
    (fun _ _ => keepsPlayerLaw_of_only (tick_only _).but hs) (fun _ _ _ he hu => exec_keepsPlayerLaw he hu)

end Sys2Proof.Machine
end

