-- ==== Sys2Proof/Proofs/Counters.lean ====
section
/-! PROOF. The counters (10): the law of R178. Every change of a counter but the clearing is a saturating increment. -/

namespace Sys2Proof.Machine

-- One theorem after another, so that the compile needs few threads.
set_option Elab.async false

/-- No counter is less than it was, and none passes its maximum that had not passed it. -/
def CountersGrow (s t : State) : Prop :=
  ∀ i : Nat, (s.counters[i]?.getD 0 ≤ 4294967295 → t.counters[i]?.getD 0 ≤ 4294967295) ∧ s.counters[i]?.getD 0 ≤ t.counters[i]?.getD 0

theorem le_saturatingAdd (v n : Nat) : v ≤ saturatingAdd v n := by
  unfold saturatingAdd
  split <;> omega

theorem saturatingAdd_le {v : Nat} (h : v ≤ 4294967295) (n : Nat) : saturatingAdd v n ≤ 4294967295 := by
  unfold saturatingAdd
  have : Config.counterMax = 4294967295 := rfl
  split <;> omega

theorem countersGrow_of_counters {s t : State} (h : t.counters = s.counters) : CountersGrow s t := fun i => by rw [h]; exact ⟨id, le_rfl⟩

theorem countersGrow_of_only {s t : State} (k : Only (allBut [.counters]) s t) : CountersGrow s t :=
  countersGrow_of_counters (k.field (by simp : Field.counters ∈ _))

theorem countersGrow_bumpBy (s : State) (n : Nat) (c : Counter) : CountersGrow s (s.bumpBy n c) := fun i => by
  unfold State.bumpBy
  dsimp only
  rw [List.getElem?_modify]
  split
  · cases s.counters[i]? with
    | none => exact ⟨id, le_rfl⟩
    | some v => exact ⟨fun h => saturatingAdd_le h n, le_saturatingAdd v n⟩
  · cases s.counters[i]? <;> exact ⟨id, le_rfl⟩

/-- What ends with the counters that an increment leaves. -/
theorem countersGrow_of_bumped {s t : State} (n : Nat) (c : Counter) (h : t.counters = (s.bumpBy n c).counters) : CountersGrow s t := fun i => by
  rw [h]
  exact countersGrow_bumpBy s n c i

theorem CountersGrow.trans {s t u : State} (h : CountersGrow s t) (k : CountersGrow t u) : CountersGrow s u :=
  fun i => ⟨fun hs => (k i).1 ((h i).1 hs), (h i).2.trans (k i).2⟩

theorem countersGrow_notify (s : State) (l : Link) (n : Notice) : CountersGrow s (s.notify l n) := by
  unfold State.notify
  split
  · exact countersGrow_of_counters rfl
  · dsimp only
    split
    · exact (countersGrow_of_only (modLink_only s l _).but).trans (countersGrow_bumpBy _ _ _)
    · exact countersGrow_of_only (modLink_only s l _).but

theorem relayed_countersGrow : Relayed (allBut [.counters]) CountersGrow where
  free := countersGrow_of_only
  trans := CountersGrow.trans
  bump := countersGrow_bumpBy
  settle := fun s => countersGrow_of_only (settle_only s).but
  start := fun s a => by
    unfold startStroke
    split
    · exact countersGrow_of_bumped 1 .strikesStarted rfl
    · exact countersGrow_of_counters rfl
  dequeue := fun s a => countersGrow_of_only (dequeue_only a s).but
  join := fun _ _ _ _ => countersGrow_of_counters rfl
  reiterate := fun _ _ _ _ => countersGrow_of_counters rfl
  endReiteration := fun s a => countersGrow_of_only (endReiteration_only a s).but
  damper := fun s i f => countersGrow_of_only (modDamper_only s i f).but
  joins := fun s p _ _ _ _ => countersGrow_of_only (setPlayer_only s p _).but
  begins := fun s p _ _ _ _ _ _ => countersGrow_of_only (setPlayer_only s p _).but
  steps := fun s p _ _ _ _ _ _ _ => countersGrow_of_only (setPlayer_only s p _).but
  leaves := fun s p _ _ _ _ => countersGrow_of_only (setPlayer_only s p _).but

theorem cueDriven_countersGrow : CueDriven (allBut [.counters]) CountersGrow :=
  relayed_countersGrow.cueDriven countersGrow_notify (by decide) (by decide) (by decide)
    (fun s p _ _ => countersGrow_of_only (setPlayer_only s p _).but)
    (fun s p _ _ _ _ => countersGrow_of_only (setPlayer_only s p _).but)
    (fun s => countersGrow_of_only (table_only s fun x => x.map Record.withoutCue).but)
    (fun s x _ _ _ => countersGrow_of_only (modRecord_only s x _).but)

theorem countsMove_countersGrow (l : Link) : CountsMove l CountersGrow :=
  fun s x _ _ _ => countersGrow_of_only (modRecord_only s x _).but

/-! ## The operations at the links and ports -/

theorem countersGrow_modLink (s : State) (l : Link) (f : LinkIf → LinkIf) : CountersGrow s (s.modLink l f) :=
  countersGrow_of_only (modLink_only s l f).but

theorem countersGrow_modPort (s : State) (p : Nat) (f : Port → Port) : CountersGrow s (s.modPort p f) :=
  countersGrow_of_only (modPort_only s p f).but

theorem countersGrow_bump (s : State) (c : Counter) : CountersGrow s (s.bump c) := countersGrow_bumpBy s 1 c

theorem countersGrow_notifyAll (s : State) (n : Notice) : CountersGrow s (s.notifyAll n) := cueDriven_countersGrow.notifyAll n s

theorem countersGrow_judgeFlow (l : Link) (s : State) : CountersGrow s (judgeFlow l s) := by
  have k := relayed_countersGrow
  unfold judgeFlow
  split
  all_goals exact k.ite (fun _ => k.trans (countersGrow_modLink _ _ _) (countersGrow_notify _ _ _)) fun _ => k.refl _

theorem countersGrow_takeHead (l : Link) (s : State) : CountersGrow s (takeHead l s) :=
  (countersGrow_modLink s l _).trans (countersGrow_judgeFlow l _)

theorem countersGrow_goodFrame (l : Link) (m : Message) (s : State) : CountersGrow s (goodFrame l m s) := by
  have k := relayed_countersGrow
  unfold goodFrame
  have up : CountersGrow s (match (s.link l).state with
      | .down => ((s.bump (.framesGood l)).modLink l fun i => { i with state := .up }).notifyAll (.linkUp l)
      | .up => s.bump (.framesGood l)) := by
    split
    · exact ((countersGrow_bump _ _).trans (countersGrow_modLink _ _ _)).trans (countersGrow_notifyAll _ _)
    · exact countersGrow_bump _ _
  have timed := up.trans (countersGrow_modLink _ l fun i => { i with silenceTimer := some (s.now + i.silenceTime) })
  refine k.ite (fun _ => timed) fun _ => k.ite (fun _ => ?_) fun _ => timed.trans (countersGrow_bump _ _)
  exact (timed.trans (countersGrow_modLink _ _ _)).trans (countersGrow_judgeFlow _ _)

theorem countersGrow_receiveByte (l : Link) (b : Byte) (s : State) : CountersGrow s (receiveByte l b s) := by
  have k := relayed_countersGrow
  have receiver : ∀ r, CountersGrow s (s.setReceiver l r) := fun r => countersGrow_modLink s l _
  unfold receiveByte
  split
  · exact k.ite (fun _ => receiver _) fun _ => k.refl _
  · exact k.ite (fun _ => (receiver _).trans (countersGrow_bump _ _)) fun _ => receiver _
  · refine k.ite (fun _ => receiver _) fun _ => (receiver .hunting).trans ?_
    unfold completeFrame
    split
    · exact k.ite (fun _ => countersGrow_goodFrame _ _ _) fun _ => countersGrow_bump _ _
    · exact countersGrow_bump _ _

theorem countersGrow_dropStrikes (reached : Addr → Bool) (s : State) : CountersGrow s (dropStrikes reached s) :=
  countersGrow_of_bumped _ .strikesShed rfl

theorem countersGrow_setDeferral (d : Nat) (s : State) : CountersGrow s (setDeferral d s) := countersGrow_of_bumped _ .strikesLate rfl

theorem countersGrow_restorePort (p : Nat) (history : List Nat) (s : State) : CountersGrow s (restorePort p history s) :=
  ((countersGrow_modPort s p _).trans (countersGrow_of_only (startDetect_only p _).but)).trans (countersGrow_notifyAll _ _)

theorem countersGrow_tripPort (p : Nat) (e : PortEntry) (pt : Port) (s : State) : CountersGrow s (tripPort p e pt s) := by
  unfold tripPort
  dsimp only
  have tripped := fun f => (countersGrow_bump s (.portTrips p)).trans (countersGrow_modPort _ p f)
  split
  · exact (((tripped _).trans (countersGrow_bump _ _)).trans (countersGrow_notifyAll _ _)).trans (countersGrow_dropStrikes _ _)
  · exact ((tripped _).trans (countersGrow_notifyAll _ _)).trans (countersGrow_dropStrikes _ _)

theorem countersGrow_configureLink (l : Link) (b : ConfigureBody) (s : State) : CountersGrow s (configureLink l b s) := by
  refine CountersGrow.trans (t := (judgeFlow l (s.modLink l fun i => { i with low := b.low, high := b.high })).modLink l fun i =>
      { i with silenceTime := b.silenceTime, silenceTimer := some (s.now + b.silenceTime) }) ?_ (countersGrow_setDeferral _ _)
  exact ((countersGrow_modLink s l _).trans (countersGrow_judgeFlow l _)).trans (countersGrow_modLink _ l _)

theorem countersGrow_silenceEffects (reason : StopReason) (s : State) : CountersGrow s (silenceEffects reason s) :=
  cueDriven_countersGrow.silenceEffects (countersGrow_of_only (silencedPart_only s).but) reason

theorem countersGrow_supplyFails (s : State) : CountersGrow s (supplyFails s) := by
  refine CountersGrow.trans (t := dropStrikes (fun _ => true)
    { s with supply := { state := .low, dwell := none }, ports := s.ports.map fun pt => { pt with detect := none } }) ?_
    (countersGrow_notifyAll _ _)
  exact countersGrow_of_bumped _ .strikesShed rfl

theorem countersGrow_supplyReturns (s : State) : CountersGrow s (supplyReturns s) := by
  refine CountersGrow.trans (countersGrow_of_counters ?_) (countersGrow_notifyAll _ _)
  exact (Only.foldl (fun t p => startDetect_only p t) allPorts _).counters

/-! ## Every event -/

theorem countersGrow_of_message {l : Link} {t v : State} {c : Instr} (h : MessageEffect l t c v) (hc : c ≠ .countersReadAndClear l) :
    CountersGrow t v := by
  have k := cueDriven_countersGrow
  by_cases hp : CueDriven.playing c = true
  · exact k.message (by decide) (k.tabsTurn (by decide) (by decide)) countsMove_countersGrow h hp
  · cases h with
    | unchanged => exact k.refl t
    | discarded | ignored => exact countersGrow_bump _ _
    | expression c p => exact countersGrow_of_only (writeChannel_only c p t).but
    | specBegin blank =>
      refine k.trans (k.ite (fun _ => (countersGrow_silenceEffects .reset t).trans ?_) fun _ => k.refl _)
        (countersGrow_of_only (beginLoading_only blank _).but)
      exact countersGrow_of_only (stopAllPlaying_behind t).but
    | silence => exact countersGrow_silenceEffects _ t
    | configure fields b => exact countersGrow_configureLink l b t
    | clear => exact absurd rfl hc
    | restore p => exact countersGrow_restorePort p [] t
    | disable p => exact (countersGrow_modPort t p _).trans (countersGrow_dropStrikes _ _)
    | fullReset => exact countersGrow_modLink t l _
    | _ => first
      | exact absurd rfl hp
      | exact countersGrow_of_counters rfl

theorem countersGrow_of_own {s v : State} {c : Instr} (h : OwnEffect s c v) (hc : ∀ rate up overs, c ≠ .powerOn rate up overs) :
    CountersGrow s v := by
  have k := cueDriven_countersGrow
  cases h with
  | powerOn rate up overs => exact absurd rfl (hc rate up overs)
  | byteArrival l b => exact countersGrow_receiveByte l b s
  | cut l => exact (countersGrow_modLink s l _).trans (countersGrow_bump _ _)
  | reset l => exact countersGrow_of_only (resetPart_only l true s).but
  | loss l =>
    exact k.loseLink (k.emptiedLink (countsMove_countersGrow l) (by decide) (by decide) (k.tabsTurn (by decide) (by decide) l) s) fun t _ ht =>
      ht.trans (countersGrow_of_only (resetPart_only l false t).but)
  | sent l => exact countersGrow_of_only (endTransmission_only l s).but
  | passed => exact countersGrow_of_only (enterReady_only s).but
  | failed f => exact countersGrow_of_only (failCheck_only f s).but
  | struck a | rested a => exact countersGrow_of_only (setStroke_only s a _).but
  | late a => exact k.trans (k.dequeue s a) (countersGrow_bump _ _)
  | reiterated a n => exact k.trans (countersGrow_of_only (rearm_only a n s).but) (k.requestStrike a _)
  | heldOver i => exact k.damper s i _
  | stepped p run => exact k.endStep (countersGrow_of_only (setPlayer_only s p none).but) run
  | turned j => exact countersGrow_of_only (modGenerator_only s j _).but
  | staged c => exact (countersGrow_of_only (modChamber_only s c _).but).trans (countersGrow_of_only (stepChamber_only c _).but)
  | rising p => exact (countersGrow_modPort s p _).trans (countersGrow_of_only (startDetect_only p _).but)
  | falling p => exact countersGrow_modPort s p _
  | tripped p pt e => exact countersGrow_tripPort p e pt s
  | restored p pt => exact countersGrow_restorePort p _ s
  | supplyFell => exact countersGrow_supplyFails s
  | dwelling c d => exact countersGrow_of_counters rfl
  | supplyRose => exact countersGrow_supplyReturns s
  | record =>
    exact k.takeCurrent fun i r _ => ⟨fun n _ => countersGrow_of_counters rfl,
      fun c p _ => countersGrow_of_only (writeChannel_only c p s).but⟩
  | waited => exact k.completeCurrent s

theorem exec_countersGrow {c : Instr} {s t : State} (h : exec c s = .next t) (hclear : ∀ l, c ≠ .countersReadAndClear l)
    (hpower : ∀ rate up overs, c ≠ .powerOn rate up overs) : CountersGrow s t :=
  relayed_countersGrow.exec (by decide) (fun l u => countersGrow_takeHead l u) (fun hm => countersGrow_of_message hm (hclear _))
    (fun ho => countersGrow_of_own ho hpower) h

/-! ## The clearing -/

theorem countersGrow_finish (serve : Bool) (s : State) : CountersGrow s (finish serve s) := relayed_countersGrow.finish (by decide) serve s

/-- COUNTERS READ AND CLEAR is answered, or answered with every counter cleared, and serves no queue (R179). -/
theorem execCountersReadAndClear_ends {l : Link} {s t : State} (h : execCountersReadAndClear l s = .next t) :
    t = s ∨ ∃ p, t = finish false (addPlace l p (takeHead l s)) ∨ t = finish false (addPlace l p (clearCounters (takeHead l s))) := by
  unfold execCountersReadAndClear takeCommand takeCommandThen at h
  split at h
  · split at h
    · dsimp only at h
      split at h
      · cases h
        exact .inr ⟨_, .inl rfl⟩
      · cases h
        exact .inr ⟨_, .inl rfl⟩
      · unfold answerPlain at h
        split at h
        · cases h
          exact .inr ⟨_, .inr rfl⟩
        · cases h
          exact .inr ⟨_, .inl rfl⟩
    · cases h
      exact .inl rfl
  · cases h
    exact .inl rfl

theorem getD_map_zero (xs : List Nat) (i : Nat) : ((xs.map fun _ => 0)[i]?).getD 0 = 0 := by
  rw [List.getElem?_map]
  cases xs[i]? <;> rfl

theorem exec_clears {l : Link} {s t : State} (hs : Settled s) (h : exec (.countersReadAndClear l) s = .next t) :
    CountersGrow s t ∨ ∀ i : Nat, t.counters[i]?.getD 0 = 0 := by
  rcases execCountersReadAndClear_ends h with rfl | ⟨p, rfl | rfl⟩
  · exact .inl (countersGrow_of_counters rfl)
  · exact .inl (((countersGrow_takeHead l s).trans (countersGrow_modLink _ l _)).trans (countersGrow_finish _ _))
  · have settled : Settled (addPlace l p (clearCounters (takeHead l s))) :=
      hs.of_links_counters (((takeHead_only l s).trans (clearCounters_only _).mono).trans (addPlace_only l p _).mono)
    exact .inr fun i => by
      rw [(finish_of_settled_only settled).counters]
      exact getD_map_zero _ i

theorem exec_powersOn {rate : LinkRate} {up : Bool} {overs : BitVec 8} {s t : State} (h : exec (.powerOn rate up overs) s = .next t) (i : Nat) :
    t.counters[i]?.getD 0 = 0 := by
  rw [powerOnLeavesThePowerOnValues rate up overs s] at h
  cases h
  show ((List.replicate 32 0)[i]?).getD 0 = 0
  rw [List.getElem?_replicate]
  split <;> rfl

/-- Settles O8. -/
theorem countersNeverDecreaseExceptToZero : Obligations.CountersNeverDecreaseExceptToZero := by
  intro c s t hs h i
  by_cases hclear : ∃ l, c = .countersReadAndClear l
  · obtain ⟨l, rfl⟩ := hclear
    rcases exec_clears hs h with grown | zero
    · exact ⟨(grown i).1, .inl (grown i).2⟩
    · exact ⟨fun _ => by rw [zero]; exact Nat.zero_le _, .inr ⟨zero i, .inl ⟨l, rfl⟩⟩⟩
  by_cases hpower : ∃ rate up overs, c = .powerOn rate up overs
  · obtain ⟨rate, up, overs, rfl⟩ := hpower
    have zero := exec_powersOn h i
    exact ⟨fun _ => by rw [zero]; exact Nat.zero_le _, .inr ⟨zero, .inr ⟨rate, up, overs, rfl⟩⟩⟩
  · have grown := exec_countersGrow h (fun l hc => hclear ⟨l, hc⟩) (fun r u o hc => hpower ⟨r, u, o, hc⟩) i
    exact ⟨grown.1, .inl grown.2⟩

end Sys2Proof.Machine
end

