-- ==== Sys2Proof/Proofs/Generators.lean ====
section
/-! PROOF. The generators (06, Tremulant generators) and the owners of players (05): what judging demand makes of a generator, how following
composes, and what clearing every Cue flag and taking an owner from every player come to. -/

namespace Sys2Proof.Machine

-- One theorem after another, so that the compile needs few threads.
set_option Elab.async false

/-! ## The owners of players (R94) -/

theorem getElem?_foldl_modify {α : Type} (f : α → α) (xs : List α) (i : Nat) :
    ∀ n, ((List.range n).foldl (fun ys k => ys.modify k f) xs)[i]? = if i < n then xs[i]?.map f else xs[i]?
  | 0 => by simp
  | n + 1 => by
    rw [List.range_succ, List.foldl_append, List.foldl_cons, List.foldl_nil, List.getElem?_modify, getElem?_foldl_modify f xs i n]
    rcases Nat.lt_trichotomy i n with h | rfl | h
    · simp [h, show n ≠ i by omega, show i < n + 1 by omega]
    · simp
    · simp [show ¬ i < n by omega, show n ≠ i by omega, show ¬ i < n + 1 by omega]

/-- A change of every place in turn is a map. -/
theorem foldl_modify_length {α : Type} (f : α → α) (xs : List α) :
    (List.range xs.length).foldl (fun ys k => ys.modify k f) xs = xs.map f := by
  apply List.ext_getElem?
  intro i
  rw [getElem?_foldl_modify, List.getElem?_map]
  split
  · rfl
  next h => simp [List.getElem?_eq_none (Nat.not_lt.1 h)]

/-- A run without an owner: stopped where no other owner is left (R94). -/
def Run.without (o : FigureOwner) (run : Run) : Option Run :=
  if run.owners.has o then (if (run.owners.put o false).isEmpty then none else some { run with owners := run.owners.put o false }) else some run

/-- A player's holding rewritten. -/
theorem State.setPlayer_eq_modify {s : State} {p : Nat} {x : Option Run} {f : Option Run → Option Run}
    (h : ∀ y, s.figures.players[p]? = some y → f y = x) :
    s.setPlayer p x = { s with figures := { s.figures with players := s.figures.players.modify p f } } := by
  suffices e : s.figures.players.set p x = s.figures.players.modify p f by
    unfold State.setPlayer
    rw [e]
  apply List.ext_getElem?
  intro i
  rw [List.getElem?_set, List.getElem?_modify]
  by_cases hi : p = i
  · subst hi
    cases hy : s.figures.players[p]? with
    | none => simp [List.getElem?_eq_none_iff.1 hy]
    | some y => simp [(List.getElem?_eq_some_iff.1 hy).1, h y hy]
  · simp [hi]

theorem modify_of_same {α : Type} {f : α → α} {xs : List α} {p : Nat} (h : ∀ y, xs[p]? = some y → f y = y) : xs.modify p f = xs := by
  apply List.ext_getElem?
  intro i
  rw [List.getElem?_modify]
  by_cases hi : p = i
  · subst hi
    cases hy : xs[p]? with
    | none => simp
    | some y => simp [h y hy]
  · simp [hi]

theorem removeOwner_eq (o : FigureOwner) (p : Nat) (s : State) :
    removeOwner o p s = { s with figures := { s.figures with players := s.figures.players.modify p (·.bind (Run.without o)) } } := by
  have same : (∀ y, s.figures.players[p]? = some y → y.bind (Run.without o) = y) →
      s = { s with figures := { s.figures with players := s.figures.players.modify p (·.bind (Run.without o)) } } := fun h => by
    rw [modify_of_same h]
  have at_p : ∀ y, s.figures.players[p]? = some y → s.playing p = y := fun y hy => by unfold State.playing; rw [hy]; rfl
  unfold removeOwner
  cases hp : s.playing p with
  | none =>
    refine same fun y hy => ?_
    rw [← at_p y hy, hp]
    rfl
  | some run =>
    dsimp only
    split
    next ho =>
      refine State.setPlayer_eq_modify fun y hy => ?_
      rw [← at_p y hy, hp, Option.bind_some, Run.without, if_pos ho]
    next ho =>
      refine same fun y hy => ?_
      rw [← at_p y hy, hp, Option.bind_some, Run.without, if_neg ho]

theorem foldl_removeOwner (o : FigureOwner) : ∀ (ps : List Nat) (s : State),
    ps.foldl (fun t p => removeOwner o p t) s =
      { s with figures := { s.figures with players := ps.foldl (fun ys k => ys.modify k (·.bind (Run.without o))) s.figures.players } }
  | [], s => rfl
  | p :: ps, s => by rw [List.foldl_cons, foldl_removeOwner o ps, removeOwner_eq]; rfl

/-- An owner leaves every player. -/
theorem removeOwnerEverywhere_eq (o : FigureOwner) (s : State) :
    removeOwnerEverywhere o s =
      { s with figures := { s.figures with players := s.figures.players.map (·.bind (Run.without o)) } } := by
  unfold removeOwnerEverywhere
  rw [foldl_removeOwner, foldl_modify_length]

/-- No run that has lost an owner has it. -/
theorem Run.without_has {o : FigureOwner} {run run' : Run} (h : run.without o = some run') : run'.owners.has o = false := by
  have gone : (run.owners.put o false).has o = false := by
    cases o with
    | claim | cue => rfl
    | link l => cases l <;> rfl
  unfold Run.without at h
  split at h
  · split at h
    · cases h
    · cases h
      exact gone
  next ho =>
    cases h
    simpa using ho

theorem removeOwnerEverywhere_has {o : FigureOwner} {s : State} {run : Run} (h : some run ∈ (removeOwnerEverywhere o s).figures.players) :
    run.owners.has o = false := by
  rw [removeOwnerEverywhere_eq] at h
  obtain ⟨x, -, hx⟩ := List.mem_map.1 h
  obtain ⟨r, -, hr⟩ := Option.bind_eq_some_iff.1 hx
  exact Run.without_has hr

/-! ## Judging demand (R104, R106) -/

theorem State.generator_modGenerator (s : State) (j i : Nat) (f : Generator → Generator) :
    (s.modGenerator j f).generator i = if i = j ∧ j < s.generators.length then f (s.generator i) else s.generator i := by
  unfold State.generator State.modGenerator
  dsimp only
  rw [List.getElem?_modify]
  by_cases hi : j = i
  · subst hi
    by_cases hl : j < s.generators.length
    · simp [hl]
    · simp [hl]
  · simp [hi, Ne.symm hi]

/-- A link's tab demands the tremulant (R104). -/
def State.tabbed (s : State) (j : Nat) : Bool := s.ready && ((s.reg .one).tabs.contains j || (s.reg .two).tabs.contains j)

theorem State.demanded_eq (s : State) (j : Nat) : s.demanded j = (s.tabbed j || s.ready && (s.generator j).cueFlag) := by
  unfold State.demanded State.tabbed
  cases s.ready <;> simp

theorem judgeDemand_cueFlag (before : Bool) (j i : Nat) (s : State) :
    ((judgeDemand before j s).generator i).cueFlag = (s.generator i).cueFlag := by
  unfold judgeDemand
  split
  · split
    · rw [State.generator_modGenerator]
      split <;> rfl
    · rfl
  · split
    · rw [State.generator_modGenerator]
      split <;> rfl
    · rfl

theorem judgeDemand_tabbed (before : Bool) (j i : Nat) (s : State) : (judgeDemand before j s).tabbed i = s.tabbed i := by
  have h := judgeDemand_only before j s
  unfold State.tabbed State.ready State.reg
  rw [h.store, h.regs]

theorem judgeDemand_demanded (before : Bool) (j i : Nat) (s : State) : (judgeDemand before j s).demanded i = s.demanded i := by
  rw [State.demanded_eq, State.demanded_eq, judgeDemand_tabbed, judgeDemand_cueFlag]
  unfold State.ready
  rw [(judgeDemand_only before j s).store]

theorem judgeDemand_of_ne {i j : Nat} (h : i ≠ j) (before : Bool) (s : State) :
    (judgeDemand before j s).generator i = s.generator i := by
  unfold judgeDemand
  split
  · split
    · rw [State.generator_modGenerator, if_neg fun k => h k.1]
    · rfl
  · split
    · rw [State.generator_modGenerator, if_neg fun k => h k.1]
    · rfl

theorem judgeDemand_length (before : Bool) (j : Nat) (s : State) : (judgeDemand before j s).generators.length = s.generators.length := by
  unfold judgeDemand State.modGenerator
  split
  · split <;> simp
  · split <;> simp

/-- Beyond the last place a generator reads as at power-on. -/
theorem State.generator_of_length_le {s : State} {j : Nat} (h : s.generators.length ≤ j) : s.generator j = { phase := .off, cueFlag := false } := by
  unfold State.generator
  rw [List.getElem?_eq_none h]
  rfl

/-- A change of demand at one tremulant that touches no phase, judged: every generator follows. -/
theorem generatorsFollow_withDemandJudged {j : Nat} {f : State → State} {s : State} (hnow : (f s).now = s.now)
    (htables : (f s).store.tables = s.store.tables) (hlen : (f s).generators.length = s.generators.length)
    (hphase : ∀ i, ((f s).generator i).phase = (s.generator i).phase) (hother : ∀ i, i ≠ j → (f s).demanded i = s.demanded i) :
    GeneratorsFollow s (withDemandJudged j f s) := by
  have hx : (f s).tremulant j = s.tremulant j := by unfold State.tremulant; rw [htables]
  have hdem : ∀ i, (withDemandJudged j f s).demanded i = (f s).demanded i := fun i => judgeDemand_demanded _ _ _ _
  have hne : ∀ i, i ≠ j → ((withDemandJudged j f s).generator i).phase = (s.generator i).phase := fun i hi => by
    rw [withDemandJudged, judgeDemand_of_ne hi, hphase]
  have same : s.demanded j = (f s).demanded j → ((withDemandJudged j f s).generator j).phase = (s.generator j).phase := fun h => by
    rw [← hphase, withDemandJudged, judgeDemand, h]
    cases (f s).demanded j <;> rfl
  have ended : s.demanded j = true → (f s).demanded j = false → ((withDemandJudged j f s).generator j).phase = .off := fun h0 h1 => by
    rw [withDemandJudged, judgeDemand, h0, h1]
    simp only [Bool.not_true, Bool.not_false, Bool.and_self, if_true, Bool.false_eq_true, if_false]
    rw [State.generator_modGenerator]
    split
    · rfl
    next h =>
      have : (f s).generators.length ≤ j := Nat.not_lt.1 fun k => h ⟨rfl, k⟩
      rw [State.generator_of_length_le this]
  refine ⟨fun i x hxi hi h0 h1 => ?_, fun i h0 h1 => ?_, fun i h0 h1 => ?_, fun i h0 h1 hp => ?_⟩
  · rw [hdem] at h1
    by_cases hij : i = j
    · subst hij
      rw [withDemandJudged, judgeDemand, h0, h1]
      simp only [Bool.not_false, Bool.true_and, if_true]
      rw [hx, hxi]
      dsimp only
      rw [State.generator_modGenerator, if_pos ⟨rfl, hlen ▸ hi⟩, hnow]
    · rw [hother i hij, h0] at h1
      cases h1
  · rw [hdem] at h1
    by_cases hij : i = j
    · subst hij
      exact ended h0 h1
    · rw [hother i hij, h0] at h1
      cases h1
  · rw [hdem] at h1
    by_cases hij : i = j
    · subst hij
      exact same (h0.trans h1.symm)
    · exact hne i hij
  · rw [hdem] at h1
    by_cases hij : i = j
    · subst hij
      rw [same (h0.trans h1.symm), hp]
    · rw [hne i hij, hp]

/-- Following composes where no demand lapses between (log 33). -/
theorem GeneratorsFollow.trans {s t u : State} (h : GeneratorsFollow s t) (k : GeneratorsFollow t u) (hnow : t.now = s.now)
    (htables : t.store.tables = s.store.tables) (hlen : t.generators.length = s.generators.length)
    (hstay : ∀ j, s.demanded j = true → u.demanded j = true → t.demanded j = true) : GeneratorsFollow s u := by
  have hx : ∀ j, t.tremulant j = s.tremulant j := fun j => by unfold State.tremulant; rw [htables]
  refine ⟨fun j x hxj hj h0 h1 => ?_, fun j h0 h1 => ?_, fun j h0 h1 => ?_, fun j h0 h1 hp => ?_⟩
  · cases ht : t.demanded j with
    | false => rw [k.opens j x ((hx j).trans hxj) (hlen ▸ hj) ht h1, hnow]
    | true => rw [k.stands j ht h1, h.opens j x hxj hj h0 ht]
  · cases ht : t.demanded j with
    | false => exact k.rests j ht h1 (h.ends j h0 ht)
    | true => exact k.ends j ht h1
  · have ht := hstay j h0 h1
    rw [k.stands j ht h1, h.stands j h0 ht]
  · cases ht : t.demanded j with
    | false => exact k.rests j ht h1 (h.rests j h0 ht hp)
    | true => exact k.ends j ht h1

/-! ## Tabs (R31) -/

theorem mem_insertMember {i j : Nat} {xs : List Nat} : i ∈ insertMember j xs ↔ i = j ∨ i ∈ xs := by
  induction xs with
  | nil => simp [insertMember]
  | cons x rest ih =>
    unfold insertMember
    split
    · simp
    · split
      next h => simp [h]
      · simp [ih, or_left_comm]

theorem Registration.contains_tab (r : Registration) (j i : Nat) (on : Bool) :
    (r.tab j on).tabs.contains i = if i = j then on else r.tabs.contains i := by
  unfold Registration.tab
  split
  next h =>
    split
    next hi => rw [hi, h]
    · rfl
  · cases on with
    | true =>
      rw [if_pos rfl, Bool.eq_iff_iff, List.contains_iff_mem, mem_insertMember]
      by_cases hi : i = j <;> simp [hi]
    | false =>
      rw [if_neg Bool.false_ne_true, Bool.eq_iff_iff, List.contains_iff_mem, List.mem_filter]
      by_cases hi : i = j <;> simp [hi]

theorem setTab_cueFlag (l : Link) (j : Nat) (on : Bool) (s : State) (i : Nat) :
    ((setTab l j on s).generator i).cueFlag = (s.generator i).cueFlag := by
  unfold setTab
  split
  · rfl
  · exact judgeDemand_cueFlag _ _ _ _

theorem setTab_length (l : Link) (j : Nat) (on : Bool) (s : State) : (setTab l j on s).generators.length = s.generators.length := by
  unfold setTab
  split
  · rfl
  · exact judgeDemand_length _ _ _

/-- A tab of the other link, or a Cue flag, demands the tremulant (R104). -/
def State.elsewhere (s : State) (l : Link) (j : Nat) : Bool := (s.reg (otherLink l)).tabs.contains j || (s.generator j).cueFlag

theorem State.demanded_iff (s : State) (l : Link) (j : Nat) :
    s.demanded j = (s.ready && ((s.reg l).tabs.contains j || s.elsewhere l j)) := by
  unfold State.demanded State.elsewhere
  cases l
  · simp [otherLink, Bool.or_assoc]
  · simp [otherLink, Bool.or_left_comm, Bool.or_assoc]

theorem setTab_elsewhere (l : Link) (j : Nat) (on : Bool) (s : State) (i : Nat) : (setTab l j on s).elsewhere l i = s.elsewhere l i := by
  unfold State.elsewhere
  rw [(setTab_rewrites l j on s).reg_other, setTab_cueFlag]

theorem setTab_ready (l : Link) (j : Nat) (on : Bool) (s : State) : (setTab l j on s).ready = s.ready := by
  unfold State.ready
  rw [(setTab_only l j on s).store]

theorem setTab_demanded (l : Link) (j : Nat) (on : Bool) (s : State) (i : Nat) :
    (setTab l j on s).demanded i = if i = j then s.ready && (on || s.elsewhere l j) else s.demanded i := by
  rw [State.demanded_iff _ l, setTab_ready, setTab_elsewhere, (setTab_rewrites l j on s).reg_same, Registration.contains_tab,
    State.demanded_iff s l]
  split
  next h => rw [h]
  · rfl

theorem setTab_generatorsFollow (l : Link) (j : Nat) (on : Bool) (s : State) : GeneratorsFollow s (setTab l j on s) := by
  have hdem := setTab_demanded l j on s
  unfold setTab at hdem ⊢
  split
  · exact .of_same rfl fun _ => rfl
  next hc =>
    rw [if_neg hc] at hdem
    refine generatorsFollow_withDemandJudged rfl rfl rfl (fun _ => rfl) fun i hi => ?_
    have := hdem i
    rw [if_neg hi] at this
    rw [← this]
    exact (judgeDemand_demanded _ _ _ _).symm

/-! ## Cue flags (R107) -/

theorem setCueFlag_flag (j : Nat) (on : Bool) (s : State) (i : Nat) :
    ((setCueFlag j on s).generator i).cueFlag = if i = j ∧ j < s.generators.length then on else (s.generator i).cueFlag := by
  rw [setCueFlag, withDemandJudged, judgeDemand_cueFlag, State.generator_modGenerator]
  split <;> rfl

theorem setCueFlag_length (j : Nat) (on : Bool) (s : State) : (setCueFlag j on s).generators.length = s.generators.length := by
  rw [setCueFlag, withDemandJudged, judgeDemand_length]
  exact List.length_modify _ _ _

theorem State.tabbed_of_only {fs : List Field} {s t : State} (k : Only fs s t) (hs : Field.store ∉ fs := by decide)
    (hr : Field.regs ∉ fs := by decide) (j : Nat) : t.tabbed j = s.tabbed j := by
  unfold State.tabbed State.ready State.reg
  rw [k.store hs, k.regs hr]

theorem setCueFlag_demanded (j : Nat) (on : Bool) (s : State) (i : Nat) :
    (setCueFlag j on s).demanded i = if i = j ∧ j < s.generators.length then (s.tabbed j || s.ready && on) else s.demanded i := by
  have hready : (setCueFlag j on s).ready = s.ready := by unfold State.ready; rw [(setCueFlag_only j on s).store]
  rw [State.demanded_eq, State.tabbed_of_only (setCueFlag_only j on s), hready, setCueFlag_flag]
  split
  next h => rw [h.1]
  · rw [State.demanded_eq]

theorem setCueFlag_generatorsFollow (j : Nat) (on : Bool) (s : State) : GeneratorsFollow s (setCueFlag j on s) := by
  refine generatorsFollow_withDemandJudged rfl rfl (List.length_modify _ _ _) (fun i => ?_) fun i hi => ?_
  · rw [State.generator_modGenerator]
    split <;> rfl
  · have := setCueFlag_demanded j on s i
    rw [if_neg fun h => hi h.1] at this
    rw [← this]
    exact (judgeDemand_demanded _ _ _ _).symm

/-- What clearing the Cue flags of some places in turn leaves. -/
structure FlagsCleared (js : List Nat) (s t : State) : Prop where
  only : Only [.generators] s t
  length : t.generators.length = s.generators.length
  flags : ∀ i, (t.generator i).cueFlag = if i ∈ js then false else (s.generator i).cueFlag
  follow : GeneratorsFollow s t

theorem flagsCleared_foldl : ∀ (js : List Nat) (s : State), FlagsCleared js s (js.foldl (fun t j => setCueFlag j false t) s)
  | [], s => ⟨Only.refl _ s, rfl, fun _ => by simp, .of_same rfl fun _ => rfl⟩
  | j :: js, s => by
    have k := flagsCleared_foldl js (setCueFlag j false s)
    have only := setCueFlag_only j false s
    have flags : ∀ i, ((setCueFlag j false s).generator i).cueFlag = if i = j then false else (s.generator i).cueFlag := fun i => by
      rw [setCueFlag_flag]
      by_cases hi : i = j
      · subst hi
        by_cases hl : i < s.generators.length
        · simp [hl]
        · simp [hl, State.generator_of_length_le (Nat.not_lt.1 hl)]
      · simp [hi]
    rw [List.foldl_cons]
    refine ⟨only.trans k.only, k.length.trans (setCueFlag_length _ _ _), fun i => ?_, ?_⟩
    · rw [k.flags, flags]
      by_cases hm : i ∈ js <;> by_cases hi : i = j <;> simp [hm, hi]
    · refine (setCueFlag_generatorsFollow j false s).trans k.follow only.now (congrArg Store.tables only.store)
        (setCueFlag_length _ _ _) fun i h0 h1 => ?_
      have hready : ∀ {u v : State}, Only [.generators] u v → v.ready = u.ready := fun h => by unfold State.ready; rw [h.store]
      rw [State.demanded_eq, State.tabbed_of_only k.only, hready k.only, k.flags] at h1
      rw [State.demanded_eq]
      by_cases hm : i ∈ js
      · rw [if_pos hm, Bool.and_false, Bool.or_false] at h1
        rw [h1]
        rfl
      · rwa [if_neg hm] at h1

theorem clearCueFlags_cleared (s : State) : FlagsCleared (List.range s.generators.length) s (clearCueFlags s) := flagsCleared_foldl _ s

/-- Every Cue flag is clear (R107). -/
theorem clearCueFlags_flag (s : State) (i : Nat) : ((clearCueFlags s).generator i).cueFlag = false := by
  rw [(clearCueFlags_cleared s).flags]
  split
  · rfl
  next h => rw [State.generator_of_length_le (by simpa using h)]

theorem State.generator_of_mem {s : State} {g : Generator} (h : g ∈ s.generators) : ∃ j, s.generator j = g ∧ j < s.generators.length := by
  obtain ⟨j, hj, rfl⟩ := List.mem_iff_getElem.1 h
  exact ⟨j, by unfold State.generator; simp [hj], hj⟩

end Sys2Proof.Machine
end

