-- ==== Sys2Proof/Proofs/CueIdle.lean ====
section
/-! PROOF. The cue unit IDLE (08, Going IDLE): every step keeps the law of R155. While the unit is not IDLE the law asks nothing; the unit
comes to IDLE by its steps of R155 alone, which leave no Cue claim whatever stood before; and while it is IDLE nothing else makes one. -/

namespace Sys2Proof.Machine

-- One theorem after another, so that the compile needs few threads.
set_option Elab.async false

/-- What keeps the law of R155. -/
def KeepsCueIdle (s t : State) : Prop := CueIdleLaw s → CueIdleLaw t

/-- While the unit is not IDLE the law asks nothing. -/
theorem cueIdleLaw_of_busy {s : State} (h : s.cue.state ≠ .idle) : CueIdleLaw s :=
  ⟨fun k => absurd k h, fun k => absurd k h, fun k => absurd k h, fun k => absurd k h⟩

/-- Claims that are no more than those before are under the law too. -/
theorem keepsCueIdle_of_claims {s t : State} (hcue : t.cue = s.cue) (htable : ∀ r ∈ t.table, r.cue = 0 ∨ ∃ q ∈ s.table, r.cue = q.cue)
    (hgens : ∀ g ∈ t.generators, g.cueFlag = false ∨ ∃ q ∈ s.generators, g.cueFlag = q.cueFlag)
    (hplayers : ∀ run, some run ∈ t.figures.players →
      run.owners.cue = false ∨ ∃ q, some q ∈ s.figures.players ∧ run.owners.cue = q.owners.cue) : KeepsCueIdle s t := fun h => by
  refine ⟨fun hi r hr => ?_, fun hi g hg => ?_, fun hi run hrun => ?_, fun hi => ?_⟩ <;> rw [hcue] at hi
  · rcases htable r hr with h0 | ⟨q, hq, e⟩
    · exact h0
    · exact e.trans (h.counts hi q hq)
  · rcases hgens g hg with h0 | ⟨q, hq, e⟩
    · exact h0
    · exact e.trans (h.flags hi q hq)
  · rcases hplayers run hrun with h0 | ⟨q, hq, e⟩
    · exact h0
    · exact e.trans (h.owners hi q hq)
  · rw [hcue]
    exact h.go hi

theorem keepsCueIdle_of_only {s t : State} (k : Only (allBut [.cue, .table, .generators, .figures]) s t) : KeepsCueIdle s t := by
  have htable : t.table = s.table := k.field (by simp : Field.table ∈ _)
  have hgens : t.generators = s.generators := k.field (by simp : Field.generators ∈ _)
  have hfig : t.figures = s.figures := k.field (by simp : Field.figures ∈ _)
  exact keepsCueIdle_of_claims (k.field (by simp : Field.cue ∈ _)) (fun r hr => .inr ⟨r, htable ▸ hr, rfl⟩)
    (fun g hg => .inr ⟨g, hgens ▸ hg, rfl⟩) fun run hrun => .inr ⟨run, hfig ▸ hrun, rfl⟩

/-- A table whose records keep their Cue counts, or lose them. -/
theorem keepsCueIdle_table {s : State} {f : Record → Record} (hf : ∀ r ∈ s.table, (f r).cue = 0 ∨ ∃ q ∈ s.table, (f r).cue = q.cue) :
    KeepsCueIdle s { s with table := s.table.map f } := by
  refine keepsCueIdle_of_claims rfl (fun r hr => ?_) (fun g hg => .inr ⟨g, hg, rfl⟩) fun run hrun => .inr ⟨run, hrun, rfl⟩
  obtain ⟨q, hq, rfl⟩ := List.mem_map.1 hr
  exact hf q hq

/-- A record rewritten to one with a Cue count of the table's. -/
theorem keepsCueIdle_modRecord {s : State} {x : Target} {f : Record → Record} (hf : ∀ r ∈ s.table, ∃ q ∈ s.table, (f r).cue = q.cue) :
    KeepsCueIdle s (s.modRecord x f) := by
  refine keepsCueIdle_table fun r hr => ?_
  split
  · exact .inr (hf r hr)
  · exact .inr ⟨r, hr, rfl⟩

/-- A player that comes to hold a run without the Cue unit among its owners, or with owners of the law. -/
theorem keepsCueIdle_setPlayer {s : State} {p : Nat} {x : Option Run}
    (hx : ∀ run, x = some run → run.owners.cue = false ∨ ∃ q, some q ∈ s.figures.players ∧ run.owners.cue = q.owners.cue) :
    KeepsCueIdle s (s.setPlayer p x) := by
  refine keepsCueIdle_of_claims rfl (fun r hr => .inr ⟨r, hr, rfl⟩) (fun g hg => .inr ⟨g, hg, rfl⟩) fun run hrun => ?_
  rcases List.mem_or_eq_of_mem_set hrun with h | h
  · exact .inr ⟨run, h, rfl⟩
  · exact hx run h.symm

theorem OwnerSet.cue_put {o : OwnerSet} {who : FigureOwner} {b : Bool} (h : who ≠ .cue) : (o.put who b).cue = o.cue := by
  cases who with
  | claim => rfl
  | cue => exact absurd rfl h
  | link l => cases l <;> rfl

theorem OwnerSet.cue_only {who : FigureOwner} (h : who ≠ .cue) : (OwnerSet.only who).cue = false := by
  cases who with
  | claim => rfl
  | cue => exact absurd rfl h
  | link l => cases l <;> rfl

theorem keepsCueIdle_startStroke (a : Addr) (s : State) : KeepsCueIdle s (startStroke a s) := by
  unfold startStroke
  split
  next k _ =>
    have struck : KeepsCueIdle s (s.setStroke a (.striking (s.now + k.stroke))) := keepsCueIdle_modRecord fun r hr => ⟨r, hr, rfl⟩
    refine fun h => keepsCueIdle_of_only ?_ (struck h)
    exact ((modPort_only _ a.port _).mono (gs := [.ports, .counters])).trans (bump_only _ _).mono |>.but
  · exact id

theorem keepsCueIdle_removeOwner (o : FigureOwner) (s : State) (p : Nat) (run : Run) (hp : s.playing p = some run) :
    KeepsCueIdle s (s.setPlayer p
      (if (run.owners.put o false).isEmpty then none else some { run with owners := run.owners.put o false })) := by
  refine keepsCueIdle_setPlayer fun run' h => ?_
  split at h
  · cases h
  · cases h
    by_cases ho : o = .cue
    · subst ho
      exact .inl rfl
    · exact .inr ⟨run, State.mem_of_playing hp, OwnerSet.cue_put ho⟩

theorem relayed_keepsCueIdle : Relayed (allBut [.cue, .table, .generators, .figures]) KeepsCueIdle where
  free := keepsCueIdle_of_only
  trans := fun h k hs => k (h hs)
  bump := fun s n c => keepsCueIdle_of_only (bumpBy_only s n c).but
  settle := fun s => keepsCueIdle_of_only (settle_only s).but
  start := fun s a => keepsCueIdle_startStroke a s
  dequeue := fun s a => keepsCueIdle_of_only (dequeue_only a s).but
  join := fun s _ _ _ => keepsCueIdle_of_only (sched_only s fun x => { x with queue := x.queue ++ _ }).but
  reiterate := fun s _ _ _ => keepsCueIdle_of_only (sched_only s fun x => { x with reiterations := x.reiterations ++ _ }).but
  endReiteration := fun s a => keepsCueIdle_of_only (endReiteration_only a s).but
  damper := fun s i f => keepsCueIdle_of_only (modDamper_only s i f).but
  joins := fun s p run o hp ho => keepsCueIdle_setPlayer fun run' h => by
    cases h
    exact .inr ⟨run, State.mem_of_playing hp, OwnerSet.cue_put ho⟩
  begins := fun s p f o _ _ _ ho => keepsCueIdle_setPlayer fun run' h => by
    cases h
    exact .inl (OwnerSet.cue_only ho)
  steps := fun s p run fig n e hp _ _ => keepsCueIdle_setPlayer fun run' h => by
    cases h
    exact .inr ⟨run, State.mem_of_playing hp, rfl⟩
  leaves := fun s p run o hp _ => keepsCueIdle_removeOwner o s p run hp

theorem countsMove_keepsCueIdle (l : Link) : CountsMove l KeepsCueIdle := fun s x r add hr =>
  keepsCueIdle_modRecord fun _ _ => ⟨r, List.mem_of_find?_eq_some hr, by cases l <;> rfl⟩

theorem map_cueFlag_modify {f : Generator → Generator} (gs : List Generator) (j : Nat) (hf : ∀ g, (f g).cueFlag = g.cueFlag) :
    (gs.modify j f).map Generator.cueFlag = gs.map Generator.cueFlag := by
  apply List.ext_getElem?
  intro i
  rw [List.getElem?_map, List.getElem?_map, List.getElem?_modify]
  split
  · cases gs[i]? with
    | none => rfl
    | some g => exact congrArg some (hf g)
  · cases gs[i]? <;> rfl

theorem judgeDemand_flags (before : Bool) (j : Nat) (s : State) :
    (judgeDemand before j s).generators.map Generator.cueFlag = s.generators.map Generator.cueFlag := by
  have turned : ∀ phase, (s.generators.modify j fun g => { g with phase := phase }).map Generator.cueFlag = s.generators.map Generator.cueFlag :=
    fun phase => map_cueFlag_modify _ _ fun _ => rfl
  unfold judgeDemand
  split
  · split
    · exact turned _
    · rfl
  · split
    · exact turned _
    · rfl

theorem keepsCueIdle_of_flags {s t : State} (k : Only (allBut [.cue, .table, .figures]) s t)
    (h : t.generators.map Generator.cueFlag = s.generators.map Generator.cueFlag) : KeepsCueIdle s t := by
  have htable : t.table = s.table := k.field (by simp : Field.table ∈ _)
  have hfig : t.figures = s.figures := k.field (by simp : Field.figures ∈ _)
  refine keepsCueIdle_of_claims (k.field (by simp : Field.cue ∈ _)) (fun r hr => .inr ⟨r, htable ▸ hr, rfl⟩) (fun g hg => ?_)
    fun run hrun => .inr ⟨run, hfig ▸ hrun, rfl⟩
  have : g.cueFlag ∈ s.generators.map Generator.cueFlag := h ▸ List.mem_map_of_mem hg
  obtain ⟨q, hq, e⟩ := List.mem_map.1 this
  exact .inr ⟨q, hq, e.symm⟩

theorem tabsTurn_keepsCueIdle (l : Link) : TabsTurn l KeepsCueIdle := fun s j on => by
  refine keepsCueIdle_of_flags (setTab_only l j on s).but ?_
  unfold setTab
  split
  · rfl
  · exact judgeDemand_flags _ _ _

/-! ## The unit goes IDLE -/

theorem rewriteCounts_table (f : Record → Record) (s : State) : (rewriteCounts f s).table = s.table.map f :=
  (Only.foldl (fun t r => reportRelease_only (f r) t) _ { s with table := s.table.map f }).table

/-- No Cue claim stands once the unit has gone IDLE, whatever stood before (R155). -/
theorem cueIdleLaw_cueGoesIdle (reason : StopReason) (s : State) : CueIdleLaw (cueGoesIdle reason s) := by
  unfold cueGoesIdle
  generalize ha : rewriteCounts Record.withoutCue (s.modCue fun c => { c with state := .idle }) = a
  generalize hb : removeOwnerEverywhere .cue (clearCueFlags a) = b
  have hab : Only [.generators, .figures] a b := by
    rw [← hb]
    exact (clearCueFlags_only a).mono.trans (removeOwnerEverywhere_only _ _).mono
  have counts : ∀ r ∈ b.table, r.cue = 0 := fun r hr => by
    rw [hab.table, ← ha, rewriteCounts_table] at hr
    obtain ⟨q, -, rfl⟩ := List.mem_map.1 hr
    rfl
  have flags : ∀ g ∈ b.generators, g.cueFlag = false := fun g hg => by
    rw [← hb, (removeOwnerEverywhere_only _ _).generators] at hg
    obtain ⟨j, rfl, -⟩ := State.generator_of_mem hg
    exact clearCueFlags_flag a j
  have owners : ∀ run, some run ∈ b.figures.players → run.owners.cue = false := fun run hrun =>
    removeOwnerEverywhere_has (o := .cue) (hb ▸ hrun)
  have told := notifyAll_only (b.modCue fun c => { c with pendingGo := false, owner := none, stopReason := some reason })
    (.cueStopped reason s.cue.current)
  exact ⟨fun _ r hr => counts r (by rw [told.table] at hr; exact hr), fun _ g hg => flags g (by rw [told.generators] at hg; exact hg),
    fun _ run hrun => owners run (by rw [told.figures] at hrun; exact hrun), fun _ => by rw [told.cue]; rfl⟩

theorem notifyAll_cue (s : State) (n : Notice) : (s.notifyAll n).cue = s.cue := (notifyAll_only s n).cue

theorem cueIdleLaw_completeRecord (i : Nat) (body : CueBody) (atTaking : Bool) (s : State) :
    CueIdleLaw (completeRecord i body atTaking s) := by
  unfold completeRecord
  dsimp only
  generalize (if body.indicate then _ else _ : State) = told
  cases body.next with
  | none => exact cueIdleLaw_cueGoesIdle _ _
  | some next =>
    dsimp only
    split
    · exact cueIdleLaw_of_busy (by simp [State.modCue])
    · split
      · exact cueIdleLaw_cueGoesIdle _ _
      · exact cueIdleLaw_of_busy (by simp [State.modCue])

theorem keepsCueIdle_completeCurrent (s : State) : KeepsCueIdle s (completeCurrent s) := fun h => by
  unfold completeCurrent
  split
  · split
    · exact cueIdleLaw_completeRecord _ _ _ _
    · exact h
  · exact h

theorem cueIdleLaw_carryOut (i : Nat) (body : CueBody) (s : State) : CueIdleLaw (carryOut i body s) := by
  unfold carryOut
  split
  · exact cueIdleLaw_of_busy (by simp [State.modCue])
  · split
    · exact cueIdleLaw_completeRecord _ _ _ _
    · exact cueIdleLaw_of_busy (by simp [State.modCue])
  · exact cueIdleLaw_completeRecord _ _ _ _

theorem keepsCueIdle_takeCurrent (s : State) : KeepsCueIdle s (takeCurrent s) := fun h => by
  unfold takeCurrent
  split
  · split
    · exact cueIdleLaw_cueGoesIdle _ _
    · split
      · exact cueIdleLaw_carryOut _ _ _
      · exact cueIdleLaw_cueGoesIdle _ _
  · exact h

theorem keepsCueIdle_takeGo (s : State) : KeepsCueIdle s (takeGo s) := by
  have pending : s.cue.state ≠ .idle →
      KeepsCueIdle s (if s.cue.pendingGo then s.bump .goOverruns else s.modCue fun c => { c with pendingGo := true }) := fun hb _ => by
    split
    · exact cueIdleLaw_of_busy hb
    · exact cueIdleLaw_of_busy hb
  unfold takeGo
  split
  · exact keepsCueIdle_completeCurrent s
  · exact relayed_keepsCueIdle.bump s 1 _
  all_goals exact pending (by simp [*])

theorem keepsCueIdle_resumeCue (l : Link) {sub : SubState} {s : State} (hs : s.cue.state = .suspended sub) : KeepsCueIdle s (resumeCue l sub s) := by
  have busy : ∀ f : CueUnit → CueUnit, (f s.cue).state = s.cue.state → CueIdleLaw (s.modCue f) := fun f hf =>
    cueIdleLaw_of_busy (by show (f s.cue).state ≠ _; rw [hf, hs]; simp)
  intro _
  unfold resumeCue
  dsimp only
  split
  · exact cueIdleLaw_of_busy (by simp [State.modCue])
  · split
    · exact keepsCueIdle_completeCurrent _ (busy _ rfl)
    · exact cueIdleLaw_of_busy (by simp [State.modCue])
  · split
    · exact keepsCueIdle_completeCurrent _ (busy (fun c => { c with owner := some l, runCount := 0, stopReason := none, pendingGo := false }) rfl)
    · exact cueIdleLaw_of_busy (by simp [State.modCue])

theorem cueIdleLaw_abortCue (s : State) : CueIdleLaw (abortCue s) := by
  unfold abortCue
  split <;> exact cueIdleLaw_cueGoesIdle _ _

theorem keepsCueIdle_notify (s : State) (l : Link) (n : Notice) : KeepsCueIdle s (s.notify l n) := keepsCueIdle_of_only (notify_only s l n).but

theorem keepsCueIdle_notifyAll (s : State) (n : Notice) : KeepsCueIdle s (s.notifyAll n) := keepsCueIdle_of_only (notifyAll_only s n).but

theorem keepsCueIdle_cueOwnerLost (l : Link) (s : State) : KeepsCueIdle s (cueOwnerLost l s) := fun h => by
  unfold cueOwnerLost
  split
  next hc =>
    refine keepsCueIdle_notifyAll _ _ (cueIdleLaw_of_busy ?_)
    have hb := CueUnit.busy_iff.1 hc.2
    show (match s.cue.remembered s.now with
      | some sub => UnitState.suspended sub
      | none => s.cue.state) ≠ .idle
    split
    · simp
    · exact hb
  · exact h

theorem keepsCueIdle_tellLoss (l : Link) (s : State) : KeepsCueIdle s (tellLoss l s) := fun h => by
  unfold tellLoss
  split
  · exact keepsCueIdle_cueOwnerLost l _ (keepsCueIdle_notify s _ _ h)
  · exact keepsCueIdle_notify _ _ _ (keepsCueIdle_cueOwnerLost l s h)

/-! ## What reaches every block at once -/

theorem cueIdleLaw_of_rest {s : State} (htable : s.table = []) (hgens : ∀ g ∈ s.generators, g.cueFlag = false)
    (hplayers : ∀ x ∈ s.figures.players, x = none) (hgo : s.cue.pendingGo = false) : CueIdleLaw s :=
  ⟨fun _ r hr => (by rw [htable] at hr; cases hr), fun _ => hgens, fun _ run hrun => (by cases hplayers _ hrun), fun _ => hgo⟩

theorem cueIdleLaw_resetPart (l : Link) (up : Bool) (s : State) : CueIdleLaw (resetPart l up s) := by
  refine cueIdleLaw_of_rest rfl (fun g hg => ?_) (fun _ => mem_map_none) rfl
  obtain ⟨q, -, rfl⟩ := List.mem_map.1 hg
  rfl

/-- Cutting strokes changes a record's stroke alone. -/
theorem cutRecord_eq (s : State) (reached : Addr → Bool) (r : Record) :
    cutRecord s reached r = { r with stroke := (cutRecord s reached r).stroke } := by
  unfold cutRecord
  split
  · split <;> rfl
  · rfl

theorem cutRecord_cue (s : State) (reached : Addr → Bool) (r : Record) : (cutRecord s reached r).cue = r.cue := by rw [cutRecord_eq]

theorem cutRecord_congr {s t : State} (hn : t.now = s.now) (hs : t.store = s.store) (reached : Addr → Bool) :
    cutRecord t reached = cutRecord s reached := by
  funext r
  unfold cutRecord State.strikeTimes
  rw [hn, show t.source = s.source by funext i; unfold State.source; rw [hs]]

theorem silenceStrikes_table (s : State) : (silenceStrikes s).table = s.table.map (cutRecord s fun _ => true) := rfl

/-- SILENCE's part takes every count to 0 and cuts every stroke (R22, R86). -/
theorem silencedPart_table (s : State) : (silencedPart s).table = s.table.map fun r => cutRecord s (fun _ => true) r.silenced := by
  have only : Only [.table, .sched, .figures, .regs] s
      (((rewriteCounts Record.silenced s).modReg .one Registration.quieted).modReg .two Registration.quieted) :=
    ((rewriteCounts_only Record.silenced s).mono.trans (modReg_only _ .one _).mono).trans (modReg_only _ .two _).mono
  rw [silencedPart, (stopPlayers_only _).table, silenceStrikes_table, State.modReg_table, State.modReg_table, rewriteCounts_table,
    List.map_map, cutRecord_congr only.now only.store]
  rfl

theorem keepsCueIdle_silencedPart (s : State) : KeepsCueIdle s (silencedPart s) := by
  have only := silencedPart_only s
  refine keepsCueIdle_of_claims only.cue (fun r hr => ?_) (fun g hg => .inr ⟨g, by rwa [only.generators] at hg, rfl⟩)
    fun run hrun => by cases mem_map_none hrun
  rw [silencedPart_table] at hr
  obtain ⟨q, -, rfl⟩ := List.mem_map.1 hr
  exact .inl (cutRecord_cue _ _ _)

theorem keepsCueIdle_silenceEffects (reason : StopReason) (s : State) : KeepsCueIdle s (silenceEffects reason s) := fun h => by
  rw [silenceEffects_eq]
  split
  · exact cueIdleLaw_cueGoesIdle _ _
  · exact keepsCueIdle_silencedPart s h

theorem keepsCueIdle_stopAllPlaying (s : State) : KeepsCueIdle s (stopAllPlaying s) := fun h => by
  refine keepsCueIdle_of_claims ?_ (fun r hr => (by cases hr)) (fun g hg => .inl ?_) (fun run hrun => ?_)
    (keepsCueIdle_silenceEffects .reset s h)
  · exact (stopAllPlaying_behind s).cue
  · obtain ⟨q, -, rfl⟩ := List.mem_map.1 hg
    rfl
  · exact .inr ⟨run, by rwa [(stopAllPlaying_behind s).figures] at hrun, rfl⟩

/-- The records of a new demand table have every count 0 (R19, R51). -/
theorem mem_demandTable_counts {t : Tables} {r : Record} (h : r ∈ demandTable t) : r.link1 = 0 ∧ r.link2 = 0 ∧ r.cue = 0 := by
  rcases List.mem_append.1 h with h | h
  · obtain ⟨o, -, rfl⟩ := List.mem_map.1 h
    exact ⟨rfl, rfl, rfl⟩
  · obtain ⟨⟨i, x⟩, -, hx⟩ := List.mem_filterMap.1 h
    cases x with
    | figureTrap => cases hx; exact ⟨rfl, rfl, rfl⟩
    | _ => cases hx

theorem enterReady_table (s : State) : (enterReady s).table = demandTable s.store.tables := by
  refine (Only.foldl (fs := [.shutters, .ports]) (fun u c => Only.ite (stepChamber_only c u).mono (Only.refl _ _)) _ _).table.trans ?_
  exact (Only.foldl (fun u p => startDetect_only p u) _ _).table

theorem keepsCueIdle_enterReady (s : State) : KeepsCueIdle s (enterReady s) := by
  have only := enterReady_only s
  refine keepsCueIdle_of_claims only.cue (fun r hr => .inl ?_) (fun g hg => .inr ⟨g, by rwa [only.generators] at hg, rfl⟩)
    fun run hrun => .inr ⟨run, by rwa [only.figures] at hrun, rfl⟩
  rw [enterReady_table] at hr
  exact (mem_demandTable_counts hr).2.2

theorem keepsCueIdle_dropStrikes (reached : Addr → Bool) (s : State) : KeepsCueIdle s (dropStrikes reached s) := by
  refine keepsCueIdle_of_claims rfl (fun r hr => .inr ?_) (fun g hg => .inr ⟨g, hg, rfl⟩) fun run hrun => .inr ⟨run, hrun, rfl⟩
  obtain ⟨q, hq, rfl⟩ := List.mem_map.1 hr
  exact ⟨q, hq, cutRecord_cue _ _ _⟩

/-! ## Every event -/

theorem keepsCueIdle_of_message {l : Link} {t v : State} {c : Instr} (h : MessageEffect l t c v) : KeepsCueIdle t v := by
  have k := relayed_keepsCueIdle
  have count := countsMove_keepsCueIdle l
  have reached := Only.of_message h
  cases h with
  | unchanged => exact id
  | discarded | ignored => exact k.bump _ _ _
  | keys d es => exact k.foldl (k.keyEntry count (by decide) d) es t
  | stops es => exact k.foldl (k.stopEntry count (by decide)) es t
  | tabs es => exact k.foldl (k.tabEntry (tabsTurn_keepsCueIdle l)) es t
  | registration b => exact k.replaceRegistration count (by decide) (tabsTurn_keepsCueIdle l) b t
  | release => exact k.trans (k.releaseKeys count (by decide) t) (k.takeTransposition (by decide) _)
  | go => exact keepsCueIdle_takeGo t
  | tempo n =>
    exact keepsCueIdle_of_claims rfl (fun r hr => .inr ⟨r, hr, rfl⟩) (fun g hg => .inr ⟨g, hg, rfl⟩) fun run hrun => .inr ⟨run, hrun, rfl⟩
  | specBegin blank =>
    exact k.trans (k.ite (fun _ => keepsCueIdle_stopAllPlaying t) fun _ => id) (keepsCueIdle_of_only (beginLoading_only blank _).but)
  | silence => exact keepsCueIdle_silenceEffects _ t
  | cueStart | cueSuspend => exact fun _ => cueIdleLaw_of_busy (by simp [State.modCue])
  | cueResume sub hs => exact keepsCueIdle_resumeCue l hs
  | cueAbort => exact fun _ => cueIdleLaw_abortCue t
  | figureStart f => exact k.startFigure (by simp) f t
  | figureStop f => exact k.removeFigureOwner _ f t
  | figureSync figures => exact k.foldl (k.syncPlayer figures) _ t
  | disable p =>
    exact fun ht => keepsCueIdle_dropStrikes _ _ (keepsCueIdle_of_only (modPort_only t p _).but ht)
  | _ => exact keepsCueIdle_of_only reached.but

theorem keepsCueIdle_tripPort (p : Nat) (e : PortEntry) (pt : Port) (s : State) : KeepsCueIdle s (tripPort p e pt s) := by
  unfold tripPort
  dsimp only
  have tripped : ∀ f, Only [.counters, .ports] s ((s.bump (.portTrips p)).modPort p f) := fun f =>
    (bump_only _ _).mono.trans (modPort_only _ _ _).mono
  split
  · intro h
    refine keepsCueIdle_dropStrikes _ _ (keepsCueIdle_notifyAll _ _ (keepsCueIdle_of_only ?_ h))
    exact ((tripped _).trans (bump_only _ _).mono).but
  · intro h
    exact keepsCueIdle_dropStrikes _ _ (keepsCueIdle_notifyAll _ _ (keepsCueIdle_of_only (tripped _).but h))

theorem keepsCueIdle_supplyFails (s : State) : KeepsCueIdle s (supplyFails s) := fun h => by
  refine keepsCueIdle_notifyAll _ _ (keepsCueIdle_dropStrikes _ _ ?_)
  exact keepsCueIdle_of_claims (s := s) rfl (fun r hr => .inr ⟨r, hr, rfl⟩) (fun g hg => .inr ⟨g, hg, rfl⟩)
    (fun run hrun => .inr ⟨run, hrun, rfl⟩) h

theorem keepsCueIdle_loseLink (l : Link) (s : State) : KeepsCueIdle s (loseLink l s) := fun h => by
  have k := relayed_keepsCueIdle
  rw [loseLink_eq]
  split
  · exact cueIdleLaw_resetPart _ _ _
  · refine k.bump _ 1 _ (keepsCueIdle_tellLoss l _ ?_)
    exact k.emptiedLink (countsMove_keepsCueIdle l) (by decide) (by decide) (tabsTurn_keepsCueIdle l) s h

theorem keepsCueIdle_of_own {s v : State} {c : Instr} (h : OwnEffect s c v) : KeepsCueIdle s v := by
  have k := relayed_keepsCueIdle
  have reached := Only.of_own h
  have struck : ∀ a x, KeepsCueIdle s (s.setStroke a x) := fun a x => keepsCueIdle_modRecord fun r hr => ⟨r, hr, rfl⟩
  cases h with
  | powerOn =>
    exact fun _ => cueIdleLaw_of_rest rfl (fun g hg => by rw [List.eq_of_mem_replicate hg]) (fun _ => List.eq_of_mem_replicate) rfl
  | loss l => exact keepsCueIdle_loseLink l s
  | reset l => exact fun _ => cueIdleLaw_resetPart l true s
  | sent l => exact keepsCueIdle_of_only (endTransmission_only l s).but
  | passed => exact keepsCueIdle_enterReady s
  | failed f => exact keepsCueIdle_of_only (failCheck_only f s).but
  | struck a | rested a => exact struck a _
  | reiterated a n => exact k.trans (keepsCueIdle_of_only (rearm_only a n s).but) (k.requestStrike a _)
  | stepped p run => exact k.endStep (keepsCueIdle_setPlayer fun run h => (by cases h)) run
  | turned j x phase =>
    exact keepsCueIdle_of_flags (modGenerator_only s j _).but (map_cueFlag_modify _ _ fun _ => rfl)
  | tripped p pt e => exact keepsCueIdle_tripPort p e pt s
  | supplyFell => exact keepsCueIdle_supplyFails s
  | dwelling c d => exact keepsCueIdle_of_only (supply_only s fun x => { x with dwell := d }).but
  | record => exact keepsCueIdle_takeCurrent s
  | waited => exact keepsCueIdle_completeCurrent s
  | _ => exact keepsCueIdle_of_only reached.but

theorem exec_keepsCueIdle {c : Instr} {s t : State} (h : exec c s = .next t) : KeepsCueIdle s t :=
  relayed_keepsCueIdle.exec (by decide) (fun l u => keepsCueIdle_of_only (takeHead_only l u).but) keepsCueIdle_of_message
    keepsCueIdle_of_own h

/-- Settles O9. -/
theorem everyStepKeepsTheCueIdleLaw : Obligations.EveryStepKeepsTheCueIdleLaw :=
  fun _ _ h hs => step_keeps h hs (fun u rest hu => keepsCueIdle_of_only (pending_only u rest).but hu)
    (fun _ _ => keepsCueIdle_of_only (tick_only _).but hs) (fun _ _ _ he hu => exec_keepsCueIdle he hu)

end Sys2Proof.Machine
end

