-- ==== Sys2Proof/Proofs/RegistrationLaws.lean ====
section
/-! PROOF. What holds of each registration block on its own (02): the induction over the ways in which the part rewrites a block, packaged
once. -/

namespace Sys2Proof.Machine

-- One theorem after another, so that the compile needs few threads.
set_option Elab.async false

/-! ## The block of a lost link -/

/-- The keys released, the stops cancelled, the tabs turned off, no transposition (R40). -/
def Registration.emptied (r : Registration) : Registration :=
  { r.tabs.foldl (fun q j => q.tab j false) { r.lifted with stops := [] } with requested := 0, effective := 0 }

theorem emptiedLink_rewrites (l : Link) (s : State) : Rewrites l .emptied s (emptiedLink l s) := by
  unfold emptiedLink
  dsimp only
  have down := rewrites_of_only l (modLink_only s l fun i => { i with state := .down, silenceTimer := none })
  have released := (down.trans (releaseKeys_rewrites l _)).trans (rewrites_modReg l (fun r => { r with stops := [] }) _)
  have untabbed := released.trans (rewrites_foldl (f := fun _ j r => r.tab j false) (fun t j => setTab_rewrites l j false t)
    (fun t j => (setTab_only l j false t).store) (fun _ _ _ _ => rfl) (s.reg l).tabs _)
  have torn := (untabbed.trans (rewrites_modReg l (fun r => { r with requested := 0, effective := 0 }) _)).then_only
    (removeOwnerEverywhere_only (.link l) _)
  have all := torn.then_only (modLink_only _ l fun i =>
    { i with input := [], replies := [], notices := [], transmitter := .idle, flow := .flowing, resetPending := false })
  refine rewrites_iff.2 ⟨all.reg_same.trans ?_, all.reg_other⟩
  simp only [Function.comp, Registration.emptied, id]

/-! ## What every rewriting keeps -/

/-- A property of one registration block that every rewriting keeps, where the stops that may be drawn lie below a bound. -/
structure KeptByPlay (n : Nat) (P : Registration → Prop) : Prop where
  pressed : ∀ r d k b, P r → P (r.press d k b).taken
  drawn : ∀ r i, i < n → i ∉ r.stops → P r → P (r.draw i)
  cancelled : ∀ r i, P r → P (r.cancel i)
  tabbed : ∀ r j on, j < 8 → P r → P (r.tab j on)
  requested : ∀ r v, P r → P (r.request v)
  released : ∀ r, P r → P r.lifted.taken
  quieted : ∀ r, P r → P r.quieted
  emptied : ∀ r, P r → P r.emptied
  empty : P .empty

theorem State.lt_of_stop {s : State} {i : Nat} {st : Stop} (h : s.stop i = some st) : i < s.store.tables.stops.length := by
  by_contra hn
  unfold State.stop at h
  rw [List.getElem?_eq_none (Nat.not_lt.1 hn)] at h
  cases h

/-- Entries that each keep a property keep it together. -/
theorem foldl_keeps {α β : Type} {P : β → Prop} {f : β → α → β} (hf : ∀ b x, P b → P (f b x)) : ∀ (xs : List α) (b : β), P b → P (xs.foldl f b)
  | [], _, h => h
  | x :: xs, b, h => foldl_keeps hf xs (f b x) (hf b x h)

/-- Entries that each keep a property by what they are keep it together. -/
theorem foldl_keeps_of_mem {α β : Type} {P : β → Prop} {f : β → α → β} :
    ∀ (xs : List α) (b : β), (∀ x ∈ xs, ∀ b, P b → P (f b x)) → P b → P (xs.foldl f b)
  | [], _, _, h => h
  | x :: xs, b, hf, h => foldl_keeps_of_mem xs (f b x) (fun y hy => hf y (List.mem_cons_of_mem x hy)) (hf x List.mem_cons_self b h)

theorem mem_foldl_insertMember {i : Nat} : ∀ (xs set : List Nat), i ∈ xs.foldl (fun set i => insertMember i set) set ↔ i ∈ xs ∨ i ∈ set
  | [], set => by simp
  | x :: xs, set => by rw [List.foldl_cons, mem_foldl_insertMember xs, mem_insertMember, List.mem_cons]; tauto

/-- An ascending list without duplicates stays one. -/
theorem sorted_insertMember {i : Nat} {xs : List Nat} (h : xs.Pairwise (· < ·)) : (insertMember i xs).Pairwise (· < ·) := by
  induction xs with
  | nil => simp [insertMember]
  | cons x rest ih =>
    obtain ⟨hx, hrest⟩ := List.pairwise_cons.1 h
    unfold insertMember
    split
    next hi => exact List.pairwise_cons.2 ⟨fun y hy => by
      rcases List.mem_cons.1 hy with rfl | hy
      · exact hi
      · exact hi.trans (hx y hy), h⟩
    · split
      · exact h
      next hle hne =>
        refine List.pairwise_cons.2 ⟨fun y hy => ?_, ih hrest⟩
        rcases mem_insertMember.1 hy with rfl | hy
        · omega
        · exact hx y hy

theorem sorted_foldl_insertMember : ∀ (xs set : List Nat), set.Pairwise (· < ·) →
    (xs.foldl (fun set i => insertMember i set) set).Pairwise (· < ·)
  | [], _, h => h
  | _ :: xs, _, h => sorted_foldl_insertMember xs _ (sorted_insertMember h)

theorem State.listedStops_nodup (s : State) (b : RegistrationBody) : (s.listedStops b).Nodup :=
  (sorted_foldl_insertMember _ [] List.Pairwise.nil).imp fun h => Nat.ne_of_lt h

theorem State.mem_listedStops {s : State} {b : RegistrationBody} {i : Nat} :
    i ∈ s.listedStops b ↔ i ∈ b.stops ∧ (s.stop i).isSome = true := by
  unfold State.listedStops
  simp [mem_foldl_insertMember]

theorem mem_listedTabs {b : RegistrationBody} {j : Nat} : j ∈ listedTabs b ↔ j ∈ b.tabs ∧ j < 8 := by
  unfold listedTabs
  simp [mem_foldl_insertMember]

theorem Registration.mem_draw {r : Registration} {i j : Nat} : i ∈ (r.draw j).stops ↔ i = j ∨ i ∈ r.stops := mem_insertMember

namespace KeptByPlay

variable {n : Nat} {P : Registration → Prop}

theorem keyed (k : KeptByPlay n P) (s : State) (d : Nat) (e : Nat × Level) (r : Registration) (h : P r) : P (s.keyed d e r) := by
  unfold State.keyed
  split
  · split
    · exact k.pressed r d e.1 e.2 h
    · exact h
  · exact h

theorem stopped (k : KeptByPlay n P) {s : State} (hn : s.store.tables.stops.length ≤ n) (e : Nat × Option Bool) (r : Registration) (h : P r) :
    P (s.stopped e r) := by
  unfold State.stopped
  split
  next st drawn hst _ =>
    split
    · exact h
    next hc =>
      cases drawn with
      | true => exact k.drawn r e.1 ((State.lt_of_stop hst).trans_le hn) (by simpa using hc) h
      | false => exact k.cancelled r e.1 h
  all_goals exact h

theorem turned (k : KeptByPlay n P) (e : Nat × Option Bool) (r : Registration) (h : P r) : P (Machine.tabbed e r) := by
  unfold Machine.tabbed
  split
  · split
    next hj => exact k.tabbed r _ _ hj h
    · exact h
  · exact h

theorem drawings (k : KeptByPlay n P) {s : State} (hn : s.store.tables.stops.length ≤ n) :
    ∀ (xs : List Nat) (r : Registration), xs.Nodup → (∀ i ∈ xs, i ∉ r.stops) → P r → P (xs.foldl (fun q i => s.drawing i q) r)
  | [], _, _, _, h => h
  | i :: xs, r, hx, hr, h => by
    obtain ⟨hi, hxs⟩ := List.nodup_cons.1 hx
    rw [List.foldl_cons]
    unfold State.drawing
    cases hst : s.stop i with
    | none => exact drawings k hn xs r hxs (fun j hj => hr j (List.mem_cons_of_mem i hj)) h
    | some st =>
      refine drawings k hn xs (r.draw i) hxs (fun j hj hm => ?_) (k.drawn r i ((State.lt_of_stop hst).trans_le hn) (hr i List.mem_cons_self) h)
      rcases Registration.mem_draw.1 hm with rfl | hm
      · exact hi hj
      · exact hr j (List.mem_cons_of_mem i hj) hm

theorem registered (k : KeptByPlay n P) {s : State} (hn : s.store.tables.stops.length ≤ n) (b : RegistrationBody) (r : Registration) (h : P r) :
    P (s.registered b r) := by
  refine k.requested _ _ (foldl_keeps_of_mem _ _ (fun j hj q hq => ?_) (foldl_keeps (fun q i hq => ?_) _ _ ?_))
  · exact k.tabbed q j _ (List.mem_range.1 (List.mem_filter.1 hj).1) hq
  · unfold State.cancelling
    split
    · exact k.cancelled q i hq
    · exact hq
  · refine k.drawings hn _ r ((s.listedStops_nodup b).filter _) (fun i hi => ?_) h
    simpa using (List.mem_filter.1 hi).2

/-- A message keeps the property of every block. -/
theorem message (k : KeptByPlay n P) {l : Link} {t v : State} {c : Instr} (h : MessageEffect l t c v) (hn : t.store.tables.stops.length ≤ n)
    (ht : ∀ m, P (t.reg m)) (m : Link) : P (v.reg m) := by
  have rewritten : ∀ {f u}, Rewrites l f t u → (P (t.reg l) → P (f (t.reg l))) → P (u.reg m) := fun {f u} hr hf => by
    by_cases hm : m = l
    · subst hm
      rw [hr.reg_same]
      exact hf (ht m)
    · rw [hr.reg_of_ne hm]
      exact ht m
  have stand : ∀ {u : State}, u.regs = t.regs → P (u.reg m) := fun hu => by rw [State.reg_of_regs hu]; exact ht m
  have reached := Only.of_message h
  cases h with
  | unchanged => exact ht m
  | discarded | ignored => exact stand rfl
  | keys d es => exact rewritten (keyEntries_rewrites l d es t) (foldl_keeps (fun q e => k.keyed t d e q) es _)
  | stops es => exact rewritten (stopEntries_rewrites l es t) (foldl_keeps (fun q e => k.stopped hn e q) es _)
  | tabs es => exact rewritten (tabEntries_rewrites l es t) (foldl_keeps (fun q e => k.turned e q) es _)
  | registration b => exact rewritten (replaceRegistration_rewrites l b t) (k.registered hn b _)
  | transpose x => exact rewritten (requestTransposition_rewrites l x t) (k.requested _ x)
  | release =>
    exact rewritten ((releaseKeys_rewrites l t).trans (takeTransposition_rewrites l _)) fun hr => by
      rw [Function.comp]
      exact k.released _ hr
  | specBegin blank =>
    rw [State.reg_of_regs (beginLoading_only blank _).regs]
    split
    · cases m <;> exact k.empty
    · exact ht m
  | silence =>
    have quiet : P ((silencedPart t).reg m) := by
      have only := rewriteCounts_only Record.silenced t
      cases m
      · exact k.quieted _ (by rw [State.reg_of_regs only.regs]; exact ht .one)
      · exact k.quieted _ (by
          rw [State.reg_modReg_of_ne _ (by decide), State.reg_of_regs only.regs]
          exact ht .two)
    rw [silenceEffects_eq]
    split
    · rw [State.reg_of_regs (cueGoesIdle_only _ _).regs]
      exact quiet
    · exact quiet
  | _ => exact stand (reached.regs (by simp [reaches]))

theorem loseLink (k : KeptByPlay n P) (l : Link) {s : State} (hs : ∀ m, P (s.reg m)) (m : Link) : P ((loseLink l s).reg m) := by
  have told : P (((tellLoss l (emptiedLink l s)).bump (.linkLosses l)).reg m) := by
    rw [State.reg_of_regs (bump_only _ _).regs, State.reg_of_regs (tellLoss_only l _).regs]
    by_cases hm : m = l
    · subst hm
      rw [(emptiedLink_rewrites m s).reg_same]
      exact k.emptied _ (hs m)
    · rw [(emptiedLink_rewrites l s).reg_of_ne hm]
      exact hs m
  rw [loseLink_eq]
  split
  · cases m <;> exact k.empty
  · exact told

theorem own (k : KeptByPlay n P) {s v : State} {c : Instr} (h : OwnEffect s c v) (hs : ∀ m, P (s.reg m)) (m : Link) : P (v.reg m) := by
  have stand : ∀ {u : State}, u.regs = s.regs → P (u.reg m) := fun hu => by rw [State.reg_of_regs hu]; exact hs m
  have reached := Only.of_own h
  cases h with
  | powerOn | reset => cases m <;> exact k.empty
  | loss l => exact k.loseLink l hs m
  | sent l => exact stand (endTransmission_only l s).regs
  | rested a => exact stand (setStroke_only s a _).regs
  | dwelling c d => exact stand (supply_only s fun x => { x with dwell := d }).regs
  | _ => exact stand (reached.regs (by simp [reaches]))

/-- A command keeps the property of every block. -/
theorem exec (k : KeptByPlay n P) {c : Instr} {s t : State} (h : exec c s = .next t) (hn : s.store.tables.stops.length ≤ n)
    (hs : ∀ m, P (s.reg m)) (m : Link) : P (t.reg m) := by
  rcases exec_effect h with rfl | ⟨serve, u, hu, rfl⟩
  · exact hs m
  rw [State.reg_of_regs (finish_only serve u).regs]
  have head : ∀ l m, P ((takeHead l s).reg m) := fun l m => by rw [State.reg_of_regs (takeHead_only l s).regs]; exact hs m
  have bound : ∀ l, (takeHead l s).store.tables.stops.length ≤ n := fun l => by rw [(takeHead_only l s).store]; exact hn
  cases hu with
  | played l _ v _ hv => exact k.message hv (bound l) (head l) m
  | answered l _ p v _ _ hv => rw [State.reg_of_regs (addPlace_only l p v).regs]; exact k.message hv (bound l) (head l) m
  | own v hv => exact k.own hv hs m

end KeptByPlay

/-! ## The law of R33 -/

/-- A block that holds no key has its requested transposition in effect. -/
def Registration.Settled (r : Registration) : Prop := r.holdsNoKey = true → r.effective = r.requested

theorem Registration.settled_taken (r : Registration) : r.taken.Settled := by
  unfold Registration.taken Registration.Settled
  split
  · exact fun _ => rfl
  next h => exact fun h' => absurd h' h

theorem Registration.tab_keeps (r : Registration) (j : Nat) (on : Bool) :
    (r.tab j on).keys = r.keys ∧ (r.tab j on).stops = r.stops ∧ (r.tab j on).requested = r.requested ∧ (r.tab j on).effective = r.effective := by
  unfold Registration.tab
  split <;> exact ⟨rfl, rfl, rfl, rfl⟩

theorem settled_keptByPlay (n : Nat) : KeptByPlay n Registration.Settled where
  pressed := fun _ _ _ _ _ => Registration.settled_taken _
  drawn := fun _ _ _ _ h => h
  cancelled := fun _ _ h => h
  tabbed := fun r j on _ h => by
    obtain ⟨hk, -, hr, he⟩ := r.tab_keeps j on
    unfold Registration.Settled Registration.holdsNoKey
    rw [hk, hr, he]
    exact h
  requested := fun _ _ _ => Registration.settled_taken _
  released := fun _ _ => Registration.settled_taken _
  quieted := fun _ _ _ => rfl
  emptied := fun _ _ _ => rfl
  empty := fun _ => rfl

theorem exec_transpositionLaw {c : Instr} {s t : State} (h : exec c s = .next t) (hs : TranspositionLaw s) : TranspositionLaw t :=
  (settled_keptByPlay s.store.tables.stops.length).exec h le_rfl hs

end Sys2Proof.Machine
end

