-- ==== Sys2Proof/Proofs/Readers.lean ====
section
/-! PROOF. What the readers of message bodies accept (Machine/Operands): a field that is read lies in the range of the rule that names it. -/

namespace Sys2Proof.Machine

-- One theorem after another, so that the compile needs few threads.
set_option Elab.async false

theorem field1_eq_some {lo hi n : Nat} {b : Byte} : field1 lo hi b = some n ↔ b.toNat = n ∧ lo ≤ n ∧ n ≤ hi := by
  unfold field1
  split
  next h => exact ⟨fun e => (by cases e; exact ⟨rfl, h⟩), fun e => by rw [e.1]⟩
  next h => exact ⟨fun e => (by cases e), fun e => absurd (by rw [e.1]; exact e.2) h⟩

theorem field2_eq_some {lo hi n : Nat} {a b : Byte} : field2 lo hi a b = some n ↔ number2 a b = n ∧ lo ≤ n ∧ n ≤ hi := by
  unfold field2
  split
  next h => exact ⟨fun e => (by cases e; exact ⟨rfl, h⟩), fun e => by rw [e.1]⟩
  next h => exact ⟨fun e => (by cases e), fun e => absurd (by rw [e.1]; exact e.2) h⟩

/-- A spec entry write that is read names a place of its table, and carries an entry that its fields spell (R8). -/
theorem readEntry_eq_some {α : Type} {size : Nat} {entry : List Byte → Option α} {body : List Byte} {w : EntryWrite α}
    (h : readEntry size entry body = some w) : w.index < size ∧ ∀ e, w.entry = some e → ∃ fields, entry fields = some e := by
  unfold readEntry at h
  split at h
  next index marker fields =>
    split at h
    next hi =>
      split at h
      · split at h
        · cases h
          exact ⟨hi, fun e he => by cases he⟩
        · cases h
      · split at h
        · obtain ⟨e, he, rfl⟩ := Option.map_eq_some_iff.1 h
          exact ⟨hi, fun e' he' => by cases he'; exact ⟨fields, he⟩⟩
        · cases h
    · cases h
  · cases h

theorem readDivision_range {fields : List Byte} {n : Nat} (h : readDivision fields = some n) : n ≤ 64 := by
  unfold readDivision at h
  split at h
  · exact (field1_eq_some.1 h).2.2
  · cases h

theorem readPort_lockout {fields : List Byte} {e : PortEntry} (h : readPort fields = some e) : 2 ≤ e.lockout ∧ e.lockout ≤ 15 := by
  unfold readPort at h
  split at h
  · simp only [Option.bind_eq_bind, Option.bind_eq_some_iff] at h
    obtain ⟨_, _, _, _, _, _, _, _, c, hc, _, _, he⟩ := h
    cases he
    exact (field1_eq_some.1 hc).2
  · cases h

theorem readFigure_steps {fields : List Byte} {f : Figure} (h : readFigure fields = some f) : f.steps.length ≤ 32 := by
  unfold readFigure at h
  split at h
  · split at h
    · split at h
      · simp only [Option.bind_eq_bind, Option.bind_eq_some_iff] at h
        obtain ⟨_, _, steps, _, _, _, he⟩ := h
        split at he
        next hs => cases he; exact hs.2.2
        · cases he
      · cases h
    · cases h
  · cases h

theorem readConfigure_range {fields : List Byte} {b : ConfigureBody} (h : readConfigure fields = some b) :
    (1 ≤ b.low ∧ b.low < b.high ∧ b.high ≤ 64) ∧ (50 ≤ b.silenceTime ∧ b.silenceTime ≤ 2000) ∧ 5 ≤ b.deferral ∧ b.deferral ≤ 100 := by
  unfold readConfigure at h
  split at h
  · simp only [Option.bind_eq_bind, Option.bind_eq_some_iff] at h
    obtain ⟨t, ht, d, hd, he⟩ := h
    split at he
    next hm => cases he; exact ⟨hm, (field2_eq_some.1 ht).2, (field1_eq_some.1 hd).2⟩
    · cases he
  · cases h

theorem readNote_range {b : Byte} {note : Option Nat} (h : readNote b = some note) : ∀ n ∈ note, n < 128 := by
  unfold readNote at h
  split at h
  · cases h
    exact fun n hn => by cases hn
  · obtain ⟨m, hm, rfl⟩ := Option.map_eq_some_iff.1 h
    rintro n ⟨⟩
    have := (field1_eq_some.1 hm).2.2
    omega

theorem readNext_range {a b : Byte} {next : Option Nat} (h : readNext a b = some next) : ∀ n ∈ next, n < 512 := by
  unfold readNext at h
  split at h
  · cases h
    exact fun n hn => by cases hn
  · obtain ⟨m, hm, rfl⟩ := Option.map_eq_some_iff.1 h
    rintro n ⟨⟩
    have := (field2_eq_some.1 hm).2.2
    omega

/-- An action that is read has its operands in range (R139). -/
theorem readAction_range {a b c d e f : Byte} {act : Action} (h : readAction a b c d e f = some act) : act.InRange := by
  unfold readAction at h
  simp only [Option.bind_eq_bind] at h
  split at h
  · simp only [Option.bind_eq_some_iff] at h
    obtain ⟨i, hi, n, hn, he⟩ := h
    cases he
    exact ⟨Nat.lt_succ_of_le (field1_eq_some.1 hi).2.2, readNote_range hn⟩
  split at h
  · simp only [Option.bind_eq_some_iff] at h
    obtain ⟨i, hi, n, hn, _, _, he⟩ := h
    cases he
    exact ⟨Nat.lt_succ_of_le (field1_eq_some.1 hi).2.2, readNote_range hn⟩
  split at h
  · simp only [Option.bind_eq_some_iff] at h
    obtain ⟨i, hi, _, _, he⟩ := h
    cases he
    exact Nat.lt_succ_of_le (field1_eq_some.1 hi).2.2
  split at h
  · simp only [Option.bind_eq_some_iff] at h
    obtain ⟨k, hk, p, hp, he⟩ := h
    cases he
    exact ⟨Nat.lt_succ_of_le (field1_eq_some.1 hk).2.2, Nat.lt_succ_of_le (field1_eq_some.1 hp).2.2⟩
  split at h
  · obtain ⟨n, hn, rfl⟩ := Option.map_eq_some_iff.1 h
    exact (field2_eq_some.1 hn).2
  split at h
  · simp only [Option.bind_eq_some_iff] at h
    obtain ⟨j, hj, _, _, he⟩ := h
    cases he
    exact Nat.lt_succ_of_le (field1_eq_some.1 hj).2.2
  split at h
  · obtain ⟨n, hn, rfl⟩ := Option.map_eq_some_iff.1 h
    exact (field2_eq_some.1 hn).2
  split at h
  · cases h
    trivial
  · cases h

theorem readCueWrite_range {fields : List Byte} {w : CueWrite} (h : readCueWrite fields = some w) : w.index < 512 ∧ w.body.InRange := by
  unfold readCueWrite at h
  split at h
  · simp only [Option.bind_eq_bind, Option.bind_eq_some_iff] at h
    obtain ⟨x, hx, next, hnext, act, hact, he⟩ := h
    cases he
    exact ⟨Nat.lt_succ_of_le (field2_eq_some.1 hx).2.2, readNext_range hnext, readAction_range hact⟩
  · cases h

end Sys2Proof.Machine
end

