-- ==== Sys2Proof/Proofs/LinkRanges.lean ====
section
/-! PROOF. The ranges of the interfaces (09, The link interface; The input queue; The reply list; Transmitting; Configuring a link): queues
within their sizes, marks and silence times within their bounds. -/

namespace Sys2Proof.Machine

-- One theorem after another, so that the compile needs few threads.
set_option Elab.async false

/-- Both interfaces are in range. -/
def LinksInRange (s : State) : Prop := ∀ l, (s.link l).InRange

/-- What keeps the ranges. -/
def KeepsLinks (s t : State) : Prop := LinksInRange s → LinksInRange t

/-- What keeps the ranges, and every reply in its place. -/
def KeepsReplies (s t : State) : Prop := (∀ l, (t.link l).replies = (s.link l).replies) ∧ KeepsLinks s t

theorem keepsReplies_of_links {s t : State} (h : t.links = s.links) : KeepsReplies s t :=
  ⟨fun l => by rw [State.link_of_links h], fun hs l => by rw [State.link_of_links h]; exact hs l⟩

theorem keepsReplies_of_only {s t : State} (k : Only (allBut [.links]) s t) : KeepsReplies s t :=
  keepsReplies_of_links (k.field (by simp : Field.links ∈ _))

theorem KeepsReplies.trans {s t u : State} (h : KeepsReplies s t) (k : KeepsReplies t u) : KeepsReplies s u :=
  ⟨fun l => (k.1 l).trans (h.1 l), fun hs => k.2 (h.2 hs)⟩

theorem State.link_modLink (s : State) (l m : Link) (f : LinkIf → LinkIf) :
    (s.modLink l f).link m = if m = l then f (s.link m) else s.link m := by
  split
  next h => rw [h, State.link_modLink_same]
  next h => exact State.link_modLink_of_ne s h f

theorem keepsLinks_modLink {s : State} {l : Link} {f : LinkIf → LinkIf} (hf : (s.link l).InRange → (f (s.link l)).InRange) :
    KeepsLinks s (s.modLink l f) := fun hs m => by
  rw [State.link_modLink]
  split
  next h => rw [h]; exact hf (hs l)
  · exact hs m

theorem keepsReplies_modLink {s : State} {l : Link} {f : LinkIf → LinkIf} (hr : (f (s.link l)).replies = (s.link l).replies)
    (hf : (s.link l).InRange → (f (s.link l)).InRange) : KeepsReplies s (s.modLink l f) := by
  refine ⟨fun m => ?_, keepsLinks_modLink hf⟩
  rw [State.link_modLink]
  split
  next h => rw [h, hr]
  · rfl

theorem joinNotices_length {queue : List Notice} (h : queue.length ≤ 16) (n : Notice) : (joinNotices queue n).1.length ≤ 16 := by
  unfold joinNotices
  have size : Config.noticeQueueSize = 16 := rfl
  split
  next hlt => simp; omega
  · split
    next hany =>
      simp only [Bool.and_eq_true, List.any_eq_true] at hany
      obtain ⟨m, hm, hp⟩ := hany.2
      rw [List.length_append, List.length_eraseP_of_mem hm hp, List.length_singleton]
      have := List.length_pos_of_mem hm
      omega
    · exact h

theorem keepsReplies_notify (s : State) (l : Link) (n : Notice) : KeepsReplies s (s.notify l n) := by
  have joined : KeepsReplies s (s.modLink l fun i => { i with notices := (joinNotices (s.link l).notices n).1 }) :=
    keepsReplies_modLink rfl fun h => { h with notices := joinNotices_length h.notices n }
  unfold State.notify
  split
  · exact keepsReplies_of_links rfl
  · dsimp only
    split
    · exact joined.trans (keepsReplies_of_links rfl)
    · exact joined

theorem relayed_keepsReplies : Relayed (allBut [.links]) KeepsReplies where
  free := keepsReplies_of_only
  trans := KeepsReplies.trans
  bump := fun _ _ _ => keepsReplies_of_links rfl
  settle := fun _ => keepsReplies_of_links rfl
  start := fun s a => keepsReplies_of_only (startStroke_only a s).but
  dequeue := fun _ _ => keepsReplies_of_links rfl
  join := fun _ _ _ _ => keepsReplies_of_links rfl
  reiterate := fun _ _ _ _ => keepsReplies_of_links rfl
  endReiteration := fun _ _ => keepsReplies_of_links rfl
  damper := fun _ _ _ => keepsReplies_of_links rfl
  joins := fun _ _ _ _ _ _ => keepsReplies_of_links rfl
  begins := fun _ _ _ _ _ _ _ _ => keepsReplies_of_links rfl
  steps := fun _ _ _ _ _ _ _ _ _ => keepsReplies_of_links rfl
  leaves := fun s p _ _ _ _ => keepsReplies_of_only (setPlayer_only s p _).but

theorem cueDriven_keepsReplies : CueDriven (allBut [.links]) KeepsReplies :=
  relayed_keepsReplies.cueDriven keepsReplies_notify (by decide) (by decide) (by decide) (fun _ _ _ _ => keepsReplies_of_links rfl)
    (fun _ _ _ _ _ _ => keepsReplies_of_links rfl) (fun _ => keepsReplies_of_links rfl) (fun _ _ _ _ _ => keepsReplies_of_links rfl)

theorem keepsReplies_notifyAll (s : State) (n : Notice) : KeepsReplies s (s.notifyAll n) := cueDriven_keepsReplies.notifyAll n s

/-! ## Messages -/

theorem keepsReplies_judgeFlow (l : Link) (s : State) : KeepsReplies s (judgeFlow l s) := by
  have judged : ∀ flow n, KeepsReplies s ((s.modLink l fun i => { i with flow := flow }).notify l n) := fun flow n =>
    (keepsReplies_modLink rfl fun h => { h with }).trans (keepsReplies_notify _ _ _)
  unfold judgeFlow
  split <;> split <;> first
    | exact judged _ _
    | exact keepsReplies_of_links rfl

theorem keepsReplies_takeHead (l : Link) (s : State) : KeepsReplies s (takeHead l s) := by
  refine KeepsReplies.trans ?_ (keepsReplies_judgeFlow l _)
  exact keepsReplies_modLink rfl fun h => { h with input := by simpa using Nat.le_succ_of_le h.input }

/-- What CONFIGURE sets at its link (R172). -/
def configuredLink (l : Link) (b : ConfigureBody) (s : State) : State :=
  (judgeFlow l (s.modLink l fun i => { i with low := b.low, high := b.high })).modLink l fun i =>
    { i with silenceTime := b.silenceTime, silenceTimer := some (s.now + b.silenceTime) }

theorem configureLink_eq (l : Link) (b : ConfigureBody) (s : State) :
    configureLink l b s = setDeferral b.deferral (configuredLink l b s) := rfl

theorem keepsReplies_configureLink (l : Link) {b : ConfigureBody} {fields : List Byte} (hb : readConfigure fields = some b) (s : State) :
    KeepsReplies s (configureLink l b s) := by
  obtain ⟨hmarks, htime, -⟩ := readConfigure_range hb
  have marked : KeepsReplies s (s.modLink l fun i => { i with low := b.low, high := b.high }) :=
    keepsReplies_modLink rfl fun h => { h with marks := hmarks }
  have configured : KeepsReplies s (configuredLink l b s) :=
    (marked.trans (keepsReplies_judgeFlow l _)).trans (keepsReplies_modLink rfl fun h => { h with silenceTime := htime })
  rw [configureLink_eq]
  exact configured.trans (keepsReplies_of_only (setDeferral_only _ _).but)

theorem keepsReplies_silenceEffects (reason : StopReason) (s : State) : KeepsReplies s (silenceEffects reason s) :=
  cueDriven_keepsReplies.silenceEffects (keepsReplies_of_only (silencedPart_only s).but) reason

theorem keepsReplies_restorePort (p : Nat) (history : List Nat) (s : State) : KeepsReplies s (restorePort p history s) :=
  ((keepsReplies_of_only (modPort_only s p _).but).trans (keepsReplies_of_only (startDetect_only p _).but)).trans
    (keepsReplies_notifyAll _ _)

theorem keepsReplies_of_message {l : Link} {t v : State} {c : Instr} (h : MessageEffect l t c v) : KeepsReplies t v := by
  have k := cueDriven_keepsReplies
  have reached := Only.of_message h
  by_cases hp : CueDriven.playing c = true
  · exact k.message (by decide) (k.tabsTurn (by decide) (by decide))
      (fun _ _ _ _ _ _ => keepsReplies_of_links rfl) h hp
  · cases h with
    | unchanged => exact k.refl t
    | discarded | ignored => exact k.bump _ _ _
    | specBegin blank =>
      refine k.trans (k.ite (fun _ => (keepsReplies_silenceEffects .reset t).trans ?_) fun _ => k.refl _)
        (keepsReplies_of_only (beginLoading_only blank _).but)
      exact keepsReplies_of_only (stopAllPlaying_behind t).but
    | silence => exact keepsReplies_silenceEffects _ t
    | configure fields b hb => exact keepsReplies_configureLink l hb t
    | restore p => exact keepsReplies_restorePort p [] t
    | fullReset => exact keepsReplies_modLink rfl fun h => { h with }
    | _ => first
      | exact absurd rfl hp
      | exact keepsReplies_of_only reached.but

/-! ## The part's own events -/

theorem keepsLinks_setReceiver (s : State) (l : Link) (r : Receiver) : KeepsLinks s (s.setReceiver l r) :=
  keepsLinks_modLink fun h => { h with }

/-- A good frame counted, and its link UP, of which both links are told where it was DOWN (R164). -/
def broughtUp (l : Link) (s : State) : State :=
  match (s.link l).state with
  | .down => ((s.bump (.framesGood l)).modLink l fun i => { i with state := .up }).notifyAll (.linkUp l)
  | .up => s.bump (.framesGood l)

/-- Its silence timer running anew (R164). -/
def heard (l : Link) (s : State) : State := (broughtUp l s).modLink l fun i => { i with silenceTimer := some (s.now + i.silenceTime) }

theorem goodFrame_eq (l : Link) (m : Message) (s : State) :
    goodFrame l m s =
      if m.kind = Kind.presence then heard l s
      else if ((heard l s).link l).input.length < 64 then
        judgeFlow l ((heard l s).modLink l fun i => { i with input := i.input ++ [m] })
      else (heard l s).bump (.framesDropped l) := rfl

theorem keepsReplies_heard (l : Link) (s : State) : KeepsReplies s (heard l s) := by
  have up : KeepsReplies s (broughtUp l s) := by
    unfold broughtUp
    split
    · exact KeepsReplies.trans (KeepsReplies.trans (keepsReplies_of_only (bump_only s (.framesGood l)).but)
        (keepsReplies_modLink rfl fun h => { h with })) (keepsReplies_notifyAll _ _)
    · exact keepsReplies_of_only (bump_only s (.framesGood l)).but
  exact up.trans (keepsReplies_modLink rfl fun h => { h with })

theorem keepsLinks_goodFrame (l : Link) (m : Message) (s : State) : KeepsLinks s (goodFrame l m s) := fun h => by
  have timed := (keepsReplies_heard l s).2 h
  rw [goodFrame_eq]
  split
  · exact timed
  · split
    next hlt =>
      have joined : LinksInRange ((heard l s).modLink l fun i => { i with input := i.input ++ [m] }) :=
        keepsLinks_modLink (fun h => { h with input := by rw [List.length_append, List.length_singleton]; exact hlt }) timed
      exact (keepsReplies_judgeFlow l _).2 joined
    · exact (keepsReplies_of_only (bump_only _ _).but).2 timed

theorem keepsLinks_receiveByte (l : Link) (b : Byte) (s : State) : KeepsLinks s (receiveByte l b s) := fun h => by
  have receiver := fun r => keepsLinks_setReceiver s l r h
  have bumped : ∀ u c, LinksInRange u → LinksInRange (u.bump c) := fun u c => (keepsReplies_of_links (s := u) rfl).2
  unfold receiveByte
  split
  · split
    · exact receiver _
    · exact h
  · split
    · exact bumped _ _ (receiver _)
    · exact receiver _
  · split
    · exact receiver _
    · unfold completeFrame
      split
      · split
        · exact keepsLinks_goodFrame _ _ _ (receiver _)
        · exact bumped _ _ (receiver _)
      · exact bumped _ _ (receiver _)

theorem linksInRange_of_atPowerOn {s : State} {l : Link} (h : (s.link l).InRange) (ho : s.link (otherLink l) = LinkIf.atPowerOn) :
    LinksInRange s := fun m => by
  by_cases hm : m = l
  · rw [hm]; exact h
  · have e : m = otherLink l := by revert hm; cases l <;> cases m <;> simp [otherLink]
    rw [e, ho]
    exact linkIf_atPowerOn_inRange

theorem linksInRange_resetPart (l : Link) (up : Bool) (s : State) : LinksInRange (resetPart l up s) := by
  refine linksInRange_of_atPowerOn (l := l) ?_ ?_
  · have e : (resetPart l up s).link l = LinkIf.afterReset s.now up := Pair.get_set_same _ _ _
    rw [e, LinkIf.afterReset]
    split
    · exact { linkIf_atPowerOn_inRange with }
    · exact linkIf_atPowerOn_inRange
  · exact (Pair.get_set_other _ _ _).trans (by cases l <;> rfl)

/-- A lost link's interface: DOWN, its queues and lists empty, its frame abandoned (R171). -/
def LinkIf.lost (i : LinkIf) : LinkIf :=
  { i with
    state := .down
    silenceTimer := none
    input := []
    replies := []
    notices := []
    transmitter := .idle
    flow := .flowing
    resetPending := false }

theorem emptiedLink_links (l : Link) (s : State) : (emptiedLink l s).links = (s.modLink l LinkIf.lost).links := by
  unfold emptiedLink
  dsimp only
  generalize hu : removeOwnerEverywhere (.link l) _ = u
  have hlinks : u.links = (s.modLink l fun i => { i with state := .down, silenceTimer := none }).links := by
    rw [← hu, (removeOwnerEverywhere_only _ _).links, State.modReg_links,
      (Only.foldl (fun t j => setTab_only l j false t) _ _).links, State.modReg_links, (releaseKeys_only l _).links]
  refine Pair.ext_get fun m => ?_
  show (u.modLink l _).link m = (s.modLink l _).link m
  rw [State.link_modLink, State.link_modLink, State.link_of_links hlinks, State.link_modLink]
  split <;> rfl

theorem linkIf_lost_inRange {i : LinkIf} (h : i.InRange) : i.lost.InRange :=
  { h with input := Nat.zero_le _, replies := Nat.zero_le _, notices := Nat.zero_le _ }

theorem keepsLinks_loseLink (l : Link) (s : State) : KeepsLinks s (loseLink l s) := fun h => by
  rw [loseLink_eq]
  split
  · exact linksInRange_resetPart _ _ _
  · have emptied : LinksInRange (emptiedLink l s) :=
      (keepsReplies_of_links (emptiedLink_links l s)).2 (keepsLinks_modLink linkIf_lost_inRange h)
    exact (keepsReplies_of_links rfl).2 ((cueDriven_keepsReplies.tellLoss l _).2 emptied)

theorem keepsLinks_endTransmission (l : Link) (s : State) : KeepsLinks s (endTransmission l s) := by
  unfold endTransmission
  split
  · exact keepsLinks_modLink fun h => { h with replies := (List.length_eraseIdx_le _ _).trans h.replies }
  · exact keepsLinks_modLink fun h => { h with }
  · exact id

theorem keepsLinks_fillReservation (code : ReplyCode) (contents : List Byte) (s : State) : KeepsLinks s (fillReservation code contents s) :=
  fun h => by
  have filled : ∀ l u, KeepsLinks u (u.modLink l fun i => { i with replies := i.replies.map (Place.fill code contents) }) := fun l u =>
    keepsLinks_modLink fun h => { h with replies := by simpa using h.replies }
  exact filled .two _ (filled .one s h)

theorem enterReady_links (s : State) : (enterReady s).links = (fillReservation .ok [] s).links := by
  refine (Only.foldl (fs := [.shutters, .ports]) (fun u c => Only.ite (stepChamber_only c u).mono (Only.refl _ _)) _ _).links.trans ?_
  exact (Only.foldl (fun u p => startDetect_only p u) _ _).links

/-- A trip: the port and the counters, then the notice, then the strikes dropped (R124, R75). -/
theorem tripPort_parts (p : Nat) (e : PortEntry) (pt : Port) (s : State) :
    ∃ u n, Only [.ports, .counters] s u ∧ tripPort p e pt s = dropStrikes (onPort p) (u.notifyAll n) := by
  have tripped : ∀ f, Only [.ports, .counters] s ((s.bump (.portTrips p)).modPort p f) := fun f =>
    (bump_only _ _).mono.trans (modPort_only _ _ _).mono
  unfold tripPort
  dsimp only
  split
  · exact ⟨_, _, (tripped _).trans (bump_only _ _).mono, rfl⟩
  · exact ⟨_, _, tripped _, rfl⟩

theorem keepsReplies_tripPort (p : Nat) (e : PortEntry) (pt : Port) (s : State) : KeepsReplies s (tripPort p e pt s) := by
  obtain ⟨u, n, hu, e⟩ := tripPort_parts p e pt s
  rw [e]
  exact ((keepsReplies_of_only hu.but).trans (keepsReplies_notifyAll _ _)).trans (keepsReplies_of_only (dropStrikes_only _ _).but)

theorem keepsReplies_supplyFails (s : State) : KeepsReplies s (supplyFails s) := by
  refine KeepsReplies.trans (t := dropStrikes (fun _ => true)
    { s with supply := { state := .low, dwell := none }, ports := s.ports.map fun pt => { pt with detect := none } }) ?_
    (keepsReplies_notifyAll _ _)
  exact keepsReplies_of_links rfl

theorem keepsLinks_of_own {s v : State} {c : Instr} (h : OwnEffect s c v) : KeepsLinks s v := by
  have k := cueDriven_keepsReplies
  have reached := Only.of_own h
  have of_links : ∀ {u : State}, u.links = s.links → KeepsLinks s u := fun hu => (keepsReplies_of_links hu).2
  cases h with
  | powerOn => exact fun _ l => by cases l <;> exact linkIf_atPowerOn_inRange
  | byteArrival l b => exact keepsLinks_receiveByte l b s
  | cut l => exact fun h => (keepsReplies_of_links rfl).2 (keepsLinks_setReceiver s l .hunting h)
  | loss l => exact keepsLinks_loseLink l s
  | reset l => exact fun _ => linksInRange_resetPart l true s
  | sent l => exact keepsLinks_endTransmission l s
  | passed => exact fun h => (keepsReplies_of_links (enterReady_links s)).2 (keepsLinks_fillReservation _ _ s h)
  | failed f => exact fun h => (keepsReplies_of_links rfl).2 (keepsLinks_fillReservation _ _ s h)
  | rested a => exact of_links rfl
  | tripped p pt e => exact (keepsReplies_tripPort p e pt s).2
  | restored p pt => exact (keepsReplies_restorePort p _ s).2
  | supplyFell => exact (keepsReplies_supplyFails s).2
  | dwelling c d => exact of_links rfl
  | supplyRose =>
    refine (KeepsReplies.trans (keepsReplies_of_links ?_) (keepsReplies_notifyAll _ _)).2
    exact (Only.foldl (fun t p => startDetect_only p t) allPorts _).links
  | record =>
    exact (k.takeCurrent fun i r _ => ⟨fun n _ => keepsReplies_of_links rfl,
      fun c p _ => keepsReplies_of_only (writeChannel_only c p s).but⟩).2
  | waited => exact (k.completeCurrent s).2
  | _ => exact (keepsReplies_of_only reached.but).2

/-! ## Every event -/

theorem keepsLinks_beginTransmission (l : Link) (s : State) : KeepsLinks s (beginTransmission l s) := by
  unfold beginTransmission
  split
  · exact id
  · split
    · split
      · exact keepsLinks_modLink fun h => { h with }
      · exact id
    · split
      next n rest hn =>
        refine fun h => keepsLinks_modLink (fun h => { h with }) (keepsLinks_modLink (fun h => { h with notices := ?_ }) h)
        have := h.notices
        rw [hn, List.length_cons] at this
        exact (Nat.le_succ _).trans this
      · exact id

theorem keepsLinks_finish (serve : Bool) (s : State) : KeepsLinks s (finish serve s) := fun h =>
  keepsLinks_beginTransmission .two _ (keepsLinks_beginTransmission .one _
    ((keepsReplies_of_links (settleAndServe_only serve s).links).2 h))

theorem exec_keepsLinks {c : Instr} {s t : State} (h : exec c s = .next t) : KeepsLinks s t := by
  rcases exec_effect h with rfl | ⟨serve, u, hu, rfl⟩
  · exact id
  refine fun hs => keepsLinks_finish serve u ?_
  cases hu with
  | played l m v _ hv => exact ((keepsReplies_takeHead l s).trans (keepsReplies_of_message hv)).2 hs
  | answered l m p v _ hplace hv =>
    have kept := (keepsReplies_takeHead l s).trans (keepsReplies_of_message hv)
    refine keepsLinks_modLink (fun h => { h with replies := ?_ }) (kept.2 hs)
    rw [List.length_append, List.length_singleton, kept.1 l]
    exact hplace
  | own v hv => exact keepsLinks_of_own hv hs

end Sys2Proof.Machine
end

