-- ==== Sys2Proof/Proofs/Tables.lean ====
section
/-! PROOF. The specification tables (01, The specification tables): a command leaves them, blanks them, or writes one entry that its body
spells; and what every entry keeps then holds of them. The engine state and the tables change by the events that the manual names alone. -/

namespace Sys2Proof.Machine

-- One theorem after another, so that the compile needs few threads.
set_option Elab.async false

/-- What a command may make of the tables. -/
inductive Tables.Written (t : Tables) : Tables → Prop
  | same : t.Written t
  | blank : t.Written Tables.blank
  | divisions (fields : List Byte) (w : EntryWrite Nat) : readEntry 6 readDivision fields = some w →
      t.Written { t with divisions := t.divisions.set w.index w.entry }
  | sources (fields : List Byte) (w : EntryWrite Source) : readEntry 64 readSource fields = some w →
      t.Written { t with sources := t.sources.set w.index w.entry }
  | stops (fields : List Byte) (w : EntryWrite Stop) : readEntry 192 readStop fields = some w →
      t.Written { t with stops := t.stops.set w.index w.entry }
  | chambers (fields : List Byte) (w : EntryWrite Chamber) : readEntry 4 readChamber fields = some w →
      t.Written { t with chambers := t.chambers.set w.index w.entry }
  | tremulants (fields : List Byte) (w : EntryWrite Tremulant) : readEntry 8 readTremulant fields = some w →
      t.Written { t with tremulants := t.tremulants.set w.index w.entry }
  | ports (fields : List Byte) (w : EntryWrite PortEntry) : readEntry 8 readPort fields = some w →
      t.Written { t with ports := t.ports.set w.index w.entry }
  | figures (fields : List Byte) (w : EntryWrite Figure) : readEntry 16 readFigure fields = some w →
      t.Written { t with figures := t.figures.set w.index w.entry }

theorem beginLoading_tables (blank : Bool) (s : State) :
    (beginLoading blank s).store.tables = if blank then Tables.blank else s.store.tables := rfl

theorem stopAllPlaying_store (s : State) : (stopAllPlaying s).store = s.store := (stopAllPlaying_only s).store

theorem specBegin_store (blank : Bool) (s : State) :
    (beginLoading blank (if s.ready then stopAllPlaying s else s)).store =
      { s.store with engine := .loading, tables := if blank then Tables.blank else s.store.tables } := by
  have h : (if s.ready then stopAllPlaying s else s).store = s.store := by
    split
    · exact stopAllPlaying_store s
    · rfl
  unfold beginLoading
  dsimp only
  rw [h]

theorem loseLink_store (l : Link) (s : State) :
    (loseLink l s).store = if (s.link l).resetPending = true then
      { engine := .unconfigured, lastCheck := .none, checkBegan := none, tables := Tables.blank } else s.store := by
  rw [loseLink_eq]
  split
  · rfl
  · exact (toldLoss_only l s).store

theorem MessageEffect.written {l : Link} {t v : State} {c : Instr} (h : MessageEffect l t c v) : t.store.tables.Written v.store.tables := by
  have stand : ∀ {u : State}, u.store = t.store → t.store.tables.Written u.store.tables := fun hu => by rw [hu]; exact .same
  have reached := Only.of_message h
  cases h with
  | unchanged => exact .same
  | discarded | ignored => exact stand rfl
  | specBegin blank =>
    rw [specBegin_store]
    cases blank
    · exact .same
    · exact .blank
  | divisions fields w _ hw => exact .divisions fields w hw
  | sources fields w _ hw => exact .sources fields w hw
  | specStops fields w _ hw => exact .stops fields w hw
  | chambers fields w _ hw => exact .chambers fields w hw
  | tremulants fields w _ hw => exact .tremulants fields w hw
  | ports fields w _ hw => exact .ports fields w hw
  | figures fields w _ hw => exact .figures fields w hw
  | commit => exact .same
  | _ => exact stand (reached.store (by simp [reaches]))

theorem enterReady_store (s : State) :
    (enterReady s).store = { s.store with engine := .ready, lastCheck := .passed, checkBegan := none } := by
  refine (Only.foldl (fs := [.shutters, .ports]) (fun u c => Only.ite (stepChamber_only c u).mono (Only.refl _ _)) _ _).store.trans ?_
  exact (Only.foldl (fun u p => startDetect_only p u) _ _).store

theorem OwnEffect.written {s v : State} {c : Instr} (h : OwnEffect s c v) : s.store.tables.Written v.store.tables := by
  have stand : ∀ {u : State}, u.store = s.store → s.store.tables.Written u.store.tables := fun hu => by rw [hu]; exact .same
  have reached := Only.of_own h
  cases h with
  | powerOn | reset => exact .blank
  | loss l =>
    rw [loseLink_store]
    split
    · exact .blank
    · exact .same
  | sent l => exact stand (endTransmission_only l s).store
  | passed => rw [enterReady_store]; exact .same
  | failed f => exact .same
  | rested a => exact stand rfl
  | dwelling c d => exact stand rfl
  | _ => exact stand (reached.store (by simp [reaches]))

theorem exec_written {c : Instr} {s t : State} (h : exec c s = .next t) : s.store.tables.Written t.store.tables := by
  rcases exec_effect h with rfl | ⟨serve, u, hu, rfl⟩
  · exact .same
  rw [(finish_only serve u).store]
  cases hu with
  | played l m v _ hv =>
    have := hv.written
    rwa [(takeHead_only l s).store] at this
  | answered l m p v _ _ hv =>
    rw [(addPlace_only l p v).store]
    have := hv.written
    rwa [(takeHead_only l s).store] at this
  | own v hv => exact hv.written

/-! ## What every entry keeps -/

/-- The entries of a table after a write: those that stood, and the one written. -/
theorem mem_set_entry {α : Type} {xs : List (Option α)} {i : Nat} {e : Option α} {x : α} (h : some x ∈ xs.set i e) :
    some x ∈ xs ∨ e = some x := by
  rcases List.mem_or_eq_of_mem_set h with h | h
  · exact .inl h
  · exact .inr h.symm

theorem Tables.Written.stops_length {t u : Tables} (h : t.Written u) (ht : t.stops.length ≤ 192) : u.stops.length ≤ 192 := by
  cases h with
  | blank => exact List.length_replicate.le
  | stops fields w => rw [List.length_set]; exact ht
  | _ => exact ht

theorem Tables.Written.figure_steps {t u : Tables} (h : t.Written u) (ht : ∀ f, some f ∈ t.figures → f.steps.length ≤ 32) :
    ∀ f, some f ∈ u.figures → f.steps.length ≤ 32 := by
  cases h with
  | blank => exact fun f hf => absurd hf not_some_mem_replicate_none
  | figures fields w hw =>
    intro f hf
    rcases mem_set_entry hf with hf | he
    · exact ht f hf
    · obtain ⟨_, hr⟩ := (readEntry_eq_some hw).2 f he
      exact readFigure_steps hr
  | _ => exact ht

theorem Tables.Written.division_keys {t u : Tables} (h : t.Written u) (ht : t.divisions.length ≤ 6 ∧ ∀ n, some n ∈ t.divisions → n ≤ 64) :
    u.divisions.length ≤ 6 ∧ ∀ n, some n ∈ u.divisions → n ≤ 64 := by
  cases h with
  | blank => exact ⟨List.length_replicate.le, fun n hn => absurd hn not_some_mem_replicate_none⟩
  | divisions fields w hw =>
    refine ⟨by rw [List.length_set]; exact ht.1, fun n hn => ?_⟩
    rcases mem_set_entry hn with hn | he
    · exact ht.2 n hn
    · obtain ⟨_, hr⟩ := (readEntry_eq_some hw).2 n he
      exact readDivision_range hr
  | _ => exact ht

theorem Tables.Written.lockouts {t u : Tables} (h : t.Written u) (ht : ∀ e, some e ∈ t.ports → 2 ≤ e.lockout ∧ e.lockout ≤ 15) :
    ∀ e, some e ∈ u.ports → 2 ≤ e.lockout ∧ e.lockout ≤ 15 := by
  cases h with
  | blank => exact fun e he => absurd he not_some_mem_replicate_none
  | ports fields w hw =>
    intro e he
    rcases mem_set_entry he with he | he
    · exact ht e he
    · obtain ⟨_, hr⟩ := (readEntry_eq_some hw).2 e he
      exact readPort_lockout hr
  | _ => exact ht

theorem mem_of_join {α : Type} {xs : List (Option α)} {i : Nat} {x : α} (h : xs[i]?.join = some x) : some x ∈ xs := by
  cases hx : xs[i]? with
  | none => rw [hx] at h; cases h
  | some y =>
    rw [hx] at h
    exact List.mem_of_getElem? (hx.trans (congrArg some h))

theorem join_of_mem {α : Type} {xs : List (Option α)} {x : α} (h : some x ∈ xs) : ∃ i : Nat, xs[i]?.join = some x := by
  obtain ⟨i, hi, e⟩ := List.mem_iff_getElem.1 h
  exact ⟨i, by rw [List.getElem?_eq_getElem hi, e]; rfl⟩

/-! ## The engine state -/

/-- What a message makes of the engine state and the tables. -/
theorem MessageEffect.engine {l : Link} {t v : State} {c : Instr} (h : MessageEffect l t c v) :
    v.engine = t.engine ∨ c = .specBegin l ∧ t.engine ≠ .checking ∧ v.engine = .loading ∨
      c = .specCommit l ∧ t.engine = .loading ∧ v.engine = .checking := by
  have reached := Only.of_message h
  have stand : ∀ {u : State}, u.store = t.store → u.engine = t.engine := fun hu => by unfold State.engine; rw [hu]
  cases h with
  | unchanged | discarded | ignored => exact .inl rfl
  | specBegin blank hc => exact .inr (.inl ⟨rfl, hc, rfl⟩)
  | divisions | sources | specStops | chambers | tremulants | ports | figures => exact .inl rfl
  | commit hl => exact .inr (.inr ⟨rfl, hl, rfl⟩)
  | _ => exact .inl (stand (reached.store (by simp [reaches])))

/-- The conditions under which an event of the part's own, or one at its links, sets the engine state (R3, R19, R20, R24). -/
theorem OwnEffect.engine {s v : State} {c : Instr} (h : OwnEffect s c v) :
    v.engine = s.engine ∨
      (c = .checkCompletion ∧ s.engine = .checking ∧
        (v.engine = .ready ∧ v.store.lastCheck = .passed ∨ v.engine = .loading ∧ ∃ f, v.store.lastCheck = .failed f)) ∨
      (∃ l, (c = .transmitEnd l ∨ c = .fullResetTakesEffect l ∨ c = .silenceTimerExpiry l) ∧ (s.link l).resetPending = true ∧
        v.engine = .unconfigured) ∨
      (∃ rate up overs, c = .powerOn rate up overs ∧ v.engine = .unconfigured) := by
  have reached := Only.of_own h
  have stand : ∀ {u : State}, u.store = s.store → u.engine = s.engine := fun hu => by unfold State.engine; rw [hu]
  cases h with
  | powerOn r u o => exact .inr (.inr (.inr ⟨r, u, o, rfl, rfl⟩))
  | reset l c hc hp =>
    refine .inr (.inr (.inl ⟨l, ?_, hp, rfl⟩))
    rcases hc with rfl | rfl
    · exact .inl rfl
    · exact .inr (.inl rfl)
  | loss l c e hc =>
    have hstore := loseLink_store l s
    split at hstore
    next hp =>
      refine .inr (.inr (.inl ⟨l, ?_, hp, by unfold State.engine; rw [hstore]⟩))
      rcases hc with rfl | ⟨rfl, -⟩
      · exact .inr (.inr rfl)
      · exact .inr (.inl rfl)
    · exact .inl (stand hstore)
  | sent l => exact .inl (stand (endTransmission_only l s).store)
  | passed hc =>
    have hstore := enterReady_store s
    exact .inr (.inl ⟨rfl, hc, .inl ⟨by unfold State.engine; rw [hstore], by rw [hstore]⟩⟩)
  | failed f hc => exact .inr (.inl ⟨rfl, hc, .inr ⟨rfl, f, rfl⟩⟩)
  | rested | dwelling => exact .inl rfl
  | _ => exact .inl (stand (reached.store (by simp [reaches])))

/-! ## The tables -/

/-- What a message makes of the tables: nothing, the BLANK of SPEC BEGIN, or a write while LOADING. -/
theorem MessageEffect.tables {l : Link} {t v : State} {c : Instr} (h : MessageEffect l t c v) :
    v.store.tables = t.store.tables ∨ c = .specBegin l ∨ t.engine = .loading ∧ v.engine = .loading ∧ ∃ l, c ∈ [.specDivision l, .specSource l,
      .specStop l, .specChamber l, .specTremulant l, .specPort l, .specFigure l] := by
  have reached := Only.of_message h
  cases h with
  | unchanged | discarded | ignored | commit => exact .inl rfl
  | specBegin => exact .inr (.inl rfl)
  | divisions _ _ hl | sources _ _ hl | specStops _ _ hl | chambers _ _ hl | tremulants _ _ hl | ports _ _ hl | figures _ _ hl =>
    exact .inr (.inr ⟨hl, hl, l, by simp⟩)
  | _ => exact .inl (by rw [reached.store (by simp [reaches])])

/-- What an event of the part's own makes of them: nothing, or a reset. -/
theorem OwnEffect.tables {s v : State} {c : Instr} (h : OwnEffect s c v) :
    v.store.tables = s.store.tables ∨ v.store.tables = Tables.blank ∧
      ((∃ l, (c = .transmitEnd l ∨ c = .fullResetTakesEffect l ∨ c = .silenceTimerExpiry l) ∧ (s.link l).resetPending = true ∧
          v.engine = .unconfigured) ∨ ∃ rate up overs, c = .powerOn rate up overs) := by
  have reached := Only.of_own h
  cases h with
  | powerOn r u o => exact .inr ⟨rfl, .inr ⟨r, u, o, rfl⟩⟩
  | reset l c hc hp =>
    refine .inr ⟨rfl, .inl ⟨l, ?_, hp, rfl⟩⟩
    rcases hc with rfl | rfl
    · exact .inl rfl
    · exact .inr (.inl rfl)
  | loss l c e hc =>
    have hstore := loseLink_store l s
    split at hstore
    next hp =>
      refine .inr ⟨by rw [hstore], .inl ⟨l, ?_, hp, by unfold State.engine; rw [hstore]⟩⟩
      rcases hc with rfl | ⟨rfl, -⟩
      · exact .inr (.inr rfl)
      · exact .inr (.inl rfl)
    · exact .inl (by rw [hstore])
  | sent l => exact .inl (by rw [(endTransmission_only l s).store])
  | passed => exact .inl (by rw [enterReady_store])
  | failed | rested | dwelling => exact .inl rfl
  | _ => exact .inl (by rw [reached.store (by simp [reaches])])

/-- A message at the head of a queue waits there. -/
theorem waits_of_head {s : State} {l : Link} {m : Message} (h : s.head l = some m) : Waits s l m.kind m.body := by
  unfold State.head at h
  split at h
  · cases h
  next hr =>
    split at h
    next n rest hn =>
      split at h
      next hp =>
        cases h
        refine ⟨by rw [hn]; rfl, by simpa using hr, ?_⟩
        rcases Bool.or_eq_true _ _ ▸ hp with hp | hp
        · exact .inl (by simpa using hp)
        · exact .inr (of_decide_eq_true hp)
      · cases h
    · cases h

theorem readMode_eq_true {fields : List Byte} (h : readMode fields = some true) : fields = [1] := by
  unfold readMode at h
  split at h
  next m =>
    unfold fieldFlag at h
    split at h
    · cases h
    · split at h
      next hm => rw [hm]
      · cases h
  · cases h

/-- SPEC BEGIN leaves the tables, or blanks them for a body of a tag and BLANK (R6). -/
theorem execSpecBegin_tables {l : Link} {s t : State} (h : execSpecBegin l s = .next t) :
    t.store.tables = s.store.tables ∨ t.store.tables = Tables.blank ∧
      ∃ tag, Waits s l 0x20 [tag, 1] ∧ s.engine ≠ .checking ∧ t.engine = .loading := by
  have taken := (takeHead_only l s).store
  have ended : ∀ serve p (u : State), (finish serve (addPlace l p u)).store = u.store := fun serve p u => by
    rw [(finish_only _ _).store, (addPlace_only _ _ _).store]
  unfold execSpecBegin takeCommand takeCommandThen at h
  split at h
  next m hm =>
    split at h
    next hk =>
      dsimp only at h
      split at h
      · cases h
        exact .inl (by rw [addReply, ended, taken])
      · cases h
        exact .inl (by rw [addReply, ended, taken])
      next _ _ tag fields hg hb =>
        unfold answerSpecBegin at h
        split at h
        next blank hmode =>
          cases h
          unfold State.engine
          rw [addReply, ended, specBegin_store, taken]
          cases blank with
          | false => exact .inl rfl
          | true =>
            rw [readMode_eq_true hmode] at hb
            have hw := waits_of_head hm
            rw [hk, hb] at hw
            exact .inr ⟨rfl, tag, hw, Gate.begin_of_pass hg, rfl⟩
        · cases h
          exact .inl (by rw [addReply, ended]; exact congrArg Store.tables taken)
    · cases h
      exact .inl rfl
  · cases h
    exact .inl rfl

/-- The store that a command leaves is that of its effect. -/
theorem exec_stored {c : Instr} {s t : State} (h : exec c s = .next t) :
    t = s ∨ (∃ l v, MessageEffect l (takeHead l s) c v ∧ t.store = v.store) ∨ ∃ v, OwnEffect s c v ∧ t.store = v.store := by
  rcases exec_effect h with rfl | ⟨serve, u, hu, rfl⟩
  · exact .inl rfl
  refine .inr ?_
  rw [(finish_only serve u).store]
  cases hu with
  | played l m v _ hv => exact .inl ⟨l, _, hv, rfl⟩
  | answered l m p v _ _ hv => exact .inl ⟨l, v, hv, (addPlace_only l p v).store⟩
  | own v hv => exact .inr ⟨_, hv, rfl⟩

theorem takeHead_tables (l : Link) (s : State) : (takeHead l s).store.tables = s.store.tables := by rw [(takeHead_only l s).store]

/-- Settles O15: the engine's part by the effects on the engine state, the tables' part by those on the tables, SPEC BEGIN by its body. -/
theorem engineAndTablesChangeOnlyAsTheManualSays : Obligations.EngineAndTablesChangeOnlyAsTheManualSays := by
  intro c s t h
  rcases exec_stored h with rfl | ⟨l, v, hv, e⟩ | ⟨v, hv, e⟩
  · exact ⟨.inl rfl, .inl rfl⟩
  · have hengine := hv.engine
    have htables := hv.tables
    have same : v.engine = t.engine := congrArg Store.engine e.symm
    rw [takeHead_engine, same] at hengine htables
    rw [takeHead_tables, ← e] at htables
    constructor
    · rcases hengine with he | ⟨rfl, he⟩ | ⟨rfl, he⟩
      · exact .inl he
      · exact .inr (.inl ⟨l, rfl, he⟩)
      · exact .inr (.inr (.inl ⟨l, rfl, he⟩))
    · rcases htables with ht | rfl | ht
      · exact .inl ht
      · rcases execSpecBegin_tables h with ht | ⟨ht, tag, hw⟩
        · exact .inl ht
        · exact .inr (.inl ⟨ht, .inl ⟨l, tag, rfl, hw⟩⟩)
      · exact .inr (.inr ht)
  · have hengine := hv.engine
    have htables := hv.tables
    have same : v.engine = t.engine := congrArg Store.engine e.symm
    rw [same, ← e] at hengine htables
    constructor
    · rcases hengine with he | he | he | he
      · exact .inl he
      · exact .inr (.inr (.inr (.inl he)))
      · exact .inr (.inr (.inr (.inr (.inl he))))
      · exact .inr (.inr (.inr (.inr (.inr he))))
    · rcases htables with ht | ⟨ht, hr⟩
      · exact .inl ht
      · exact .inr (.inl ⟨ht, .inr hr⟩)

end Sys2Proof.Machine
end

