-- ==== Sys2Proof/Proofs/Ranges.lean ====
section
/-! PROOF. The other ranges that every step keeps (02 R25; 03 R52; 04 R70, R74, R78; 05 R89, R96; 06 R110; 08 R139, R142, R150), a block at a
time. -/

namespace Sys2Proof.Machine

-- One theorem after another, so that the compile needs few threads.
set_option Elab.async false

/-! ## Registration blocks (R25) -/

/-- Transpositions, drawn stops and tabs in their ranges. -/
structure Registration.InRange (r : Registration) : Prop where
  transpositions : -6 ≤ r.requested ∧ r.requested ≤ 6 ∧ -6 ≤ r.effective ∧ r.effective ≤ 6
  drawn : ∀ i ∈ r.stops, i < 192
  tabs : ∀ j ∈ r.tabs, j < 8

theorem Registration.InRange.taken {r : Registration} (h : r.InRange) : r.taken.InRange := by
  unfold Registration.taken
  split
  · obtain ⟨h1, h2, -, -⟩ := h.transpositions
    exact { h with transpositions := ⟨h1, h2, h1, h2⟩ }
  · exact h

theorem Registration.InRange.tab {r : Registration} (h : r.InRange) {j : Nat} (hj : j < 8) (on : Bool) : (r.tab j on).InRange := by
  obtain ⟨-, hs, hr, he⟩ := r.tab_keeps j on
  refine ⟨by rw [hr, he]; exact h.transpositions, by rw [hs]; exact h.drawn, fun i hi => ?_⟩
  have hc := r.contains_tab j i on
  rw [List.contains_iff_mem.2 hi] at hc
  split at hc
  next e => rw [e]; exact hj
  · exact h.tabs i (List.contains_iff_mem.1 hc.symm)

/-- A block that differs in its keys alone. -/
def SameButKeys (r q : Registration) : Prop :=
  q.stops = r.stops ∧ q.tabs = r.tabs ∧ q.requested = r.requested ∧ q.effective = r.effective

/-- Releasing keys touches nothing but the keys. -/
theorem Registration.lifted_keeps (r : Registration) : SameButKeys r r.lifted := by
  have lift : ∀ d (q : Registration) k, SameButKeys r q → SameButKeys r (q.lift d k) := fun d q k h => by
    unfold Registration.lift
    split
    · exact h
    · exact h
  unfold Registration.lifted
  exact foldl_keeps (fun q d hq => foldl_keeps (fun q k => lift d q k) _ _ hq) _ _ ⟨rfl, rfl, rfl, rfl⟩

theorem Registration.InRange.lifted {r : Registration} (h : r.InRange) : r.lifted.InRange := by
  obtain ⟨hs, ht, hr, he⟩ := r.lifted_keeps
  exact ⟨by rw [hr, he]; exact h.transpositions, by rw [hs]; exact h.drawn, by rw [ht]; exact h.tabs⟩

theorem Registration.inRange_empty : Registration.empty.InRange :=
  ⟨by decide, fun i hi => absurd hi List.not_mem_nil, fun j hj => absurd hj List.not_mem_nil⟩

theorem inRange_keptByPlay : KeptByPlay 192 Registration.InRange where
  pressed := fun _ _ _ _ h => Registration.InRange.taken { h with }
  drawn := fun r i hi _ h => { h with drawn := fun j hj => (Registration.mem_draw.1 hj).elim (fun e => e ▸ hi) (h.drawn j) }
  cancelled := fun _ _ h => { h with drawn := fun j hj => h.drawn j (List.mem_filter.1 hj).1 }
  tabbed := fun _ _ on hj h => h.tab hj on
  requested := fun r v h => by
    obtain ⟨-, -, h3, h4⟩ := h.transpositions
    have clamped : -6 ≤ max (-6) (min 6 v) ∧ max (-6) (min 6 v) ≤ 6 := by omega
    exact Registration.InRange.taken { h with transpositions := ⟨clamped.1, clamped.2, h3, h4⟩ }
  released := fun _ h => h.lifted.taken
  quieted := fun r h => by
    obtain ⟨h1, h2, -, -⟩ := h.transpositions
    exact { h with transpositions := ⟨h1, h2, h1, h2⟩ }
  emptied := fun r h => by
    have lifted := h.lifted
    unfold Registration.emptied
    generalize r.lifted = p at lifted
    have start : Registration.InRange { p with stops := [] } := { lifted with drawn := fun i hi => absurd hi List.not_mem_nil }
    have untabbed := foldl_keeps_of_mem (P := Registration.InRange) (f := fun q j => q.tab j false) r.tabs _
      (fun j hj q hq => hq.tab (h.tabs j hj) false) start
    generalize List.foldl (fun (q : Registration) j => q.tab j false) _ _ = q at untabbed
    exact ⟨Registration.inRange_empty.transpositions, untabbed.drawn, untabbed.tabs⟩
  empty := Registration.inRange_empty

/-! ## Cue counts (R52) -/

def CueCountsInRange (s : State) : Prop := ∀ r ∈ s.table, r.cue ≤ 255

def KeepsCueCounts (s t : State) : Prop := CueCountsInRange s → CueCountsInRange t

theorem keepsCueCounts_of_table {s t : State} (h : t.table = s.table) : KeepsCueCounts s t := fun hs r hr => hs r (h ▸ hr)

theorem keepsCueCounts_of_only {s t : State} (k : Only (allBut [.table]) s t) : KeepsCueCounts s t :=
  keepsCueCounts_of_table (k.field (by simp : Field.table ∈ _))

theorem keepsCueCounts_map {s t : State} {f : Record → Record} (ht : t.table = s.table.map f)
    (hf : ∀ r ∈ s.table, r.cue ≤ 255 → (f r).cue ≤ 255) : KeepsCueCounts s t := fun hs r hr => by
  rw [ht] at hr
  obtain ⟨q, hq, rfl⟩ := List.mem_map.1 hr
  exact hf q hq (hs q hq)

theorem keepsCueCounts_modRecord {s : State} {x : Target} {f : Record → Record} (hf : CueCountsInRange s → ∀ r ∈ s.table, (f r).cue ≤ 255) :
    KeepsCueCounts s (s.modRecord x f) := fun hs => keepsCueCounts_map (f := fun r => if r.target = x then f r else r) rfl (fun r hr h => by
  split
  · exact hf hs r hr
  · exact h) hs

theorem keepsCueCounts_setStroke (s : State) (a : Addr) (k : Stroke) : KeepsCueCounts s (s.setStroke a k) :=
  keepsCueCounts_modRecord fun hs r hr => hs r hr

theorem keepsCueCounts_cutStrokes (reached : Addr → Bool) (s : State) : KeepsCueCounts s (cutStrokes reached s) :=
  keepsCueCounts_map rfl fun r _ h => by rw [cutRecord_cue]; exact h

theorem relayed_keepsCueCounts : Relayed (allBut [.table]) KeepsCueCounts where
  free := keepsCueCounts_of_only
  trans := fun h k hs => k (h hs)
  bump := fun _ _ _ => keepsCueCounts_of_table rfl
  settle := fun _ => keepsCueCounts_of_table rfl
  start := fun s a => by
    unfold startStroke
    split
    next k _ => exact fun h => keepsCueCounts_of_table rfl (keepsCueCounts_setStroke s a (.striking (s.now + k.stroke)) h)
    · exact id
  dequeue := fun _ _ => keepsCueCounts_of_table rfl
  join := fun _ _ _ _ => keepsCueCounts_of_table rfl
  reiterate := fun _ _ _ _ => keepsCueCounts_of_table rfl
  endReiteration := fun _ _ => keepsCueCounts_of_table rfl
  damper := fun _ _ _ => keepsCueCounts_of_table rfl
  joins := fun _ _ _ _ _ _ => keepsCueCounts_of_table rfl
  begins := fun _ _ _ _ _ _ _ _ => keepsCueCounts_of_table rfl
  steps := fun _ _ _ _ _ _ _ _ _ => keepsCueCounts_of_table rfl
  leaves := fun s p _ _ _ _ => keepsCueCounts_of_only (setPlayer_only s p _).but

theorem cueDriven_keepsCueCounts : CueDriven (allBut [.table]) KeepsCueCounts :=
  relayed_keepsCueCounts.cueDriven (fun s l n => keepsCueCounts_of_only (notify_only s l n).but) (by decide) (by decide) (by decide)
    (fun _ _ _ _ => keepsCueCounts_of_table rfl) (fun _ _ _ _ _ _ => keepsCueCounts_of_table rfl)
    (fun _ => keepsCueCounts_map rfl fun _ _ _ => Nat.zero_le _)
    (fun s x r on hr => keepsCueCounts_modRecord fun hs _ _ => by
      have := hs r (List.mem_of_find?_eq_some hr)
      have size : Config.cueCountMax = 255 := rfl
      unfold Record.countCue
      dsimp only
      split <;> omega)

theorem countsMove_keepsCueCounts (l : Link) : CountsMove l KeepsCueCounts := fun s x r add hr =>
  keepsCueCounts_modRecord fun hs _ _ => by
    have := hs r (List.mem_of_find?_eq_some hr)
    cases l <;> exact this

theorem keepsCueCounts_silencedPart (s : State) : KeepsCueCounts s (silencedPart s) :=
  keepsCueCounts_map (silencedPart_table s) fun r _ _ => by rw [cutRecord_cue]; exact Nat.zero_le _

theorem keepsCueCounts_dropStrikes (reached : Addr → Bool) (s : State) : KeepsCueCounts s (dropStrikes reached s) :=
  fun h => keepsCueCounts_cutStrokes reached _ (keepsCueCounts_of_table (s := s) rfl h)

theorem cueCountsInRange_of_empty {s : State} (h : s.table = []) : CueCountsInRange s := fun r hr => by rw [h] at hr; cases hr

theorem keepsCueCounts_of_message {l : Link} {t v : State} {c : Instr} (h : MessageEffect l t c v) : KeepsCueCounts t v := by
  have k := cueDriven_keepsCueCounts
  have reached := Only.of_message h
  by_cases hp : CueDriven.playing c = true
  · exact k.message (by decide) (k.tabsTurn (by decide) (by decide)) countsMove_keepsCueCounts h hp
  · cases h with
    | unchanged => exact k.refl t
    | discarded | ignored => exact k.bump _ _ _
    | specBegin blank =>
      exact k.trans (k.ite (fun _ _ => cueCountsInRange_of_empty rfl) fun _ => k.refl _) (keepsCueCounts_of_only (beginLoading_only blank _).but)
    | silence => exact k.silenceEffects (keepsCueCounts_silencedPart t) _
    | disable p => exact fun h => keepsCueCounts_dropStrikes _ _ (keepsCueCounts_of_table (s := t) rfl h)
    | _ => first
      | exact absurd rfl hp
      | exact keepsCueCounts_of_only reached.but

theorem keepsCueCounts_of_own {s v : State} {c : Instr} (h : OwnEffect s c v) : KeepsCueCounts s v := by
  have k := cueDriven_keepsCueCounts
  have reached := Only.of_own h
  cases h with
  | powerOn | reset => exact fun _ => cueCountsInRange_of_empty rfl
  | loss l =>
    exact k.loseLink (k.emptiedLink (countsMove_keepsCueCounts l) (by decide) (by decide) (k.tabsTurn (by decide) (by decide) l) s)
      fun t _ _ _ => cueCountsInRange_of_empty rfl
  | sent l => exact keepsCueCounts_of_only (endTransmission_only l s).but
  | passed =>
    exact fun _ r hr => by
      rw [enterReady_table] at hr
      rw [(mem_demandTable_counts hr).2.2]
      exact Nat.zero_le _
  | failed f => exact keepsCueCounts_of_only (failCheck_only f s).but
  | struck a | rested a => exact keepsCueCounts_setStroke s a _
  | reiterated a n => exact k.trans (keepsCueCounts_of_table rfl) (k.requestStrike a (rearm a n s))
  | stepped p run => exact k.endStep (keepsCueCounts_of_table rfl) run
  | tripped p pt e =>
    obtain ⟨u, n, hu, e⟩ := tripPort_parts p e pt s
    rw [e]
    exact fun h => keepsCueCounts_dropStrikes _ _ (k.notifyAll n u (keepsCueCounts_of_only hu.but h))
  | supplyFell => exact fun h => k.notifyAll _ _ (keepsCueCounts_dropStrikes _ _ (keepsCueCounts_of_table (s := s) rfl h))
  | dwelling c d => exact keepsCueCounts_of_table rfl
  | record =>
    exact k.takeCurrent fun i r _ => ⟨fun n _ => keepsCueCounts_of_table rfl,
      fun c p _ => keepsCueCounts_of_only (writeChannel_only c p s).but⟩
  | waited => exact k.completeCurrent s
  | _ => exact keepsCueCounts_of_only reached.but

theorem exec_keepsCueCounts {c : Instr} {s t : State} (h : exec c s = .next t) : KeepsCueCounts s t :=
  relayed_keepsCueCounts.exec (by decide) (fun l u => keepsCueCounts_of_only (takeHead_only l u).but) keepsCueCounts_of_message
    keepsCueCounts_of_own h

/-! ## The strike scheduler (R70, R74, R78) -/

structure SchedInRange (s : State) : Prop where
  deferral : 5 ≤ s.sched.deferral ∧ s.sched.deferral ≤ 100
  strikes : s.sched.queue.length ≤ 64
  reiterations : s.sched.reiterations.length ≤ 64

def KeepsSched (s t : State) : Prop := SchedInRange s → SchedInRange t

/-- No entry is added, and the limit stands. -/
theorem keepsSched_of_le {s t : State} (hd : t.sched.deferral = s.sched.deferral) (hq : t.sched.queue.length ≤ s.sched.queue.length)
    (hr : t.sched.reiterations.length ≤ s.sched.reiterations.length) : KeepsSched s t := fun h =>
  ⟨by rw [hd]; exact h.deferral, hq.trans h.strikes, hr.trans h.reiterations⟩

theorem keepsSched_of_sched {s t : State} (h : t.sched = s.sched) : KeepsSched s t :=
  keepsSched_of_le (by rw [h]) (by rw [h]) (by rw [h])

theorem keepsSched_of_only {s t : State} (k : Only (allBut [.sched]) s t) : KeepsSched s t :=
  keepsSched_of_sched (k.field (by simp : Field.sched ∈ _))

theorem relayed_keepsSched : Relayed (allBut [.sched]) KeepsSched where
  free := keepsSched_of_only
  trans := fun h k hs => k (h hs)
  bump := fun _ _ _ => keepsSched_of_sched rfl
  settle := fun _ => keepsSched_of_sched rfl
  start := fun s a => keepsSched_of_only (startStroke_only a s).but
  dequeue := fun _ _ => keepsSched_of_le rfl (List.length_filter_le _ _) le_rfl
  join := fun s a _ hlt h => { h with strikes := by simpa using hlt }
  reiterate := fun s a n hlt h => { h with reiterations := by simpa using hlt }
  endReiteration := fun _ _ => keepsSched_of_le rfl le_rfl (List.length_filter_le _ _)
  damper := fun _ _ _ => keepsSched_of_le rfl le_rfl le_rfl
  joins := fun _ _ _ _ _ _ => keepsSched_of_sched rfl
  begins := fun _ _ _ _ _ _ _ _ => keepsSched_of_sched rfl
  steps := fun _ _ _ _ _ _ _ _ _ => keepsSched_of_sched rfl
  leaves := fun s p _ _ _ _ => keepsSched_of_only (setPlayer_only s p _).but

theorem cueDriven_keepsSched : CueDriven (allBut [.sched]) KeepsSched :=
  relayed_keepsSched.cueDriven (fun s l n => keepsSched_of_only (notify_only s l n).but) (by decide) (by decide) (by decide)
    (fun _ _ _ _ => keepsSched_of_sched rfl) (fun _ _ _ _ _ _ => keepsSched_of_sched rfl) (fun _ => keepsSched_of_sched rfl)
    (fun _ _ _ _ _ => keepsSched_of_sched rfl)

theorem keepsSched_silencedPart (s : State) : KeepsSched s (silencedPart s) := by
  have counted : KeepsSched s (rewriteCounts Record.silenced s) := relayed_keepsSched.rewriteCounts (keepsSched_of_sched rfl)
  exact fun h => keepsSched_of_le (s := rewriteCounts Record.silenced s) rfl (Nat.zero_le _) (Nat.zero_le _) (counted h)

theorem keepsSched_dropStrikes (reached : Addr → Bool) (s : State) : KeepsSched s (dropStrikes reached s) :=
  keepsSched_of_le rfl (List.length_filter_le _ _) le_rfl

theorem keepsSched_configureLink (l : Link) {b : ConfigureBody} {fields : List Byte} (hb : readConfigure fields = some b) (s : State) :
    KeepsSched s (configureLink l b s) := fun h => by
  obtain ⟨-, -, hdef⟩ := readConfigure_range hb
  have only : Only [.links, .counters] s (configuredLink l b s) :=
    ((modLink_only _ _ _).mono.trans (judgeFlow_only _ _)).trans (modLink_only _ _ _).mono
  have configured := keepsSched_of_only only.but h
  rw [configureLink_eq]
  exact ⟨hdef, (List.length_filter_le _ _).trans configured.strikes, configured.reiterations⟩

theorem keepsSched_of_message {l : Link} {t v : State} {c : Instr} (h : MessageEffect l t c v) : KeepsSched t v := by
  have k := cueDriven_keepsSched
  have reached := Only.of_message h
  by_cases hp : CueDriven.playing c = true
  · exact k.message (by decide) (k.tabsTurn (by decide) (by decide)) (fun _ _ _ _ _ _ => keepsSched_of_sched rfl) h hp
  · cases h with
    | unchanged => exact k.refl t
    | discarded | ignored => exact k.bump _ _ _
    | specBegin blank =>
      have silenced := k.silenceEffects (keepsSched_silencedPart t) .reset
      refine k.trans (k.ite (fun _ => k.trans silenced ?_) fun _ => k.refl _) (keepsSched_of_only (beginLoading_only blank _).but)
      exact keepsSched_of_le rfl (Nat.zero_le _) (Nat.zero_le _)
    | silence => exact k.silenceEffects (keepsSched_silencedPart t) _
    | configure fields b hb => exact keepsSched_configureLink l hb t
    | disable p => exact fun h => keepsSched_dropStrikes _ _ (keepsSched_of_sched (s := t) rfl h)
    | _ => first
      | exact absurd rfl hp
      | exact keepsSched_of_only reached.but

theorem enterReady_sched (s : State) :
    (enterReady s).sched = { s.sched with queue := [], reiterations := [], dampers := damperStates s.store.tables } := by
  refine (Only.foldl (fs := [.shutters, .ports]) (fun u c => Only.ite (stepChamber_only c u).mono (Only.refl _ _)) _ _).sched.trans ?_
  exact (Only.foldl (fun u p => startDetect_only p u) _ _).sched

theorem default_deferral : 5 ≤ Config.defaultDeferral ∧ Config.defaultDeferral ≤ 100 := by decide

theorem keepsSched_of_own {s v : State} {c : Instr} (h : OwnEffect s c v) : KeepsSched s v := by
  have k := cueDriven_keepsSched
  have reached := Only.of_own h
  have reset : ∀ l up u, SchedInRange (resetPart l up u) := fun l up u => ⟨default_deferral, Nat.zero_le _, Nat.zero_le _⟩
  cases h with
  | powerOn => exact fun _ => ⟨default_deferral, Nat.zero_le _, Nat.zero_le _⟩
  | reset l => exact fun _ => reset l true s
  | loss l =>
    exact k.loseLink (k.emptiedLink (fun _ _ _ _ _ => keepsSched_of_sched rfl) (by decide) (by decide) (k.tabsTurn (by decide) (by decide) l) s)
      fun t _ _ _ => reset l false t
  | sent l => exact keepsSched_of_only (endTransmission_only l s).but
  | passed =>
    exact keepsSched_of_le (by rw [enterReady_sched]) (by rw [enterReady_sched]; exact Nat.zero_le _)
      (by rw [enterReady_sched]; exact Nat.zero_le _)
  | failed f => exact keepsSched_of_only (failCheck_only f s).but
  | rested => exact keepsSched_of_sched rfl
  | late a => exact keepsSched_of_le rfl (List.length_filter_le _ _) le_rfl
  | reiterated a n =>
    exact k.trans (keepsSched_of_le (t := rearm a n s) rfl le_rfl (List.length_map _).le) (k.requestStrike a _)
  | heldOver i => exact keepsSched_of_le rfl le_rfl le_rfl
  | stepped p run => exact k.endStep (keepsSched_of_sched rfl) run
  | tripped p pt e =>
    obtain ⟨u, n, hu, e⟩ := tripPort_parts p e pt s
    rw [e]
    exact fun h => keepsSched_dropStrikes _ _ (k.notifyAll n u (keepsSched_of_only hu.but h))
  | supplyFell => exact fun h => k.notifyAll _ _ (keepsSched_dropStrikes _ _ (keepsSched_of_sched (s := s) rfl h))
  | dwelling => exact keepsSched_of_sched rfl
  | record =>
    exact k.takeCurrent fun i r _ => ⟨fun n _ => keepsSched_of_sched rfl, fun c p _ => keepsSched_of_only (writeChannel_only c p s).but⟩
  | waited => exact k.completeCurrent s
  | _ => exact keepsSched_of_only reached.but

theorem exec_keepsSched {c : Instr} {s t : State} (h : exec c s = .next t) : KeepsSched s t :=
  relayed_keepsSched.exec (by decide) (fun l u => keepsSched_of_only (takeHead_only l u).but) keepsSched_of_message keepsSched_of_own h

end Sys2Proof.Machine
end

