-- ==== Sys2Proof/Proofs/MotionRanges.lean ====
section
/-! PROOF. The ranges of what moves (05 R89, R96; 06 R110) and of the cue unit (08 R139, R142, R150): channels, tempo, steps, records and the
run count; and the ranges that every step keeps, put together. -/

namespace Sys2Proof.Machine

-- One theorem after another, so that the compile needs few threads.
set_option Elab.async false

/-! ## Channels, tempo and steps -/

structure MotionInRange (s : State) : Prop where
  channels : ∀ p ∈ s.shutters.channels, p < 128
  tempo : 50 ≤ s.figures.tempo ∧ s.figures.tempo ≤ 200
  entries : ∀ f, some f ∈ s.store.tables.figures → f.steps.length ≤ 32
  steps : ∀ run, some run ∈ s.figures.players → run.step < 32

def KeepsMotion (s t : State) : Prop := MotionInRange s → MotionInRange t

theorem keepsMotion_of_same {s t : State} (hc : t.shutters.channels = s.shutters.channels) (hf : t.figures = s.figures)
    (hs : t.store.tables = s.store.tables) : KeepsMotion s t := fun h =>
  ⟨by rw [hc]; exact h.channels, by rw [hf]; exact h.tempo, by rw [hs]; exact h.entries, by rw [hf]; exact h.steps⟩

theorem keepsMotion_of_only {s t : State} (k : Only (allBut [.store, .figures, .shutters]) s t) : KeepsMotion s t :=
  keepsMotion_of_same (congrArg Shutters.channels (k.field (by simp : Field.shutters ∈ _))) (k.field (by simp : Field.figures ∈ _))
    (congrArg Store.tables (k.field (by simp : Field.store ∈ _)))

/-- A player that comes to a step below 32, or to none. -/
theorem keepsMotion_setPlayer {s : State} {p : Nat} {x : Option Run} (hx : MotionInRange s → ∀ run, x = some run → run.step < 32) :
    KeepsMotion s (s.setPlayer p x) := fun h => by
  refine { h with steps := fun run hrun => ?_ }
  rcases List.mem_or_eq_of_mem_set hrun with hm | he
  · exact h.steps run hm
  · exact hx h run he.symm

theorem MotionInRange.step {s : State} (h : MotionInRange s) {p : Nat} {run : Run} (hp : s.playing p = some run) : run.step < 32 :=
  h.steps run (State.mem_of_playing hp)

theorem relayed_keepsMotion : Relayed (allBut [.store, .figures, .shutters]) KeepsMotion where
  free := keepsMotion_of_only
  trans := fun h k hs => k (h hs)
  bump := fun _ _ _ => keepsMotion_of_same rfl rfl rfl
  settle := fun _ => keepsMotion_of_same rfl rfl rfl
  start := fun s a => keepsMotion_of_only (startStroke_only a s).but
  dequeue := fun _ _ => keepsMotion_of_same rfl rfl rfl
  join := fun _ _ _ _ => keepsMotion_of_same rfl rfl rfl
  reiterate := fun _ _ _ _ => keepsMotion_of_same rfl rfl rfl
  endReiteration := fun _ _ => keepsMotion_of_same rfl rfl rfl
  damper := fun _ _ _ => keepsMotion_of_same rfl rfl rfl
  joins := fun s p run o hp _ => keepsMotion_setPlayer fun h run' e => by cases e; exact h.step (run := run) hp
  begins := fun s p f o _ _ _ _ => keepsMotion_setPlayer fun h run' e => by cases e; exact Nat.zero_lt_succ 31
  steps := fun s p run fig n e _ hf hn => keepsMotion_setPlayer fun h run' he => by
    cases he
    exact hn.trans_le (h.entries fig (mem_of_join hf))
  leaves := fun s p run o hp _ => keepsMotion_setPlayer fun h run' he => by
    split at he
    · cases he
    · cases he
      exact h.step (run := run) hp

theorem cueDriven_keepsMotion : CueDriven (allBut [.store, .figures, .shutters]) KeepsMotion :=
  relayed_keepsMotion.cueDriven (fun s l n => keepsMotion_of_only (notify_only s l n).but) (by decide) (by decide) (by decide)
    (fun s p run hp => keepsMotion_setPlayer fun h run' e => by cases e; exact h.step (run := run) hp)
    (fun s p f _ _ _ => keepsMotion_setPlayer fun h run' e => by cases e; exact Nat.zero_lt_succ 31)
    (fun _ => keepsMotion_of_same rfl rfl rfl) (fun _ _ _ _ _ => keepsMotion_of_same rfl rfl rfl)

theorem keepsMotion_setTempo {n : Nat} (h1 : 50 ≤ n) (h2 : n ≤ 200) (s : State) : KeepsMotion s (setTempo n s) := fun h =>
  { h with tempo := ⟨h1, h2⟩ }

theorem stepChamber_channels (c : Nat) (s : State) : (stepChamber c s).shutters.channels = s.shutters.channels := by
  unfold stepChamber
  split
  · dsimp only
    split
    · split <;> rfl
    · split <;> rfl
  all_goals rfl

theorem keepsMotion_stepChamber (c : Nat) (s : State) : KeepsMotion s (stepChamber c s) :=
  keepsMotion_of_same (stepChamber_channels c s) (stepChamber_only c s).figures (congrArg Store.tables (stepChamber_only c s).store)

theorem followChannel_channels (k old new : Nat) (s : State) (c : Nat) : (followChannel k old new s c).shutters.channels = s.shutters.channels := by
  unfold followChannel
  split
  · split
    · exact stepChamber_channels c s
    · rfl
  all_goals rfl

theorem foldl_channels {g : State → Nat → State} (hg : ∀ s c, (g s c).shutters.channels = s.shutters.channels) :
    ∀ (cs : List Nat) (s : State), (cs.foldl g s).shutters.channels = s.shutters.channels
  | [], _ => rfl
  | c :: cs, s => (foldl_channels hg cs (g s c)).trans (hg s c)

theorem writeChannel_channels (k p : Nat) (s : State) : (writeChannel k p s).shutters.channels = s.shutters.channels.set k p :=
  foldl_channels (followChannel_channels k (s.channel k) p) allChambers _

theorem keepsMotion_writeChannel (k : Nat) {p : Nat} (hp : p < 128) (s : State) : KeepsMotion s (writeChannel k p s) := fun h => by
  have only := writeChannel_only k p s
  refine ⟨fun q hq => ?_, by rw [only.figures]; exact h.tempo, by rw [only.store]; exact h.entries, by rw [only.figures]; exact h.steps⟩
  rw [writeChannel_channels] at hq
  rcases List.mem_or_eq_of_mem_set hq with hq | rfl
  · exact h.channels q hq
  · exact hp

theorem keepsMotion_silencedPart (s : State) : KeepsMotion s (silencedPart s) := fun h => by
  have counted : KeepsMotion s (rewriteCounts Record.silenced s) := relayed_keepsMotion.rewriteCounts (keepsMotion_of_same rfl rfl rfl)
  exact { counted h with steps := fun run hrun => by cases mem_map_none hrun }

/-- Tables written, and nothing else that the ranges read. -/
theorem keepsMotion_of_written {s t : State} (hw : s.store.tables.Written t.store.tables) (hc : t.shutters.channels = s.shutters.channels)
    (hf : t.figures = s.figures) : KeepsMotion s t := fun h =>
  ⟨by rw [hc]; exact h.channels, by rw [hf]; exact h.tempo, hw.figure_steps h.entries, by rw [hf]; exact h.steps⟩

theorem motionInRange_resetPart (l : Link) (up : Bool) (s : State) : MotionInRange (resetPart l up s) where
  channels := fun p hp => by
    obtain ⟨_, -, rfl⟩ := List.mem_map.1 hp
    decide
  tempo := ⟨(by decide : 50 ≤ 100), (by decide : 100 ≤ 200)⟩
  entries := fun f hf => absurd hf not_some_mem_replicate_none
  steps := fun run hrun => by cases mem_map_none hrun

theorem keepsMotion_of_message {l : Link} {t v : State} {c : Instr} (h : MessageEffect l t c v) : KeepsMotion t v := by
  have k := cueDriven_keepsMotion
  have reached := Only.of_message h
  have written := h.written
  by_cases hp : CueDriven.playing c = true
  · exact k.message (by decide) (k.tabsTurn (by decide) (by decide)) (fun _ _ _ _ _ _ => keepsMotion_of_same rfl rfl rfl) h hp
  · cases h with
    | unchanged => exact k.refl t
    | discarded | ignored => exact k.bump _ _ _
    | expression c p _ _ hle => exact keepsMotion_writeChannel c (Nat.lt_succ_of_le hle) t
    | tempo n _ h1 h2 => exact keepsMotion_setTempo h1 h2 t
    | specBegin blank =>
      have silenced := k.silenceEffects (keepsMotion_silencedPart t) .reset
      have stopped : KeepsMotion t (if t.ready then stopAllPlaying t else t) := by
        refine k.ite (fun _ => k.trans silenced ?_) fun _ => k.refl _
        exact keepsMotion_of_same rfl (stopAllPlaying_behind t).figures (congrArg Store.tables (stopAllPlaying_behind t).store)
      refine k.trans stopped (keepsMotion_of_written ?_ rfl rfl)
      cases blank
      · exact .same
      · exact .blank
    | silence => exact k.silenceEffects (keepsMotion_silencedPart t) _
    | divisions | sources | specStops | chambers | tremulants | ports | figures | commit => exact keepsMotion_of_written written rfl rfl
    | _ => first
      | exact absurd rfl hp
      | exact keepsMotion_of_only reached.but

theorem enterReady_channels (s : State) : (enterReady s).shutters.channels = s.shutters.channels := by
  have steps : ∀ (u : State) (c : Nat),
      (if (u.chamberState c).timer = none then stepChamber c u else u).shutters.channels = u.shutters.channels := fun u c => by
    split
    · exact stepChamber_channels c u
    · rfl
  unfold enterReady
  dsimp only
  rw [foldl_channels steps, (Only.foldl (fun u p => startDetect_only p u) _ _).shutters]
  rfl

/-- The records that the unit may take carry operands in range. -/
def MemoryInRange (s : State) : Prop := ∀ c, some c ∈ s.memory → c.body.InRange

theorem keepsMotion_takeCurrent {s : State} (hm : MemoryInRange s) : KeepsMotion s (takeCurrent s) :=
  cueDriven_keepsMotion.takeCurrent fun i r hr => by
    have hact := (hm r (mem_of_join hr)).2
    refine ⟨fun n e => ?_, fun c p e => ?_⟩ <;> rw [e] at hact
    · exact keepsMotion_setTempo hact.1 hact.2 s
    · exact keepsMotion_writeChannel c hact.2 s

theorem keepsMotion_of_own {s v : State} {c : Instr} (h : OwnEffect s c v) (hm : MemoryInRange s) : KeepsMotion s v := by
  have k := cueDriven_keepsMotion
  have reached := Only.of_own h
  cases h with
  | powerOn => exact fun _ => ⟨reset_inRanges.channels, reset_inRanges.tempo, reset_inRanges.steps.1, reset_inRanges.steps.2⟩
  | reset l => exact fun _ => motionInRange_resetPart l true s
  | loss l =>
    exact k.loseLink (k.emptiedLink (fun _ _ _ _ _ => keepsMotion_of_same rfl rfl rfl) (by decide) (by decide)
      (k.tabsTurn (by decide) (by decide) l) s) fun t _ _ _ => motionInRange_resetPart l false t
  | sent l => exact keepsMotion_of_only (endTransmission_only l s).but
  | passed =>
    exact keepsMotion_of_same (enterReady_channels s) (enterReady_only s).figures (by rw [enterReady_store])
  | failed f => exact keepsMotion_of_same rfl rfl rfl
  | rested => exact keepsMotion_of_same rfl rfl rfl
  | stepped p run => exact k.endStep (keepsMotion_setPlayer fun _ _ e => by cases e) run
  | staged c => exact fun h => keepsMotion_stepChamber c _ (keepsMotion_of_same (s := s) rfl rfl rfl h)
  | dwelling => exact keepsMotion_of_same rfl rfl rfl
  | record => exact keepsMotion_takeCurrent hm
  | waited => exact k.completeCurrent s
  | _ => exact keepsMotion_of_only reached.but

theorem exec_keepsMotion {c : Instr} {s t : State} (h : exec c s = .next t) (hm : MemoryInRange s) : KeepsMotion s t :=
  relayed_keepsMotion.exec (by decide) (fun l u => keepsMotion_of_only (takeHead_only l u).but) keepsMotion_of_message
    (fun ho => keepsMotion_of_own ho hm) h

end Sys2Proof.Machine
end

