-- ==== Sys2Proof/Proofs/CueWork.lean ====
section
/-! PROOF. What the cue unit's own work leaves of the unit and of cue memory (08 R149, R151, R153, R155), and the ranges of both (R138, R139,
R142, R150). -/

namespace Sys2Proof.Machine

-- One theorem after another, so that the compile needs few threads.
set_option Elab.async false

/-! ## The unit and its memory after its own work -/

/-- Going IDLE reaches neither the record the unit is at, nor cue memory (R155). -/
theorem cueGoesIdle_cue (reason : StopReason) (s : State) : (cueGoesIdle reason s).cue = s.cue.stopped reason := by
  have claims : Only [.table, .sched, .figures, .generators] (s.modCue fun c => { c with state := .idle })
      (removeOwnerEverywhere .cue (clearCueFlags (rewriteCounts Record.withoutCue (s.modCue fun c => { c with state := .idle })))) :=
    ((rewriteCounts_only _ _).mono.trans (clearCueFlags_only _).mono).trans (removeOwnerEverywhere_only _ _).mono
  unfold cueGoesIdle
  rw [notifyAll_cue]
  exact congrArg (fun c : CueUnit => { c with pendingGo := false, owner := none, stopReason := some reason }) claims.cue

theorem cueGoesIdle_memory (reason : StopReason) (s : State) : (cueGoesIdle reason s).memory = s.memory := (cueGoesIdle_only reason s).memory

/-- The unit at the completion of a record, the last completed record and the run count taken (R149, R150). -/
def CueUnit.completed (i : Nat) (atTaking : Bool) (c : CueUnit) : CueUnit :=
  { c with lastCompleted := some i, runCount := if atTaking then c.runCount + 1 else c.runCount }

/-- The completion of a record leaves the unit where R149 has it go. -/
theorem completeRecord_cue (i : Nat) (body : CueBody) (atTaking : Bool) (s : State) :
    (completeRecord i body atTaking s).cue = (s.cue.completed i atTaking).onward i body := by
  unfold completeRecord CueUnit.onward
  dsimp only
  generalize htold : (if body.indicate = true then _ else _ : State) = told
  have hcue : told.cue = s.cue.completed i atTaking := by
    rw [← htold]
    split
    · exact notifyAll_cue _ _
    · rfl
  cases body.next with
  | none => exact (cueGoesIdle_cue _ _).trans (congrArg (CueUnit.stopped .ended) (congrArg (fun c : CueUnit => { c with current := some i }) hcue))
  | some next =>
    dsimp only
    rw [hcue]
    have guard : Config.runawayCount = 64 := rfl
    rw [guard]
    split
    · exact congrArg (fun c : CueUnit => { c with state := UnitState.suspended .running, current := some next }) hcue
    · split
      · have stood : ((told.modCue fun c => { c with current := some i }).bump .cueRunaways).cue = { s.cue.completed i atTaking with current := some i } :=
          congrArg (fun c : CueUnit => { c with current := some i }) hcue
        exact (cueGoesIdle_cue _ _).trans (congrArg (CueUnit.stopped .runaway) stood)
      · exact congrArg (fun c : CueUnit => { c with state := UnitState.running, current := some next }) hcue

theorem completeRecord_memory (i : Nat) (body : CueBody) (atTaking : Bool) (s : State) :
    (completeRecord i body atTaking s).memory = (markRecord i .done s).memory := by
  unfold completeRecord
  dsimp only
  generalize htold : (if body.indicate = true then _ else _ : State) = told
  have hmem : told.memory = (markRecord i .done s).memory := by
    rw [← htold]
    split
    · exact (notifyAll_only _ _).memory
    · rfl
  cases body.next with
  | none => exact (cueGoesIdle_memory _ _).trans hmem
  | some next =>
    dsimp only
    split
    · exact hmem
    · split
      · exact (cueGoesIdle_memory _ _).trans hmem
      · exact hmem

theorem instantAction_cue (action : Action) (s : State) : (instantAction action s).cue = s.cue := (instantAction_only action s).cue

/-! ## Ranges of the unit and of cue memory -/

/-- The unit's records and run count in range (R142, R150). -/
structure CueUnit.InRange (c : CueUnit) : Prop where
  current : ∀ i ∈ c.current, i < 512
  last : ∀ i ∈ c.lastCompleted, i < 512
  run : c.runCount ≤ 64
  going : c.state = .running → c.runCount < 64

structure CueInRange (s : State) : Prop where
  memory : MemoryInRange s
  unit : s.cue.InRange

def KeepsCue (s t : State) : Prop := CueInRange s → CueInRange t

theorem keepsCue_of_only {s t : State} (k : Only (allBut [.memory, .cue]) s t) : KeepsCue s t := fun h => by
  have hmem : t.memory = s.memory := k.field (by simp : Field.memory ∈ _)
  have hcue : t.cue = s.cue := k.field (by simp : Field.cue ∈ _)
  exact ⟨fun c hc => h.memory c (hmem ▸ hc), hcue ▸ h.unit⟩

theorem relayed_keepsCue : Relayed (allBut [.memory, .cue]) KeepsCue :=
  { free := keepsCue_of_only
    trans := fun h k hs => k (h hs)
    bump := fun s n c => keepsCue_of_only (bumpBy_only s n c).but
    settle := fun s => keepsCue_of_only (settle_only s).but
    start := fun s a => keepsCue_of_only (startStroke_only a s).but
    dequeue := fun s a => keepsCue_of_only (dequeue_only a s).but
    join := fun s _ _ _ => keepsCue_of_only (sched_only s fun x => { x with queue := x.queue ++ _ }).but
    reiterate := fun s _ _ _ => keepsCue_of_only (sched_only s fun x => { x with reiterations := x.reiterations ++ _ }).but
    endReiteration := fun s a => keepsCue_of_only (endReiteration_only a s).but
    damper := fun s i f => keepsCue_of_only (modDamper_only s i f).but
    joins := fun s p _ _ _ _ => keepsCue_of_only (setPlayer_only s p _).but
    begins := fun s p _ _ _ _ _ _ => keepsCue_of_only (setPlayer_only s p _).but
    steps := fun s p _ _ _ _ _ _ _ => keepsCue_of_only (setPlayer_only s p _).but
    leaves := fun s p _ _ _ _ => keepsCue_of_only (setPlayer_only s p _).but }

/-- A record marked keeps its body. -/
theorem memoryInRange_markRecord {s : State} (h : MemoryInRange s) (i : Nat) (st : RecordState) : MemoryInRange (markRecord i st s) := by
  intro c hc
  obtain ⟨j, hj⟩ := List.mem_iff_getElem?.1 hc
  have hj' : (s.memory.modify i fun r => r.map fun c => { c with state := st })[j]? = some (some c) := hj
  rw [List.getElem?_modify] at hj'
  cases hm : s.memory[j]? with
  | none => rw [hm] at hj'; cases hj'
  | some x =>
    have hx := List.mem_of_getElem? hm
    rw [hm] at hj'
    have e : (if i = j then x.map fun c : CueRecord => { c with state := st } else x) = some c := Option.some.inj hj'
    by_cases hij : i = j
    · rw [if_pos hij] at e
      obtain ⟨d, hd, rfl⟩ := Option.map_eq_some_iff.1 e
      exact h d (hd ▸ hx)
    · rw [if_neg hij] at e
      exact h c (e ▸ hx)

theorem CueUnit.InRange.stopped {c : CueUnit} (h : c.InRange) (reason : StopReason) : (c.stopped reason).InRange :=
  ⟨h.current, h.last, h.run, fun e => by cases e⟩

theorem cueInRange_cueGoesIdle {s : State} (h : CueInRange s) (reason : StopReason) : CueInRange (cueGoesIdle reason s) := by
  refine ⟨fun c hc => h.memory c (by rwa [cueGoesIdle_memory] at hc), ?_⟩
  rw [cueGoesIdle_cue]
  exact h.unit.stopped reason

theorem mem_some_of_lt {i n : Nat} (h : i < n) : ∀ j ∈ some i, j < n := fun _ e => Option.mem_some_iff.1 e ▸ h

theorem CueUnit.InRange.onward {c : CueUnit} (h : c.InRange) {i : Nat} (hi : i < 512) {body : CueBody} (hb : body.InRange) :
    (c.onward i body).InRange := by
  unfold CueUnit.onward
  have hnext := hb.1
  split
  · exact ⟨mem_some_of_lt hi, h.last, h.run, fun e => by cases e⟩
  next n hn =>
    have hlt : n < 512 := hnext n (by rw [hn]; rfl)
    split
    · exact ⟨mem_some_of_lt hlt, h.last, h.run, fun e => by cases e⟩
    · split
      · exact ⟨mem_some_of_lt hi, h.last, h.run, fun e => by cases e⟩
      next hrun => exact ⟨mem_some_of_lt hlt, h.last, h.run, fun _ => Nat.lt_of_not_le hrun⟩

theorem cueInRange_completeRecord {s : State} (h : CueInRange s) {i : Nat} (hi : i < 512) {body : CueBody} (hb : body.InRange) {atTaking : Bool}
    (hrun : atTaking = true → s.cue.runCount < 64) : CueInRange (completeRecord i body atTaking s) := by
  refine ⟨fun c hc => memoryInRange_markRecord h.memory i .done c (by rwa [completeRecord_memory] at hc), ?_⟩
  rw [completeRecord_cue]
  by_cases hidle : s.cue.state = .running ∧ atTaking = true
  · -- The count may reach 64 at a taking; it is judged before the unit goes on.
    have completed : CueUnit.InRange { s.cue.completed i atTaking with state := .idle } :=
      by
      refine ⟨h.unit.current, (mem_some_of_lt hi : ∀ j ∈ some i, j < 512), ?_, fun e => by cases e⟩
      show (if atTaking = true then s.cue.runCount + 1 else s.cue.runCount) ≤ 64
      rw [if_pos hidle.2]
      exact hrun hidle.2
    have := completed.onward hi hb
    unfold CueUnit.onward at this ⊢
    exact this
  · refine CueUnit.InRange.onward (c := s.cue.completed i atTaking) ⟨h.unit.current, mem_some_of_lt hi, ?_, fun e => ?_⟩ hi hb
    · unfold CueUnit.completed
      dsimp only
      split
      next e => exact hrun e
      · exact h.unit.run
    · have hf : atTaking = false := by
        cases atTaking
        · rfl
        · exact absurd ⟨e, rfl⟩ hidle
      rw [hf]
      exact h.unit.going e

theorem State.cueRecord_inRange {s : State} (h : MemoryInRange s) {i : Nat} {r : CueRecord} (hr : s.cueRecord i = some r) : r.body.InRange :=
  h r (mem_of_join hr)

theorem cueInRange_completeCurrent {s : State} (h : CueInRange s) : CueInRange (completeCurrent s) := by
  unfold completeCurrent
  split
  next i hi =>
    split
    next r hr => exact cueInRange_completeRecord h (h.unit.current i hi) (State.cueRecord_inRange h.memory hr) fun e => by cases e
    · exact h
  · exact h

/-- The unit in a state that is not RUNNING, with its records where they were. -/
theorem cueInRange_modCue {s : State} (h : CueInRange s) {f : CueUnit → CueUnit} (hf : s.cue.InRange → (f s.cue).InRange) :
    CueInRange (s.modCue f) := ⟨h.memory, hf h.unit⟩

theorem cueInRange_carryOut {s : State} (h : CueInRange s) {i : Nat} (hi : i < 512) {body : CueBody} (hb : body.InRange)
    (hrunning : s.cue.state = .running) : CueInRange (carryOut i body s) := by
  have hrun := h.unit.going hrunning
  have waits : ∀ st : UnitState, st ≠ .running → CueInRange (s.modCue fun c => { c with state := st, runCount := 0 }) := fun st hst =>
    cueInRange_modCue h fun u => ⟨u.current, u.last, Nat.zero_le _, fun e => absurd e hst⟩
  unfold carryOut
  split
  · exact waits _ (by simp)
  · split
    · exact cueInRange_completeRecord (cueInRange_modCue h fun u => ⟨u.current, u.last, u.run, u.going⟩) hi hb fun _ => hrun
    · exact waits _ (by simp)
  · refine cueInRange_completeRecord ?_ hi hb fun _ => by rw [instantAction_cue]; exact hrun
    exact keepsCue_of_only (instantAction_only _ s).but h

theorem cueInRange_takeCurrent {s : State} (h : CueInRange s) (hrunning : s.cue.state = .running) : CueInRange (takeCurrent s) := by
  unfold takeCurrent
  split
  next i hi =>
    split
    · exact cueInRange_cueGoesIdle h _
    next r hr =>
      split
      · exact cueInRange_carryOut h (h.unit.current i hi) (State.cueRecord_inRange h.memory hr) hrunning
      · exact cueInRange_cueGoesIdle ⟨memoryInRange_markRecord h.memory _ _, h.unit⟩ _
  · exact h

theorem cueInRange_takeGo {s : State} (h : CueInRange s) : CueInRange (takeGo s) := by
  have pending : CueInRange (if s.cue.pendingGo then s.bump .goOverruns else s.modCue fun c => { c with pendingGo := true }) := by
    split
    · exact relayed_keepsCue.bump s 1 _ h
    · exact cueInRange_modCue h fun u => ⟨u.current, u.last, u.run, u.going⟩
  unfold takeGo
  split
  · exact cueInRange_completeCurrent h
  · exact relayed_keepsCue.bump s 1 _ h
  all_goals exact pending

theorem cueInRange_resumeCue {s : State} (h : CueInRange s) (l : Link) (sub : SubState) : CueInRange (resumeCue l sub s) := by
  have owned : ∀ st : UnitState, CueInRange (s.modCue fun c => { c with owner := some l, runCount := 0, stopReason := none, state := st }) :=
    fun st => cueInRange_modCue h fun u => ⟨u.current, u.last, Nat.zero_le _, fun _ => (by decide : 0 < 64)⟩
  have taken : ∀ b, CueInRange (s.modCue fun c => { c with owner := some l, runCount := 0, stopReason := none, pendingGo := b }) :=
    fun b => cueInRange_modCue h fun u => ⟨u.current, u.last, Nat.zero_le _, fun _ => (by decide : 0 < 64)⟩
  unfold resumeCue
  dsimp only
  split
  · exact owned _
  · split
    · exact cueInRange_completeCurrent (taken _)
    · exact owned _
  · split
    · exact cueInRange_completeCurrent (taken false)
    · exact owned _

theorem cueInRange_abortCue {s : State} (h : CueInRange s) : CueInRange (abortCue s) := by
  unfold abortCue
  split
  · exact cueInRange_cueGoesIdle ⟨memoryInRange_markRecord h.memory _ _, h.unit⟩ _
  all_goals exact cueInRange_cueGoesIdle h _

theorem keepsCue_notify (s : State) (l : Link) (n : Notice) : KeepsCue s (s.notify l n) := keepsCue_of_only (notify_only s l n).but

theorem keepsCue_cueOwnerLost (l : Link) (s : State) : KeepsCue s (cueOwnerLost l s) := fun h => by
  unfold cueOwnerLost
  split
  · refine keepsCue_of_only (notifyAll_only _ _).but (cueInRange_modCue h fun u => ⟨u.current, u.last, u.run, fun e => ?_⟩)
    dsimp only at e
    split at e
    · cases e
    next hrem => rw [CueUnit.remembered_of_running e] at hrem; cases hrem
  · exact h

theorem keepsCue_tellLoss (l : Link) (s : State) : KeepsCue s (tellLoss l s) := fun h => by
  unfold tellLoss
  split
  · exact keepsCue_cueOwnerLost l _ (keepsCue_notify s _ _ h)
  · exact keepsCue_notify _ _ _ (keepsCue_cueOwnerLost l s h)

theorem cueInRange_resetPart {s : State} (h : MemoryInRange s) (l : Link) (up : Bool) : CueInRange (resetPart l up s) :=
  ⟨h, ⟨(fun _ e => by cases e), (fun _ e => by cases e), Nat.zero_le _, (fun e => by cases e)⟩⟩

theorem cueInRange_silenceEffects {s : State} (h : CueInRange s) (reason : StopReason) : CueInRange (silenceEffects reason s) := by
  have silenced : CueInRange (silencedPart s) := keepsCue_of_only (silencedPart_only s).but h
  rw [silenceEffects_eq]
  split
  · exact cueInRange_cueGoesIdle silenced _
  · exact silenced

theorem memoryInRange_set {s : State} (h : MemoryInRange s) (i : Nat) {x : CueRecord} (hx : x.body.InRange) :
    MemoryInRange { s with memory := s.memory.set i (some x) } := fun c hc => by
  rcases List.mem_or_eq_of_mem_set hc with hc | e
  · exact h c hc
  · cases e
    exact hx

theorem keepsCue_of_message {l : Link} {t v : State} {c : Instr} (h : MessageEffect l t c v) : KeepsCue t v := by
  have reached := Only.of_message h
  intro ht
  cases h with
  | unchanged => exact ht
  | discarded | ignored => exact relayed_keepsCue.bump _ 1 _ ht
  | go => exact cueInRange_takeGo ht
  | specBegin blank =>
    have stopped : CueInRange (if t.ready then stopAllPlaying t else t) := by
      split
      · exact keepsCue_of_only (stopAllPlaying_behind t).but (cueInRange_silenceEffects ht _)
      · exact ht
    exact keepsCue_of_only (beginLoading_only blank _).but stopped
  | silence => exact cueInRange_silenceEffects ht _
  | cueWrite fields w hw => exact ⟨memoryInRange_set ht.memory _ (readCueWrite_range hw).2, ht.unit⟩
  | cueStart i _ _ hi => exact cueInRange_modCue ht fun _ => ⟨mem_some_of_lt hi, (fun _ e => by cases e), Nat.zero_le _, fun _ => (by decide : 0 < 64)⟩
  | cueSuspend sub => exact cueInRange_modCue ht fun u => ⟨u.current, u.last, u.run, fun e => by cases e⟩
  | cueResume sub => exact cueInRange_resumeCue ht l sub
  | cueAbort => exact cueInRange_abortCue ht
  | _ => exact keepsCue_of_only reached.but ht

theorem keepsCue_of_own {s v : State} {c : Instr} (h : OwnEffect s c v) : KeepsCue s v := by
  have reached := Only.of_own h
  intro hs
  cases h with
  | powerOn =>
    exact ⟨reset_inRanges.memory, reset_inRanges.record.1, reset_inRanges.record.2, reset_inRanges.runCount.1, reset_inRanges.runCount.2⟩
  | reset l => exact cueInRange_resetPart hs.memory l true
  | loss l =>
    rw [loseLink_eq]
    have told : CueInRange ((tellLoss l (emptiedLink l s)).bump (.linkLosses l)) :=
      relayed_keepsCue.bump _ 1 _ (keepsCue_tellLoss l _ (keepsCue_of_only (emptiedLink_only l s).but hs))
    split
    · exact cueInRange_resetPart told.memory l false
    · exact told
  | sent l => exact keepsCue_of_only (endTransmission_only l s).but hs
  | passed => exact keepsCue_of_only (enterReady_only s).but hs
  | failed f => exact keepsCue_of_only (failCheck_only f s).but hs
  | rested a => exact keepsCue_of_only (setStroke_only s a _).but hs
  | dwelling c d => exact keepsCue_of_only (supply_only s fun x => { x with dwell := d }).but hs
  | record hrunning => exact cueInRange_takeCurrent hs hrunning
  | waited => exact cueInRange_completeCurrent hs
  | _ => exact keepsCue_of_only reached.but hs

theorem exec_keepsCue {c : Instr} {s t : State} (h : exec c s = .next t) : KeepsCue s t :=
  relayed_keepsCue.exec (by decide) (fun l u => keepsCue_of_only (takeHead_only l u).but) keepsCue_of_message keepsCue_of_own h

end Sys2Proof.Machine
end

