-- ==== Sys2Proof/Proofs/PlayRanges.lean ====
section
/-! PROOF. The ranges that the specification sets, of chamber stages and trip histories (06 R116; 07 R119, R124), and the ranges that every step
keeps, put together. -/

namespace Sys2Proof.Machine

-- One theorem after another, so that the compile needs few threads.
set_option Elab.async false

/-! ## Chamber stages -/

structure StagesInRange (s : State) : Prop where
  channels : ∀ p ∈ s.shutters.channels, p < 128
  stages : ∀ c, (s.chamberState c).current ≤ s.stages c

def KeepsStages (s t : State) : Prop := StagesInRange s → StagesInRange t

theorem State.stages_of_tables {s t : State} (h : t.store.tables = s.store.tables) (c : Nat) : t.stages c = s.stages c := by
  unfold State.stages State.chamber
  rw [h]

theorem keepsStages_of_same {s t : State} (hs : t.shutters = s.shutters) (ht : t.store.tables = s.store.tables) : KeepsStages s t := fun h =>
  ⟨by rw [hs]; exact h.channels, fun c => by
    rw [State.stages_of_tables ht, show t.chamberState c = s.chamberState c by unfold State.chamberState; rw [hs]]
    exact h.stages c⟩

theorem keepsStages_of_only {s t : State} (k : Only (allBut [.store, .shutters]) s t) : KeepsStages s t :=
  keepsStages_of_same (k.field (by simp : Field.shutters ∈ _)) (congrArg Store.tables (k.field (by simp : Field.store ∈ _)))

theorem relayed_keepsStages : Relayed (allBut [.store, .shutters]) KeepsStages where
  free := keepsStages_of_only
  trans := fun h k hs => k (h hs)
  bump := fun _ _ _ => keepsStages_of_same rfl rfl
  settle := fun _ => keepsStages_of_same rfl rfl
  start := fun s a => keepsStages_of_only (startStroke_only a s).but
  dequeue := fun _ _ => keepsStages_of_same rfl rfl
  join := fun _ _ _ _ => keepsStages_of_same rfl rfl
  reiterate := fun _ _ _ _ => keepsStages_of_same rfl rfl
  endReiteration := fun _ _ => keepsStages_of_same rfl rfl
  damper := fun _ _ _ => keepsStages_of_same rfl rfl
  joins := fun _ _ _ _ _ _ => keepsStages_of_same rfl rfl
  begins := fun _ _ _ _ _ _ _ _ => keepsStages_of_same rfl rfl
  steps := fun _ _ _ _ _ _ _ _ _ => keepsStages_of_same rfl rfl
  leaves := fun _ _ _ _ _ _ => keepsStages_of_same rfl rfl

theorem cueDriven_keepsStages : CueDriven (allBut [.store, .shutters]) KeepsStages :=
  relayed_keepsStages.cueDriven (fun s l n => keepsStages_of_only (notify_only s l n).but) (by decide) (by decide) (by decide)
    (fun _ _ _ _ => keepsStages_of_same rfl rfl) (fun _ _ _ _ _ _ => keepsStages_of_same rfl rfl) (fun _ => keepsStages_of_same rfl rfl)
    (fun _ _ _ _ _ => keepsStages_of_same rfl rfl)

theorem State.chamberState_modChamber (s : State) (c d : Nat) (f : ChamberState → ChamberState) (hf : d = c → c < s.shutters.chambers.length) :
    (s.modChamber c f).chamberState d = if d = c then f (s.chamberState c) else s.chamberState d := by
  unfold State.chamberState State.modChamber
  dsimp only
  rw [List.getElem?_modify]
  by_cases h : c = d
  · subst h
    rw [if_pos rfl, List.getElem?_eq_getElem (hf rfl)]
    simp
  · rw [if_neg (Ne.symm h)]
    cases s.shutters.chambers[d]? <;> simp [h]

/-- A chamber that comes to a stage within its own. -/
theorem keepsStages_modChamber {s : State} {c : Nat} {f : ChamberState → ChamberState} (hf : StagesInRange s → (f (s.chamberState c)).current ≤ s.stages c) :
    KeepsStages s (s.modChamber c f) := fun h => by
  refine ⟨h.channels, fun d => ?_⟩
  show ((s.modChamber c f).chamberState d).current ≤ s.stages d
  by_cases hd : d = c ∧ s.shutters.chambers.length ≤ c
  · have : (s.modChamber c f).chamberState d = s.chamberState d := by
      unfold State.chamberState State.modChamber
      dsimp only
      rw [List.getElem?_modify, List.getElem?_eq_none (hd.1 ▸ hd.2)]
      rfl
    rw [this]
    exact h.stages d
  · rw [State.chamberState_modChamber s c d f fun e => Nat.lt_of_not_le fun hle => hd ⟨e, hle⟩]
    split
    next e => rw [e]; exact hf h
    · exact h.stages d

theorem State.channel_lt {s : State} (h : ∀ p ∈ s.shutters.channels, p < 128) (k : Nat) : s.channel k < 128 := by
  unfold State.channel
  cases hk : s.shutters.channels[k]? with
  | none => decide
  | some p => exact h p (List.mem_of_getElem? hk)

/-- A target lies within the stages (R112). -/
theorem stageTarget_le {position : Nat} (h : position < 128) (stages : Nat) : stageTarget position stages ≤ stages := by
  unfold stageTarget
  have : position * stages ≤ 127 * stages := Nat.mul_le_mul_right _ (Nat.le_of_lt_succ h)
  omega

theorem keepsStages_stepChamber (c : Nat) (s : State) : KeepsStages s (stepChamber c s) := by
  unfold stepChamber
  split
  next stages o channel interval hc =>
    have hstages : s.stages c = stages := by unfold State.stages; rw [hc]
    dsimp only
    split
    next hlt =>
      split
      · refine fun h => keepsStages_of_only (modPort_only _ _ _).but (keepsStages_modChamber (fun h => ?_) h)
        rw [hstages]
        exact (Nat.succ_le_of_lt hlt).trans (stageTarget_le (State.channel_lt h.channels _) _)
      · exact keepsStages_modChamber fun h => h.stages c
    · split
      · exact keepsStages_modChamber fun h => (Nat.sub_le _ _).trans (h.stages c)
      · exact id
  all_goals exact id

theorem keepsStages_writeChannel (k : Nat) {p : Nat} (hp : p < 128) (s : State) : KeepsStages s (writeChannel k p s) := by
  have r := relayed_keepsStages
  refine fun h => r.foldl (fun t c => ?_) allChambers _ ?_
  · unfold followChannel
    split
    · exact r.ite (fun _ => keepsStages_stepChamber c t) fun _ => id
    all_goals exact id
  · refine ⟨fun q hq => ?_, h.stages⟩
    rcases List.mem_or_eq_of_mem_set hq with hq | rfl
    · exact h.channels q hq
    · exact hp

/-- With every chamber at rest the tables may be anything. -/
theorem stagesInRange_of_rest {s : State} (hc : ∀ p ∈ s.shutters.channels, p < 128)
    (h : ∀ c ∈ s.shutters.chambers, c = { current := 0, timer := none }) : StagesInRange s := by
  refine ⟨hc, fun c => ?_⟩
  unfold State.chamberState
  cases hk : s.shutters.chambers[c]? with
  | none => exact Nat.zero_le _
  | some x =>
    rw [h x (List.mem_of_getElem? hk)]
    exact Nat.zero_le _

theorem stopAllPlaying_shutters (s : State) :
    (stopAllPlaying s).shutters = { s.shutters with chambers := s.shutters.chambers.map fun _ => { current := 0, timer := none } } := by
  have only := (silenceEffects_only .reset s).shutters
  unfold stopAllPlaying portsOff stopGenerators releaseStages
  generalize silenceEffects .reset s = u at only
  dsimp only
  rw [only]

theorem keepsStages_of_message {l : Link} {t v : State} {c : Instr} (h : MessageEffect l t c v) (hr : RestOutsideReady t) : KeepsStages t v := by
  have k := cueDriven_keepsStages
  have reached := Only.of_message h
  have written : t.engine = .loading → v.shutters = t.shutters → KeepsStages t v := fun hl hv ht => by
    refine stagesInRange_of_rest (by rw [hv]; exact ht.channels) ?_
    rw [hv]
    exact hr.chambers (by rw [hl]; decide)
  by_cases hp : CueDriven.playing c = true
  · exact k.message (by decide) (k.tabsTurn (by decide) (by decide)) (fun _ _ _ _ _ _ => keepsStages_of_same rfl rfl) h hp
  · cases h with
    | unchanged => exact k.refl t
    | discarded | ignored => exact k.bump _ _ _
    | expression c p _ _ hle => exact keepsStages_writeChannel c (Nat.lt_succ_of_le hle) t
    | specBegin blank =>
      intro ht
      have rested : StagesInRange (if t.ready then stopAllPlaying t else t) ∧
          ∀ c ∈ (if t.ready then stopAllPlaying t else t).shutters.chambers, c = { current := 0, timer := none } := by
        split
        · have chambers : ∀ c ∈ (stopAllPlaying t).shutters.chambers, c = { current := 0, timer := none } := fun c hc => by
            rw [stopAllPlaying_shutters] at hc
            obtain ⟨_, -, rfl⟩ := List.mem_map.1 hc
            rfl
          exact ⟨stagesInRange_of_rest (by rw [stopAllPlaying_shutters]; exact ht.channels) chambers, chambers⟩
        next hready =>
          have := hr.chambers fun e => hready (State.ready_iff.2 e)
          exact ⟨ht, this⟩
      exact stagesInRange_of_rest rested.1.channels rested.2
    | silence => exact keepsStages_of_only (silenceEffects_only _ t).but
    | divisions _ _ hl | sources _ _ hl | specStops _ _ hl | chambers _ _ hl | tremulants _ _ hl | ports _ _ hl | figures _ _ hl =>
      exact written hl rfl
    | commit => exact keepsStages_of_same rfl rfl
    | _ => first
      | exact absurd rfl hp
      | exact keepsStages_of_only reached.but

theorem keepsStages_enterReady (s : State) : KeepsStages s (enterReady s) := by
  have r := relayed_keepsStages
  unfold enterReady
  dsimp only
  refine fun h => r.foldl (fun u c => r.ite (fun _ => keepsStages_stepChamber c u) fun _ => id) allChambers _ ?_
  refine keepsStages_of_only (Only.foldl (fun u p => startDetect_only p u) _ _).but (keepsStages_of_same (s := s) ?_ ?_ h) <;> rfl

theorem stagesInRange_resetPart (l : Link) (up : Bool) (s : State) : StagesInRange (resetPart l up s) :=
  stagesInRange_of_rest (motionInRange_resetPart l up s).channels fun c hc => by
    obtain ⟨_, -, rfl⟩ := List.mem_map.1 hc
    rfl

theorem keepsStages_of_own {s v : State} {c : Instr} (h : OwnEffect s c v) (hm : MemoryInRange s) : KeepsStages s v := by
  have k := cueDriven_keepsStages
  have reached := Only.of_own h
  cases h with
  | powerOn => exact fun _ => stagesInRange_of_rest reset_inRanges.channels fun c => List.eq_of_mem_replicate
  | reset l => exact fun _ => stagesInRange_resetPart l true s
  | loss l =>
    exact k.loseLink (keepsStages_of_only (emptiedLink_only l s).but) fun t _ _ _ => stagesInRange_resetPart l false t
  | sent l => exact keepsStages_of_only (endTransmission_only l s).but
  | passed => exact keepsStages_enterReady s
  | failed f => exact keepsStages_of_same rfl rfl
  | rested => exact keepsStages_of_same rfl rfl
  | staged c => exact fun h => keepsStages_stepChamber c _ (keepsStages_modChamber (fun h => h.stages c) h)
  | dwelling => exact keepsStages_of_same rfl rfl
  | record =>
    exact k.takeCurrent fun i r hr => by
      have hact := (hm r (mem_of_join hr)).2
      refine ⟨fun n _ => keepsStages_of_same rfl rfl, fun c p e => ?_⟩
      rw [e] at hact
      exact keepsStages_writeChannel c hact.2 s
  | waited => exact k.completeCurrent s
  | _ => exact keepsStages_of_only reached.but

/-! ## Trip histories -/

structure HistoriesInRange (s : State) : Prop where
  lockouts : ∀ p e, s.portEntry p = some e → 2 ≤ e.lockout ∧ e.lockout ≤ 15
  histories : ∀ (p : Nat) (pt : Port), s.ports[p]? = some pt → pt.history.length ≤ 15 ∧
    (pt.state ≠ .locked → ∀ e, s.portEntry p = some e → pt.history.length < e.lockout)

def KeepsHistories (s t : State) : Prop := HistoriesInRange s → HistoriesInRange t

theorem State.portEntry_of_tables {s t : State} (h : t.store.tables = s.store.tables) (p : Nat) : t.portEntry p = s.portEntry p := by
  unfold State.portEntry
  rw [h]

/-- Ports each of which has a history of the range. -/
theorem keepsHistories_of_ports {s t : State} (ht : t.store.tables = s.store.tables)
    (hp : HistoriesInRange s → ∀ (p : Nat) (pt : Port), t.ports[p]? = some pt → pt.history.length ≤ 15 ∧
      (pt.state ≠ .locked → ∀ e, s.portEntry p = some e → pt.history.length < e.lockout)) : KeepsHistories s t := fun h =>
  ⟨fun p e he => h.lockouts p e (State.portEntry_of_tables ht p ▸ he), fun p pt hpt => by
    rw [State.portEntry_of_tables ht p]
    exact hp h p pt hpt⟩

theorem keepsHistories_of_only {s t : State} (k : Only (allBut [.store, .ports]) s t) : KeepsHistories s t := by
  have hp : t.ports = s.ports := k.field (by simp : Field.ports ∈ _)
  exact keepsHistories_of_ports (congrArg Store.tables (k.field (by simp : Field.store ∈ _))) fun h p pt hpt => h.histories p pt (hp ▸ hpt)

/-- A port in a state and with a history of the range. -/
theorem keepsHistories_modPort {s : State} {p : Nat} {f : Port → Port}
    (hf : HistoriesInRange s → ∀ pt, s.ports[p]? = some pt → (f pt).history.length ≤ 15 ∧
      ((f pt).state ≠ .locked → ∀ e, s.portEntry p = some e → (f pt).history.length < e.lockout)) : KeepsHistories s (s.modPort p f) := by
  refine keepsHistories_of_ports rfl fun h q pt hq => ?_
  have hq' : (s.ports.modify p f)[q]? = some pt := hq
  rw [List.getElem?_modify] at hq'
  cases hs : s.ports[q]? with
  | none => rw [hs] at hq'; cases hq'
  | some x =>
    rw [hs] at hq'
    by_cases e : p = q
    · subst e
      have : f x = pt := by simpa using hq'
      exact this ▸ hf h x hs
    · have : x = pt := by simpa [e] using hq'
      exact this ▸ h.histories q x hs

/-- A port whose state and history stand. -/
theorem keepsHistories_modPort_same {s : State} {p : Nat} {f : Port → Port} (hs : ∀ pt, (f pt).state = pt.state) (hh : ∀ pt, (f pt).history = pt.history) :
    KeepsHistories s (s.modPort p f) :=
  keepsHistories_modPort fun h pt hpt => by rw [hs, hh]; exact h.histories p pt hpt

/-- Ports rewritten each by itself, with its state and its history standing. -/
theorem keepsHistories_mapIdx {s : State} {f : Nat → Port → Port} (hs : ∀ p pt, (f p pt).state = pt.state)
    (hh : ∀ p pt, (f p pt).history = pt.history) : KeepsHistories s { s with ports := s.ports.mapIdx f } := by
  refine keepsHistories_of_ports rfl fun h p pt hpt => ?_
  have hpt' : (s.ports.mapIdx f)[p]? = some pt := hpt
  rw [List.getElem?_mapIdx] at hpt'
  obtain ⟨x, hx, rfl⟩ := Option.map_eq_some_iff.1 hpt'
  rw [hs, hh]
  exact h.histories p x hx

theorem settlePort_history (s : State) (p : Nat) (pt : Port) : (settlePort s p pt).history = pt.history := by
  unfold settlePort
  split <;> rfl

theorem keepsHistories_startStroke (a : Addr) (s : State) : KeepsHistories s (startStroke a s) := by
  unfold startStroke
  split
  next k _ =>
    intro h
    have struck := keepsHistories_of_only (setStroke_only s a (.striking (s.now + k.stroke))).but h
    exact keepsHistories_of_only (bump_only _ _).but
      (keepsHistories_modPort_same (f := fun pt => { pt with admitted := pt.admitted + _ }) (fun _ => rfl) (fun _ => rfl) struck)
  · exact id

theorem relayed_keepsHistories : Relayed (allBut [.store, .ports]) KeepsHistories where
  free := keepsHistories_of_only
  trans := fun h k hs => k (h hs)
  bump := fun s n c => keepsHistories_of_only (bumpBy_only s n c).but
  settle := fun s => keepsHistories_mapIdx (settlePort_state s) (settlePort_history s)
  start := fun s a => keepsHistories_startStroke a s
  dequeue := fun s a => keepsHistories_of_only (dequeue_only a s).but
  join := fun s _ _ _ => keepsHistories_of_only (sched_only s fun x => { x with queue := x.queue ++ _ }).but
  reiterate := fun s _ _ _ => keepsHistories_of_only (sched_only s fun x => { x with reiterations := x.reiterations ++ _ }).but
  endReiteration := fun s a => keepsHistories_of_only (endReiteration_only a s).but
  damper := fun s i f => keepsHistories_of_only (modDamper_only s i f).but
  joins := fun s p _ _ _ _ => keepsHistories_of_only (setPlayer_only s p _).but
  begins := fun s p _ _ _ _ _ _ => keepsHistories_of_only (setPlayer_only s p _).but
  steps := fun s p _ _ _ _ _ _ _ => keepsHistories_of_only (setPlayer_only s p _).but
  leaves := fun s p _ _ _ _ => keepsHistories_of_only (setPlayer_only s p _).but

theorem cueDriven_keepsHistories : CueDriven (allBut [.store, .ports]) KeepsHistories :=
  relayed_keepsHistories.cueDriven (fun s l n => keepsHistories_of_only (notify_only s l n).but) (by decide) (by decide) (by decide)
    (fun s p _ _ => keepsHistories_of_only (setPlayer_only s p _).but) (fun s p _ _ _ _ => keepsHistories_of_only (setPlayer_only s p _).but)
    (fun s => keepsHistories_of_only (table_only s _).but) (fun s x _ _ _ => keepsHistories_of_only (modRecord_only s x _).but)

theorem keepsHistories_stepChamber (c : Nat) (s : State) : KeepsHistories s (stepChamber c s) := by
  have moved : ∀ f, KeepsHistories s (s.modChamber c f) := fun f => keepsHistories_of_only (modChamber_only s c f).but
  unfold stepChamber
  split
  · dsimp only
    split
    · split
      · exact fun h => keepsHistories_modPort_same (f := fun pt => { pt with admitted := pt.admitted + _ }) (fun _ => rfl) (fun _ => rfl)
          (moved _ h)
      · exact moved _
    · split
      · exact moved _
      · exact id
  all_goals exact id

theorem keepsHistories_writeChannel (k p : Nat) (s : State) : KeepsHistories s (writeChannel k p s) := by
  have r := relayed_keepsHistories
  refine fun h => r.foldl (fun t c => ?_) allChambers _ (keepsHistories_of_ports (s := s) rfl (fun h => h.histories) h)
  unfold followChannel
  split
  · exact r.ite (fun _ => keepsHistories_stepChamber c t) fun _ => id
  all_goals exact id

theorem keepsHistories_startDetect (p : Nat) (s : State) : KeepsHistories s (startDetect p s) := by
  unfold startDetect
  split
  · split
    · refine keepsHistories_modPort_same (fun pt => ?_) fun pt => ?_ <;> split <;> rfl
    · exact id
  · exact id

/-- A history within the range of a port that is not LOCKED. -/
theorem keepsHistories_restorePort {s : State} {p : Nat} {history : List Nat}
    (hh : HistoriesInRange s → history.length ≤ 15 ∧ ∀ e, s.portEntry p = some e → history.length < e.lockout) :
    KeepsHistories s (restorePort p history s) := fun h =>
  cueDriven_keepsHistories.notifyAll _ _ (keepsHistories_startDetect p _
    (keepsHistories_modPort (fun h _ _ => ⟨(hh h).1, fun _ => (hh h).2⟩) h))

theorem HistoriesInRange.none {s : State} (h : HistoriesInRange s) (p : Nat) :
    ([] : List Nat).length ≤ 15 ∧ ∀ e, s.portEntry p = some e → ([] : List Nat).length < e.lockout :=
  ⟨Nat.zero_le _, fun e he => Nat.lt_of_lt_of_le Nat.zero_lt_two (h.lockouts p e he).1⟩

theorem keepsHistories_disablePort (p : Nat) (s : State) : KeepsHistories s (disablePort p s) := fun h =>
  keepsHistories_of_only (dropStrikes_only _ _).but
    (keepsHistories_modPort (fun h _ _ => ⟨(h.none p).1, fun _ => (h.none p).2⟩) h)

theorem keepsHistories_tripPort {s : State} {p : Nat} {e : PortEntry} {pt : Port} (hpt : s.ports[p]? = some pt) (he : s.portEntry p = some e)
    (hact : pt.state = .active) : KeepsHistories s (tripPort p e pt s) := by
  have k := cueDriven_keepsHistories
  have size : HistoriesInRange s → (prunedHistory s.now e.window pt.history ++ [s.now]).length ≤ e.lockout ∧ e.lockout ≤ 15 := fun h => by
    have before := (h.histories p pt hpt).2 (by rw [hact]; simp) e he
    have pruned : (prunedHistory s.now e.window pt.history).length ≤ pt.history.length := List.length_filter_le _ _
    rw [List.length_append, List.length_singleton]
    exact ⟨by omega, (h.lockouts p e he).2⟩
  have counted : KeepsHistories s (s.bump (.portTrips p)) := k.bump s 1 _
  unfold tripPort
  dsimp only
  split
  · refine fun h => keepsHistories_of_only (dropStrikes_only _ _).but (k.notifyAll _ _ (k.bump _ 1 .lockouts (keepsHistories_modPort ?_ (counted h))))
    exact fun _ _ _ => ⟨(size h).1.trans (size h).2, fun hl => absurd rfl hl⟩
  next hlt =>
    refine fun h => keepsHistories_of_only (dropStrikes_only _ _).but (k.notifyAll _ _ (keepsHistories_modPort ?_ (counted h)))
    refine fun _ _ _ => ⟨(size h).1.trans (size h).2, fun _ e' he' => ?_⟩
    have : e' = e := Option.some.inj (he'.symm.trans he)
    rw [this]
    exact Nat.lt_of_not_le hlt

/-- With every history empty the tables may be anything with lockout counts of the range. -/
theorem historiesInRange_of_rest {s : State} (hl : ∀ p e, s.portEntry p = some e → 2 ≤ e.lockout ∧ e.lockout ≤ 15)
    (h : ∀ pt ∈ s.ports, pt.history = []) : HistoriesInRange s := by
  refine ⟨hl, fun p pt hpt => ?_⟩
  rw [h pt (List.mem_of_getElem? hpt)]
  exact ⟨Nat.zero_le _, fun _ e he => Nat.lt_of_lt_of_le Nat.zero_lt_two (hl p e he).1⟩

theorem portEntry_lockouts_of_written {s t : State} (h : HistoriesInRange s) (hw : s.store.tables.Written t.store.tables) :
    ∀ p e, t.portEntry p = some e → 2 ≤ e.lockout ∧ e.lockout ≤ 15 := fun _ e he =>
  hw.lockouts (fun e he => by
    obtain ⟨p, hp⟩ := join_of_mem he
    exact h.lockouts p e hp) e (mem_of_join he)

theorem keepsHistories_of_message {l : Link} {t v : State} {c : Instr} (h : MessageEffect l t c v) (hr : RestOutsideReady t) :
    KeepsHistories t v := by
  have k := cueDriven_keepsHistories
  have reached := Only.of_message h
  have written := h.written
  have resting : ∀ u : State, u.ports = t.ports → t.engine ≠ .ready → ∀ pt ∈ u.ports, pt.history = [] := fun u hu he pt hpt => by
    rw [hr.ports he pt (hu ▸ hpt)]
    rfl
  by_cases hp : CueDriven.playing c = true
  · exact k.message (by decide) (k.tabsTurn (by decide) (by decide)) (fun _ u x _ _ _ => keepsHistories_of_only (modRecord_only u x _).but) h hp
  · cases h with
    | unchanged => exact k.refl t
    | discarded | ignored => exact k.bump _ _ _
    | expression c p => exact keepsHistories_writeChannel c p t
    | specBegin blank =>
      refine fun ht => historiesInRange_of_rest (portEntry_lockouts_of_written ht written) ?_
      show ∀ pt ∈ (if t.ready then stopAllPlaying t else t).ports, pt.history = []
      split
      · intro pt hpt
        obtain ⟨_, -, rfl⟩ := List.mem_map.1 hpt
        rfl
      next hready => exact resting t rfl fun e => hready (State.ready_iff.2 e)
    | silence => exact keepsHistories_of_only (silenceEffects_only _ t).but
    | divisions _ _ hl | sources _ _ hl | specStops _ _ hl | chambers _ _ hl | tremulants _ _ hl | ports _ _ hl | figures _ _ hl =>
      exact fun ht => historiesInRange_of_rest (portEntry_lockouts_of_written ht written) (resting _ rfl (by rw [hl]; decide))
    | commit => exact keepsHistories_of_ports rfl fun h => h.histories
    | restore p => exact keepsHistories_restorePort fun h => h.none p
    | disable p => exact keepsHistories_disablePort p t
    | _ => first
      | exact absurd rfl hp
      | exact keepsHistories_of_only reached.but

theorem keepsHistories_enterReady (s : State) : KeepsHistories s (enterReady s) := by
  have r := relayed_keepsHistories
  unfold enterReady
  dsimp only
  refine fun h => r.foldl (fun u c => r.ite (fun _ => keepsHistories_stepChamber c u) fun _ => id) allChambers _
    (r.foldl (fun u p => keepsHistories_startDetect p u) allPorts _ (historiesInRange_of_rest ?_ fun pt hpt => ?_))
  · exact h.lockouts
  · obtain ⟨i, hi, rfl⟩ := List.mem_mapIdx.1 hpt
    rfl

theorem historiesInRange_resetPart (l : Link) (up : Bool) (s : State) : HistoriesInRange (resetPart l up s) :=
  historiesInRange_of_rest (fun p e he => by
    rw [show (resetPart l up s).portEntry p = State.reset.portEntry p from rfl, reset_portEntry] at he
    cases he) fun pt hpt => by
    obtain ⟨_, -, rfl⟩ := List.mem_map.1 hpt
    rfl

theorem keepsHistories_of_own {s v : State} {c : Instr} (h : OwnEffect s c v) : KeepsHistories s v := by
  have k := cueDriven_keepsHistories
  have reached := Only.of_own h
  cases h with
  | powerOn =>
    refine fun _ => historiesInRange_of_rest reset_playRanges.lockouts fun pt hpt => ?_
    obtain ⟨_, -, rfl⟩ := List.mem_map.1 hpt
    rfl
  | reset l => exact fun _ => historiesInRange_resetPart l true s
  | loss l =>
    exact k.loseLink (k.emptiedLink (fun u x _ _ _ => keepsHistories_of_only (modRecord_only u x _).but) (by decide) (by decide)
      (k.tabsTurn (by decide) (by decide) l) s) fun t _ _ _ => historiesInRange_resetPart l false t
  | sent l => exact keepsHistories_of_only (endTransmission_only l s).but
  | passed => exact keepsHistories_enterReady s
  | failed f => exact keepsHistories_of_ports rfl fun h => h.histories
  | rested a => exact keepsHistories_of_only (setStroke_only s a _).but
  | reiterated a n => exact k.trans (keepsHistories_of_only (rearm_only a n s).but) (k.requestStrike a _)
  | stepped p run => exact k.endStep (keepsHistories_of_only (setPlayer_only s p none).but) run
  | staged c => exact fun h => keepsHistories_stepChamber c _ (keepsHistories_of_only (modChamber_only s c _).but h)
  | rising p => exact fun h => keepsHistories_startDetect p _ (keepsHistories_modPort_same (fun _ => rfl) (fun _ => rfl) h)
  | falling p => exact keepsHistories_modPort_same (fun _ => rfl) fun _ => rfl
  | tripped p pt e hpt he hact => exact keepsHistories_tripPort hpt he hact
  | restored p pt hpt hst =>
    refine keepsHistories_restorePort fun h => ?_
    obtain ⟨h15, hlock⟩ := h.histories p pt hpt
    exact ⟨h15, hlock (by rw [hst]; simp)⟩
  | supplyFell =>
    refine fun h => k.notifyAll _ _ (keepsHistories_of_only (dropStrikes_only _ _).but (keepsHistories_of_ports (s := s) rfl (fun h p pt hpt => ?_) h))
    have hpt' : (s.ports.map fun pt => { pt with detect := none })[p]? = some pt := hpt
    rw [List.getElem?_map] at hpt'
    obtain ⟨x, hx, rfl⟩ := Option.map_eq_some_iff.1 hpt'
    exact h.histories p x hx
  | dwelling c d => exact keepsHistories_of_only (supply_only s fun x => { x with dwell := d }).but
  | supplyRose =>
    exact fun h => k.notifyAll _ _ (relayed_keepsHistories.foldl (fun u p => keepsHistories_startDetect p u) allPorts _
      (keepsHistories_of_only (supply_only s fun _ => { state := .good, dwell := none }).but h))
  | record =>
    exact k.takeCurrent fun i r _ => ⟨fun n _ => keepsHistories_of_only (figures_only s fun x => { x with tempo := n }).but,
      fun c p _ => keepsHistories_writeChannel c p s⟩
  | waited => exact k.completeCurrent s
  | _ => exact keepsHistories_of_only reached.but

/-! ## Every step -/

theorem RestOutsideReady.of_only {fs : List Field} {s t : State} (h : RestOutsideReady s) (k : Only fs s t)
    (hfs : ∀ f ∈ [Field.store, .table, .sched, .figures, .generators, .shutters, .ports, .regs, .cue], f ∉ fs) : RestOutsideReady t := by
  have same : ∀ f ∈ [Field.store, .table, .sched, .figures, .generators, .shutters, .ports, .regs, .cue], f.same s t := fun f hf => k f (hfs f hf)
  have hstore : t.store = s.store := same .store (by decide)
  have engine : t.engine ≠ .ready → s.engine ≠ .ready := fun he => by unfold State.engine at he ⊢; rw [← hstore]; exact he
  have htable : t.table = s.table := same .table (by decide)
  have hsched : t.sched = s.sched := same .sched (by decide)
  have hfig : t.figures = s.figures := same .figures (by decide)
  have hgens : t.generators = s.generators := same .generators (by decide)
  have hshut : t.shutters = s.shutters := same .shutters (by decide)
  have hports : t.ports = s.ports := same .ports (by decide)
  have hregs : t.regs = s.regs := same .regs (by decide)
  have hcue : t.cue = s.cue := same .cue (by decide)
  exact ⟨fun e => by rw [htable]; exact h.table (engine e), fun e => by rw [hsched]; exact h.scheduler (engine e),
    fun e => by rw [hfig]; exact h.players (engine e), fun e => by rw [hgens]; exact h.generators (engine e),
    fun e => by rw [hshut]; exact h.chambers (engine e), fun e => by rw [hports]; exact h.ports (engine e),
    fun e l => by unfold State.reg; rw [hregs]; exact h.registrations (engine e) l, fun e => by rw [hcue]; exact h.unit (engine e)⟩

theorem RestOutsideReady.takeHead {s : State} (h : RestOutsideReady s) (l : Link) : RestOutsideReady (takeHead l s) :=
  h.of_only (takeHead_only l s) (by decide)

/-- As `Relayed.exec`, with what holds of the part as the message's leaving its queue has left it. -/
theorem Relayed.exec_of_taken {fs : List Field} {R : State → State → Prop} (k : Relayed fs R) (hl : Field.links ∈ fs)
    (hhead : ∀ l s, R s (Machine.takeHead l s)) {c : Instr} {s t : State}
    (hmessage : ∀ {l v}, MessageEffect l (Machine.takeHead l s) c v → R (Machine.takeHead l s) v)
    (hown : ∀ {v}, OwnEffect s c v → R s v) (h : Machine.exec c s = .next t) : R s t := by
  rcases exec_effect h with rfl | ⟨serve, u, hu, rfl⟩
  · exact k.refl t
  · refine k.trans ?_ (k.finish hl serve u)
    cases hu with
    | played l m v _ hv => exact k.trans (hhead l s) (hmessage hv)
    | answered l m p v _ _ hv =>
      exact k.trans (k.trans (hhead l s) (hmessage hv)) (k.free ((addPlace_only l p v).mono (by simp [hl])))
    | own v hv => exact hown hv

theorem exec_keepsStages {c : Instr} {s t : State} (h : exec c s = .next t) (hr : RestOutsideReady s) (hm : MemoryInRange s) : KeepsStages s t :=
  relayed_keepsStages.exec_of_taken (by decide) (fun l u => keepsStages_of_only (takeHead_only l u).but)
    (fun hv => keepsStages_of_message hv (hr.takeHead _)) (fun hv => keepsStages_of_own hv hm) h

theorem exec_keepsHistories {c : Instr} {s t : State} (h : exec c s = .next t) (hr : RestOutsideReady s) : KeepsHistories s t :=
  relayed_keepsHistories.exec_of_taken (by decide) (fun l u => keepsHistories_of_only (takeHead_only l u).but)
    (fun hv => keepsHistories_of_message hv (hr.takeHead _)) keepsHistories_of_own h

theorem exec_keepsPlayRanges {c : Instr} {s t : State} (h : exec c s = .next t) (hs : InRanges s) (hr : RestOutsideReady s) (hp : PlayRanges s) :
    PlayRanges t := by
  obtain ⟨hlock, hhist⟩ := exec_keepsHistories h hr ⟨hp.lockouts, hp.histories⟩
  exact ⟨(exec_keepsStages h hr hs.memory ⟨hs.channels, hp.stages⟩).stages, hlock, hhist⟩

theorem exec_keepsRanges {c : Instr} {s t : State} (h : exec c s = .next t) (hs : InRanges s) : InRanges t := by
  have motion := exec_keepsMotion h hs.memory ⟨hs.channels, hs.tempo, hs.steps.1, hs.steps.2⟩
  have sched := exec_keepsSched h ⟨hs.deferral, hs.strikes, hs.reiterations⟩
  have cue := exec_keepsCue h ⟨hs.memory, hs.record.1, hs.record.2, hs.runCount.1, hs.runCount.2⟩
  have regs := inRange_keptByPlay.exec h hs.drawn.1 fun l => ⟨hs.transpositions l, hs.drawn.2 l, hs.tabs l⟩
  exact
    { links := exec_keepsLinks h hs.links
      transpositions := fun l => (regs l).transpositions
      drawn := ⟨(exec_written h).stops_length hs.drawn.1, fun l => (regs l).drawn⟩
      tabs := fun l => (regs l).tabs
      cueCounts := exec_keepsCueCounts h hs.cueCounts
      channels := motion.channels
      tempo := motion.tempo
      steps := ⟨motion.entries, motion.steps⟩
      deferral := sched.deferral
      strikes := sched.strikes
      reiterations := sched.reiterations
      memory := cue.memory
      record := ⟨cue.unit.current, cue.unit.last⟩
      runCount := ⟨cue.unit.run, cue.unit.going⟩ }

/-- A step is a millisecond's passing, or a command on the state with another queue. -/
theorem step_comes {s t : State} (h : step s = .next t) : t = tick s ∨ ∃ c rest, exec c { s with pending := rest } = .next t := by
  rcases step_cases h with ⟨rfl, -, -⟩ | ⟨c, rest, -, he⟩ | ⟨c, rest, -, -, he⟩
  · exact .inl rfl
  · exact .inr ⟨c, rest, he⟩
  · exact .inr ⟨c, s.pending, he⟩

/-- Settles O12. -/
theorem everyStepKeepsTheListedRanges : Obligations.EveryStepKeepsTheListedRanges := fun s t h hs => by
  rcases step_comes h with rfl | ⟨c, rest, he⟩
  · exact ⟨{ hs with }, fun _ hp => { hp with }⟩
  · have ranges : InRanges { s with pending := rest } := { hs with }
    exact ⟨exec_keepsRanges he ranges, fun hr hp =>
      exec_keepsPlayRanges he ranges (hr.of_only (pending_only s rest) (by decide)) { hp with }⟩

end Sys2Proof.Machine
end

