-- ==== Sys2Proof/Proofs/DownLinks.lean ====
section
/-! PROOF. A DOWN link has nothing (02 R40; 09 R171): every step keeps its emptiness. Messages come from links that are UP, and touch no other
link's registration; notices go to links that are UP; and the loss of a link leaves its block and its interface empty. -/

namespace Sys2Proof.Machine

-- One theorem after another, so that the compile needs few threads.
set_option Elab.async false

/-! ## An emptied registration block -/

theorem Registration.lift_eq (d k : Nat) (r : Registration) : r.lift d k = { r with keys := r.keys.set (keyPlace d k) .released } := by
  unfold Registration.lift
  split
  next h =>
    have stands : r.keys.set (keyPlace d k) .released = r.keys := by
      refine List.ext_getElem? fun i => ?_
      rw [List.getElem?_set]
      split
      next e =>
        subst e
        unfold Registration.level at h
        split
        next hlt => rw [List.getElem?_eq_getElem hlt] at h ⊢; exact congrArg some h.symm
        next hge => exact (List.getElem?_eq_none (Nat.le_of_not_lt hge)).symm
      · rfl
    rw [stands]
  · rfl

/-- The places of the held-key map, by division and key. -/
def keyPlaces : List Nat := (List.range 6).flatMap fun d => allKeys.map (keyPlace d)

theorem mem_keyPlaces {i : Nat} : i ∈ keyPlaces ↔ i < 384 := by
  simp only [keyPlaces, allKeys, keyPlace, List.mem_flatMap, List.mem_map, List.mem_range]
  constructor
  · rintro ⟨d, hd, k, hk, rfl⟩
    omega
  · exact fun h => ⟨i / 64, by omega, i % 64, by omega, by omega⟩

theorem foldl_set_getElem? {α : Type} (x : α) (i : Nat) : ∀ (places : List Nat) (xs : List α),
    (places.foldl (fun ys p => ys.set p x) xs)[i]? = if i ∈ places ∧ i < xs.length then some x else xs[i]?
  | [], xs => by simp
  | p :: rest, xs => by
    rw [List.foldl_cons, foldl_set_getElem? x i rest, List.length_set, List.getElem?_set]
    by_cases hlt : i < xs.length <;> by_cases hp : p = i <;> by_cases hr : i ∈ rest <;> simp_all [eq_comm]

theorem Registration.lifted_eq (r : Registration) : r.lifted = { r with keys := keyPlaces.foldl (fun ks p => ks.set p .released) r.keys } := by
  have inner : ∀ (d : Nat) (ks : List Nat) (q : Registration), ks.foldl (fun p k => p.lift d k) q =
      { q with keys := (ks.map (keyPlace d)).foldl (fun ks p => ks.set p .released) q.keys } := fun d ks => by
    induction ks with
    | nil => exact fun q => rfl
    | cons k ks ih =>
      intro q
      rw [List.foldl_cons, ih, Registration.lift_eq]
      rfl
  have outer : ∀ (ds : List Nat) (q : Registration), ds.foldl (fun q d => allKeys.foldl (fun p k => p.lift d k) q) q =
      { q with keys := (ds.flatMap fun d => allKeys.map (keyPlace d)).foldl (fun ks p => ks.set p .released) q.keys } := fun ds => by
    induction ds with
    | nil => exact fun q => rfl
    | cons d ds ih =>
      intro q
      rw [List.foldl_cons, ih, inner, List.flatMap_cons, List.foldl_append]
  exact outer _ r

/-- Every key of a map of 6 x 64 places is released (R36). -/
theorem Registration.lifted_keys {r : Registration} (h : r.keys.length = 384) : r.lifted.keys = List.replicate 384 .released := by
  rw [Registration.lifted_eq]
  refine List.ext_getElem? fun i => ?_
  rw [foldl_set_getElem?, List.getElem?_replicate, h]
  by_cases hlt : i < 384
  · rw [if_pos ⟨mem_keyPlaces.2 hlt, hlt⟩, if_pos hlt]
  · rw [if_neg fun hi => hlt hi.2, if_neg hlt, List.getElem?_eq_none (h ▸ Nat.le_of_not_lt hlt)]

theorem Registration.contains_untabbed (i : Nat) : ∀ (js : List Nat) (r : Registration),
    (js.foldl (fun q j => q.tab j false) r).tabs.contains i = if i ∈ js then false else r.tabs.contains i
  | [], _ => by simp
  | j :: js, r => by
    rw [List.foldl_cons, Registration.contains_untabbed i js, Registration.contains_tab]
    by_cases h : i ∈ js <;> by_cases e : i = j <;> simp [h, e]

theorem Registration.untabbed_keeps : ∀ (js : List Nat) (r : Registration),
    (js.foldl (fun q j => q.tab j false) r).keys = r.keys ∧ (js.foldl (fun q j => q.tab j false) r).stops = r.stops
  | [], _ => ⟨rfl, rfl⟩
  | j :: js, r => by
    obtain ⟨hk, hs, -, -⟩ := r.tab_keeps j false
    obtain ⟨ik, is⟩ := Registration.untabbed_keeps js (r.tab j false)
    exact ⟨ik.trans hk, is.trans hs⟩

/-- The loss of a link leaves its block empty (R40). -/
theorem Registration.emptied_eq_empty {r : Registration} (h : r.keys.length = 384) : r.emptied = Registration.empty := by
  have keys := Registration.lifted_keys h
  have tabs : r.lifted.tabs = r.tabs := r.lifted_keeps.2.1
  unfold Registration.emptied
  generalize r.lifted = p at keys tabs
  obtain ⟨hk, hs⟩ := Registration.untabbed_keeps r.tabs { p with stops := [] }
  have off := fun i => Registration.contains_untabbed i r.tabs { p with stops := [] }
  generalize List.foldl (fun (q : Registration) j => q.tab j false) { p with stops := [] } r.tabs = q at hk hs off
  have untabbed : q.tabs = [] := List.eq_nil_iff_forall_not_mem.2 fun i hi => by
    have := off i
    rw [List.contains_iff_mem.2 hi] at this
    split at this
    · cases this
    next hn => exact hn (tabs ▸ List.contains_iff_mem.1 this.symm)
  show (⟨q.keys, q.stops, q.tabs, 0, 0⟩ : Registration) = ⟨List.replicate 384 .released, [], [], 0, 0⟩
  rw [untabbed, hk, hs, keys]

theorem Registration.quieted_empty : Registration.empty.quieted = Registration.empty := by
  have keys : (List.replicate 384 Level.released).map (fun _ => Level.released) = List.replicate 384 Level.released := List.map_replicate
  unfold Registration.quieted Registration.empty
  rw [keys]

theorem Registration.length_keptByPlay (n : Nat) : KeptByPlay n fun r => r.keys.length = 384 where
  pressed := fun r d k b h => by
    unfold Registration.taken
    split <;> simpa [Registration.press] using h
  drawn := fun _ _ _ _ h => h
  cancelled := fun _ _ h => h
  tabbed := fun r j on _ h => by rw [(r.tab_keeps j on).1]; exact h
  requested := fun r v h => by
    unfold Registration.request Registration.taken
    split <;> exact h
  released := fun r h => by
    have keys := Registration.lifted_keys h
    have size : r.lifted.keys.length = 384 := by rw [keys]; exact List.length_replicate
    generalize r.lifted = q at size ⊢
    unfold Registration.taken
    split <;> exact size
  quieted := fun r h => by simpa [Registration.quieted] using h
  emptied := fun r h => by rw [Registration.emptied_eq_empty h]; exact List.length_replicate
  empty := List.length_replicate

/-! ## The interfaces -/

/-- Nothing queued, nothing being sent, no timer (R171). -/
structure LinkIf.Silent (i : LinkIf) : Prop where
  input : i.input = []
  replies : i.replies = []
  notices : i.notices = []
  transmitter : i.transmitter = .idle
  flow : i.flow = .flowing
  silenceTimer : i.silenceTimer = none
  resetPending : i.resetPending = false

theorem LinkIf.silent_atPowerOn : LinkIf.atPowerOn.Silent := ⟨rfl, rfl, rfl, rfl, rfl, rfl, rfl⟩

theorem LinkIf.silent_lost (i : LinkIf) : i.lost.Silent := ⟨rfl, rfl, rfl, rfl, rfl, rfl, rfl⟩

/-- No link goes DOWN, and a silent DOWN one stays silent. -/
def KeepsSilent (s t : State) : Prop :=
  ∀ m, (t.link m).state = .down → (s.link m).state = .down ∧ ((s.link m).Silent → (t.link m).Silent)

theorem keepsSilent_of_links {s t : State} (h : t.links = s.links) : KeepsSilent s t := fun m hm => by
  rw [State.link_of_links h] at hm ⊢
  exact ⟨hm, id⟩

theorem keepsSilent_of_only {s t : State} (k : Only (allBut [.links]) s t) : KeepsSilent s t :=
  keepsSilent_of_links (k.field (by simp : Field.links ∈ _))

theorem KeepsSilent.trans {s t u : State} (h : KeepsSilent s t) (k : KeepsSilent t u) : KeepsSilent s u := fun m hm => by
  obtain ⟨ht, hk⟩ := k m hm
  obtain ⟨hs, hh⟩ := h m ht
  exact ⟨hs, hk ∘ hh⟩

theorem keepsSilent_modLink {s : State} {l : Link} {f : LinkIf → LinkIf}
    (hf : (f (s.link l)).state = .down → (s.link l).state = .down ∧ ((s.link l).Silent → (f (s.link l)).Silent)) :
    KeepsSilent s (s.modLink l f) := fun m hm => by
  rw [State.link_modLink] at hm ⊢
  split at hm
  next e => subst e; rw [if_pos rfl]; exact hf hm
  next e => rw [if_neg e]; exact ⟨hm, id⟩

/-- An interface that is, or comes, UP may change otherwise. -/
theorem keepsSilent_modLink_up {s : State} {l : Link} {f : LinkIf → LinkIf} (hf : (f (s.link l)).state = .up) :
    KeepsSilent s (s.modLink l f) := keepsSilent_modLink fun h => by rw [hf] at h; cases h

theorem keepsSilent_notify (s : State) (l : Link) (n : Notice) : KeepsSilent s (s.notify l n) := by
  unfold State.notify
  split
  · exact keepsSilent_of_links rfl
  next hup =>
    have joined := keepsSilent_modLink_up (s := s) (l := l) (f := fun i => { i with notices := (joinNotices (s.link l).notices n).1 }) hup
    dsimp only
    split
    · exact joined.trans (keepsSilent_of_links rfl)
    · exact joined

theorem relayed_keepsSilent : Relayed (allBut [.links]) KeepsSilent where
  free := keepsSilent_of_only
  trans := KeepsSilent.trans
  bump := fun _ _ _ => keepsSilent_of_links rfl
  settle := fun _ => keepsSilent_of_links rfl
  start := fun s a => keepsSilent_of_only (startStroke_only a s).but
  dequeue := fun _ _ => keepsSilent_of_links rfl
  join := fun _ _ _ _ => keepsSilent_of_links rfl
  reiterate := fun _ _ _ _ => keepsSilent_of_links rfl
  endReiteration := fun _ _ => keepsSilent_of_links rfl
  damper := fun _ _ _ => keepsSilent_of_links rfl
  joins := fun _ _ _ _ _ _ => keepsSilent_of_links rfl
  begins := fun _ _ _ _ _ _ _ _ => keepsSilent_of_links rfl
  steps := fun _ _ _ _ _ _ _ _ _ => keepsSilent_of_links rfl
  leaves := fun s p _ _ _ _ => keepsSilent_of_only (setPlayer_only s p _).but

theorem cueDriven_keepsSilent : CueDriven (allBut [.links]) KeepsSilent :=
  relayed_keepsSilent.cueDriven keepsSilent_notify (by decide) (by decide) (by decide) (fun _ _ _ _ => keepsSilent_of_links rfl)
    (fun _ _ _ _ _ _ => keepsSilent_of_links rfl) (fun _ => keepsSilent_of_links rfl) (fun _ _ _ _ _ => keepsSilent_of_links rfl)

theorem LinkIf.state_of_facing {i j : LinkIf} (h : i.facing = j.facing) : i.state = j.state := by
  have := congrArg LinkIf.state h
  exact this

theorem judgeFlow_state (l m : Link) (s : State) : ((judgeFlow l s).link m).state = (s.link m).state := by
  by_cases hm : m = l
  · subst hm
    exact (LinkIf.state_of_facing (judgeFlow_facing m s)).trans rfl
  · rw [judgeFlow_of_ne hm]

theorem keepsSilent_judgeFlow {l : Link} {s : State} (h : (s.link l).state = .up) : KeepsSilent s (judgeFlow l s) := fun m hm => by
  have hs := hm
  rw [judgeFlow_state] at hs
  have hne : m ≠ l := fun e => by rw [e, h] at hs; cases hs
  rw [judgeFlow_of_ne hne]
  exact ⟨hs, id⟩

theorem keepsSilent_takeHead {l : Link} {s : State} (h : (s.link l).state = .up) : KeepsSilent s (takeHead l s) :=
  (keepsSilent_modLink_up (f := fun i => { i with input := i.input.tail }) h).trans
    (keepsSilent_judgeFlow (by rw [State.link_modLink_same]; exact h))

theorem takeHead_state (l m : Link) (s : State) : ((takeHead l s).link m).state = (s.link m).state := by
  unfold takeHead
  rw [judgeFlow_state, State.link_modLink]
  split
  next e => subst e; rfl
  · rfl

theorem keepsSilent_configureLink {l : Link} {s : State} (h : (s.link l).state = .up) (b : ConfigureBody) :
    KeepsSilent s (configureLink l b s) := by
  have marked : KeepsSilent s (s.modLink l fun i => { i with low := b.low, high := b.high }) := keepsSilent_modLink_up h
  have up : ((s.modLink l fun i => { i with low := b.low, high := b.high }).link l).state = .up := by rw [State.link_modLink_same]; exact h
  have judged := marked.trans (keepsSilent_judgeFlow up)
  have configured : KeepsSilent s (configuredLink l b s) :=
    judged.trans (keepsSilent_modLink_up (by show LinkIf.state _ = _; rw [judgeFlow_state]; exact up))
  rw [configureLink_eq]
  exact configured.trans (keepsSilent_of_only (setDeferral_only _ _).but)

theorem keepsSilent_of_message {l : Link} {t v : State} {c : Instr} (h : MessageEffect l t c v) (hup : (t.link l).state = .up) :
    KeepsSilent t v := by
  have k := cueDriven_keepsSilent
  have reached := Only.of_message h
  by_cases hp : CueDriven.playing c = true
  · exact k.message (by decide) (k.tabsTurn (by decide) (by decide)) (fun _ _ _ _ _ _ => keepsSilent_of_links rfl) h hp
  · cases h with
    | unchanged => exact k.refl t
    | discarded | ignored => exact k.bump _ _ _
    | specBegin blank =>
      have silenced := k.silenceEffects (keepsSilent_of_only (silencedPart_only t).but) .reset
      exact k.trans (k.ite (fun _ => silenced.trans (keepsSilent_of_only (stopAllPlaying_behind t).but)) fun _ => k.refl _)
        (keepsSilent_of_only (beginLoading_only blank _).but)
    | silence => exact k.silenceEffects (keepsSilent_of_only (silencedPart_only t).but) _
    | configure fields b hb => exact keepsSilent_configureLink hup b
    | restore p =>
      exact ((keepsSilent_of_only (modPort_only t p _).but).trans (keepsSilent_of_only (startDetect_only p _).but)).trans (k.notifyAll _ _)
    | fullReset => exact keepsSilent_modLink_up hup
    | _ => first
      | exact absurd rfl hp
      | exact keepsSilent_of_only reached.but

theorem keepsSilent_setReceiver (s : State) (l : Link) (r : Receiver) : KeepsSilent s (s.setReceiver l r) :=
  keepsSilent_modLink fun h => ⟨h, fun k => { k with }⟩

theorem broughtUp_state (l : Link) (s : State) : ((broughtUp l s).link l).state = .up := by
  unfold broughtUp
  split
  · rw [LinkIf.state_of_facing (notifyAll_facing l _ _), State.link_modLink_same]
  next h => exact h

theorem heard_state (l : Link) (s : State) : ((heard l s).link l).state = .up := by
  unfold heard
  rw [State.link_modLink_same]
  exact broughtUp_state l s

theorem keepsSilent_heard (l : Link) (s : State) : KeepsSilent s (heard l s) := by
  have k := cueDriven_keepsSilent
  have up : KeepsSilent s (broughtUp l s) := by
    unfold broughtUp
    split
    · exact ((k.bump s 1 (.framesGood l)).trans (keepsSilent_modLink_up rfl)).trans (k.notifyAll _ _)
    · exact k.bump s 1 (.framesGood l)
  exact up.trans (keepsSilent_modLink_up (broughtUp_state l s))

theorem keepsSilent_goodFrame (l : Link) (m : Message) (s : State) : KeepsSilent s (goodFrame l m s) := by
  have timed := keepsSilent_heard l s
  rw [goodFrame_eq]
  split
  · exact timed
  · split
    · refine (timed.trans (keepsSilent_modLink_up (heard_state l s))).trans (keepsSilent_judgeFlow ?_)
      rw [State.link_modLink_same]
      exact heard_state l s
    · exact timed.trans (keepsSilent_of_links rfl)

theorem keepsSilent_receiveByte (l : Link) (b : Byte) (s : State) : KeepsSilent s (receiveByte l b s) := by
  have receiver := keepsSilent_setReceiver s l
  have bumped : ∀ r c, KeepsSilent s ((s.setReceiver l r).bump c) := fun r c => (receiver r).trans (keepsSilent_of_links rfl)
  unfold receiveByte
  split
  · split
    · exact receiver _
    · exact keepsSilent_of_links rfl
  · split
    · exact bumped _ _
    · exact receiver _
  · split
    · exact receiver _
    · unfold completeFrame
      split
      · split
        · exact (receiver _).trans (keepsSilent_goodFrame _ _ _)
        · exact bumped _ _
      · exact bumped _ _

theorem keepsSilent_endTransmission (l : Link) (s : State) : KeepsSilent s (endTransmission l s) := by
  have sending : ∀ {f : LinkIf → LinkIf}, (f (s.link l)).state = (s.link l).state → (s.link l).transmitter ≠ .idle →
      KeepsSilent s (s.modLink l f) := fun hf hne => keepsSilent_modLink fun h => ⟨hf ▸ h, fun k => absurd k.transmitter hne⟩
  unfold endTransmission
  split
  next h => exact sending rfl (by rw [h]; simp)
  next h => exact sending rfl (by rw [h]; simp)
  · exact keepsSilent_of_links rfl

theorem keepsSilent_fillReservation (code : ReplyCode) (contents : List Byte) (s : State) : KeepsSilent s (fillReservation code contents s) := by
  have filled : ∀ l u, KeepsSilent u (u.modLink l fun i => { i with replies := i.replies.map (Place.fill code contents) }) := fun l u =>
    keepsSilent_modLink fun h => ⟨h, fun k => { k with replies := by rw [k.replies]; rfl }⟩
  exact (filled .one s).trans (filled .two _)

theorem LinkIf.Silent.quiet {i : LinkIf} (h : i.Silent) : i.Quiet := fun _ => ⟨h.notices, by rw [h.replies]; exact fun _ hp => by cases hp⟩

theorem keepsSilent_beginTransmission (l : Link) (s : State) : KeepsSilent s (beginTransmission l s) := fun m hm => by
  have state : ((beginTransmission l s).link m).state = (s.link m).state := LinkIf.state_of_facing (beginTransmission_facing l m s)
  refine ⟨state ▸ hm, fun h => ?_⟩
  by_cases e : m = l
  · subst e
    rw [beginTransmission_of_quiet h.quiet]
    exact h
  · rw [beginTransmission_other l m e]
    exact h

theorem keepsSilent_finish (serve : Bool) (s : State) : KeepsSilent s (finish serve s) :=
  ((keepsSilent_of_links (settleAndServe_only serve s).links).trans (keepsSilent_beginTransmission .one _)).trans
    (keepsSilent_beginTransmission .two _)

/-! ## The law -/

/-- A DOWN link has an empty block and a silent interface. -/
def DownOk (s : State) (m : Link) : Prop := (s.link m).state = .down → s.reg m = Registration.empty ∧ (s.link m).Silent

def KeepsDown (s t : State) : Prop := ∀ m, DownOk s m → DownOk t m

theorem keepsDown_of_silent {s t : State} (h : KeepsSilent s t)
    (hr : ∀ m, (s.link m).state = .down → s.reg m = Registration.empty → t.reg m = Registration.empty) : KeepsDown s t := fun m hs hd => by
  obtain ⟨hdown, silent⟩ := h m hd
  obtain ⟨empty, quiet⟩ := hs hdown
  exact ⟨hr m hdown empty, silent quiet⟩

theorem keepsDown_of_regs {s t : State} (h : KeepsSilent s t) (hr : t.regs = s.regs) : KeepsDown s t :=
  keepsDown_of_silent h fun m _ he => by rw [State.reg_of_regs hr]; exact he

/-- A message leaves an empty block of another link empty. -/
theorem MessageEffect.other_empty {l m : Link} {t v : State} {c : Instr} (h : MessageEffect l t c v) (hm : m ≠ l)
    (he : t.reg m = Registration.empty) : v.reg m = Registration.empty := by
  have rewritten : ∀ {f u}, Rewrites l f t u → u.reg m = Registration.empty := fun hr => by rw [hr.reg_of_ne hm, he]
  have stand : ∀ {u : State}, u.regs = t.regs → u.reg m = Registration.empty := fun hu => by rw [State.reg_of_regs hu, he]
  have reached := Only.of_message h
  cases h with
  | unchanged => exact he
  | discarded | ignored => exact stand rfl
  | keys d es => exact rewritten (keyEntries_rewrites l d es t)
  | stops es => exact rewritten (stopEntries_rewrites l es t)
  | tabs es => exact rewritten (tabEntries_rewrites l es t)
  | registration b => exact rewritten (replaceRegistration_rewrites l b t)
  | transpose x => exact rewritten (requestTransposition_rewrites l x t)
  | release => exact rewritten ((releaseKeys_rewrites l t).trans (takeTransposition_rewrites l _))
  | specBegin blank =>
    rw [State.reg_of_regs (beginLoading_only blank _).regs]
    split
    · cases m <;> rfl
    · exact he
  | silence =>
    have only := rewriteCounts_only Record.silenced t
    have quiet : (silencedPart t).reg m = Registration.empty := by
      cases m with
      | one => exact (congrArg Registration.quieted ((State.reg_of_regs only.regs .one).trans he)).trans Registration.quieted_empty
      | two =>
        refine (congrArg Registration.quieted ?_).trans Registration.quieted_empty
        rw [State.reg_modReg_of_ne _ (by decide), State.reg_of_regs only.regs]
        exact he
    rw [silenceEffects_eq]
    split
    · rw [State.reg_of_regs (cueGoesIdle_only _ _).regs]
      exact quiet
    · exact quiet
  | _ => exact stand (reached.regs (by simp [reaches]))

theorem keepsDown_of_message {l : Link} {t v : State} {c : Instr} (h : MessageEffect l t c v) (hup : (t.link l).state = .up) : KeepsDown t v :=
  keepsDown_of_silent (keepsSilent_of_message h hup) fun m hd he => h.other_empty (fun e => by rw [e, hup] at hd; cases hd) he

theorem downOk_resetPart (l : Link) (up : Bool) (s : State) (m : Link) : DownOk (resetPart l up s) m := fun hd => by
  refine ⟨by cases m <;> rfl, ?_⟩
  by_cases hm : m = l
  · subst hm
    have e : (resetPart m up s).link m = LinkIf.afterReset s.now up := Pair.get_set_same _ _ _
    rw [e] at hd ⊢
    cases up with
    | true => cases hd
    | false => exact LinkIf.silent_atPowerOn
  · have e : (resetPart l up s).link m = LinkIf.atPowerOn := (Pair.get_set_of_ne _ hm _).trans (by cases m <;> rfl)
    rw [e]
    exact LinkIf.silent_atPowerOn

theorem keepsDown_loseLink {l : Link} {s : State} (hp : (s.reg l).keys.length = 384) : KeepsDown s (loseLink l s) := by
  have k := cueDriven_keepsSilent
  have emptied : KeepsDown s (emptiedLink l s) := fun m hs hd => by
    have link := State.link_of_links (emptiedLink_links l s) m
    rw [State.link_modLink] at link
    by_cases hm : m = l
    · subst hm
      rw [if_pos rfl] at link
      rw [(emptiedLink_rewrites m s).reg_same, Registration.emptied_eq_empty hp, link]
      exact ⟨rfl, LinkIf.silent_lost _⟩
    · rw [if_neg hm] at link
      rw [(emptiedLink_rewrites l s).reg_of_ne hm, link]
      exact hs (link ▸ hd)
  have told : KeepsDown (emptiedLink l s) ((tellLoss l (emptiedLink l s)).bump (.linkLosses l)) :=
    keepsDown_of_regs (k.trans (k.tellLoss l _) (k.bump _ 1 _)) (((tellLoss_only l _).mono (gs := [.cue, .links, .counters])).trans
      (bump_only _ _).mono).regs
  rw [loseLink_eq]
  split
  · exact fun m _ => downOk_resetPart l false _ m
  · exact fun m h => told m (emptied m h)

theorem keepsDown_of_own {s v : State} {c : Instr} (h : OwnEffect s c v) (hp : ∀ m, (s.reg m).keys.length = 384) : KeepsDown s v := by
  have k := cueDriven_keepsSilent
  have reached := Only.of_own h
  cases h with
  | powerOn => exact fun m _ _ => ⟨by cases m <;> rfl, by cases m <;> exact LinkIf.silent_atPowerOn⟩
  | byteArrival l b => exact keepsDown_of_regs (keepsSilent_receiveByte l b s) (reached.regs (by simp [reaches]))
  | cut l => exact keepsDown_of_regs ((keepsSilent_setReceiver s l .hunting).trans (keepsSilent_of_links rfl)) rfl
  | loss l => exact keepsDown_loseLink (hp l)
  | reset l => exact fun m _ => downOk_resetPart l true s m
  | sent l => exact keepsDown_of_regs (keepsSilent_endTransmission l s) (endTransmission_only l s).regs
  | passed =>
    exact keepsDown_of_regs (KeepsSilent.trans (keepsSilent_fillReservation .ok [] s) (keepsSilent_of_links (enterReady_links s)))
      (enterReady_only s).regs
  | failed f =>
    exact keepsDown_of_regs (KeepsSilent.trans (keepsSilent_of_links (s := s) rfl) (keepsSilent_fillReservation _ _ _)) (failCheck_only f s).regs
  | rested a => exact keepsDown_of_regs (keepsSilent_of_links rfl) rfl
  | tripped p pt e =>
    obtain ⟨u, n, hu, e⟩ := tripPort_parts p e pt s
    refine keepsDown_of_regs ?_ (reached.regs (by simp [reaches]))
    rw [e]
    exact ((keepsSilent_of_only hu.but).trans (k.notifyAll _ _)).trans (keepsSilent_of_only (dropStrikes_only _ _).but)
  | restored p pt =>
    refine keepsDown_of_regs ?_ (reached.regs (by simp [reaches]))
    exact ((keepsSilent_of_only (modPort_only s p _).but).trans (keepsSilent_of_only (startDetect_only p _).but)).trans (k.notifyAll _ _)
  | supplyFell =>
    exact keepsDown_of_regs (KeepsSilent.trans (keepsSilent_of_links (s := s) rfl) (k.notifyAll _ _)) (supplyFails_only s).regs
  | dwelling c d => exact keepsDown_of_regs (keepsSilent_of_links rfl) rfl
  | supplyRose =>
    refine keepsDown_of_regs (KeepsSilent.trans (keepsSilent_of_links ?_) (k.notifyAll _ _)) (supplyReturns_only s).regs
    exact (Only.foldl (fun t p => startDetect_only p t) allPorts _).links
  | record =>
    exact keepsDown_of_regs (k.takeCurrent fun i r _ => ⟨fun n _ => keepsSilent_of_links rfl,
      fun c p _ => keepsSilent_of_only (writeChannel_only c p s).but⟩) (takeCurrent_only s).regs
  | waited => exact keepsDown_of_regs (k.completeCurrent s) (completeCurrent_only s).regs
  | _ => exact keepsDown_of_regs (keepsSilent_of_only reached.but) (reached.regs (by simp [reaches]))

/-- A link with a message waiting is UP. -/
theorem up_of_head {s : State} {l : Link} {m : Message} (hl : DownOk s l) (h : s.head l = some m) : (s.link l).state = .up := by
  cases hs : (s.link l).state with
  | up => rfl
  | down =>
    have hi := (hl hs).2.input
    unfold State.head at h
    rw [hi] at h
    split at h <;> cases h

theorem exec_keepsDown {c : Instr} {s t : State} (h : exec c s = .next t) (hp : ∀ m, (s.reg m).keys.length = 384) (hs : ∀ m, DownOk s m)
    (m : Link) : DownOk t m := by
  have taken : ∀ {l msg v}, s.head l = some msg → MessageEffect l (takeHead l s) c v →
      ((takeHead l s).link l).state = .up ∧ KeepsSilent (takeHead l s) v ∧ ∀ m, DownOk v m := fun {l msg v} hh hv => by
    have up := up_of_head (hs l) hh
    have head : KeepsDown s (takeHead l s) := keepsDown_of_regs (keepsSilent_takeHead up) (takeHead_only l s).regs
    have still : ((takeHead l s).link l).state = .up := by rw [takeHead_state]; exact up
    exact ⟨still, keepsSilent_of_message hv still, fun m => keepsDown_of_message hv still m (head m (hs m))⟩
  rcases exec_effect h with rfl | ⟨serve, u, hu, rfl⟩
  · exact hs m
  refine keepsDown_of_regs (keepsSilent_finish serve u) (finish_only serve u).regs m ?_
  cases hu with
  | played l msg v hh hv => exact (taken hh hv).2.2 m
  | answered l msg p v hh _ hv =>
    obtain ⟨still, silent, ok⟩ := taken hh hv
    refine keepsDown_of_regs (keepsSilent_modLink fun hd => ?_) rfl m (ok m)
    have := (silent l hd).1
    rw [still] at this
    cases this
  | own v hv => exact keepsDown_of_own hv hp m (hs m)

theorem downLaw_iff {s : State} : DownLaw s ↔ (∀ l, (s.reg l).keys.length = 384) ∧ ∀ l, DownOk s l := by
  constructor
  · refine fun h => ⟨h.places, fun l hd => ⟨h.registration l hd, ?_⟩⟩
    obtain ⟨h1, h2, h3, h4, h5, h6, h7⟩ := h.silent l hd
    exact ⟨h1, h2, h3, h4, h5, h6, h7⟩
  · exact fun ⟨hp, h⟩ => ⟨hp, fun l hd => (h l hd).1, fun l hd => by
      obtain ⟨h1, h2, h3, h4, h5, h6, h7⟩ := (h l hd).2
      exact ⟨h1, h2, h3, h4, h5, h6, h7⟩⟩

/-- Settles O13. -/
theorem everyStepKeepsADownLinkEmpty : Obligations.EveryStepKeepsADownLinkEmpty := fun s t h hs => by
  have keeps : ∀ u : State, u.reg = s.reg → u.link = s.link → DownLaw u := fun u hr hl =>
    ⟨by rw [hr]; exact hs.places, by rw [hr, hl]; exact hs.registration, by rw [hl]; exact hs.silent⟩
  rcases step_comes h with rfl | ⟨c, rest, he⟩
  · exact keeps _ rfl rfl
  · obtain ⟨places, ok⟩ := downLaw_iff.1 (keeps { s with pending := rest } rfl rfl)
    exact downLaw_iff.2 ⟨(Registration.length_keptByPlay _).exec he le_rfl places, exec_keepsDown he places ok⟩

end Sys2Proof.Machine
end

