-- ==== Sys2Proof/Proofs/DemandTable.lean ====
section
/-! PROOF. The demand table that a checked specification gets (01 R18, R19; 03 R51; 04 R65): one record a target, and a stroke record only where
the source gives stroke and rest times. -/

namespace Sys2Proof.Machine

-- One theorem after another, so that the compile needs few threads.
set_option Elab.async false

/-! ## Entries and occupants -/

/-- The present entries of a table are those that its lookup finds. -/
theorem mem_present {α : Type} {xs : List (Option α)} {i : Nat} {x : α} : (i, x) ∈ present xs ↔ xs[i]?.join = some x := by
  unfold present
  rw [List.mem_filterMap]
  constructor
  · rintro ⟨⟨e, j⟩, hm, he⟩
    obtain ⟨y, rfl, hy⟩ := Option.map_eq_some_iff.1 he
    cases hy
    rw [List.mk_mem_zipIdx_iff_getElem?] at hm
    rw [hm]
    rfl
  · intro h
    cases he : xs[i]? with
    | none => rw [he] at h; cases h
    | some y =>
      rw [he] at h
      obtain rfl : y = some x := h
      exact ⟨(some x, i), List.mk_mem_zipIdx_iff_getElem?.2 he, rfl⟩

/-- The entries that are present come in ascending order. -/
theorem present_sorted {α : Type} (xs : List (Option α)) : (present xs).Pairwise fun a b => a.1 < b.1 := by
  unfold present
  have indexed : ∀ (ys : List (Option α)) (n : Nat), (ys.zipIdx n).Pairwise fun a b => a.2 < b.2 := fun ys => by
    induction ys with
    | nil => exact fun n => List.Pairwise.nil
    | cons y ys ih =>
      intro n
      rw [List.zipIdx_cons, List.pairwise_cons]
      exact ⟨fun e he => Nat.lt_of_succ_le (List.le_snd_of_mem_zipIdx he), ih (n + 1)⟩
  refine List.Pairwise.filterMap _ (fun a b hab x hx y hy => ?_) (indexed xs 0)
  obtain ⟨_, -, rfl⟩ := Option.map_eq_some_iff.1 hx
  obtain ⟨_, -, rfl⟩ := Option.map_eq_some_iff.1 hy
  exact hab

/-- What occupies outputs: sources, chambers and tremulants (R18). -/
theorem mem_occupants {t : Tables} {o : Occupant} : o ∈ occupants t ↔
    (∃ i x, t.sources[i]?.join = some x ∧ o ∈ sourceOccupants i x) ∨ (∃ i x, t.chambers[i]?.join = some x ∧ o ∈ chamberOccupants i x) ∨
      ∃ i x, t.tremulants[i]?.join = some x ∧ o = tremulantOccupant i x := by
  unfold occupants
  simp only [List.mem_append, List.mem_flatten, List.mem_map, Prod.exists, or_assoc]
  constructor
  · rintro (⟨os, ⟨i, x, h, rfl⟩, ho⟩ | ⟨os, ⟨i, x, h, rfl⟩, ho⟩ | ⟨i, x, h, rfl⟩)
    · exact .inl ⟨i, x, mem_present.1 h, ho⟩
    · exact .inr (.inl ⟨i, x, mem_present.1 h, ho⟩)
    · exact .inr (.inr ⟨i, x, mem_present.1 h, rfl⟩)
  · rintro (⟨i, x, h, ho⟩ | ⟨i, x, h, ho⟩ | ⟨i, x, h, rfl⟩)
    · exact .inl ⟨_, ⟨i, x, mem_present.2 h, rfl⟩, ho⟩
    · exact .inr (.inl ⟨_, ⟨i, x, mem_present.2 h, rfl⟩, ho⟩)
    · exact .inr (.inr ⟨i, x, mem_present.2 h, rfl⟩)

/-! ## One record a target (R51) -/

theorem perm_insertOccupant (o : Occupant) (os : List Occupant) : (insertOccupant o os).Perm (o :: os) := by
  induction os with
  | nil => exact .refl _
  | cons p rest ih =>
    unfold insertOccupant
    split
    · exact .refl _
    · exact (ih.cons p).trans (.swap o p rest)

theorem perm_sorted (os : List Occupant) : (os.foldr insertOccupant []).Perm os := by
  induction os with
  | nil => exact .refl _
  | cons o os ih => exact (perm_insertOccupant o _).trans (ih.cons o)

/-- No overlap is found exactly where no address is occupied twice (R18). -/
theorem firstOverlap_eq_none {os : List Occupant} {seen : List Addr} :
    firstOverlap seen os = none ↔ (os.map Occupant.out).Nodup ∧ ∀ o ∈ os, o.out ∉ seen := by
  induction os generalizing seen with
  | nil => simp [firstOverlap]
  | cons o os ih =>
    unfold firstOverlap
    by_cases h : o.out ∈ seen
    · simp [h]
    · rw [if_neg (by simpa using h), ih]
      simp only [List.map_cons, List.nodup_cons, List.mem_map, List.mem_cons, not_or, not_exists, not_and, forall_eq_or_imp]
      constructor
      · exact fun ⟨hn, ho⟩ => ⟨⟨fun p hp => (ho p hp).1, hn⟩, h, fun p hp => (ho p hp).2⟩
      · exact fun ⟨⟨hne, hn⟩, _, ho⟩ => ⟨hn, fun p hp => ⟨hne p hp, ho p hp⟩⟩

theorem outs_nodup_of_checked {t : Tables} (h : checkTables t = none) : ((occupants t).map Occupant.out).Nodup := by
  unfold checkTables at h
  simp only [Option.or_eq_none_iff] at h
  have overlap := h.2.2.1
  unfold searchOverlap at overlap
  exact (firstOverlap_eq_none.1 (Option.map_eq_none_iff.1 overlap)).1

/-- A record of the demand table is an occupant's, or the claim record of a FIGURE-mode trap (R51). -/
theorem mem_demandTable {t : Tables} {r : Record} : r ∈ demandTable t ↔
    (∃ o ∈ occupants t, r = o.record) ∨ ∃ i f, t.sources[i]?.join = some (.figureTrap f) ∧ r = claimRecord i := by
  unfold demandTable
  rw [List.mem_append, List.mem_map, List.mem_filterMap]
  refine or_congr ⟨?_, ?_⟩ ⟨?_, ?_⟩
  · exact fun ⟨o, ho, e⟩ => ⟨o, (perm_sorted _).mem_iff.1 ho, e.symm⟩
  · exact fun ⟨o, ho, e⟩ => ⟨o, (perm_sorted _).mem_iff.2 ho, e.symm⟩
  · rintro ⟨⟨i, x⟩, hm, hx⟩
    cases x with
    | figureTrap f => cases hx; exact ⟨i, f, mem_present.1 hm, rfl⟩
    | _ => cases hx
  · rintro ⟨i, f, h, rfl⟩
    exact ⟨(i, .figureTrap f), mem_present.2 h, rfl⟩

/-- A checked specification gets one record a target (R51). -/
theorem demandTable_targets_nodup {t : Tables} (h : checkTables t = none) : ((demandTable t).map (·.target)).Nodup := by
  have outs : (((occupants t).foldr insertOccupant []).map Occupant.out).Nodup :=
    ((perm_sorted _).map _).nodup_iff.2 (outs_nodup_of_checked h)
  unfold demandTable
  rw [List.map_append, List.map_map, List.nodup_append]
  refine ⟨?_, ?_, ?_⟩
  · have : (fun r : Record => r.target) ∘ Occupant.record = Target.output ∘ Occupant.out := rfl
    rw [this, ← List.map_map]
    exact outs.map fun _ _ e => Target.output.inj e
  · rw [List.map_filterMap]
    have sorted := present_sorted t.sources
    refine (List.Pairwise.filterMap (S := fun a b : Target => a ≠ b) _ (fun a b hab x hx y hy => ?_) sorted)
    obtain ⟨i, sa⟩ := a
    obtain ⟨j, sb⟩ := b
    cases sa <;> cases hx
    cases sb <;> cases hy
    exact fun e => Nat.ne_of_lt hab (Target.claim.inj e)
  · rintro a ha b hb rfl
    obtain ⟨o, -, rfl⟩ := List.mem_map.1 ha
    obtain ⟨r, hr, e⟩ := List.mem_map.1 hb
    obtain ⟨⟨i, x⟩, -, hx⟩ := List.mem_filterMap.1 hr
    cases x with
    | figureTrap f => cases hx; cases e
    | _ => cases hx

/-! ## Stroke records (R65) -/

theorem mem_noteOccupants {i : Nat} {c : Compass} {o : Outlet} {owner : Nat → Owner} {k : Option Stroke} {x : Occupant} :
    x ∈ noteOccupants i c o owner k ↔ ∃ n < c.span, x =
      { table := .source, entry := i, out := { port := o.port, index := o.base + n }, owner := owner (c.low + n), stroke := k } := by
  unfold noteOccupants
  simp [List.mem_map, List.mem_range, eq_comm]

/-- An occupant with a stroke record belongs to a percussion's note or to a trap, and to no other source. -/
theorem sourceOccupants_timed {i : Nat} {x : Source} {o : Occupant} (h : o ∈ sourceOccupants i x) (hs : o.stroke ≠ none) :
    o.owner.source = some i ∧ x.strikeTimes.isSome = true := by
  cases x with
  | rank c out =>
    obtain ⟨n, -, rfl⟩ := mem_noteOccupants.1 h
    exact absurd rfl hs
  | percussion c out k m d =>
    rcases List.mem_append.1 h with h | h
    · obtain ⟨n, -, rfl⟩ := mem_noteOccupants.1 h
      exact ⟨rfl, rfl⟩
    · cases d with
      | none => cases h
      | some dm =>
        rw [List.mem_singleton.1 h] at hs
        exact absurd rfl hs
  | trap out k m =>
    rw [List.mem_singleton.1 h]
    exact ⟨rfl, rfl⟩
  | figureTrap f => cases h

theorem chamberOccupants_untimed {i : Nat} {x : Chamber} {o : Occupant} (h : o ∈ chamberOccupants i x) : o.stroke = none := by
  cases x with
  | unenclosed => cases h
  | enclosed n out k interval =>
    obtain ⟨_, -, rfl⟩ := List.mem_map.1 h
    rfl

/-- A stroke record of a new demand table stands on an output whose source gives it a stroke and a rest time. -/
theorem demandTable_timed {s : State} {r : Record} (h : r ∈ demandTable s.store.tables) (hk : r.stroke ≠ none) :
    (s.strikeTimes r).isSome = true ∧ ∃ a, r.target = .output a := by
  rcases mem_demandTable.1 h with ⟨o, ho, rfl⟩ | ⟨i, f, -, rfl⟩
  · refine ⟨?_, o.out, rfl⟩
    rcases mem_occupants.1 ho with ⟨i, x, hx, hm⟩ | ⟨i, x, -, hm⟩ | ⟨i, x, -, rfl⟩
    · obtain ⟨howner, htimes⟩ := sourceOccupants_timed hm hk
      have hsource : s.source i = some x := hx
      show ((o.owner.source.bind s.source).bind Source.strikeTimes).isSome = true
      rw [howner, Option.bind_some, hsource]
      exact htimes
    · exact absurd (chamberOccupants_untimed hm) hk
    · exact absurd rfl hk
  · exact absurd rfl hk

end Sys2Proof.Machine
end

