-- ==== Sys2Proof/Proofs/RestOutsideReady.lean ====
section
/-! PROOF. The rest outside READY (01 R3; 02 R38; 03 R51; 05 R101; 06 R104, R117; 07 R119; 08 R142): what enters another state than READY leaves
the part at rest, and at rest no event but the entry to READY sets anything going. -/

namespace Sys2Proof.Machine

-- One theorem after another, so that the compile needs few threads.
set_option Elab.async false

/-- Nothing plays. -/
structure Resting (s : State) : Prop where
  table : s.table = []
  scheduler : s.sched.queue = [] ∧ s.sched.reiterations = [] ∧ s.sched.dampers = []
  players : ∀ p ∈ s.figures.players, p = none
  generators : ∀ g ∈ s.generators, g = { phase := .off, cueFlag := false }
  chambers : ∀ c ∈ s.shutters.chambers, c = { current := 0, timer := none }
  ports : ∀ pt ∈ s.ports, pt = Port.atPowerOn pt.overload
  registrations : ∀ l, s.reg l = Registration.empty
  unit : s.cue.state = .idle

theorem restOutsideReady_iff {s : State} : RestOutsideReady s ↔ (s.engine ≠ .ready → Resting s) :=
  ⟨fun h e => ⟨h.table e, h.scheduler e, h.players e, h.generators e, h.chambers e, h.ports e, h.registrations e, h.unit e⟩,
    fun h => ⟨fun e => (h e).table, fun e => (h e).scheduler, fun e => (h e).players, fun e => (h e).generators, fun e => (h e).chambers,
      fun e => (h e).ports, fun e => (h e).registrations, fun e => (h e).unit⟩⟩

theorem Resting.of_only {s t : State} (h : Resting s) (k : Only (allBut [.table, .sched, .figures, .generators, .shutters, .ports, .regs, .cue]) s t) :
    Resting t := by
  have htable : t.table = s.table := k.field (by simp : Field.table ∈ _)
  have hsched : t.sched = s.sched := k.field (by simp : Field.sched ∈ _)
  have hfig : t.figures = s.figures := k.field (by simp : Field.figures ∈ _)
  have hgens : t.generators = s.generators := k.field (by simp : Field.generators ∈ _)
  have hshut : t.shutters = s.shutters := k.field (by simp : Field.shutters ∈ _)
  have hports : t.ports = s.ports := k.field (by simp : Field.ports ∈ _)
  have hregs : t.regs = s.regs := k.field (by simp : Field.regs ∈ _)
  have hcue : t.cue = s.cue := k.field (by simp : Field.cue ∈ _)
  exact ⟨by rw [htable]; exact h.table, by rw [hsched]; exact h.scheduler, by rw [hfig]; exact h.players, by rw [hgens]; exact h.generators,
    by rw [hshut]; exact h.chambers, by rw [hports]; exact h.ports, fun l => by rw [State.reg_of_regs hregs]; exact h.registrations l,
    by rw [hcue]; exact h.unit⟩

/-! ## The ports at rest -/

/-- A port at rest. -/
def Port.Resting (pt : Port) : Prop := pt = Port.atPowerOn pt.overload

theorem Port.resting_iff {pt : Port} : pt.Resting ↔ ∃ b, pt = Port.atPowerOn b :=
  ⟨fun h => ⟨_, h⟩, fun ⟨b, h⟩ => by unfold Port.Resting; rw [h]; rfl⟩

theorem Port.Resting.state {pt : Port} (h : pt.Resting) : pt.state = .off := by
  rw [h]
  rfl

theorem mem_modify {α : Type} {f : α → α} {xs : List α} {p : Nat} {x : α} (h : x ∈ xs.modify p f) : x ∈ xs ∨ ∃ y ∈ xs, x = f y := by
  obtain ⟨i, hi⟩ := List.mem_iff_getElem?.1 h
  rw [List.getElem?_modify] at hi
  cases hx : xs[i]? with
  | none => rw [hx] at hi; cases hi
  | some y =>
    rw [hx] at hi
    have hy := List.mem_of_getElem? hx
    by_cases e : p = i
    · subst e
      exact .inr ⟨y, hy, by simpa using hi.symm⟩
    · have : y = x := by simpa [e] using hi
      exact .inl (this ▸ hy)

theorem resting_modPort {s : State} (h : Resting s) {p : Nat} {f : Port → Port} (hf : ∀ pt, pt.Resting → (f pt).Resting) :
    Resting (s.modPort p f) := by
  refine { h with ports := fun pt hpt => ?_ }
  rcases mem_modify hpt with hm | ⟨q, hm, rfl⟩
  · exact h.ports pt hm
  · exact hf q (h.ports q hm)

theorem resting_startDetect {s : State} (h : Resting s) (p : Nat) : Resting (startDetect p s) := by
  unfold startDetect
  split
  · split
    · refine resting_modPort h fun pt hpt => ?_
      rw [if_neg fun hc => by rw [hpt.state] at hc; cases hc.1]
      exact hpt
    · exact h
  · exact h

theorem resting_settle {s : State} (h : Resting s) : Resting (settle s) := by
  refine { h with ports := fun pt hpt => ?_ }
  obtain ⟨i, hi, rfl⟩ := List.mem_mapIdx.1 hpt
  obtain ⟨b, e⟩ := Port.resting_iff.1 (h.ports s.ports[i] (List.getElem_mem hi))
  have off : ¬ (s.ports[i].state = .active ∧ s.supplyGood = true) := fun hc => by rw [e] at hc; cases hc.1
  unfold settlePort
  rw [if_neg off, e]
  rfl

theorem resting_settleAndServe {s : State} (h : Resting s) (serve : Bool) : Resting (settleAndServe serve s) := by
  have settled := resting_settle h
  have served : serveQueue (settle s) = settle s := by
    unfold serveQueue
    rw [settled.scheduler.1]
    rfl
  unfold settleAndServe
  rw [served]
  split
  · exact resting_settle settled
  · exact settled

theorem resting_finish {s : State} (h : Resting s) (serve : Bool) : Resting (finish serve s) :=
  ((resting_settleAndServe h serve).of_only (beginTransmission_only .one _).but).of_only (beginTransmission_only .two _).but

/-! ## What brings the part to rest -/

theorem resting_resetPart (l : Link) (up : Bool) (s : State) : Resting (resetPart l up s) where
  table := rfl
  scheduler := ⟨rfl, rfl, rfl⟩
  players := fun _ => mem_map_none
  generators := fun g hg => by obtain ⟨_, -, rfl⟩ := List.mem_map.1 hg; rfl
  chambers := fun c hc => by obtain ⟨_, -, rfl⟩ := List.mem_map.1 hc; rfl
  ports := fun pt hpt => by obtain ⟨_, -, rfl⟩ := List.mem_map.1 hpt; rfl
  registrations := fun l => by cases l <;> rfl
  unit := rfl

/-! ## Players at rest -/

theorem State.playing_none_of_players {s : State} (h : ∀ p ∈ s.figures.players, p = none) (p : Nat) : s.playing p = none := by
  cases hp : s.playing p with
  | none => rfl
  | some run => exact absurd (h _ (State.mem_of_playing hp)) (by simp)

/-- With every player IDLE a release reaches no player. -/
theorem reportRelease_figures_of_idle {s : State} (h : ∀ p, s.playing p = none) (r : Record) : (reportRelease r s).figures = s.figures := by
  have removed : ∀ f, removeFigureOwner .claim f s = s := fun f => by
    unfold removeFigureOwner removeOwner
    split
    next p _ => rw [h p]
    · rfl
  unfold reportRelease
  split
  · exact (percussionRelease_only _ _ s).figures
  · exact (trapRelease_only _ _ s).figures
  · unfold claimRelease
    split
    · split
      · rfl
      · rw [removed]
    · rfl
  all_goals rfl

theorem rewriteCounts_figures_of_idle {s : State} (h : ∀ p, s.playing p = none) (f : Record → Record) : (rewriteCounts f s).figures = s.figures := by
  have released : ∀ (rs : List Record) (t : State), (∀ p, t.playing p = none) →
      (rs.foldl (fun t r => reportRelease (f r) t) t).figures = t.figures := fun rs => by
    induction rs with
    | nil => exact fun _ _ => rfl
    | cons r rs ih =>
      intro t ht
      have once := reportRelease_figures_of_idle ht (f r)
      exact (ih _ fun p => by unfold State.playing; rw [once]; exact ht p).trans once
  exact released _ _ h

theorem removeOwnerEverywhere_of_idle {s : State} (h : ∀ p, s.playing p = none) (o : FigureOwner) : removeOwnerEverywhere o s = s := by
  unfold removeOwnerEverywhere
  generalize List.range s.figures.players.length = ps
  induction ps with
  | nil => rfl
  | cons p ps ih =>
    have : removeOwner o p s = s := by
      unfold removeOwner
      rw [h p]
    rw [List.foldl_cons, this, ih]

theorem cueGoesIdle_figures_of_idle {s : State} (h : ∀ p, s.playing p = none) (reason : StopReason) : (cueGoesIdle reason s).figures = s.figures := by
  have counted := rewriteCounts_figures_of_idle (s := s.modCue fun c => { c with state := .idle }) h Record.withoutCue
  have cleared := (clearCueFlags_only (rewriteCounts Record.withoutCue (s.modCue fun c => { c with state := .idle }))).figures.trans counted
  unfold cueGoesIdle
  rw [(notifyAll_only _ _).figures, State.modCue_figures, removeOwnerEverywhere_of_idle, cleared]
  · rfl
  · intro p
    unfold State.playing
    rw [cleared]
    exact h p

theorem silencedPart_players {s : State} {x : Option Run} (h : x ∈ (silencedPart s).figures.players) : x = none := mem_map_none h

/-- After SILENCE's effects no player runs, and the cue unit is IDLE (R22). -/
theorem silenceEffects_stops (reason : StopReason) (s : State) :
    (∀ p ∈ (silenceEffects reason s).figures.players, p = none) ∧ (silenceEffects reason s).cue.state = .idle := by
  rw [silenceEffects_eq]
  split
  · refine ⟨fun p hp => ?_, by rw [cueGoesIdle_cue]; rfl⟩
    rw [cueGoesIdle_figures_of_idle (State.playing_none_of_players fun _ => silencedPart_players)] at hp
    exact silencedPart_players hp
  next hb =>
    refine ⟨fun p hp => silencedPart_players hp, ?_⟩
    by_contra hne
    exact hb (CueUnit.busy_iff.2 hne)

theorem resting_stopAllPlaying (s : State) : Resting (stopAllPlaying s) := by
  obtain ⟨players, unit⟩ := silenceEffects_stops .reset s
  have behind := stopAllPlaying_behind s
  exact
    { table := rfl
      scheduler := ⟨rfl, rfl, rfl⟩
      players := by rw [behind.figures]; exact players
      generators := fun g hg => by obtain ⟨_, -, rfl⟩ := List.mem_map.1 hg; rfl
      chambers := fun c hc => by rw [stopAllPlaying_shutters] at hc; obtain ⟨_, -, rfl⟩ := List.mem_map.1 hc; rfl
      ports := fun pt hpt => by obtain ⟨_, -, rfl⟩ := List.mem_map.1 hpt; rfl
      registrations := fun l => by cases l <;> rfl
      unit := by rw [behind.cue]; exact unit }

/-! ## What leaves it at rest -/

/-- With no key held there is none to release. -/
theorem releaseKeys_of_empty {l : Link} {s : State} (h : s.reg l = Registration.empty) : releaseKeys l s = s := by
  have released : ∀ d k, (s.reg l).level d k = .released := fun d k => by
    rw [h]
    unfold Registration.level Registration.empty
    dsimp only
    rw [List.getElem?_replicate]
    split <;> rfl
  have inner : ∀ (d : Nat) (ks : List Nat),
      ks.foldl (fun u k => if (u.reg l).level d k = .released then u else setKey l d k .released u) s = s := fun d ks => by
    induction ks with
    | nil => rfl
    | cons k ks ih => rw [List.foldl_cons, if_pos (released d k), ih]
  unfold releaseKeys
  generalize List.range 6 = ds
  induction ds with
  | nil => rfl
  | cons d ds ih => rw [List.foldl_cons, inner, ih]

/-- The loss of a link at rest reaches the links alone. -/
theorem emptiedLink_of_resting {s : State} (h : Resting s) (l : Link) : Only [.links, .regs] s (emptiedLink l s) := by
  have empty := h.registrations l
  generalize hu : ((s.modLink l fun i => { i with state := .down, silenceTimer := none }).modReg l fun r => { r with stops := [] }).modReg l
    (fun r => { r with requested := 0, effective := 0 }) = u
  have torn : Only [.links, .regs] s u := by
    rw [← hu]
    exact ((modLink_only _ _ _).mono.trans (modReg_only _ _ _).mono).trans (modReg_only _ _ _).mono
  have unplayed : ∀ p, u.playing p = none := fun p => by
    unfold State.playing
    rw [torn.figures]
    exact State.playing_none_of_players h.players p
  have eq : emptiedLink l s = u.modLink l fun i =>
      { i with input := [], replies := [], notices := [], transmitter := .idle, flow := .flowing, resetPending := false } := by
    unfold emptiedLink
    dsimp only
    have tabs : (s.reg l).tabs = [] := congrArg Registration.tabs empty
    rw [releaseKeys_of_empty (l := l) (s := s.modLink l _) empty, tabs, List.foldl_nil, hu, removeOwnerEverywhere_of_idle unplayed]
  rw [eq]
  exact torn.trans (modLink_only _ _ _).mono

theorem resting_loseLink {s : State} (h : Resting s) (l : Link) : Resting (loseLink l s) := by
  have emptied : Resting (emptiedLink l s) := by
    have only := emptiedLink_of_resting h l
    refine { h.of_only (t := { emptiedLink l s with regs := s.regs }) ?_ with registrations := fun m => ?_ }
    · exact fun f hf => by
        have := only f
        cases f <;> first | exact this (by decide) | exact absurd (by decide) hf | rfl
    · have rewritten := emptiedLink_rewrites l s
      by_cases hm : m = l
      · subst hm
        rw [rewritten.reg_same, h.registrations m, Registration.emptied_eq_empty List.length_replicate]
      · rw [rewritten.reg_of_ne hm, h.registrations m]
  have told : Resting ((tellLoss l (emptiedLink l s)).bump (.linkLosses l)) := by
    have idle : ¬ (emptiedLink l s).cue.busy = true := fun hb => CueUnit.busy_iff.1 hb emptied.unit
    have kept : ∀ u : State, u.cue = (emptiedLink l s).cue → cueOwnerLost l u = u := fun u hu => by
      unfold cueOwnerLost
      rw [if_neg fun hc => idle (hu ▸ hc.2)]
    unfold tellLoss
    rw [if_neg fun hc => idle hc.2.1, kept _ rfl]
    exact (emptied.of_only (notify_only _ _ _).but).of_only (bump_only _ _).but
  rw [loseLink_eq]
  split
  · exact resting_resetPart _ _ _
  · exact told

theorem resting_of_message {l : Link} {t v : State} {c : Instr} (h : MessageEffect l t c v) (hr : Resting t) (he : t.engine ≠ .ready) :
    Resting v := by
  have idle : t.cue.remembered t.now = none := by
    unfold CueUnit.remembered
    rw [hr.unit]
  cases h with
  | unchanged => exact hr
  | discarded | ignored => exact hr.of_only (bump_only _ _).but
  | keys _ _ h | stops _ h | tabs _ h | registration _ h | transpose _ h | expression _ _ h | go h | tempo _ h | silence h | release h
    | cueStart _ h | figureStart _ h | figureStop _ h | figureSync _ h | restore _ h | disable _ h => exact absurd h he
  | specBegin blank =>
    rw [if_neg fun hready => he (State.ready_iff.1 hready)]
    exact hr.of_only (beginLoading_only blank t).but
  | divisions | sources | specStops | chambers | tremulants | ports | figures => exact { hr with }
  | commit => exact { hr with }
  | configure fields b =>
    have only : Only [.links, .counters] t (configuredLink l b t) :=
      ((modLink_only t l _).mono.trans (judgeFlow_only l _)).trans (modLink_only _ l _).mono
    have configured := hr.of_only only.but
    rw [configureLink_eq]
    obtain ⟨queue, rest⟩ := configured.scheduler
    refine { configured with scheduler := ⟨?_, rest⟩ }
    show (configuredLink l b t).sched.queue.filter _ = []
    rw [queue]
    rfl
  | clear => exact { hr with }
  | cueWrite => exact { hr with }
  | cueSuspend _ h => rw [idle] at h; cases h
  | cueResume _ h => rw [hr.unit] at h; cases h
  | cueAbort h => exact absurd hr.unit h
  | fullReset => exact hr.of_only (modLink_only _ _ _).but

theorem resting_supplyReturns {s : State} (h : Resting s) : Resting (supplyReturns s) := by
  have good : Resting { s with supply := { state := .good, dwell := none } } := { h with }
  have started : Resting (allPorts.foldl (fun t p => startDetect p t) { s with supply := { state := .good, dwell := none } }) :=
    foldl_keeps (P := Resting) (fun t p ht => resting_startDetect ht p) allPorts _ good
  exact started.of_only (notifyAll_only _ _).but

theorem resting_of_own {s v : State} {c : Instr} (h : OwnEffect s c v) (hr : Resting s) (he : s.engine ≠ .ready) (hv : v.engine ≠ .ready) :
    Resting v := by
  have reached := Only.of_own h
  have bare : ∀ a, s.stroke a = none := fun a => by
    unfold State.stroke State.record
    rw [hr.table]
    rfl
  have unplayed := State.playing_none_of_players hr.players
  cases h with
  | powerOn =>
    exact
      { table := rfl
        scheduler := ⟨rfl, rfl, rfl⟩
        players := fun _ => List.eq_of_mem_replicate
        generators := fun _ => List.eq_of_mem_replicate
        chambers := fun _ => List.eq_of_mem_replicate
        ports := fun pt hpt => by obtain ⟨_, -, rfl⟩ := List.mem_map.1 hpt; rfl
        registrations := fun l => by cases l <;> rfl
        unit := rfl }
  | byteArrival | cut => exact hr.of_only reached.but
  | loss l => exact resting_loseLink hr l
  | reset l => exact resting_resetPart l true s
  | sent l => exact hr.of_only (endTransmission_only l s).but
  | passed => exact absurd (by unfold State.engine; rw [enterReady_store]) hv
  | failed f => exact hr.of_only (failCheck_only f s).but
  | struck a _ _ h | rested a _ _ _ h => rw [bare a] at h; cases h
  | late a =>
    obtain ⟨queue, rest⟩ := hr.scheduler
    refine Resting.of_only (s := dequeue a s) { hr with scheduler := ⟨?_, rest⟩ } (bump_only _ _).but
    show s.sched.queue.filter _ = []
    rw [queue]
    rfl
  | reiterated a n =>
    obtain ⟨queue, reiterations, dampers⟩ := hr.scheduler
    have rearmed : Resting (rearm a n s) := { hr with scheduler := ⟨queue, by
      show s.sched.reiterations.map _ = []
      rw [reiterations]
      rfl, dampers⟩ }
    have unready : (rearm a n s).ready = false := by
      by_contra hc
      exact he (State.ready_iff.1 (Bool.not_eq_false _ ▸ hc))
    unfold requestStrike
    rw [unready]
    exact rearmed.of_only (bump_only _ _).but
  | heldOver i =>
    obtain ⟨queue, reiterations, dampers⟩ := hr.scheduler
    refine { hr with scheduler := ⟨queue, reiterations, ?_⟩ }
    show s.sched.dampers.map _ = []
    rw [dampers]
    rfl
  | stepped p run h => rw [unplayed p] at h; cases h
  | turned j x phase _ h =>
    refine absurd ?_ h
    unfold State.generator
    cases hg : s.generators[j]? with
    | none => rfl
    | some g => rw [Option.getD_some, hr.generators g (List.mem_of_getElem? hg)]
  | staged c e h =>
    refine absurd h ?_
    unfold State.chamberState
    cases hc : s.shutters.chambers[c]? with
    | none => simp
    | some x => rw [Option.getD_some, hr.chambers x (List.mem_of_getElem? hc)]; simp
  | rising p =>
    refine resting_startDetect (resting_modPort hr fun pt hpt => ?_) p
    obtain ⟨b, rfl⟩ := Port.resting_iff.1 hpt
    exact Port.resting_iff.2 ⟨true, rfl⟩
  | falling p =>
    refine resting_modPort hr fun pt hpt => ?_
    obtain ⟨b, rfl⟩ := Port.resting_iff.1 hpt
    exact Port.resting_iff.2 ⟨false, rfl⟩
  | tripped p pt e h _ hs => rw [Port.Resting.state (hr.ports pt (List.mem_of_getElem? h))] at hs; cases hs
  | restored p pt h hs => rw [Port.Resting.state (hr.ports pt (List.mem_of_getElem? h))] at hs; cases hs
  | supplyFell =>
    obtain ⟨queue, reiterations, dampers⟩ := hr.scheduler
    refine Resting.of_only (s := dropStrikes (fun _ => true)
      { s with supply := { state := .low, dwell := none }, ports := s.ports.map fun pt => { pt with detect := none } }) ?_ (notifyAll_only _ _).but
    refine { hr with table := ?_, scheduler := ⟨?_, reiterations, dampers⟩, ports := fun pt hpt => ?_ }
    · show s.table.map _ = []
      rw [hr.table]
      rfl
    · show s.sched.queue.filter _ = []
      rw [queue]
      rfl
    · obtain ⟨q, hq, rfl⟩ := List.mem_map.1 hpt
      obtain ⟨b, e⟩ := Port.resting_iff.1 (hr.ports q hq)
      rw [e]
      rfl
  | dwelling => exact { hr with }
  | supplyRose => exact resting_supplyReturns hr
  | record h => rw [hr.unit] at h; cases h
  | waited e h => rw [hr.unit] at h; cases h

/-- A message that leaves READY leaves the part at rest. -/
theorem MessageEffect.resting {l : Link} {t v : State} {c : Instr} (h : MessageEffect l t c v) (ht : t.engine = .ready) (hv : v.engine ≠ .ready) :
    Resting v := by
  have reached := Only.of_message h
  have stand : ∀ {u : State}, u.store = t.store → u.engine ≠ .ready → Resting u := fun hu hne =>
    absurd (by unfold State.engine at ht ⊢; rw [hu]; exact ht) hne
  cases h with
  | unchanged | discarded | ignored => exact absurd ht hv
  | specBegin blank =>
    rw [if_pos (State.ready_iff.2 ht)]
    exact (resting_stopAllPlaying t).of_only (beginLoading_only blank _).but
  | divisions _ _ hl | sources _ _ hl | specStops _ _ hl | chambers _ _ hl | tremulants _ _ hl | ports _ _ hl | figures _ _ hl | commit hl =>
    rw [ht] at hl
    cases hl
  | _ => exact stand (reached.store (by simp [reaches])) hv

theorem OwnEffect.resting {s v : State} {c : Instr} (h : OwnEffect s c v) (hs : s.engine = .ready) (hv : v.engine ≠ .ready) : Resting v := by
  have reached := Only.of_own h
  have stand : ∀ {u : State}, u.store = s.store → u.engine ≠ .ready → Resting u := fun hu hne =>
    absurd (by unfold State.engine at hs ⊢; rw [hu]; exact hs) hne
  cases h with
  | powerOn r u o =>
    exact
      { table := rfl
        scheduler := ⟨rfl, rfl, rfl⟩
        players := fun _ => List.eq_of_mem_replicate
        generators := fun _ => List.eq_of_mem_replicate
        chambers := fun _ => List.eq_of_mem_replicate
        ports := fun pt hpt => by obtain ⟨_, -, rfl⟩ := List.mem_map.1 hpt; rfl
        registrations := fun l => by cases l <;> rfl
        unit := rfl }
  | reset l => exact resting_resetPart l true s
  | loss l =>
    rw [loseLink_eq] at hv ⊢
    split
    · exact resting_resetPart _ _ _
    next hp =>
      rw [if_neg hp] at hv
      exact stand (toldLoss_only l s).store hv
  | sent l => exact stand (endTransmission_only l s).store hv
  | passed hc => rw [hs] at hc; cases hc
  | failed f hc => rw [hs] at hc; cases hc
  | rested | dwelling => exact absurd hs hv
  | _ => exact stand (reached.store (by simp [reaches])) hv

/-- Every event keeps the rest outside READY. -/
theorem Effect.restOutsideReady {s u : State} {c : Instr} (h : Effect c s u) (hr : RestOutsideReady s) : RestOutsideReady u := by
  have message : ∀ {l v}, MessageEffect l (takeHead l s) c v → v.engine ≠ .ready → Resting v := fun {l v} hv hne => by
    by_cases ht : (takeHead l s).engine = .ready
    · exact hv.resting ht hne
    · exact resting_of_message hv (restOutsideReady_iff.1 (hr.takeHead l) ht) ht
  refine restOutsideReady_iff.2 fun hne => ?_
  cases h with
  | played l m v _ hv => exact message hv hne
  | answered l m p v _ _ hv => exact (message hv hne).of_only (addPlace_only l p v).but
  | own v hv =>
    by_cases hs : s.engine = .ready
    · exact hv.resting hs hne
    · exact resting_of_own hv (restOutsideReady_iff.1 hr hs) hs hne

theorem finish_engine (serve : Bool) (s : State) : (finish serve s).engine = s.engine := congrArg Store.engine (finish_only serve s).store

theorem exec_restOutsideReady {c : Instr} {s t : State} (h : exec c s = .next t) (hr : RestOutsideReady s) : RestOutsideReady t := by
  rcases exec_effect h with rfl | ⟨serve, u, hu, rfl⟩
  · exact hr
  · refine restOutsideReady_iff.2 fun hne => resting_finish (restOutsideReady_iff.1 (hu.restOutsideReady hr) ?_) serve
    rwa [finish_engine] at hne

end Sys2Proof.Machine
end

