-- ==== Sys2Proof/Proofs/StrokesAndTremulants.lean ====
section
/-! PROOF. The other laws kept with the rest outside READY: one record a target (03 R51), stroke records on timed outputs alone (04 R65), and
the phases of the tremulants (06 R104, R106). -/

namespace Sys2Proof.Machine

-- One theorem after another, so that the compile needs few threads.
set_option Elab.async false

/-! ## Records -/

/-- With one record a target, a record is what its target's lookup finds. -/
theorem State.record_of_mem {s : State} (h : TargetsDistinct s) {r : Record} (hr : r ∈ s.table) : s.record r.target = some r := by
  have found : ∀ rs : List Record, (rs.map (·.target)).Nodup → r ∈ rs → rs.find? (fun q => decide (q.target = r.target)) = some r := fun rs => by
    induction rs with
    | nil => exact fun _ hm => by cases hm
    | cons q rs ih =>
      intro hn hm
      rw [List.map_cons, List.nodup_cons] at hn
      rw [List.find?_cons]
      by_cases e : q.target = r.target
      · have : q = r := by
          rcases List.mem_cons.1 hm with rfl | hm
          · rfl
          · exact absurd (List.mem_map.2 ⟨r, hm, e.symm⟩) hn.1
        simp [this]
      · rw [decide_eq_false e]
        rcases List.mem_cons.1 hm with rfl | hm
        · exact absurd rfl e
        · exact ih hn.2 hm
  exact found s.table h hr

theorem State.mem_of_record {s : State} {x : Target} {r : Record} (h : s.record x = some r) : r ∈ s.table ∧ r.target = x :=
  ⟨List.mem_of_find?_eq_some h, by simpa using List.find?_some h⟩

/-- One record a target, and strokes on timed outputs alone. -/
structure TableLaw (s : State) : Prop where
  targets : TargetsDistinct s
  strokes : StrokesTimed s

def KeepsTable (s t : State) : Prop := TableLaw s → TableLaw t

theorem State.strikeTimes_of_tables {s t : State} (h : t.store.tables = s.store.tables) : t.strikeTimes = s.strikeTimes := by
  unfold State.strikeTimes State.source
  rw [h]

theorem keepsTable_of_same {s t : State} (ht : t.table = s.table) (hs : t.store.tables = s.store.tables) : KeepsTable s t := fun h =>
  ⟨by unfold TargetsDistinct; rw [ht]; exact h.targets, fun r hr hk => by
    rw [State.strikeTimes_of_tables hs]
    exact h.strokes r (ht ▸ hr) hk⟩

theorem keepsTable_of_only {s t : State} (k : Only (allBut [.store, .table]) s t) : KeepsTable s t :=
  keepsTable_of_same (k.field (by simp : Field.table ∈ _)) (congrArg Store.tables (k.field (by simp : Field.store ∈ _)))

theorem tableLaw_of_empty {s : State} (h : s.table = []) : TableLaw s :=
  ⟨by unfold TargetsDistinct; rw [h]; exact List.nodup_nil, fun r hr => by rw [h] at hr; cases hr⟩

/-- Records rewritten on their targets, with stroke records where times are known. -/
theorem keepsTable_map {s t : State} {f : Record → Record} (ht : t.table = s.table.map f) (hs : t.store.tables = s.store.tables)
    (hf : TableLaw s → ∀ r ∈ s.table, (f r).target = r.target ∧
      ((f r).stroke ≠ none → (s.strikeTimes (f r)).isSome = true ∧ ∃ a, r.target = .output a)) : KeepsTable s t := fun h => by
  refine ⟨?_, fun q hq hk => ?_⟩
  · refine h.targets.of_targets ?_
    rw [ht, List.map_map]
    exact List.map_congr_left fun r hr => (hf h r hr).1
  · rw [ht] at hq
    obtain ⟨r, hr, rfl⟩ := List.mem_map.1 hq
    obtain ⟨htarget, hstroke⟩ := hf h r hr
    rw [State.strikeTimes_of_tables hs, htarget]
    exact hstroke hk

theorem keepsTable_modRecord {s : State} {x : Target} {f : Record → Record}
    (hf : TableLaw s → ∀ r ∈ s.table, r.target = x → (f r).target = r.target ∧
      ((f r).stroke ≠ none → (s.strikeTimes (f r)).isSome = true ∧ ∃ a, r.target = .output a)) : KeepsTable s (s.modRecord x f) :=
  keepsTable_map (f := fun r => if r.target = x then f r else r) rfl rfl fun h r hr => by
    split
    next e => exact hf h r hr e
    · exact ⟨rfl, h.strokes r hr⟩

/-- A record that keeps its target, owner and stroke. -/
theorem keepsTable_recount {s : State} {x : Target} {r q : Record} (hr : s.record x = some r) (ht : q.target = r.target) (ho : q.owner = r.owner)
    (hk : q.stroke = r.stroke) : KeepsTable s (s.modRecord x fun _ => q) :=
  keepsTable_modRecord fun h p hp e => by
    obtain ⟨hm, hx⟩ := State.mem_of_record hr
    have times : s.strikeTimes q = s.strikeTimes r := by unfold State.strikeTimes; rw [ho]
    rw [ht, hx, e, hk, times, ← hx]
    exact ⟨rfl, h.strokes r hm⟩

/-- A stroke record written on an output with times. -/
theorem keepsTable_setStroke {s : State} {a : Addr} (ha : TableLaw s → ∀ r, s.record (.output a) = some r → (s.strikeTimes r).isSome = true)
    (k : Stroke) : KeepsTable s (s.setStroke a k) :=
  keepsTable_modRecord fun h r hr e => by
    refine ⟨rfl, fun _ => ⟨?_, a, e⟩⟩
    have := State.record_of_mem h.targets hr
    rw [e] at this
    exact ha h r this

theorem timed_of_stroke {s : State} (h : TableLaw s) {a : Addr} {k : Stroke} (hk : s.stroke a = some k) (r : Record)
    (hr : s.record (.output a) = some r) : (s.strikeTimes r).isSome = true := by
  refine (h.strokes r (State.mem_of_record hr).1 ?_).1
  unfold State.stroke at hk
  rw [hr, Option.bind_some] at hk
  rw [hk]
  simp

theorem keepsTable_cutStrokes (reached : Addr → Bool) (s : State) : KeepsTable s (cutStrokes reached s) :=
  keepsTable_map rfl rfl fun h r hr => by
    have e := cutRecord_eq s reached r
    have times : s.strikeTimes (cutRecord s reached r) = s.strikeTimes r := by rw [e]; rfl
    refine ⟨by rw [e], fun hk => ?_⟩
    rw [times]
    refine h.strokes r hr fun hn => hk ?_
    unfold cutRecord
    rw [hn]
    split
    next h0 _ => cases h0
    · exact hn

theorem keepsTable_startStroke (a : Addr) (s : State) : KeepsTable s (startStroke a s) := by
  unfold startStroke
  split
  next k hk =>
    have struck : KeepsTable s (s.setStroke a (.striking (s.now + k.stroke))) := keepsTable_setStroke (fun _ r hr => by
      unfold State.timesAt at hk
      rw [hr, Option.bind_some] at hk
      rw [hk]
      rfl) _
    exact fun h => keepsTable_of_same (s := s.setStroke a (.striking (s.now + k.stroke))) rfl rfl (struck h)
  · exact id

theorem relayed_keepsTable : Relayed (allBut [.store, .table]) KeepsTable where
  free := keepsTable_of_only
  trans := fun h k hs => k (h hs)
  bump := fun _ _ _ => keepsTable_of_same rfl rfl
  settle := fun _ => keepsTable_of_same rfl rfl
  start := fun s a => keepsTable_startStroke a s
  dequeue := fun _ _ => keepsTable_of_same rfl rfl
  join := fun _ _ _ _ => keepsTable_of_same rfl rfl
  reiterate := fun _ _ _ _ => keepsTable_of_same rfl rfl
  endReiteration := fun _ _ => keepsTable_of_same rfl rfl
  damper := fun _ _ _ => keepsTable_of_same rfl rfl
  joins := fun _ _ _ _ _ _ => keepsTable_of_same rfl rfl
  begins := fun _ _ _ _ _ _ _ _ => keepsTable_of_same rfl rfl
  steps := fun _ _ _ _ _ _ _ _ _ => keepsTable_of_same rfl rfl
  leaves := fun _ _ _ _ _ _ => keepsTable_of_same rfl rfl

/-- Counts rewritten on every record. -/
theorem keepsTable_recountAll {s t : State} {f : Record → Record} (ht : t.table = s.table.map f) (hs : t.store.tables = s.store.tables)
    (hf : ∀ r, (f r).target = r.target ∧ (f r).owner = r.owner ∧ (f r).stroke = r.stroke) : KeepsTable s t :=
  keepsTable_map ht hs fun h r hr => by
    obtain ⟨htarget, howner, hstroke⟩ := hf r
    have times : s.strikeTimes (f r) = s.strikeTimes r := by unfold State.strikeTimes; rw [howner]
    rw [htarget, hstroke, times]
    exact ⟨rfl, h.strokes r hr⟩

theorem cueDriven_keepsTable : CueDriven (allBut [.store, .table]) KeepsTable :=
  relayed_keepsTable.cueDriven (fun s l n => keepsTable_of_only (notify_only s l n).but) (by decide) (by decide) (by decide)
    (fun _ _ _ _ => keepsTable_of_same rfl rfl) (fun _ _ _ _ _ _ => keepsTable_of_same rfl rfl)
    (fun _ => keepsTable_recountAll rfl rfl fun _ => ⟨rfl, rfl, rfl⟩) (fun _ _ _ _ hr => keepsTable_recount hr rfl rfl rfl)

theorem countsMove_keepsTable (l : Link) : CountsMove l KeepsTable := fun s x r add hr =>
  keepsTable_recount hr (by cases l <;> rfl) (by cases l <;> rfl) (by cases l <;> rfl)

theorem keepsTable_silencedPart (s : State) : KeepsTable s (silencedPart s) := fun h => by
  have silenced : TableLaw { s with table := s.table.map Record.silenced } :=
    keepsTable_recountAll (s := s) rfl rfl (fun _ => ⟨rfl, rfl, rfl⟩) h
  refine keepsTable_map (s := { s with table := s.table.map Record.silenced }) (f := cutRecord s fun _ => true) ?_ ?_ ?_ silenced
  · rw [silencedPart_table, List.map_map]
    rfl
  · rw [(silencedPart_only s).store]
  · intro hl r hr
    have e := cutRecord_eq s (fun _ => true) r
    have times : s.strikeTimes (cutRecord s (fun _ => true) r) = s.strikeTimes r := by rw [e]; rfl
    refine ⟨by rw [e], fun hk => ?_⟩
    show (s.strikeTimes _).isSome = true ∧ _
    rw [times]
    refine hl.strokes r hr fun hn => hk ?_
    unfold cutRecord
    rw [hn]
    split
    next h0 _ => cases h0
    · exact hn

theorem keepsTable_dropStrikes (reached : Addr → Bool) (s : State) : KeepsTable s (dropStrikes reached s) :=
  fun h => keepsTable_cutStrokes reached _ (keepsTable_of_same (s := s) rfl rfl h)

theorem tableLaw_of_message {l : Link} {t v : State} {c : Instr} (h : MessageEffect l t c v) (hv : RestOutsideReady v) :
    KeepsTable t v := by
  have k := cueDriven_keepsTable
  have reached := Only.of_message h
  have resting : v.engine ≠ .ready → KeepsTable t v := fun hne _ => tableLaw_of_empty (hv.table hne)
  by_cases hp : CueDriven.playing c = true
  · exact k.message (by decide) (k.tabsTurn (by decide) (by decide)) countsMove_keepsTable h hp
  · cases h with
    | unchanged => exact k.refl t
    | discarded | ignored => exact k.bump _ _ _
    | specBegin | commit => exact resting (by unfold State.engine; simp [beginLoading])
    | divisions _ _ hl | sources _ _ hl | specStops _ _ hl | chambers _ _ hl | tremulants _ _ hl | ports _ _ hl | figures _ _ hl =>
      exact resting (by show t.engine ≠ _; rw [hl]; decide)
    | silence => exact k.silenceEffects (keepsTable_silencedPart t) _
    | disable p => exact fun h => keepsTable_dropStrikes _ _ (keepsTable_of_same (s := t) rfl rfl h)
    | _ => first
      | exact absurd rfl hp
      | exact keepsTable_of_only reached.but

theorem tableLaw_of_own {s v : State} {c : Instr} (h : OwnEffect s c v) (hv : RestOutsideReady v) : KeepsTable s v := by
  have k := cueDriven_keepsTable
  have reached := Only.of_own h
  cases h with
  | powerOn | reset => exact fun _ => tableLaw_of_empty rfl
  | loss l =>
    exact k.loseLink (k.emptiedLink (countsMove_keepsTable l) (by decide) (by decide) (k.tabsTurn (by decide) (by decide) l) s)
      fun t _ _ _ => tableLaw_of_empty rfl
  | sent l => exact keepsTable_of_only (endTransmission_only l s).but
  | passed _ hc =>
    refine fun _ => ⟨?_, fun r hm hk => ?_⟩
    · unfold TargetsDistinct
      rw [enterReady_table]
      exact demandTable_targets_nodup hc
    · rw [enterReady_table] at hm
      rw [State.strikeTimes_of_tables (s := s) (by rw [enterReady_store])]
      exact demandTable_timed hm hk
  | failed f => exact keepsTable_of_same rfl rfl
  | struck a e n hk => exact keepsTable_setStroke (fun h => timed_of_stroke h hk) _
  | rested a c x _ hk => exact keepsTable_setStroke (fun h => timed_of_stroke h hk) _
  | reiterated a n => exact k.trans (keepsTable_of_same (t := rearm a n s) rfl rfl) (k.requestStrike a _)
  | stepped p run => exact k.endStep (keepsTable_of_same rfl rfl) run
  | tripped p pt e =>
    obtain ⟨u, n, hu, e⟩ := tripPort_parts p e pt s
    rw [e]
    exact fun h => keepsTable_dropStrikes _ _ (k.notifyAll n u (keepsTable_of_only hu.but h))
  | supplyFell => exact fun h => k.notifyAll _ _ (keepsTable_dropStrikes _ _ (keepsTable_of_same (s := s) rfl rfl h))
  | dwelling => exact keepsTable_of_same rfl rfl
  | record =>
    exact k.takeCurrent fun i r _ => ⟨fun n _ => keepsTable_of_same rfl rfl, fun c p _ => keepsTable_of_only (writeChannel_only c p s).but⟩
  | waited => exact k.completeCurrent s
  | _ => exact keepsTable_of_only reached.but

theorem RestOutsideReady.of_addPlace {l : Link} {p : Place} {v : State} (h : RestOutsideReady (addPlace l p v)) : RestOutsideReady v :=
  h.of_only (fs := [.links]) (fun f hf => by
    have := addPlace_only l p v f hf
    cases f <;> exact this.symm) (by decide)

theorem Effect.tableLaw {s u : State} {c : Instr} (h : Effect c s u) (hu : RestOutsideReady u) : KeepsTable s u := by
  have head : ∀ l, KeepsTable s (takeHead l s) := fun l => keepsTable_of_only (takeHead_only l s).but
  cases h with
  | played l m v _ hv => exact fun hs => tableLaw_of_message hv hu (head l hs)
  | answered l m p v _ _ hv =>
    exact fun hs => keepsTable_of_only (addPlace_only l p v).but (tableLaw_of_message hv hu.of_addPlace (head l hs))
  | own v hv => exact tableLaw_of_own hv hu

/-! ## Tremulants (R104, R106) -/

def KeepsTremulants (s t : State) : Prop := TremulantLaw s → TremulantLaw t

theorem State.tremulant_of_tables {s t : State} (h : t.store.tables = s.store.tables) (j : Nat) : t.tremulant j = s.tremulant j := by
  unfold State.tremulant
  rw [h]

theorem State.demanded_of_tabs {s t : State} (hg : t.generators = s.generators) (hs : t.store = s.store)
    (hr : ∀ l, (t.reg l).tabs = (s.reg l).tabs) (j : Nat) : t.demanded j = s.demanded j := by
  unfold State.demanded State.ready State.generator
  rw [hg, hs, hr, hr]

theorem keepsTremulants_of_tabs {s t : State} (hg : t.generators = s.generators) (hs : t.store = s.store)
    (hr : ∀ l, (t.reg l).tabs = (s.reg l).tabs) : KeepsTremulants s t := fun h => by
  have gen : ∀ j, t.generator j = s.generator j := fun j => by unfold State.generator; rw [hg]
  have trem := State.tremulant_of_tables (congrArg Store.tables hs)
  refine ⟨fun j x hx hj => ?_, fun j hx => ?_⟩
  · rw [gen, State.demanded_of_tabs hg hs hr]
    exact h.present j x (trem j ▸ hx) (hg ▸ hj)
  · rw [gen]
    exact h.absent j (trem j ▸ hx)

theorem keepsTremulants_of_only {s t : State} (k : Only (allBut [.store, .regs, .generators]) s t) : KeepsTremulants s t :=
  keepsTremulants_of_tabs (k.field (by simp : Field.generators ∈ _)) (k.field (by simp : Field.store ∈ _)) fun l => by
    rw [State.reg_of_regs (k.field (by simp : Field.regs ∈ _))]

/-- A registration block rewritten without a change of its tabs. -/
theorem keepsTremulants_of_rewrites {l : Link} {f : Registration → Registration} {fs : List Field} {s t : State} (h : Rewrites l f s t)
    (hf : (f (s.reg l)).tabs = (s.reg l).tabs) (k : Only fs s t) (hg : Field.generators ∉ fs := by decide) (hs : Field.store ∉ fs := by decide) :
    KeepsTremulants s t :=
  keepsTremulants_of_tabs (k.generators hg) (k.store hs) fun m => by
    by_cases hm : m = l
    · subst hm
      rw [h.reg_same, hf]
    · rw [h.reg_of_ne hm]

/-- Generators that follow their demand, the absent ones standing. -/
theorem keepsTremulants_of_follow {s t : State} (g : GeneratorsFollow s t) (ht : t.store.tables = s.store.tables)
    (hl : t.generators.length = s.generators.length)
    (ha : ∀ j, s.tremulant j = none → (s.generator j).phase = .off → (t.generator j).phase = .off) : KeepsTremulants s t := fun h =>
  ⟨h.followed g ht hl, fun j hx => by
    rw [State.tremulant_of_tables ht] at hx
    exact ha j hx (h.absent j hx)⟩

theorem judgeDemand_absent {s : State} {before : Bool} {j i : Nat} (hx : s.tremulant i = none) (hp : (s.generator i).phase = .off) :
    ((judgeDemand before j s).generator i).phase = .off := by
  by_cases hij : i = j
  · subst hij
    unfold judgeDemand
    rw [hx]
    split
    · exact hp
    · split
      · rw [State.generator_modGenerator]
        split
        · rfl
        · exact hp
      · exact hp
  · rw [judgeDemand_of_ne hij]
    exact hp

theorem setTab_absent {l : Link} {j i : Nat} {on : Bool} {s : State} (hx : s.tremulant i = none) (hp : (s.generator i).phase = .off) :
    ((setTab l j on s).generator i).phase = .off := by
  unfold setTab
  split
  · exact hp
  · unfold withDemandJudged
    exact judgeDemand_absent hx hp

theorem setCueFlag_absent {j i : Nat} {on : Bool} {s : State} (hx : s.tremulant i = none) (hp : (s.generator i).phase = .off) :
    ((setCueFlag j on s).generator i).phase = .off := by
  unfold setCueFlag withDemandJudged
  refine judgeDemand_absent hx ?_
  rw [State.generator_modGenerator]
  split <;> exact hp

theorem keepsTremulants_setTab (l : Link) : TabsTurn l KeepsTremulants := fun s j on =>
  keepsTremulants_of_follow (setTab_generatorsFollow l j on s) (congrArg Store.tables (setTab_only l j on s).store) (setTab_length l j on s)
    fun _ => setTab_absent

theorem keepsTremulants_setCueFlag (s : State) (j : Nat) (on : Bool) : KeepsTremulants s (setCueFlag j on s) :=
  keepsTremulants_of_follow (setCueFlag_generatorsFollow j on s) (congrArg Store.tables (setCueFlag_only j on s).store)
    (setCueFlag_length j on s) fun _ => setCueFlag_absent

theorem relayed_keepsTremulants : Relayed (allBut [.store, .regs, .generators]) KeepsTremulants where
  free := keepsTremulants_of_only
  trans := fun h k hs => k (h hs)
  bump := fun s n c => keepsTremulants_of_only (bumpBy_only s n c).but
  settle := fun s => keepsTremulants_of_only (settle_only s).but
  start := fun s a => keepsTremulants_of_only (startStroke_only a s).but
  dequeue := fun s a => keepsTremulants_of_only (dequeue_only a s).but
  join := fun s _ _ _ => keepsTremulants_of_only (sched_only s fun x => { x with queue := x.queue ++ _ }).but
  reiterate := fun s _ _ _ => keepsTremulants_of_only (sched_only s fun x => { x with reiterations := x.reiterations ++ _ }).but
  endReiteration := fun s a => keepsTremulants_of_only (endReiteration_only a s).but
  damper := fun s i f => keepsTremulants_of_only (modDamper_only s i f).but
  joins := fun s p _ _ _ _ => keepsTremulants_of_only (setPlayer_only s p _).but
  begins := fun s p _ _ _ _ _ _ => keepsTremulants_of_only (setPlayer_only s p _).but
  steps := fun s p _ _ _ _ _ _ _ => keepsTremulants_of_only (setPlayer_only s p _).but
  leaves := fun s p _ _ _ _ => keepsTremulants_of_only (setPlayer_only s p _).but

theorem cueDriven_keepsTremulants : CueDriven (allBut [.store, .regs, .generators]) KeepsTremulants :=
  { relayed_keepsTremulants with
    joinsCue := fun s p _ _ => keepsTremulants_of_only (setPlayer_only s p _).but
    beginsCue := fun s p _ _ _ _ => keepsTremulants_of_only (setPlayer_only s p _).but
    notify := fun s l n => keepsTremulants_of_only (notify_only s l n).but
    mark := fun s i st => keepsTremulants_of_only (markRecord_only i st s).but
    modCue := fun s f => keepsTremulants_of_only (modCue_only s f).but
    cueFlag := keepsTremulants_setCueFlag
    withoutCue := fun s => keepsTremulants_of_only (table_only s _).but
    countCue := fun s x _ _ _ => keepsTremulants_of_only (modRecord_only s x _).but }

/-! ### The registration blocks -/

theorem Registration.taken_tabs (r : Registration) : r.taken.tabs = r.tabs := by
  unfold Registration.taken
  split <;> rfl

theorem keepsTremulants_drawStop (l : Link) (i : Nat) (s : State) : KeepsTremulants s (drawStop l i s) :=
  keepsTremulants_of_rewrites (drawStop_rewrites_any l s i) (by unfold State.drawing; split <;> rfl) (drawStop_only l i s)

theorem keepsTremulants_cancelStop (l : Link) (i : Nat) (s : State) : KeepsTremulants s (cancelStop l i s) :=
  keepsTremulants_of_rewrites (cancelStop_rewrites_any l s i) (by unfold State.cancelling; split <;> rfl) (cancelStop_only l i s)

theorem keepsTremulants_requestTransposition (l : Link) (v : Int) (s : State) : KeepsTremulants s (requestTransposition l v s) :=
  keepsTremulants_of_rewrites (requestTransposition_rewrites l v s) (Registration.taken_tabs _) (requestTransposition_only l v s)

theorem keepsTremulants_releaseKeys (l : Link) (s : State) : KeepsTremulants s (releaseKeys l s) :=
  keepsTremulants_of_rewrites (releaseKeys_rewrites l s) (s.reg l).lifted_keeps.2.1 (releaseKeys_only l s)

theorem keepsTremulants_takeTransposition (l : Link) (s : State) : KeepsTremulants s (takeTransposition l s) :=
  keepsTremulants_of_rewrites (takeTransposition_rewrites l s) (Registration.taken_tabs _) (takeTransposition_only l s)

theorem keepsTremulants_keyEntry (l : Link) (d : Nat) (s : State) (e : Nat × Level) : KeepsTremulants s (keyEntry l d s e) :=
  keepsTremulants_of_rewrites (keyEntry_rewrites l d s e) (by
    unfold State.keyed
    split
    · split
      · exact Registration.taken_tabs _
      · rfl
    · rfl) (keyEntry_only l d s e)

theorem keepsTremulants_stopEntry (l : Link) (s : State) (e : Nat × Option Bool) : KeepsTremulants s (stopEntry l s e) :=
  keepsTremulants_of_rewrites (stopEntry_rewrites l s e) (by
    unfold State.stopped
    split
    · split
      · rfl
      · split <;> rfl
    all_goals rfl) (stopEntry_only l s e)

theorem keepsTremulants_replaceRegistration (l : Link) (b : RegistrationBody) (s : State) : KeepsTremulants s (replaceRegistration l b s) := by
  have k := relayed_keepsTremulants
  unfold replaceRegistration
  dsimp only
  refine k.trans ?_ (keepsTremulants_requestTransposition l _ _)
  refine k.trans ?_ (k.foldl (fun t j => keepsTremulants_setTab l t j _) _ _)
  refine k.trans ?_ (k.foldl (fun t i => keepsTremulants_cancelStop l i t) _ _)
  refine k.trans ?_ (k.foldl (fun t i => keepsTremulants_drawStop l i t) _ _)
  exact k.bump _ _ _

theorem keepsTremulants_modReg {s : State} {l : Link} {f : Registration → Registration} (hf : (f (s.reg l)).tabs = (s.reg l).tabs) :
    KeepsTremulants s (s.modReg l f) :=
  keepsTremulants_of_rewrites (rewrites_modReg l f s) hf (modReg_only s l f)

theorem keepsTremulants_emptiedLink (l : Link) (s : State) : KeepsTremulants s (emptiedLink l s) := by
  have k := relayed_keepsTremulants
  have links : ∀ (f : LinkIf → LinkIf) t, KeepsTremulants t (t.modLink l f) := fun f t => keepsTremulants_of_only (modLink_only t l f).but
  unfold emptiedLink
  dsimp only
  refine k.trans ?_ (links _ _)
  refine k.trans ?_ (k.removeOwnerEverywhere _ _)
  refine k.trans ?_ (keepsTremulants_modReg rfl)
  refine k.trans ?_ (k.foldl (fun t j => keepsTremulants_setTab l t j false) _ _)
  exact k.trans (k.trans (links _ _) (keepsTremulants_releaseKeys l _)) (keepsTremulants_modReg rfl)

theorem keepsTremulants_silencedPart (s : State) : KeepsTremulants s (silencedPart s) := by
  have only := silencedPart_only s
  refine keepsTremulants_of_tabs only.generators only.store fun l => ?_
  have counted := rewriteCounts_only Record.silenced s
  have quieted : ∀ r q : Registration, r = q → r.quieted.tabs = q.tabs := fun r q e => by
    rw [e]
    rfl
  cases l with
  | one => exact quieted _ _ (State.reg_of_regs counted.regs .one)
  | two =>
    refine quieted (((rewriteCounts Record.silenced s).modReg .one Registration.quieted).reg .two) _ ?_
    rw [State.reg_modReg_of_ne _ (by decide)]
    exact State.reg_of_regs counted.regs .two

/-! ### Every event -/

/-- With every generator at rest and no tab on, none is demanded (R104). -/
theorem tremulantLaw_of_rest {s : State} (hg : ∀ g ∈ s.generators, g = { phase := .off, cueFlag := false })
    (hr : ∀ l, s.reg l = Registration.empty) : TremulantLaw s := by
  have off : ∀ j, s.generator j = { phase := .off, cueFlag := false } := fun j => by
    unfold State.generator
    cases h : s.generators[j]? with
    | none => rfl
    | some g => exact hg g (List.mem_of_getElem? h)
  have undemanded : ∀ j, s.demanded j = false := fun j => by
    have untabbed : ∀ l, (s.reg l).tabs = [] := fun l => congrArg Registration.tabs (hr l)
    unfold State.demanded
    rw [untabbed, untabbed, off]
    simp
  exact ⟨fun j x _ _ => by rw [off, undemanded]; simp, fun j _ => by rw [off]⟩

theorem RestOutsideReady.tremulantLaw {s : State} (h : RestOutsideReady s) (he : s.engine ≠ .ready) : TremulantLaw s :=
  tremulantLaw_of_rest (h.generators he) (h.registrations he)

theorem keepsTremulants_of_message {l : Link} {t v : State} {c : Instr} (h : MessageEffect l t c v) (hv : RestOutsideReady v) :
    KeepsTremulants t v := by
  have k := cueDriven_keepsTremulants
  have reached := Only.of_message h
  have resting : v.engine ≠ .ready → KeepsTremulants t v := fun hne _ => hv.tremulantLaw hne
  cases h with
  | unchanged => exact k.refl t
  | discarded | ignored => exact k.bump _ _ _
  | keys d es => exact k.foldl (keepsTremulants_keyEntry l d) es t
  | stops es => exact k.foldl (keepsTremulants_stopEntry l) es t
  | tabs es => exact k.foldl (k.tabEntry (keepsTremulants_setTab l)) es t
  | registration b => exact keepsTremulants_replaceRegistration l b t
  | transpose x => exact keepsTremulants_requestTransposition l x t
  | release => exact k.trans (keepsTremulants_releaseKeys l t) (keepsTremulants_takeTransposition l _)
  | go => exact k.takeGo t
  | cueResume sub => exact k.resumeCue l sub t
  | cueAbort => exact k.abortCue t
  | figureStart f => exact k.startFigure (by simp) f t
  | figureStop f => exact k.removeFigureOwner _ f t
  | figureSync figures => exact k.foldl (k.syncPlayer figures) _ t
  | specBegin | commit => exact resting (by unfold State.engine; simp [beginLoading])
  | divisions _ _ hl | sources _ _ hl | specStops _ _ hl | chambers _ _ hl | tremulants _ _ hl | ports _ _ hl | figures _ _ hl =>
    exact resting (by show t.engine ≠ _; rw [hl]; decide)
  | silence => exact k.silenceEffects (keepsTremulants_silencedPart t) _
  | _ => exact keepsTremulants_of_only reached.but

theorem keepsTremulants_turned {s : State} {j : Nat} {phase : Phase} {x : Tremulant} (hx : s.tremulant j = some x)
    (hp : (s.generator j).phase ≠ .off) (hn : phase ≠ .off) : KeepsTremulants s (s.modGenerator j fun g => { g with phase := phase }) := fun h => by
  have gen := s.generator_modGenerator j
  have flags : ∀ i, ((s.modGenerator j fun g => { g with phase := phase }).generator i).cueFlag = (s.generator i).cueFlag := fun i => by
    rw [gen]
    split <;> rfl
  have demanded : ∀ i, (s.modGenerator j fun g => { g with phase := phase }).demanded i = s.demanded i := fun i => by
    unfold State.demanded
    rw [flags]
    rfl
  refine ⟨fun i y hy hi => ?_, fun i hy => ?_⟩
  · rw [demanded, gen]
    split
    next e =>
      have law := h.present j x hx e.2
      rw [e.1]
      exact ⟨fun h0 => absurd h0 hn, fun h0 => absurd (law.2 h0) hp⟩
    · exact h.present i y hy (by simpa [State.modGenerator] using hi)
  · rw [gen]
    split
    next e => rw [e.1] at hy; cases hx.symm.trans hy
    · exact h.absent i hy

theorem keepsTremulants_of_own {s v : State} {c : Instr} (h : OwnEffect s c v) (hs : RestOutsideReady s) (hv : RestOutsideReady v) :
    KeepsTremulants s v := by
  have k := cueDriven_keepsTremulants
  have reached := Only.of_own h
  have resting : v.engine ≠ .ready → KeepsTremulants s v := fun hne _ => hv.tremulantLaw hne
  cases h with
  | powerOn | reset => exact resting (fun e => by cases e)
  | failed => exact resting (by unfold State.engine; simp [failCheck, fillReservation])
  | loss l =>
    exact k.loseLink (keepsTremulants_emptiedLink l s) fun t _ _ _ => tremulantLaw_of_rest (resting_resetPart l false t).generators
      (resting_resetPart l false t).registrations
  | sent l => exact keepsTremulants_of_only (endTransmission_only l s).but
  | passed hc =>
    have only := enterReady_only s
    have rest := restOutsideReady_iff.1 hs (by rw [hc]; decide)
    exact fun _ => tremulantLaw_of_rest (by rw [only.generators]; exact rest.generators) fun l => by
      rw [State.reg_of_regs only.regs]
      exact rest.registrations l
  | rested a => exact keepsTremulants_of_only (setStroke_only s a _).but
  | turned j x phase hx hp hn => exact keepsTremulants_turned hx hp hn
  | dwelling c d => exact keepsTremulants_of_only (supply_only s fun x => { x with dwell := d }).but
  | record =>
    exact k.takeCurrent fun i r _ => ⟨fun n _ => keepsTremulants_of_only (figures_only s fun x => { x with tempo := n }).but,
      fun c p _ => keepsTremulants_of_only (writeChannel_only c p s).but⟩
  | waited => exact k.completeCurrent s
  | _ => exact keepsTremulants_of_only reached.but

theorem Effect.keepsTremulants {s u : State} {c : Instr} (h : Effect c s u) (hr : RestOutsideReady s) (hu : RestOutsideReady u) :
    KeepsTremulants s u := by
  have head : ∀ l, KeepsTremulants s (Machine.takeHead l s) := fun l => keepsTremulants_of_only (takeHead_only l s).but
  cases h with
  | played l m v _ hv => exact fun hs => keepsTremulants_of_message hv hu (head l hs)
  | answered l m p v _ _ hv =>
    exact fun hs => keepsTremulants_of_only (addPlace_only l p v).but (keepsTremulants_of_message hv hu.of_addPlace (head l hs))
  | own v hv => exact keepsTremulants_of_own hv hr hu

theorem exec_keepsTableLaw {c : Instr} {s t : State} (h : exec c s = .next t) (hr : RestOutsideReady s) : KeepsTable s t := by
  rcases exec_effect h with rfl | ⟨serve, u, hu, rfl⟩
  · exact id
  · exact fun hs => relayed_keepsTable.finish (by decide) serve u (hu.tableLaw (hu.restOutsideReady hr) hs)

theorem exec_keepsTremulants {c : Instr} {s t : State} (h : exec c s = .next t) (hr : RestOutsideReady s) : KeepsTremulants s t := by
  rcases exec_effect h with rfl | ⟨serve, u, hu, rfl⟩
  · exact id
  · exact fun hs => relayed_keepsTremulants.finish (by decide) serve u (hu.keepsTremulants hr (hu.restOutsideReady hr) hs)

/-- Settles O14. -/
theorem everyStepKeepsTheRestOutsideReady : Obligations.EveryStepKeepsTheRestOutsideReady := fun s t h => by
  rcases step_comes h with rfl | ⟨c, rest, he⟩
  · have only := tick_only s
    exact ⟨fun ⟨hr, ht, hs⟩ => ⟨hr.of_only only (by decide), keepsTable_of_only only.but ⟨ht, hs⟩ |>.targets,
      keepsTable_of_only only.but ⟨ht, hs⟩ |>.strokes⟩, fun ⟨_, ht⟩ => keepsTremulants_of_only only.but ht⟩
  · have only := pending_only s rest
    refine ⟨fun ⟨hr, ht, hs⟩ => ?_, fun ⟨hr, ht⟩ => exec_keepsTremulants he (hr.of_only only (by decide)) (keepsTremulants_of_only only.but ht)⟩
    have hr' := hr.of_only only (by decide)
    obtain ⟨targets, strokes⟩ := exec_keepsTableLaw he hr' (keepsTable_of_only only.but ⟨ht, hs⟩)
    exact ⟨exec_restOutsideReady he hr', targets, strokes⟩

end Sys2Proof.Machine
end

