-- ==== Sys2Proof/Proofs/Counting.lean ====
section
/-! PROOF. The counting of claims (02 R28, R30; 03 R53): what a claim handed over does to a record's counts, and what a key's change of level, a
stop drawn and a stop cancelled come to. Reports of onsets and releases change strokes at most, so counts are followed on records without
their stroke states. -/

namespace Sys2Proof.Machine

-- One theorem after another, so that the compile needs few threads.
set_option Elab.async false

/-! ## Records without their stroke states -/

/-- The record without its stroke state: what it stands for and what counts on it. -/
def Record.bare (r : Record) : Record := { r with stroke := none }

/-- The record of a target, without its stroke state. -/
def State.bare (s : State) (x : Target) : Option Record := (s.record x).map Record.bare

theorem State.bare_of_table {s t : State} (h : t.table = s.table) (x : Target) : t.bare x = s.bare x := by
  unfold State.bare State.record
  rw [h]

theorem State.record_of_bare {s t : State} {x : Target} {r : Record} {f : Record → Record} (h : t.bare x = (s.bare x).map f)
    (hr : s.record x = some r) : ∃ r', t.record x = some r' ∧ r'.bare = f r.bare := by
  unfold State.bare at h
  rw [hr] at h
  obtain ⟨r', hr', e⟩ := Option.map_eq_some_iff.1 h
  exact ⟨r', hr', e⟩

/-- One record put in another's place. -/
theorem State.record_modRecord_const (s : State) {x : Target} {q : Record} (hq : q.target = x) (y : Target) :
    (s.modRecord x fun _ => q).record y = if y = x then (s.record x).map fun _ => q else s.record y := by
  have e : (s.modRecord x fun _ => q) = s.modRecord x fun r => { q with target := r.target } := by
    unfold State.modRecord
    congr 1
    refine List.map_congr_left fun r _ => ?_
    split
    next h =>
      have : r.target = q.target := h.trans hq.symm
      show q = { q with target := r.target }
      rw [this]
    · rfl
  rw [e, s.record_modRecord x y (f := fun r => { q with target := r.target }) fun _ => rfl]
  split
  next h =>
    subst h
    cases hr : s.record y with
    | none => rfl
    | some r =>
      have := (State.mem_of_record hr).2
      rw [Option.map_some, Option.map_some, this, ← hq]
  · rfl

/-- Nothing but stroke states changes in the table. -/
def BareSame (s t : State) : Prop := t.table.map Record.bare = s.table.map Record.bare

theorem BareSame.bare {s t : State} (h : BareSame s t) (x : Target) : t.bare x = s.bare x := by
  have find : ∀ u : State, u.bare x = (u.table.map Record.bare).find? fun r => decide (r.target = x) := fun u => by
    unfold State.bare State.record
    rw [List.find?_map]
    rfl
  rw [find, find, h]

theorem bareSame_of_only {s t : State} (k : Only (allBut [.table]) s t) : BareSame s t := by
  unfold BareSame
  rw [k.field (by simp : Field.table ∈ _)]

theorem bareSame_setStroke (s : State) (a : Addr) (k : Stroke) : BareSame s (s.setStroke a k) := by
  unfold BareSame State.setStroke State.modRecord
  rw [List.map_map]
  refine List.map_congr_left fun r _ => ?_
  rw [Function.comp]
  split <;> rfl

theorem relayed_bareSame : Relayed (allBut [.table]) BareSame where
  free := bareSame_of_only
  trans := fun h k => Eq.trans k h
  bump := fun s n c => bareSame_of_only (bumpBy_only s n c).but
  settle := fun s => bareSame_of_only (settle_only s).but
  start := fun s a => by
    unfold startStroke
    split
    next k _ => exact bareSame_setStroke s a (.striking (s.now + k.stroke))
    · rfl
  dequeue := fun s a => bareSame_of_only (dequeue_only a s).but
  join := fun s _ _ _ => bareSame_of_only (sched_only s fun x => { x with queue := x.queue ++ _ }).but
  reiterate := fun s _ _ _ => bareSame_of_only (sched_only s fun x => { x with reiterations := x.reiterations ++ _ }).but
  endReiteration := fun s a => bareSame_of_only (endReiteration_only a s).but
  damper := fun s i f => bareSame_of_only (modDamper_only s i f).but
  joins := fun s p _ _ _ _ => bareSame_of_only (setPlayer_only s p _).but
  begins := fun s p _ _ _ _ _ _ => bareSame_of_only (setPlayer_only s p _).but
  steps := fun s p _ _ _ _ _ _ _ => bareSame_of_only (setPlayer_only s p _).but
  leaves := fun s p _ _ _ _ => bareSame_of_only (setPlayer_only s p _).but

/-! ## A claim handed over (R53) -/

theorem Record.countLink_bare (l : Link) (add : Bool) (r : Record) : (r.countLink l add).bare = r.bare.countLink l add := by cases l <;> rfl

theorem Record.countLink_target (l : Link) (add : Bool) (r : Record) : (r.countLink l add).target = r.target := by cases l <;> rfl

/-- The counts of a target's record, rewritten. -/
theorem countClaim_bare {x : Target} {f : Record → Record} (hf : ∀ r, (f r).target = r.target) (hb : ∀ r, (f r).bare = f r.bare) (s : State)
    (y : Target) : (countClaim x f s).bare y = if y = x then (s.bare x).map f else s.bare y := by
  unfold countClaim
  cases hr : s.record x with
  | none =>
    by_cases h : y = x
    · subst h
      simp [State.bare, hr]
    · rw [if_neg h]
  | some r =>
    have htarget : (f r).target = x := (hf r).trans (State.mem_of_record hr).2
    dsimp only
    rw [(relayed_bareSame.reportChange r (f r) _).bare]
    unfold State.bare
    rw [s.record_modRecord_const htarget, hr]
    split
    · simp [hb]
    · rfl

/-- Claims handed over, one after another, with the reports they lead to: how often the target's record counts them. -/
theorem handClaim_bare (l : Link) (add : Bool) (st : Stop) (k : Nat) (s : State) (x : Target) :
    (handClaim l add st k s).bare x =
      if s.resolve st k (s.reg l).effective = some x then (s.bare x).map (Record.countLink l add) else s.bare x := by
  unfold handClaim
  cases h : s.resolve st k (s.reg l).effective with
  | none => simp
  | some y =>
    dsimp only
    rw [countClaim_bare (Record.countLink_target l add) (Record.countLink_bare l add)]
    by_cases e : x = y
    · subst e
      simp
    · rw [if_neg e, if_neg fun h => e (Option.some.inj h).symm]

theorem State.resolve_of_tables {s t : State} (h : t.store.tables = s.store.tables) (st : Stop) (k : Nat) (v : Int) :
    t.resolve st k v = s.resolve st k v := by
  unfold State.resolve State.source
  rw [h]

/-- A record whose link count has moved by a number of additions, or of removals. -/
def Record.moved (l : Link) (add : Bool) (n : Nat) (r : Record) : Record :=
  match l with
  | .one => { r with link1 := if add then r.link1 + n else r.link1 - n }
  | .two => { r with link2 := if add then r.link2 + n else r.link2 - n }

theorem Record.moved_zero (l : Link) (add : Bool) : Record.moved l add 0 = id := by
  funext r
  cases l <;> cases add <;> rfl

theorem Record.moved_succ (l : Link) (add : Bool) (n : Nat) (r : Record) : (r.countLink l add).moved l add n = r.moved l add (n + 1) := by
  cases l <;> cases add <;> simp [Record.moved, Record.countLink, Nat.add_right_comm, Nat.add_assoc, Nat.sub_sub, Nat.add_comm 1]

theorem Record.moved_linkCount (l : Link) (add : Bool) (n : Nat) (r : Record) :
    (r.moved l add n).linkCount l = if add then r.linkCount l + n else r.linkCount l - n := by cases l <;> rfl

theorem Record.moved_other (l : Link) (add : Bool) (n : Nat) (r : Record) :
    (r.moved l add n).linkCount (otherLink l) = r.linkCount (otherLink l) := by cases l <;> rfl

theorem Record.moved_cue (l : Link) (add : Bool) (n : Nat) (r : Record) : (r.moved l add n).cue = r.cue := by cases l <;> rfl

theorem Record.moved_owner (l : Link) (add : Bool) (n : Nat) (r : Record) : (r.moved l add n).owner = r.owner := by cases l <;> rfl

/-- Steps that each count once, or not at all, as a test of what does not change says. -/
theorem foldl_moved {α : Type} {l : Link} {add : Bool} {x : Target} {g : State → α → State} {p : α → Bool}
    (hg : ∀ t e, (g t e).regs = t.regs ∧ (g t e).store = t.store) {s : State}
    (hp : ∀ t e, t.regs = s.regs → t.store = s.store → (g t e).bare x = if p e then (t.bare x).map (Record.countLink l add) else t.bare x) :
    ∀ (es : List α) (t : State), t.regs = s.regs → t.store = s.store →
      (es.foldl g t).bare x = (t.bare x).map (Record.moved l add (es.filter p).length)
  | [], t, _, _ => by rw [List.filter_nil, List.length_nil, Record.moved_zero, Option.map_id]; rfl
  | e :: es, t, hr, hs => by
    obtain ⟨er, est⟩ := hg t e
    rw [List.foldl_cons, foldl_moved hg hp es (g t e) (er.trans hr) (est.trans hs), hp t e hr hs, List.filter_cons]
    split
    · rw [Option.map_map, List.length_cons]
      congr 1
      funext r
      exact Record.moved_succ l add _ r
    · rfl

/-! ## A key's change of level (R28) -/

/-- A stop comes to sound a key of its division, at a level that it admits from one that it does not. -/
def State.sounds (s : State) (l : Link) (d k : Nat) (x : Target) (comes goes : Level) (i : Nat) : Bool :=
  match s.stop i with
  | some st => decide (st.division = d) && st.touch.admits comes && !st.touch.admits goes &&
      decide (s.resolve st k (s.reg l).effective = some x)
  | none => false

/-- A touch that admits a level admits every higher one (R26): a change of level only adds, or only removes. -/
theorem Touch.admits_one_way (a b : Level) :
    (∀ t : Touch, (t.admits b && !t.admits a) = false) ∨ ∀ t : Touch, (t.admits a && !t.admits b) = false := by
  cases a <;> cases b <;> first
    | (left; intro t; cases t <;> rfl)
    | (right; intro t; cases t <;> rfl)

theorem changeUnderStop_bare (l : Link) (d k : Nat) (a b : Level) (s : State) (i : Nat) (x : Target) :
    (changeUnderStop l d k a b s i).bare x =
      if s.sounds l d k x b a i then (s.bare x).map (Record.countLink l true)
      else if s.sounds l d k x a b i then (s.bare x).map (Record.countLink l false) else s.bare x := by
  unfold changeUnderStop State.sounds
  cases s.stop i with
  | none => rfl
  | some st =>
    dsimp only
    by_cases hd : st.division = d
    · rw [if_pos hd]
      by_cases hb : st.touch.admits b = true <;> by_cases ha : st.touch.admits a = true <;> simp [hd, hb, ha, handClaim_bare]
    · simp [hd]

theorem State.sounds_of_admits {s : State} {l : Link} {d k : Nat} {x : Target} {a b : Level} (h : ∀ t : Touch, (t.admits b && !t.admits a) = false)
    (i : Nat) : s.sounds l d k x b a i = false := by
  unfold State.sounds
  split
  next st _ =>
    have := h st.touch
    cases hb : st.touch.admits b <;> cases ha : st.touch.admits a <;> simp_all
  · rfl

theorem State.sounds_congr {s t : State} (hr : t.regs = s.regs) (hs : t.store = s.store) (l : Link) (d k : Nat) (x : Target) (a b : Level) :
    t.sounds l d k x a b = s.sounds l d k x a b := by
  funext i
  unfold State.sounds
  rw [State.stop_of_store hs]
  split
  next st _ => rw [State.resolve_of_tables (congrArg Store.tables hs), State.reg_of_regs hr]
  · rfl

/-- The drawn stops that come to sound a key, at a level, that they did not at another. -/
def State.sounding (s : State) (l : Link) (d k : Nat) (x : Target) (comes goes : Level) : List Nat :=
  (s.reg l).stops.filter (s.sounds l d k x comes goes)

/-- A key's change of level moves a record's count by the drawn stops that come to sound it, or by those that cease to (R28). -/
theorem setKey_bare (l : Link) (d k : Nat) (b : Level) (s : State) (x : Target) :
    let a := (s.reg l).level d k
    (setKey l d k b s).bare x =
      (s.bare x).map (Record.moved l false (s.sounding l d k x a b).length ∘ Record.moved l true (s.sounding l d k x b a).length) ∧
    (s.sounding l d k x a b = [] ∨ s.sounding l d k x b a = []) := by
  intro a
  have hg : ∀ t i, (changeUnderStop l d k a b t i).regs = t.regs ∧ (changeUnderStop l d k a b t i).store = t.store := fun t i =>
    ⟨(changeUnderStop_only l d k a b t i).regs, (changeUnderStop_only l d k a b t i).store⟩
  let pressed := s.modReg l fun r => { r with keys := r.keys.set (keyPlace d k) b }
  have effective : (pressed.reg l).effective = (s.reg l).effective := by rw [State.reg_modReg_same]
  have same : ∀ p q, pressed.sounds l d k x p q = s.sounds l d k x p q := fun p q => by
    funext i
    unfold State.sounds
    rw [effective]
    rfl
  have start : pressed.bare x = s.bare x := rfl
  have silent : ∀ {p q : Level}, (∀ t : Touch, (t.admits p && !t.admits q) = false) → s.sounding l d k x p q = [] := fun h =>
    List.filter_eq_nil_iff.2 fun i _ => by rw [State.sounds_of_admits h]; simp
  show ((s.reg l).stops.foldl (changeUnderStop l d k a b) pressed).bare x = _ ∧ _
  rcases Touch.admits_one_way a b with h | h
  · have hp : ∀ t i, t.regs = pressed.regs → t.store = pressed.store → (changeUnderStop l d k a b t i).bare x =
        if s.sounds l d k x a b i then (t.bare x).map (Record.countLink l false) else t.bare x := fun t i hr hs => by
      rw [changeUnderStop_bare, State.sounds_of_admits h, State.sounds_congr hr hs, same]
      rfl
    rw [foldl_moved hg hp _ pressed rfl rfl, start, silent h, List.length_nil, Record.moved_zero, Function.comp_id]
    exact ⟨rfl, .inr rfl⟩
  · have hp : ∀ t i, t.regs = pressed.regs → t.store = pressed.store → (changeUnderStop l d k a b t i).bare x =
        if s.sounds l d k x b a i then (t.bare x).map (Record.countLink l true) else t.bare x := fun t i hr hs => by
      rw [changeUnderStop_bare, State.sounds_of_admits h, State.sounds_congr hr hs, same]
      rfl
    rw [foldl_moved hg hp _ pressed rfl rfl, start, silent h, List.length_nil, Record.moved_zero, Function.id_comp]
    exact ⟨rfl, .inl rfl⟩

/-- Settles O24. -/
theorem aKeysChangeOfLevelMovesTheCounts : Obligations.AKeysChangeOfLevelMovesTheCounts := by
  intro l d k b s x r hr a stops
  obtain ⟨hbare, hone⟩ := setKey_bare l d k b s x
  obtain ⟨r', hr', e⟩ := State.record_of_bare hbare hr
  have counts : ∀ m, r'.linkCount m = r'.bare.linkCount m := fun m => (Record.linkCount_stroke m r' none).symm
  have before : ∀ m, r.bare.linkCount m = r.linkCount m := fun m => Record.linkCount_stroke m r none
  refine ⟨r', hr', ?_, ?_, ?_, ?_⟩
  · show r'.bare.owner = r.owner
    rw [e, Function.comp, Record.moved_owner, Record.moved_owner]
    rfl
  · show r'.linkCount l = r.linkCount l + (s.sounding l d k x b a).length - (s.sounding l d k x a b).length
    rw [counts, e, Function.comp, Record.moved_linkCount, Record.moved_linkCount, before]
    rfl
  · rw [counts, e, Function.comp, Record.moved_other, Record.moved_other, before]
  · show r'.bare.cue = r.cue
    rw [e, Function.comp, Record.moved_cue, Record.moved_cue]
    rfl

/-! ## Stops drawn and cancelled (R30) -/

/-- The held keys under a stop that resolve to a target. -/
def State.claims (s : State) (l : Link) (st : Stop) (x : Target) : List Nat :=
  ((s.reg l).admitted st).filter fun k => decide (s.resolve st k (s.reg l).effective = some x)

theorem handClaims_bare (l : Link) (add : Bool) (st : Stop) (ks : List Nat) (s : State) (x : Target) :
    (ks.foldl (fun t k => handClaim l add st k t) s).bare x =
      (s.bare x).map (Record.moved l add (ks.filter fun k => decide (s.resolve st k (s.reg l).effective = some x)).length) := by
  refine foldl_moved (s := s) (fun t k => ?_) (fun t k hr hs => ?_) ks s rfl rfl
  · exact ⟨(handClaim_only l add st k t).regs, (handClaim_only l add st k t).store⟩
  · rw [handClaim_bare, State.resolve_of_tables (congrArg Store.tables hs), State.reg_of_regs hr]
    simp

theorem drawStop_bare {l : Link} {i : Nat} {s : State} {st : Stop} (h : s.stop i = some st) (x : Target) :
    (drawStop l i s).bare x = (s.bare x).map (Record.moved l true (s.claims l st x).length) := by
  unfold drawStop
  rw [h]
  dsimp only
  rw [handClaims_bare, State.reg_modReg_same]
  rfl

theorem cancelStop_bare {l : Link} {i : Nat} {s : State} {st : Stop} (h : s.stop i = some st) (x : Target) :
    (cancelStop l i s).bare x = (s.bare x).map (Record.moved l false (s.claims l st x).length) := by
  unfold cancelStop
  rw [h]
  dsimp only
  rw [handClaims_bare, State.reg_modReg_same]
  rfl

end Sys2Proof.Machine
end

