-- ==== Sys2Proof/Proofs/Claims.lean ====
section
/-! PROOF. The claims that stand (03 R54): every step keeps each link's count on each record at the number of its (key, stop) pairs that
resolve there. Counts and claims move together at a key's change of level, at a stop drawn and at a stop cancelled; nothing else moves
either, but what empties both. -/

namespace Sys2Proof.Machine

-- One theorem after another, so that the compile needs few threads.
set_option Elab.async false

/-! ## Counting over stops and keys -/

/-- The claims of one drawn stop on a target. -/
def State.stopClaims (s : State) (l : Link) (x : Target) (i : Nat) : Nat :=
  match s.stop i with
  | some st => (s.claims l st x).length
  | none => 0

theorem State.standing_eq (s : State) (l : Link) (x : Target) : s.standing l x = ((s.reg l).stops.map (s.stopClaims l x)).sum := by
  unfold State.standing
  congr 1
  refine List.map_congr_left fun i _ => ?_
  unfold State.stopClaims State.claims Registration.admitted
  cases s.stop i with
  | none => rfl
  | some st =>
    dsimp only
    rw [List.filter_filter]
    congr 2
    funext k
    rw [Bool.and_comm]

/-- Two tests that differ at one member count alike but for it. -/
theorem length_filter_of_differ {k : Nat} {p q : Nat → Bool} : ∀ {ks : List Nat}, ks.Nodup → k ∈ ks → (∀ j ∈ ks, j ≠ k → p j = q j) →
    (ks.filter p).length + (q k).toNat = (ks.filter q).length + (p k).toNat
  | [], _, hm, _ => by cases hm
  | j :: ks, hn, hm, hpq => by
    obtain ⟨hj, hn⟩ := List.nodup_cons.1 hn
    rw [List.filter_cons, List.filter_cons]
    by_cases e : j = k
    · subst e
      have same : ks.filter p = ks.filter q := List.filter_congr fun i hi => hpq i (List.mem_cons_of_mem _ hi) fun e => hj (e ▸ hi)
      rw [same]
      cases p j <;> cases q j <;> simp
    · have hk : k ∈ ks := (List.mem_cons.1 hm).resolve_left fun h => e h.symm
      have ih := length_filter_of_differ hn hk fun i hi => hpq i (List.mem_cons_of_mem _ hi)
      rw [hpq j List.mem_cons_self e]
      cases q j <;> simp <;> omega

theorem sum_map_toNat {α : Type} (p : α → Bool) (xs : List α) : (xs.map fun x => (p x).toNat).sum = (xs.filter p).length := by
  induction xs with
  | nil => rfl
  | cons x xs ih =>
    rw [List.map_cons, List.sum_cons, ih, List.filter_cons]
    cases p x <;> simp [Nat.add_comm]

/-- Terms that balance one by one balance together. -/
theorem sum_balance {α : Type} {f g c d : α → Nat} : ∀ {xs : List α}, (∀ x ∈ xs, f x + c x = g x + d x) →
    (xs.map f).sum + (xs.map c).sum = (xs.map g).sum + (xs.map d).sum
  | [], _ => rfl
  | x :: xs, h => by
    have ih := sum_balance (xs := xs) fun y hy => h y (List.mem_cons_of_mem _ hy)
    have hx := h x List.mem_cons_self
    simp only [List.map_cons, List.sum_cons]
    omega

/-! ## A key's change of level -/

theorem Registration.level_press {r : Registration} (hr : r.keys.length = 384) {d k : Nat} (hd : d < 6) (hk : k < 64) (b : Level) (e j : Nat)
    (hj : j < 64) : (r.press d k b).level e j = if e = d ∧ j = k then b else r.level e j := by
  unfold Registration.level Registration.press
  dsimp only
  rw [List.getElem?_set]
  unfold keyPlace
  by_cases h : e = d ∧ j = k
  · rw [if_pos h, if_pos (by omega), if_pos (by omega)]
    rfl
  · rw [if_neg h, if_neg (by omega)]

/-- With a key pressed or released, the claims that stand move by the stops that come to sound it and those that cease to. -/
theorem standing_setKey {s : State} {l : Link} (hp : (s.reg l).keys.length = 384) {d k : Nat} (hd : d < 6) (hk : k < 64) (b : Level) (x : Target) :
    let a := (s.reg l).level d k
    (setKey l d k b s).standing l x + (s.sounding l d k x a b).length = s.standing l x + (s.sounding l d k x b a).length := by
  intro a
  have rewritten := setKey_rewrites l d k b s
  have store := (setKey_only l d k b s).store
  have reg : (setKey l d k b s).reg l = (s.reg l).press d k b := rewritten.reg_same
  rw [State.standing_eq, State.standing_eq, reg]
  unfold State.sounding
  rw [← sum_map_toNat, ← sum_map_toNat]
  refine sum_balance fun i _ => ?_
  unfold State.stopClaims State.sounds
  rw [State.stop_of_store store]
  cases s.stop i with
  | none => rfl
  | some st =>
    dsimp only
    -- What the stop admits of a key, and what it resolves it to.
    let p : Nat → Bool := fun j => decide (s.resolve st j (s.reg l).effective = some x) && st.touch.admits (((s.reg l).press d k b).level st.division j)
    let q : Nat → Bool := fun j => decide (s.resolve st j (s.reg l).effective = some x) && st.touch.admits ((s.reg l).level st.division j)
    have new : (setKey l d k b s).claims l st x = allKeys.filter p := by
      unfold State.claims Registration.admitted
      rw [List.filter_filter, reg]
      refine List.filter_congr fun j _ => ?_
      rw [State.resolve_of_tables (congrArg Store.tables store)]
      rfl
    have old : s.claims l st x = allKeys.filter q := by
      unfold State.claims Registration.admitted
      rw [List.filter_filter]
    rw [new, old]
    have pressed : ∀ j < 64, ((s.reg l).press d k b).level st.division j = if st.division = d ∧ j = k then b else (s.reg l).level st.division j :=
      fun j => Registration.level_press hp hd hk b st.division j
    have differ := length_filter_of_differ (k := k) (p := p) (q := q) (ks := allKeys) List.nodup_range (List.mem_range.2 hk) fun j hj hne => by
      have := pressed j (List.mem_range.1 hj)
      rw [if_neg fun h => hne h.2] at this
      show (_ && st.touch.admits _) = (_ && st.touch.admits _)
      rw [this]
    by_cases hdiv : st.division = d
    · have pk : p k = (decide (s.resolve st k (s.reg l).effective = some x) && st.touch.admits b) := by
        show (_ && st.touch.admits _) = _
        rw [pressed k hk, if_pos ⟨hdiv, rfl⟩]
      have qk : q k = (decide (s.resolve st k (s.reg l).effective = some x) && st.touch.admits a) := by
        show (_ && st.touch.admits _) = _
        rw [hdiv]
      rw [pk, qk] at differ
      revert differ
      cases decide (s.resolve st k (s.reg l).effective = some x) <;> cases st.touch.admits a <;> cases st.touch.admits b <;>
        simp [hdiv]
    · have same : p k = q k := by
        show (_ && st.touch.admits _) = (_ && st.touch.admits _)
        rw [pressed k hk, if_neg fun h => hdiv h.1]
      rw [same] at differ
      simp [hdiv]
      omega

/-! ## Stops -/

theorem perm_insertMember {i : Nat} {xs : List Nat} (h : i ∉ xs) : (insertMember i xs).Perm (i :: xs) := by
  induction xs with
  | nil => exact .refl _
  | cons j xs ih =>
    have hne : i ≠ j := fun e => h (e ▸ List.mem_cons_self)
    have hn : i ∉ xs := fun hm => h (List.mem_cons_of_mem _ hm)
    unfold insertMember
    rw [if_neg hne]
    split
    · exact .refl _
    · exact ((ih hn).cons j).trans (.swap i j xs)

theorem sum_insertMember {i : Nat} {f : Nat → Nat} {xs : List Nat} (h : i ∉ xs) : ((insertMember i xs).map f).sum = f i + (xs.map f).sum :=
  ((perm_insertMember h).map f).sum_eq

theorem sum_filter_ne {i : Nat} {f : Nat → Nat} {xs : List Nat} (hn : xs.Nodup) (h : i ∈ xs) :
    ((xs.filter fun j => !decide (j = i)).map f).sum + f i = (xs.map f).sum := by
  induction xs with
  | nil => cases h
  | cons j xs ih =>
    obtain ⟨hj, hn⟩ := List.nodup_cons.1 hn
    rw [List.filter_cons]
    by_cases e : j = i
    · subst e
      have all : xs.filter (fun k => !decide (k = j)) = xs := List.filter_eq_self.2 fun k hk => by
        have : k ≠ j := fun e => hj (e ▸ hk)
        simp [this]
      simp [all, Nat.add_comm]
    · have hi : i ∈ xs := (List.mem_cons.1 h).resolve_left fun h => e h.symm
      have := ih hn hi
      simp [e]
      omega

theorem State.stopClaims_congr {s t : State} {l : Link} (hk : (t.reg l).keys = (s.reg l).keys) (he : (t.reg l).effective = (s.reg l).effective)
    (hs : t.store = s.store) (x : Target) : t.stopClaims l x = s.stopClaims l x := by
  have level : ∀ d k, (t.reg l).level d k = (s.reg l).level d k := fun d k => by unfold Registration.level; rw [hk]
  funext i
  unfold State.stopClaims State.claims Registration.admitted
  rw [State.stop_of_store hs]
  cases s.stop i with
  | none => rfl
  | some st =>
    dsimp only
    rw [he]
    simp only [level, State.resolve_of_tables (congrArg Store.tables hs)]

theorem standing_drawStop {s : State} {l : Link} {i : Nat} {st : Stop} (h : s.stop i = some st) (hi : i ∉ (s.reg l).stops) (x : Target) :
    (drawStop l i s).standing l x = s.standing l x + (s.claims l st x).length := by
  have reg : (drawStop l i s).reg l = (s.reg l).draw i := (drawStop_rewrites h).reg_same
  have claims : s.stopClaims l x i = (s.claims l st x).length := by unfold State.stopClaims; rw [h]
  rw [State.standing_eq, State.standing_eq, State.stopClaims_congr (s := s) (by rw [reg]; rfl) (by rw [reg]; rfl) (drawStop_only l i s).store, reg]
  show ((insertMember i (s.reg l).stops).map _).sum = _
  rw [sum_insertMember hi, claims, Nat.add_comm]

theorem standing_cancelStop {s : State} {l : Link} {i : Nat} {st : Stop} (h : s.stop i = some st) (hn : (s.reg l).stops.Nodup)
    (hi : i ∈ (s.reg l).stops) (x : Target) : (cancelStop l i s).standing l x + (s.claims l st x).length = s.standing l x := by
  have reg : (cancelStop l i s).reg l = (s.reg l).cancel i := (cancelStop_rewrites h).reg_same
  have claims : s.stopClaims l x i = (s.claims l st x).length := by unfold State.stopClaims; rw [h]
  rw [State.standing_eq, State.standing_eq, State.stopClaims_congr (s := s) (by rw [reg]; rfl) (by rw [reg]; rfl) (cancelStop_only l i s).store, reg]
  show (((s.reg l).stops.filter _).map _).sum + _ = _
  rw [← claims]
  exact sum_filter_ne hn hi

/-- With no key held no claim stands (R26). -/
theorem standing_of_holdsNoKey {s : State} {l : Link} (h : (s.reg l).holdsNoKey = true) (x : Target) : s.standing l x = 0 := by
  have released : ∀ d k, (s.reg l).level d k = .released := fun d k => by
    unfold Registration.level
    cases hk : (s.reg l).keys[keyPlace d k]? with
    | none => rfl
    | some b =>
      unfold Registration.holdsNoKey at h
      simpa using List.all_eq_true.1 h b (List.mem_of_getElem? hk)
  rw [State.standing_eq]
  refine List.sum_eq_zero fun n hn => ?_
  obtain ⟨i, -, rfl⟩ := List.mem_map.1 hn
  unfold State.stopClaims State.claims Registration.admitted
  split
  next st _ =>
    have none : ∀ k, st.touch.admits ((s.reg l).level st.division k) = false := fun k => by
      rw [released]
      cases st.touch <;> rfl
    simp [none]
  · rfl

/-! ## Counts and claims together -/

/-- Key maps of 6 x 64 places, no stop drawn twice, divisions in range. -/
structure BlocksShaped (s : State) : Prop where
  places : ∀ l, (s.reg l).keys.length = 384
  stops : ∀ l, (s.reg l).stops.Nodup
  divisions : s.store.tables.divisions.length ≤ 6 ∧ ∀ n, some n ∈ s.store.tables.divisions → n ≤ 64

/-- Each link's count on each record is the number of its claims that stand. -/
structure ClaimsCounted (s : State) : Prop extends BlocksShaped s where
  counts : ∀ l x b, s.bare x = some b → b.linkCount l = s.standing l x

def KeepsClaims (s t : State) : Prop := ClaimsCounted s → ClaimsCounted t

theorem BlocksShaped.of_same {s t : State} (h : BlocksShaped s) (hr : t.regs = s.regs) (hs : t.store.tables = s.store.tables) : BlocksShaped t :=
  ⟨fun l => by rw [State.reg_of_regs hr]; exact h.places l, fun l => by rw [State.reg_of_regs hr]; exact h.stops l, by rw [hs]; exact h.divisions⟩

/-- Link counts that stand, under the same blocks and tables. -/
theorem keepsClaims_of_counts {s t : State} (hr : t.regs = s.regs) (hs : t.store.tables = s.store.tables)
    (hc : ∀ x b, t.bare x = some b → ∃ a, s.bare x = some a ∧ ∀ l, b.linkCount l = a.linkCount l) : KeepsClaims s t := fun h =>
  { h.toBlocksShaped.of_same hr hs with
    counts := fun l x b hb => by
      obtain ⟨a, ha, e⟩ := hc x b hb
      rw [e, h.counts l x a ha, State.standing_congr l x (State.reg_of_regs hr l) hs] }

theorem keepsClaims_of_bare {s t : State} (hr : t.regs = s.regs) (hs : t.store.tables = s.store.tables) (hb : BareSame s t) : KeepsClaims s t :=
  keepsClaims_of_counts hr hs fun x b h => ⟨b, hb.bare x ▸ h, fun _ => rfl⟩

theorem keepsClaims_of_only {s t : State} (k : Only (allBut [.store, .regs, .table]) s t) : KeepsClaims s t := by
  have ht : t.table = s.table := k.field (by simp : Field.table ∈ _)
  exact keepsClaims_of_bare (k.field (by simp : Field.regs ∈ _)) (congrArg Store.tables (k.field (by simp : Field.store ∈ _)))
    (by unfold BareSame; rw [ht])

theorem relayed_keepsClaims : Relayed (allBut [.store, .regs, .table]) KeepsClaims where
  free := keepsClaims_of_only
  trans := fun h k hs => k (h hs)
  bump := fun s n c => keepsClaims_of_only (bumpBy_only s n c).but
  settle := fun s => keepsClaims_of_only (settle_only s).but
  start := fun s a => keepsClaims_of_bare (startStroke_only a s).regs (congrArg Store.tables (startStroke_only a s).store) (relayed_bareSame.start s a)
  dequeue := fun s a => keepsClaims_of_only (dequeue_only a s).but
  join := fun s _ _ _ => keepsClaims_of_only (sched_only s fun x => { x with queue := x.queue ++ _ }).but
  reiterate := fun s _ _ _ => keepsClaims_of_only (sched_only s fun x => { x with reiterations := x.reiterations ++ _ }).but
  endReiteration := fun s a => keepsClaims_of_only (endReiteration_only a s).but
  damper := fun s i f => keepsClaims_of_only (modDamper_only s i f).but
  joins := fun s p _ _ _ _ => keepsClaims_of_only (setPlayer_only s p _).but
  begins := fun s p _ _ _ _ _ _ => keepsClaims_of_only (setPlayer_only s p _).but
  steps := fun s p _ _ _ _ _ _ _ => keepsClaims_of_only (setPlayer_only s p _).but
  leaves := fun s p _ _ _ _ => keepsClaims_of_only (setPlayer_only s p _).but

/-- Every record rewritten on its target. -/
theorem State.bare_map {s t : State} {f : Record → Record} (ht : t.table = s.table.map f) (hf : ∀ r, (f r).target = r.target)
    (hb : ∀ r, (f r).bare = f r.bare) (x : Target) : t.bare x = (s.bare x).map f := by
  have hp : (fun r => decide (r.target = x)) ∘ f = fun r => decide (r.target = x) := by
    funext r
    rw [Function.comp, hf]
  unfold State.bare State.record
  rw [ht, List.find?_map, hp, Option.map_map, Option.map_map]
  congr 1
  funext r
  exact hb r

theorem cueDriven_keepsClaims : CueDriven (allBut [.store, .regs, .table]) KeepsClaims :=
  relayed_keepsClaims.cueDriven (fun s l n => keepsClaims_of_only (notify_only s l n).but) (by decide) (by decide) (by decide)
    (fun s p _ _ => keepsClaims_of_only (setPlayer_only s p _).but) (fun s p _ _ _ _ => keepsClaims_of_only (setPlayer_only s p _).but)
    (fun s => keepsClaims_of_counts rfl rfl fun x b hb => by
      rw [State.bare_map (s := s) (f := Record.withoutCue) rfl (fun _ => rfl) fun _ => rfl] at hb
      obtain ⟨a, ha, rfl⟩ := Option.map_eq_some_iff.1 hb
      exact ⟨a, ha, fun l => Record.linkCount_cue l a 0⟩)
    (fun s x r on hr => keepsClaims_of_counts rfl rfl fun y b hb => by
      have htarget := (State.mem_of_record hr).2
      unfold State.bare at hb
      rw [s.record_modRecord_const (q := r.countCue on) htarget] at hb
      split at hb
      next e =>
        subst e
        rw [hr] at hb
        cases hb
        exact ⟨r.bare, by unfold State.bare; rw [hr]; rfl, fun l => by cases l <;> rfl⟩
      · exact ⟨b, hb, fun _ => rfl⟩)

/-! ## The registration blocks -/

/-- One block rewritten, its shape kept. -/
theorem BlocksShaped.rewritten {l : Link} {f : Registration → Registration} {s t : State} (h : BlocksShaped s) (hr : Rewrites l f s t)
    (hs : t.store = s.store) (hk : (f (s.reg l)).keys.length = 384) (hn : (f (s.reg l)).stops.Nodup) : BlocksShaped t := by
  have cases : ∀ m, t.reg m = f (s.reg l) ∨ t.reg m = s.reg m := fun m => by
    by_cases hm : m = l
    · subst hm
      exact .inl hr.reg_same
    · exact .inr (hr.reg_of_ne hm)
  refine ⟨fun m => ?_, fun m => ?_, by rw [hs]; exact h.divisions⟩
  · rcases cases m with e | e <;> rw [e]
    · exact hk
    · exact h.places m
  · rcases cases m with e | e <;> rw [e]
    · exact hn
    · exact h.stops m

/-- What moves a link's counts on every record as its claims move, and leaves the other link's. -/
theorem counts_of_moves {s t : State} {l : Link} (h : ClaimsCounted s) (hs : t.store = s.store) (hother : t.reg (otherLink l) = s.reg (otherLink l))
    (hx : ∀ x b, t.bare x = some b → ∃ a, s.bare x = some a ∧ b.linkCount (otherLink l) = a.linkCount (otherLink l) ∧
      (a.linkCount l = s.standing l x → b.linkCount l = t.standing l x)) (m : Link) (x : Target) (b : Record) (hb : t.bare x = some b) :
    b.linkCount m = t.standing m x := by
  obtain ⟨a, ha, ho, hl⟩ := hx x b hb
  by_cases hm : m = l
  · subst hm
    exact hl (h.counts m x a ha)
  · have e : m = otherLink l := by revert hm; cases l <;> cases m <;> simp [otherLink]
    rw [e, ho, h.counts (otherLink l) x a ha, State.standing_congr (otherLink l) x hother (congrArg Store.tables hs)]

theorem keepsClaims_setKey {s : State} {l : Link} {d k : Nat} (hd : d < 6) (hk : k < 64) (b : Level) : KeepsClaims s (setKey l d k b s) := fun h => by
  have rewritten := setKey_rewrites l d k b s
  have store := (setKey_only l d k b s).store
  have shaped : BlocksShaped (setKey l d k b s) :=
    h.toBlocksShaped.rewritten rewritten store (by simpa [Registration.press] using h.places l) (h.stops l)
  refine { shaped with counts := counts_of_moves h store rewritten.reg_other fun x r hr => ?_ }
  obtain ⟨hbare, hone⟩ := setKey_bare l d k b s x
  have balance := standing_setKey (h.places l) hd hk b x
  dsimp only at hbare hone balance
  rw [hbare] at hr
  obtain ⟨a, ha, rfl⟩ := Option.map_eq_some_iff.1 hr
  refine ⟨a, ha, by rw [Function.comp, Record.moved_other, Record.moved_other], fun law => ?_⟩
  rw [Function.comp, Record.moved_linkCount, Record.moved_linkCount, law]
  rcases hone with e | e <;> rw [e] at balance ⊢ <;> simp at balance ⊢ <;> omega

theorem keepsClaims_drawStop {s : State} {l : Link} {i : Nat} (hi : i ∉ (s.reg l).stops) : KeepsClaims s (drawStop l i s) := fun h => by
  cases hst : s.stop i with
  | none =>
    unfold drawStop
    rw [hst]
    exact h
  | some st =>
    have rewritten := drawStop_rewrites (l := l) hst
    have store := (drawStop_only l i s).store
    have nodup : (insertMember i (s.reg l).stops).Nodup := by
      have perm : (insertMember i (s.reg l).stops).Perm (i :: (s.reg l).stops) := perm_insertMember hi
      exact perm.nodup_iff.2 (List.nodup_cons.2 ⟨hi, h.stops l⟩)
    have shaped : BlocksShaped (drawStop l i s) := h.toBlocksShaped.rewritten rewritten store (h.places l) nodup
    refine { shaped with counts := counts_of_moves h store rewritten.reg_other fun x r hr => ?_ }
    rw [drawStop_bare hst] at hr
    obtain ⟨a, ha, rfl⟩ := Option.map_eq_some_iff.1 hr
    refine ⟨a, ha, Record.moved_other _ _ _ _, fun law => ?_⟩
    rw [Record.moved_linkCount, law, standing_drawStop hst hi]
    rfl

theorem keepsClaims_cancelStop {s : State} {l : Link} {i : Nat} (hi : i ∈ (s.reg l).stops) : KeepsClaims s (cancelStop l i s) := fun h => by
  cases hst : s.stop i with
  | none =>
    unfold cancelStop
    rw [hst]
    exact h
  | some st =>
    have rewritten := cancelStop_rewrites (l := l) hst
    have store := (cancelStop_only l i s).store
    have shaped : BlocksShaped (cancelStop l i s) := h.toBlocksShaped.rewritten rewritten store (h.places l) ((h.stops l).filter _)
    refine { shaped with counts := counts_of_moves h store rewritten.reg_other fun x r hr => ?_ }
    have balance := standing_cancelStop hst (h.stops l) hi x
    rw [cancelStop_bare hst] at hr
    obtain ⟨a, ha, rfl⟩ := Option.map_eq_some_iff.1 hr
    refine ⟨a, ha, Record.moved_other _ _ _ _, fun law => ?_⟩
    rw [Record.moved_linkCount, law]
    simp
    omega

/-- A block rewritten with its claims standing, and no count touched. -/
theorem keepsClaims_of_rewrites {l : Link} {f : Registration → Registration} {fs : List Field} {s t : State} (hr : Rewrites l f s t)
    (k : Only fs s t) (hk : ClaimsCounted s → (f (s.reg l)).keys.length = 384 ∧ (f (s.reg l)).stops.Nodup)
    (hx : ClaimsCounted s → ∀ x, t.standing l x = s.standing l x) (hs : Field.store ∉ fs := by decide) (ht : Field.table ∉ fs := by decide) :
    KeepsClaims s t := fun h =>
  { h.toBlocksShaped.rewritten hr (k.store hs) (hk h).1 (hk h).2 with
    counts := counts_of_moves h (k.store hs) hr.reg_other fun x b hb => by
      rw [State.bare_of_table (k.table ht)] at hb
      exact ⟨b, hb, rfl, fun law => law.trans (hx h x).symm⟩ }

theorem keepsClaims_of_tabs {l : Link} {f : Registration → Registration} {fs : List Field} {s t : State} (hr : Rewrites l f s t)
    (k : Only fs s t) (hf : (f (s.reg l)).keys = (s.reg l).keys ∧ (f (s.reg l)).stops = (s.reg l).stops ∧
      (f (s.reg l)).effective = (s.reg l).effective) (hs : Field.store ∉ fs := by decide) (ht : Field.table ∉ fs := by decide) : KeepsClaims s t := by
  obtain ⟨hkeys, hstops, heff⟩ := hf
  refine keepsClaims_of_rewrites hr k (fun h => by rw [hkeys, hstops]; exact ⟨h.places l, h.stops l⟩) (fun _ x => ?_) hs ht
  rw [State.standing_eq, State.standing_eq, State.stopClaims_congr (s := s) (by rw [hr.reg_same, hkeys]) (by rw [hr.reg_same, heff]) (k.store hs),
    hr.reg_same, hstops]

theorem keepsClaims_setTab (l : Link) : TabsTurn l KeepsClaims := fun s j on =>
  keepsClaims_of_tabs (setTab_rewrites l j on s) (setTab_only l j on s) (by
    unfold Registration.tab
    split <;> exact ⟨rfl, rfl, rfl⟩)

theorem keepsClaims_takeTransposition (l : Link) (s : State) : KeepsClaims s (takeTransposition l s) := by
  have rewritten := takeTransposition_rewrites l s
  have only := takeTransposition_only l s
  by_cases hno : (s.reg l).holdsNoKey = true
  · have taken : (s.reg l).taken = { s.reg l with effective := (s.reg l).requested } := by unfold Registration.taken; rw [if_pos hno]
    refine keepsClaims_of_rewrites rewritten only (fun h => by rw [taken]; exact ⟨h.places l, h.stops l⟩) fun _ x => ?_
    rw [standing_of_holdsNoKey hno, standing_of_holdsNoKey (by rw [rewritten.reg_same, taken]; exact hno)]
  · have taken : (s.reg l).taken = s.reg l := by unfold Registration.taken; rw [if_neg hno]
    exact keepsClaims_of_tabs rewritten only (by rw [taken]; exact ⟨rfl, rfl, rfl⟩)

theorem keepsClaims_requestTransposition (l : Link) (v : Int) (s : State) : KeepsClaims s (requestTransposition l v s) := fun h =>
  keepsClaims_takeTransposition l _ ((keepsClaims_of_tabs (rewrites_modReg l (fun r => { r with requested := max (-6) (min 6 v) }) s)
    (modReg_only s l _) ⟨rfl, rfl, rfl⟩) h)

theorem keepsClaims_keyEntry (l : Link) (d : Nat) (s : State) (e : Nat × Level) : KeepsClaims s (keyEntry l d s e) := by
  have k := relayed_keepsClaims
  unfold keyEntry
  split
  next count hc =>
    refine fun h => k.ite (fun hlt => ?_) (fun _ => k.bump _ _ _) h
    have hd : d < 6 := by
      unfold State.division at hc
      by_contra hge
      rw [List.getElem?_eq_none (h.divisions.1.trans (Nat.le_of_not_lt hge))] at hc
      cases hc
    have hk : e.1 < 64 := lt_of_lt_of_le hlt (h.divisions.2 count (mem_of_join hc))
    exact k.trans (keepsClaims_setKey hd hk e.2) (keepsClaims_takeTransposition l _)
  · exact k.bump _ _ _

theorem keepsClaims_stopEntry (l : Link) (s : State) (e : Nat × Option Bool) : KeepsClaims s (stopEntry l s e) := by
  have k := relayed_keepsClaims
  unfold stopEntry
  split
  next drawn _ _ =>
    refine k.ite (fun _ => k.refl _) fun hne => ?_
    cases drawn with
    | true => exact keepsClaims_drawStop (by simpa using hne)
    | false => exact keepsClaims_cancelStop (by simpa using hne)
  all_goals exact k.bump _ _ _

theorem keepsClaims_releaseKeys (l : Link) (s : State) : KeepsClaims s (releaseKeys l s) := by
  have k := relayed_keepsClaims
  refine fun h => foldl_keeps_of_mem (P := ClaimsCounted) (List.range 6) s (fun d hd t ht => ?_) h
  refine foldl_keeps_of_mem (P := ClaimsCounted) allKeys t (fun j hj u hu => ?_) ht
  exact k.ite (fun _ => k.refl u) (fun _ => keepsClaims_setKey (List.mem_range.1 hd) (List.mem_range.1 hj) .released) hu

theorem drawStop_stops (l : Link) (i : Nat) (s : State) :
    (∀ j ∈ (s.reg l).stops, j ∈ ((drawStop l i s).reg l).stops) ∧ ∀ j ∈ ((drawStop l i s).reg l).stops, j = i ∨ j ∈ (s.reg l).stops := by
  rw [(drawStop_rewrites_any l s i).reg_same]
  unfold State.drawing
  split
  · exact ⟨fun j hj => Registration.mem_draw.2 (.inr hj), fun j hj => Registration.mem_draw.1 hj⟩
  · exact ⟨fun _ => id, fun _ => .inr⟩

theorem cancelStop_stops (l : Link) (i : Nat) (s : State) {j : Nat} (hj : j ∈ (s.reg l).stops) (hne : j ≠ i) :
    j ∈ ((cancelStop l i s).reg l).stops := by
  rw [(cancelStop_rewrites_any l s i).reg_same]
  unfold State.cancelling
  split
  · exact List.mem_filter.2 ⟨hj, by simpa using hne⟩
  · exact hj

theorem keepsClaims_draws (l : Link) : ∀ (is : List Nat) (s : State), is.Nodup → (∀ i ∈ is, i ∉ (s.reg l).stops) →
    KeepsClaims s (is.foldl (fun t i => drawStop l i t) s) ∧
      ∀ j ∈ (s.reg l).stops, j ∈ ((is.foldl (fun t i => drawStop l i t) s).reg l).stops
  | [], _, _, _ => ⟨id, fun _ => id⟩
  | i :: is, s, hn, hi => by
    obtain ⟨hne, hn⟩ := List.nodup_cons.1 hn
    obtain ⟨grows, adds⟩ := drawStop_stops l i s
    obtain ⟨keeps, later⟩ := keepsClaims_draws l is (drawStop l i s) hn fun j hj hm => (adds j hm).elim (fun e => hne (e ▸ hj))
      (hi j (List.mem_cons_of_mem _ hj))
    exact ⟨fun h => keeps (keepsClaims_drawStop (hi i List.mem_cons_self) h), fun j hj => later j (grows j hj)⟩

theorem keepsClaims_cancels (l : Link) : ∀ (is : List Nat) (s : State), is.Nodup → (∀ i ∈ is, i ∈ (s.reg l).stops) →
    KeepsClaims s (is.foldl (fun t i => cancelStop l i t) s)
  | [], _, _, _ => id
  | i :: is, s, hn, hi => by
    obtain ⟨hne, hn⟩ := List.nodup_cons.1 hn
    have keeps := keepsClaims_cancels l is (cancelStop l i s) hn fun j hj =>
      cancelStop_stops l i s (hi j (List.mem_cons_of_mem _ hj)) fun e => hne (e ▸ hj)
    exact fun h => keeps (keepsClaims_cancelStop (hi i List.mem_cons_self) h)

theorem keepsClaims_replaceRegistration (l : Link) (b : RegistrationBody) (s : State) : KeepsClaims s (replaceRegistration l b s) := by
  have k := relayed_keepsClaims
  intro h
  have unfolded : ∀ n, ClaimsCounted (s.bumpBy n .playEntriesIgnored) := fun n => k.bump s n _ h
  unfold replaceRegistration
  dsimp only
  refine keepsClaims_requestTransposition l _ _ (k.foldl (fun t j => keepsClaims_setTab l t j _) _ _ ?_)
  obtain ⟨drawn, stays⟩ := keepsClaims_draws l ((s.listedStops b).filter fun i => !(s.reg l).stops.contains i)
    (s.bumpBy (b.stops.length - (b.stops.filter fun i => (s.stop i).isSome).length +
      (b.tabs.length - (b.tabs.filter fun j => decide (j < 8)).length)) .playEntriesIgnored)
    ((s.listedStops_nodup b).filter _) fun i hi => by
      show i ∉ (s.reg l).stops
      simpa using (List.mem_filter.1 hi).2
  exact keepsClaims_cancels l _ _ ((h.stops l).filter _) (fun i hi => stays i (List.mem_filter.1 hi).1) (drawn (unfolded _))

/-- A block that no claim stands under, before or after. -/
theorem keepsClaims_modReg_silent {s : State} {l : Link} {f : Registration → Registration} (hk : (f (s.reg l)).keys.length = 384)
    (hn : (f (s.reg l)).stops.Nodup) (h0 : (s.reg l).holdsNoKey = true ∨ (s.reg l).stops = [])
    (h1 : (f (s.reg l)).holdsNoKey = true ∨ (f (s.reg l)).stops = []) : KeepsClaims s (s.modReg l f) := by
  have none : ∀ u : State, (u.reg l).holdsNoKey = true ∨ (u.reg l).stops = [] → ∀ x, u.standing l x = 0 := fun u hu x =>
    hu.elim (fun h => standing_of_holdsNoKey h x) fun h => State.standing_of_no_stops h x
  refine keepsClaims_of_rewrites (rewrites_modReg l f s) (modReg_only s l f) (fun _ => ⟨hk, hn⟩) fun _ x => ?_
  rw [none s h0, none _ (by rw [State.reg_modReg_same]; exact h1)]

theorem Registration.lifted_holdsNoKey {r : Registration} (h : r.keys.length = 384) : r.lifted.holdsNoKey = true := by
  unfold Registration.holdsNoKey
  rw [Registration.lifted_keys h, List.all_eq_true]
  exact fun b hb => by simpa using List.eq_of_mem_replicate hb

theorem keepsClaims_emptiedLink (l : Link) (s : State) : KeepsClaims s (emptiedLink l s) := by
  have k := relayed_keepsClaims
  intro h
  have links : ∀ (f : LinkIf → LinkIf) t, ClaimsCounted t → ClaimsCounted (t.modLink l f) := fun f t =>
    keepsClaims_of_only (modLink_only t l f).but
  unfold emptiedLink
  dsimp only
  generalize hu : releaseKeys l (s.modLink l fun i => { i with state := .down, silenceTimer := none }) = u
  have released : ClaimsCounted u := by
    rw [← hu]
    exact keepsClaims_releaseKeys l _ (links _ _ h)
  have lifted : u.reg l = (s.reg l).lifted := by
    rw [← hu]
    exact (releaseKeys_rewrites l _).reg_same
  have unstopped : ClaimsCounted (u.modReg l fun r => { r with stops := [] }) :=
    keepsClaims_modReg_silent (released.places l) List.nodup_nil (.inl (by rw [lifted]; exact Registration.lifted_holdsNoKey (h.places l)))
      (.inr rfl) released
  have untabbed := k.foldl (fun t j => keepsClaims_setTab l t j false) (s.reg l).tabs (u.modReg l fun r => { r with stops := [] }) unstopped
  have stops : (((s.reg l).tabs.foldl (fun t j => setTab l j false t) (u.modReg l fun r => { r with stops := [] })).reg l).stops = [] := by
    have rewritten := rewrites_foldl (f := fun _ j r => r.tab j false) (fun t j => setTab_rewrites l j false t)
      (fun t j => (setTab_only l j false t).store) (fun _ _ _ _ => rfl) (s.reg l).tabs (u.modReg l fun r => { r with stops := [] })
    rw [rewritten.reg_same, (Registration.untabbed_keeps _ _).2, State.reg_modReg_same]
  refine links _ _ (k.removeOwnerEverywhere _ _ ?_)
  exact keepsClaims_modReg_silent (untabbed.places l) (untabbed.stops l) (.inr stops) (.inr stops) untabbed

/-! ## Every event -/

/-- No claim stands and none is counted. -/
theorem claimsCounted_of_none {s : State} (h : BlocksShaped s) (hc : ∀ l x b, s.bare x = some b → b.linkCount l = 0)
    (hr : ∀ l, (s.reg l).holdsNoKey = true) : ClaimsCounted s :=
  { h with counts := fun l x b hb => by rw [hc l x b hb, standing_of_holdsNoKey (hr l)] }

/-- Without a demand table there is nothing to count. -/
theorem claimsCounted_of_empty {s : State} (h : BlocksShaped s) (ht : s.table = []) : ClaimsCounted s := by
  refine { h with counts := fun l x b hb => ?_ }
  unfold State.bare State.record at hb
  rw [ht] at hb
  cases hb

/-- A part at rest enters READY with no claim. -/
theorem claimsCounted_enterReady {s : State} (h : BlocksShaped s) (hr : ∀ l, s.reg l = .empty) : ClaimsCounted (enterReady s) := by
  have only := enterReady_only s
  have regs := State.reg_of_regs only.regs
  refine claimsCounted_of_none (h.of_same only.regs (by rw [enterReady_store])) (fun l x b hb => ?_) fun l => ?_
  · unfold State.bare State.record at hb
    rw [enterReady_table] at hb
    obtain ⟨r, hm, rfl⟩ := Option.map_eq_some_iff.1 hb
    obtain ⟨h1, h2, -⟩ := mem_demandTable_counts (List.mem_of_find?_eq_some hm)
    cases l
    · exact h1
    · exact h2
  · rw [regs, hr]
    unfold Registration.holdsNoKey
    exact List.all_eq_true.2 fun b hb => by simpa using List.eq_of_mem_replicate hb

theorem keepsClaims_silencedPart (s : State) : KeepsClaims s (silencedPart s) := fun h => by
  have only := silencedPart_only s
  have counted := rewriteCounts_only Record.silenced s
  have reg : ∀ l, (silencedPart s).reg l = (s.reg l).quieted := fun l => by
    cases l with
    | one => exact congrArg Registration.quieted (State.reg_of_regs counted.regs .one)
    | two =>
      refine congrArg Registration.quieted (Eq.trans (State.reg_modReg_of_ne _ (by decide) _) (State.reg_of_regs counted.regs .two))
  have shaped : BlocksShaped (silencedPart s) :=
    ⟨fun l => by rw [reg]; exact (List.length_map _).trans (h.places l), fun l => by rw [reg]; exact h.stops l, by rw [only.store]; exact h.divisions⟩
  refine claimsCounted_of_none shaped (fun l x b hb => ?_) fun l => ?_
  · unfold State.bare State.record at hb
    rw [silencedPart_table] at hb
    obtain ⟨r, hr, rfl⟩ := Option.map_eq_some_iff.1 hb
    obtain ⟨q, -, rfl⟩ := List.mem_map.1 (List.mem_of_find?_eq_some hr)
    rw [cutRecord_eq]
    cases l <;> rfl
  · rw [reg]
    unfold Registration.holdsNoKey
    rw [List.all_eq_true]
    intro v hv
    obtain ⟨_, -, rfl⟩ := List.mem_map.1 hv
    rfl

theorem nodup_keptByPlay (n : Nat) : KeptByPlay n fun r => r.stops.Nodup where
  pressed := fun r d k b h => by
    unfold Registration.taken
    split <;> exact h
  drawn := fun r i _ hi h => (perm_insertMember hi).nodup_iff.2 (List.nodup_cons.2 ⟨hi, h⟩)
  cancelled := fun _ _ h => h.filter _
  tabbed := fun r j on _ h => by rw [(r.tab_keeps j on).2.1]; exact h
  requested := fun r v h => by
    unfold Registration.request Registration.taken
    split <;> exact h
  released := fun r h => by
    have stops := r.lifted_keeps.1
    generalize r.lifted = q at stops ⊢
    unfold Registration.taken
    split <;> exact stops ▸ h
  quieted := fun _ h => h
  emptied := fun r _ => by
    unfold Registration.emptied
    dsimp only
    rw [(Registration.untabbed_keeps _ _).2]
    exact List.nodup_nil
  empty := List.nodup_nil

theorem MessageEffect.shaped {l : Link} {t v : State} {c : Instr} (h : MessageEffect l t c v) (ht : BlocksShaped t) : BlocksShaped v :=
  ⟨(Registration.length_keptByPlay _).message h le_rfl ht.places, (nodup_keptByPlay _).message h le_rfl ht.stops,
    h.written.division_keys ht.divisions⟩

theorem OwnEffect.shaped {s v : State} {c : Instr} (h : OwnEffect s c v) (hs : BlocksShaped s) : BlocksShaped v :=
  ⟨(Registration.length_keptByPlay 0).own h hs.places, (nodup_keptByPlay 0).own h hs.stops, h.written.division_keys hs.divisions⟩

theorem bareSame_cutStrokes (reached : Addr → Bool) (s : State) : BareSame s (cutStrokes reached s) := by
  unfold BareSame cutStrokes
  rw [List.map_map]
  refine List.map_congr_left fun r _ => ?_
  rw [Function.comp, cutRecord_eq]
  rfl

theorem keepsClaims_dropStrikes (reached : Addr → Bool) (s : State) : KeepsClaims s (dropStrikes reached s) :=
  keepsClaims_of_bare rfl rfl (bareSame_cutStrokes reached _)

theorem keepsClaims_of_message {l : Link} {t v : State} {c : Instr} (h : MessageEffect l t c v) (hv : RestOutsideReady v) : KeepsClaims t v := by
  have k := cueDriven_keepsClaims
  have reached := Only.of_message h
  have shaped := h.shaped
  have resting : v.engine ≠ .ready → KeepsClaims t v := fun hne ht => claimsCounted_of_empty (shaped ht.toBlocksShaped) (hv.table hne)
  cases h with
  | unchanged => exact k.refl t
  | discarded | ignored => exact k.bump _ _ _
  | keys d es => exact k.foldl (keepsClaims_keyEntry l d) es t
  | stops es => exact k.foldl (keepsClaims_stopEntry l) es t
  | tabs es => exact k.foldl (k.tabEntry (keepsClaims_setTab l)) es t
  | registration b => exact keepsClaims_replaceRegistration l b t
  | transpose x => exact keepsClaims_requestTransposition l x t
  | release => exact k.trans (keepsClaims_releaseKeys l t) (keepsClaims_takeTransposition l _)
  | go => exact k.takeGo t
  | cueResume sub => exact k.resumeCue l sub t
  | cueAbort => exact k.abortCue t
  | figureStart f => exact k.startFigure (by simp) f t
  | figureStop f => exact k.removeFigureOwner _ f t
  | figureSync figures => exact k.foldl (k.syncPlayer figures) _ t
  | specBegin | commit => exact resting (by unfold State.engine; simp [beginLoading])
  | divisions _ _ hl | sources _ _ hl | specStops _ _ hl | chambers _ _ hl | tremulants _ _ hl | ports _ _ hl | figures _ _ hl =>
    exact resting (by show t.engine ≠ _; rw [hl]; decide)
  | silence => exact k.silenceEffects (keepsClaims_silencedPart t) _
  | disable p =>
    exact fun h => keepsClaims_dropStrikes _ _ (keepsClaims_of_only (modPort_only t p _).but h)
  | _ => exact keepsClaims_of_only reached.but

theorem keepsClaims_of_own {s v : State} {c : Instr} (h : OwnEffect s c v) (hs : RestOutsideReady s) (hv : RestOutsideReady v) :
    KeepsClaims s v := by
  have k := cueDriven_keepsClaims
  have reached := Only.of_own h
  have shaped := h.shaped
  have empty : v.table = [] → KeepsClaims s v := fun he hs => claimsCounted_of_empty (shaped hs.toBlocksShaped) he
  cases h with
  | powerOn | reset => exact empty rfl
  | loss l =>
    refine k.loseLink (keepsClaims_emptiedLink l s) fun t _ _ ht => claimsCounted_of_empty ?_ rfl
    exact ⟨fun m => by cases m <;> exact List.length_replicate, fun m => by cases m <;> exact List.nodup_nil, by
      refine ⟨(by decide : (Tables.blank.divisions).length ≤ 6), fun n hn => absurd hn not_some_mem_replicate_none⟩⟩
  | sent l => exact keepsClaims_of_only (endTransmission_only l s).but
  | passed hc => exact fun h => claimsCounted_enterReady h.toBlocksShaped (restOutsideReady_iff.1 hs (by rw [hc]; decide)).registrations
  | failed f => exact empty (hv.table (by simp [State.engine, failCheck, fillReservation]))
  | struck a _ n | rested a => exact keepsClaims_of_bare rfl rfl (bareSame_setStroke s a _)
  | reiterated a n => exact k.trans (keepsClaims_of_only (rearm_only a n s).but) (k.requestStrike a _)
  | stepped p run => exact k.endStep (keepsClaims_of_only (setPlayer_only s p none).but) run
  | tripped p pt e =>
    obtain ⟨u, n, hu, e⟩ := tripPort_parts p e pt s
    rw [e]
    exact fun h => keepsClaims_dropStrikes _ _ (k.notifyAll n u (keepsClaims_of_only hu.but h))
  | supplyFell => exact fun h => k.notifyAll _ _ (keepsClaims_dropStrikes _ _ (keepsClaims_of_bare (s := s) rfl rfl rfl h))
  | dwelling c d => exact keepsClaims_of_only (supply_only s fun x => { x with dwell := d }).but
  | record =>
    exact k.takeCurrent fun i r _ => ⟨fun n _ => keepsClaims_of_only (figures_only s fun x => { x with tempo := n }).but,
      fun c p _ => keepsClaims_of_only (writeChannel_only c p s).but⟩
  | waited => exact k.completeCurrent s
  | _ => exact keepsClaims_of_only reached.but

theorem Effect.keepsClaims {s u : State} {c : Instr} (h : Effect c s u) (hr : RestOutsideReady s) (hu : RestOutsideReady u) : KeepsClaims s u := by
  have head : ∀ l, KeepsClaims s (Machine.takeHead l s) := fun l => keepsClaims_of_only (takeHead_only l s).but
  cases h with
  | played l m v _ hv => exact fun hs => keepsClaims_of_message hv hu (head l hs)
  | answered l m p v _ _ hv =>
    exact fun hs => keepsClaims_of_only (addPlace_only l p v).but (keepsClaims_of_message hv hu.of_addPlace (head l hs))
  | own v hv => exact keepsClaims_of_own hv hr hu

theorem exec_keepsClaims {c : Instr} {s t : State} (h : exec c s = .next t) (hr : RestOutsideReady s) : KeepsClaims s t := by
  rcases exec_effect h with rfl | ⟨serve, u, hu, rfl⟩
  · exact id
  · exact fun hs => relayed_keepsClaims.finish (by decide) serve u (hu.keepsClaims hr (hu.restOutsideReady hr) hs)

end Sys2Proof.Machine
end

