-- ==== Sys2Proof/Proofs/ClaimLaws.lean ====
section
/-! PROOF. The laws of R33 and R54: no two records for one target, and with that the counts of the claims that stand said record by record. -/

namespace Sys2Proof.Machine

-- One theorem after another, so that the compile needs few threads.
set_option Elab.async false

/-! ## One record a target -/

def KeepsTargets (s t : State) : Prop := TargetsDistinct s → TargetsDistinct t

theorem keepsTargets_map {s t : State} {f : Record → Record} (ht : t.table = s.table.map f) (hf : ∀ r, (f r).target = r.target) :
    KeepsTargets s t := fun h => by
  refine h.of_targets ?_
  rw [ht, List.map_map]
  exact List.map_congr_left fun r _ => hf r

theorem keepsTargets_of_table {s t : State} (ht : t.table = s.table) : KeepsTargets s t := fun h => by
  unfold TargetsDistinct
  rw [ht]
  exact h

theorem keepsTargets_of_only {s t : State} (k : Only (allBut [.store, .table]) s t) : KeepsTargets s t :=
  keepsTargets_of_table (k.field (by simp : Field.table ∈ _))

theorem keepsTargets_of_bare {s t : State} (h : BareSame s t) : KeepsTargets s t := fun hs => by
  refine hs.of_targets ?_
  have targets : ∀ u : State, u.table.map (·.target) = (u.table.map Record.bare).map (·.target) := fun u => by
    rw [List.map_map]
    rfl
  rw [targets, targets, h]

theorem keepsTargets_recount {s : State} {x : Target} {r q : Record} (hr : s.record x = some r) (ht : q.target = r.target) :
    KeepsTargets s (s.modRecord x fun _ => q) :=
  keepsTargets_map (f := fun p => if p.target = x then q else p) rfl fun p => by
    split
    next e => rw [ht, (State.mem_of_record hr).2, e]
    · rfl

theorem targetsDistinct_of_empty {s : State} (h : s.table = []) : TargetsDistinct s := by
  unfold TargetsDistinct
  rw [h]
  exact List.nodup_nil

theorem relayed_keepsTargets : Relayed (allBut [.store, .table]) KeepsTargets where
  free := keepsTargets_of_only
  trans := fun h k hs => k (h hs)
  bump := fun _ _ _ => keepsTargets_of_table rfl
  settle := fun _ => keepsTargets_of_table rfl
  start := fun s a => keepsTargets_of_bare (relayed_bareSame.start s a)
  dequeue := fun _ _ => keepsTargets_of_table rfl
  join := fun _ _ _ _ => keepsTargets_of_table rfl
  reiterate := fun _ _ _ _ => keepsTargets_of_table rfl
  endReiteration := fun _ _ => keepsTargets_of_table rfl
  damper := fun _ _ _ => keepsTargets_of_table rfl
  joins := fun _ _ _ _ _ _ => keepsTargets_of_table rfl
  begins := fun _ _ _ _ _ _ _ _ => keepsTargets_of_table rfl
  steps := fun _ _ _ _ _ _ _ _ _ => keepsTargets_of_table rfl
  leaves := fun _ _ _ _ _ _ => keepsTargets_of_table rfl

theorem cueDriven_keepsTargets : CueDriven (allBut [.store, .table]) KeepsTargets :=
  relayed_keepsTargets.cueDriven (fun s l n => keepsTargets_of_only (notify_only s l n).but) (by decide) (by decide) (by decide)
    (fun _ _ _ _ => keepsTargets_of_table rfl) (fun _ _ _ _ _ _ => keepsTargets_of_table rfl)
    (fun _ => keepsTargets_map rfl fun _ => rfl) (fun _ _ _ _ hr => keepsTargets_recount hr rfl)

theorem countsMove_keepsTargets (l : Link) : CountsMove l KeepsTargets := fun s x r add hr => keepsTargets_recount hr (by cases l <;> rfl)

theorem keepsTargets_silencedPart (s : State) : KeepsTargets s (silencedPart s) :=
  keepsTargets_map (silencedPart_table s) fun r => by rw [cutRecord_eq]; rfl

theorem keepsTargets_dropStrikes (reached : Addr → Bool) (s : State) : KeepsTargets s (dropStrikes reached s) :=
  keepsTargets_map rfl fun r => by rw [cutRecord_eq]

theorem keepsTargets_of_message {l : Link} {t v : State} {c : Instr} (h : MessageEffect l t c v) (hv : RestOutsideReady v) :
    KeepsTargets t v := by
  have k := cueDriven_keepsTargets
  have reached := Only.of_message h
  have resting : v.engine ≠ .ready → KeepsTargets t v := fun hne _ => targetsDistinct_of_empty (hv.table hne)
  by_cases hp : CueDriven.playing c = true
  · exact k.message (by decide) (k.tabsTurn (by decide) (by decide)) countsMove_keepsTargets h hp
  · cases h with
    | unchanged => exact k.refl t
    | discarded | ignored => exact k.bump _ _ _
    | specBegin | commit => exact resting (by unfold State.engine; simp [beginLoading])
    | divisions _ _ hl | sources _ _ hl | specStops _ _ hl | chambers _ _ hl | tremulants _ _ hl | ports _ _ hl | figures _ _ hl =>
      exact resting (by show t.engine ≠ _; rw [hl]; decide)
    | silence => exact k.silenceEffects (keepsTargets_silencedPart t) _
    | disable p => exact fun h => keepsTargets_dropStrikes _ _ (keepsTargets_of_table (s := t) rfl h)
    | _ => first
      | exact absurd rfl hp
      | exact keepsTargets_of_only reached.but

theorem keepsTargets_of_own {s v : State} {c : Instr} (h : OwnEffect s c v) : KeepsTargets s v := by
  have k := cueDriven_keepsTargets
  have reached := Only.of_own h
  cases h with
  | powerOn | reset => exact fun _ => targetsDistinct_of_empty rfl
  | loss l =>
    exact k.loseLink (k.emptiedLink (countsMove_keepsTargets l) (by decide) (by decide) (k.tabsTurn (by decide) (by decide) l) s)
      fun t _ _ _ => targetsDistinct_of_empty rfl
  | sent l => exact keepsTargets_of_only (endTransmission_only l s).but
  | passed _ hc =>
    intro _
    unfold TargetsDistinct
    rw [enterReady_table]
    exact demandTable_targets_nodup hc
  | failed f => exact keepsTargets_of_table rfl
  | struck a | rested a => exact keepsTargets_of_bare (bareSame_setStroke s a _)
  | reiterated a n => exact k.trans (keepsTargets_of_table (t := rearm a n s) rfl) (k.requestStrike a _)
  | stepped p run => exact k.endStep (keepsTargets_of_table rfl) run
  | tripped p pt e =>
    obtain ⟨u, n, hu, e⟩ := tripPort_parts p e pt s
    rw [e]
    exact fun h => keepsTargets_dropStrikes _ _ (k.notifyAll n u (keepsTargets_of_only hu.but h))
  | supplyFell => exact fun h => k.notifyAll _ _ (keepsTargets_dropStrikes _ _ (keepsTargets_of_table (s := s) rfl h))
  | dwelling => exact keepsTargets_of_table rfl
  | record =>
    exact k.takeCurrent fun i r _ => ⟨fun n _ => keepsTargets_of_table rfl, fun c p _ => keepsTargets_of_only (writeChannel_only c p s).but⟩
  | waited => exact k.completeCurrent s
  | _ => exact keepsTargets_of_only reached.but

theorem exec_keepsTargets {c : Instr} {s t : State} (h : exec c s = .next t) (hr : RestOutsideReady s) : KeepsTargets s t := by
  rcases exec_effect h with rfl | ⟨serve, u, hu, rfl⟩
  · exact id
  · refine fun hs => relayed_keepsTargets.finish (by decide) serve u ?_
    have hu' := hu.restOutsideReady hr
    have head : ∀ l, TargetsDistinct (takeHead l s) := fun l => keepsTargets_of_only (takeHead_only l s).but hs
    cases hu with
    | played l m v _ hv => exact keepsTargets_of_message hv hu' (head l)
    | answered l m p v _ _ hv => exact keepsTargets_of_only (addPlace_only l p v).but (keepsTargets_of_message hv hu'.of_addPlace (head l))
    | own v hv => exact keepsTargets_of_own hv hs

/-! ## The laws record by record -/

theorem claimsShaped_iff {s : State} : ClaimsShaped s ↔ TargetsDistinct s ∧ BlocksShaped s := by
  have divisions : (∀ d n, s.division d = some n → n ≤ 64) ↔ ∀ n, some n ∈ s.store.tables.divisions → n ≤ 64 := by
    refine ⟨fun h n hn => ?_, fun h d n hd => h n (mem_of_join hd)⟩
    obtain ⟨d, hd⟩ := List.mem_iff_getElem?.1 hn
    exact h d n (by unfold State.division; rw [hd]; rfl)
  constructor
  · rintro ⟨targets, places, stops, length, keys⟩
    exact ⟨targets, places, stops, length, divisions.1 keys⟩
  · rintro ⟨targets, places, stops, length, keys⟩
    exact ⟨targets, places, stops, length, divisions.2 keys⟩

/-- Where no two records stand for one target, the count read at a target is the count of its record. -/
theorem claimsCounted_iff {s : State} (h : TargetsDistinct s) : ClaimsCounted s ↔ BlocksShaped s ∧ ClaimLaw s := by
  constructor
  · intro hc
    refine ⟨hc.toBlocksShaped, fun l r hr => ?_⟩
    rw [← hc.counts l r.target r.bare (by unfold State.bare; rw [State.record_of_mem h hr]; rfl)]
    cases l <;> rfl
  · rintro ⟨shaped, law⟩
    refine { shaped with counts := fun l x b hb => ?_ }
    obtain ⟨r, hr, rfl⟩ := Option.map_eq_some_iff.1 hb
    obtain ⟨hm, rfl⟩ := State.mem_of_record hr
    rw [← law l r hm]
    cases l <;> rfl

/-- What keeps the records distinct and their claims counted keeps the laws. -/
theorem claimLaws_kept {s t : State} (targets : KeepsTargets s t) (claims : KeepsClaims s t) (hs : ClaimsShaped s) (hl : ClaimLaw s) :
    ClaimsShaped t ∧ ClaimLaw t := by
  obtain ⟨distinct, shaped⟩ := claimsShaped_iff.1 hs
  have distinct' := targets distinct
  obtain ⟨shaped', law⟩ := (claimsCounted_iff distinct').1 (claims ((claimsCounted_iff distinct).2 ⟨shaped, hl⟩))
  exact ⟨claimsShaped_iff.2 ⟨distinct', shaped'⟩, law⟩

/-- Settles O10. -/
theorem everyStepKeepsTheTranspositionAndClaimLaws : Obligations.EveryStepKeepsTheTranspositionAndClaimLaws := fun s t h => by
  have same : ∀ u, u.regs = s.regs → TranspositionLaw s → TranspositionLaw u := fun u e hs l => by
    rw [State.reg_of_regs e]
    exact hs l
  rcases step_comes h with rfl | ⟨c, rest, he⟩
  · have only := tick_only s
    exact ⟨same _ only.regs, fun _ => claimLaws_kept (keepsTargets_of_only only.but) (keepsClaims_of_only only.but)⟩
  · have only := pending_only s rest
    refine ⟨fun hs => exec_transpositionLaw he (same _ only.regs hs), fun hr => ?_⟩
    have hr' := hr.of_only only (by decide)
    exact claimLaws_kept (fun hs => exec_keepsTargets he hr' (keepsTargets_of_only only.but hs))
      fun hs => exec_keepsClaims he hr' (keepsClaims_of_only only.but hs)

end Sys2Proof.Machine
end

