-- ==== Sys2Proof/Proofs/ResolutionAndLayouts.lean ====
section
/-! PROOF. Resolution, times and layouts: what a claim reaches, the bounds of pulse times, targets and scaled durations, and the bytes of cue
records and frames read back. -/

namespace Sys2Proof.Machine

-- One theorem after another, so that the compile needs few threads.
set_option Elab.async false

/-! ## Resolution (R44, R45, R48) -/

theorem resolveNote_mem {c : Compass} {n : Int} {m : Nat} (h : resolveNote c n = some m) : c.low ≤ m ∧ m ≤ c.high := by
  by_cases above : (c.high : Int) < n
  · by_cases hf : c.fold = .off
    · rw [resolveNote_above_of_fold_off above hf] at h
      cases h
    · obtain ⟨low, high, -⟩ := (resolveNote_above_eq_some_iff above hf m).1 h
      exact ⟨low, high⟩
  · by_cases below : n < (c.low : Int)
    · by_cases hf : c.fold = .both
      · obtain ⟨low, high, -⟩ := (resolveNote_below_eq_some_iff (not_lt.1 above) below hf m).1 h
        exact ⟨low, high⟩
      · rw [resolveNote_below_of_fold_ne_both (not_lt.1 above) below hf] at h
        cases h
    · unfold resolveNote at h
      rw [if_neg above, if_neg below] at h
      cases h
      omega

theorem resolveNote_of_mem {c : Compass} {n : Nat} (hl : c.low ≤ n) (hh : n ≤ c.high) : resolveNote c n = some n := by
  unfold resolveNote
  rw [if_neg (by omega), if_neg (by omega)]
  rfl

/-- A rank's or percussion's stop resolves a key by its raw note. -/
theorem State.resolve_of_compass {s : State} {st : Stop} {c : Compass} {o : Outlet}
    (h : s.source st.source = some (.rank c o) ∨ ∃ k m d, s.source st.source = some (.percussion c o k m d)) (key : Nat) (t : Int) :
    s.resolve st key t = (resolveNote c (rawNote key t st.offset)).map fun n => .output (noteOutput c o n) := by
  unfold State.resolve
  rcases h with e | ⟨k, m, d, e⟩ <;> rw [e]

/-- Settles O20. -/
theorem resolutionReachesTheOutputOfTheNote : Obligations.ResolutionReachesTheOutputOfTheNote := by
  intro s st key t
  refine ⟨fun c o x h => ⟨fun hx => ?_, fun n hn hl hh => ?_⟩, fun o k m h => ?_, fun f h => ?_⟩
  · rw [State.resolve_of_compass h] at hx
    obtain ⟨n, hn, rfl⟩ := Option.map_eq_some_iff.1 hx
    obtain ⟨hl, hh⟩ := resolveNote_mem hn
    exact ⟨n, hl, hh, rfl⟩
  · have raw : rawNote key t st.offset = (n : Int) := hn.symm
    rw [State.resolve_of_compass h, raw, resolveNote_of_mem hl hh]
    rfl
  · unfold State.resolve
    rw [h]
  · unfold State.resolve
    rw [h]

/-! ## Times (R96, R105, R112) -/

theorem Tremulant.period_bounds {t : Tremulant} (low : 20 ≤ t.rate) (high : t.rate ≤ 150) : 67 ≤ t.period ∧ t.period ≤ 500 := by
  have pos : 0 < t.rate := by omega
  unfold Tremulant.period
  exact ⟨(Nat.le_div_iff_mul_le pos).2 (by omega), Nat.lt_succ_iff.1 ((Nat.div_lt_iff_lt_mul pos).2 (by omega))⟩

theorem Tremulant.times_bounds {t : Tremulant} (period : 67 ≤ t.period) (low : 20 ≤ t.duty) (high : t.duty ≤ 80) :
    13 ≤ t.openTime ∧ 13 ≤ t.closedTime ∧ t.openTime + t.closedTime = t.period := by
  have atLeast : t.period * 20 ≤ t.period * t.duty := Nat.mul_le_mul_left _ low
  have atMost : t.period * t.duty ≤ t.period * 80 := Nat.mul_le_mul_left _ high
  unfold Tremulant.closedTime Tremulant.openTime
  omega

theorem scaledDuration_bounds {d scale : Nat} (hd : d ≤ 2000) (hs : 50 ≤ scale) : 10 ≤ scaledDuration d scale ∧ scaledDuration d scale ≤ 4000 := by
  have scaled : (d * 100 + scale / 2) / scale ≤ 4000 := Nat.lt_succ_iff.1 ((Nat.div_lt_iff_lt_mul (by omega)).2 (by omega))
  unfold scaledDuration
  omega

/-- Settles O21. -/
theorem pulseTimesTargetsAndScaledDurationsKeepTheirBounds : Obligations.PulseTimesTargetsAndScaledDurationsKeepTheirBounds := by
  refine ⟨fun t rateLow rateHigh dutyLow dutyHigh => ?_, fun position stages hp hs => ?_, fun d scale low high slow fast => ?_⟩
  · obtain ⟨low, high⟩ := Tremulant.period_bounds rateLow rateHigh
    exact ⟨low, high, Tremulant.times_bounds low dutyLow dutyHigh⟩
  · refine ⟨stageTarget_le (by omega) stages, ?_, ?_⟩ <;> unfold stageTarget <;> omega
  · obtain ⟨atLeast, atMost⟩ := scaledDuration_bounds high slow
    refine ⟨atLeast, atMost, ?_⟩
    unfold scaledDuration
    omega

/-! ## Fields read back -/

theorem toNat_byteOf (n : Nat) : (byteOf n).toNat = n % 256 := BitVec.toNat_ofNat n 8

theorem number2_byteOf {n : Nat} (h : n < 65536) : number2 (byteOf (n / 256)) (byteOf n) = n := by
  unfold number2
  rw [toNat_byteOf, toNat_byteOf]
  omega

theorem field1_byteOf {lo hi n : Nat} (hl : lo ≤ n) (hh : n ≤ hi) (h : n < 256 := by omega) : field1 lo hi (byteOf n) = some n := by
  unfold field1
  rw [toNat_byteOf, Nat.mod_eq_of_lt h, if_pos ⟨hl, hh⟩]

theorem field2_byteOf {lo hi n : Nat} (hl : lo ≤ n) (hh : n ≤ hi) (h : n < 65536 := by omega) :
    field2 lo hi (byteOf (n / 256)) (byteOf n) = some n := by
  unfold field2
  rw [number2_byteOf h, if_pos ⟨hl, hh⟩]

theorem fieldFlag_flagByte (b : Bool) : fieldFlag (flagByte b) = some b := by cases b <;> rfl

theorem byteOf_ne_ones {n : Nat} (h : n % 256 ≠ 255) : byteOf n ≠ 0xFF := fun e => h (by rw [← toNat_byteOf, e]; rfl)

theorem readNote_optByte {note : Option Nat} (h : ∀ n ∈ note, n < 128) : readNote (optByte note) = some note := by
  cases note with
  | none => rfl
  | some n =>
    have hn : n < 128 := h n rfl
    unfold readNote optByte
    rw [if_neg (byteOf_ne_ones (by omega)), field1_byteOf (Nat.zero_le _) (by omega)]
    rfl

theorem readNext_optBytes2 {next : Option Nat} (h : ∀ n ∈ next, n < 512) :
    ∃ high low, optBytes2 next = [high, low] ∧ readNext high low = some next := by
  cases next with
  | none => exact ⟨_, _, rfl, rfl⟩
  | some n =>
    have hn : n < 512 := h n rfl
    refine ⟨_, _, rfl, ?_⟩
    unfold readNext
    rw [if_neg fun e => byteOf_ne_ones (by omega) e.1, field2_byteOf (Nat.zero_le _) (by omega)]
    rfl

/-! ## Cue records (R138 to R141) -/

/-- An action's bytes are six, and read back to it. -/
theorem readAction_bytes {action : Action} (h : action.InRange) :
    ∃ first second switch high low, action.bytes.2 = [first, second, switch, high, low] ∧
      readAction action.bytes.1 first second switch high low = some action := by
  cases action with
  | strike source note =>
    obtain ⟨hs, hn⟩ := h
    exact ⟨_, _, _, _, _, rfl, by
      simp [Action.bytes, readAction, field1_byteOf (lo := 0) (Nat.zero_le source) (Nat.le_of_lt_succ hs), readNote_optByte hn]⟩
  | hold source note on =>
    obtain ⟨hs, hn⟩ := h
    exact ⟨_, _, _, _, _, rfl, by
      simp [Action.bytes, readAction, field1_byteOf (lo := 0) (Nat.zero_le source) (Nat.le_of_lt_succ hs), readNote_optByte hn,
        fieldFlag_flagByte]⟩
  | figure f start =>
    have hf : f < 16 := h
    exact ⟨_, _, _, _, _, rfl, by
      simp [Action.bytes, readAction, field1_byteOf (lo := 0) (Nat.zero_le f) (Nat.le_of_lt_succ hf), fieldFlag_flagByte]⟩
  | express k position =>
    obtain ⟨hk, hp⟩ := h
    exact ⟨_, _, _, _, _, rfl, by
      simp [Action.bytes, readAction, field1_byteOf (lo := 0) (Nat.zero_le k) (Nat.le_of_lt_succ hk),
        field1_byteOf (lo := 0) (Nat.zero_le position) (Nat.le_of_lt_succ hp)]⟩
  | tempo scale =>
    obtain ⟨hl, hh⟩ := h
    exact ⟨_, _, _, _, _, rfl, by simp [Action.bytes, readAction, field2_byteOf hl hh]⟩
  | tremulant j on =>
    have hj : j < 8 := h
    exact ⟨_, _, _, _, _, rfl, by
      simp [Action.bytes, readAction, field1_byteOf (lo := 0) (Nat.zero_le j) (Nat.le_of_lt_succ hj), fieldFlag_flagByte]⟩
  | wait d =>
    obtain ⟨hl, hh⟩ := h
    exact ⟨_, _, _, _, _, rfl, by simp [Action.bytes, readAction, field2_byteOf hl hh]⟩
  | awaitGo => exact ⟨_, _, _, _, _, rfl, rfl⟩

/-- Settles O22. -/
theorem cueRecordBytesReadBackToTheRecord : Obligations.CueRecordBytesReadBackToTheRecord := by
  rintro i ⟨next, action, suspendAfter, indicate⟩ hi ⟨hnext, haction⟩
  obtain ⟨nh, nl, enext, rnext⟩ := readNext_optBytes2 hnext
  obtain ⟨first, second, switch, high, low, eaction, raction⟩ := readAction_bytes haction
  have flags : (byteOf (suspendAfter.toNat + 2 * indicate.toNat)).getLsbD 0 = suspendAfter ∧
      (byteOf (suspendAfter.toNat + 2 * indicate.toNat)).getLsbD 1 = indicate := by
    cases suspendAfter <;> cases indicate <;> decide
  unfold CueBody.bytes
  dsimp only at enext eaction raction ⊢
  rw [enext, eaction]
  show readCueWrite [_, _, nh, nl, _, _, first, second, switch, high, low] = _
  unfold readCueWrite
  dsimp only
  rw [field2_byteOf (Nat.zero_le i) (by omega), rnext, raction, flags.1, flags.2]
  rfl

/-! ## Frames (R161 to R163) -/

theorem State.setReceiver_setReceiver (s : State) (l : Link) (r q : Receiver) : (s.setReceiver l r).setReceiver l q = s.setReceiver l q := by
  cases l <;> rfl

theorem State.receiver_setReceiver (s : State) (l : Link) (r : Receiver) : ((s.setReceiver l r).link l).receiver = r := by
  cases l <;> rfl

theorem State.setReceiver_self {s : State} {l : Link} {r : Receiver} (h : (s.link l).receiver = r) : s.setReceiver l r = s := by
  subst h
  cases l <;> rfl

/-- Bytes of a frame that is not complete with them are gathered. -/
theorem foldl_receiveByte_inFrame (l : Link) (n : Nat) (s : State) : ∀ (bs got : List Byte), got.length + bs.length < n + 2 →
    bs.foldl (fun t b => receiveByte l b t) (s.setReceiver l (.inFrame (some n) got (s.now + Config.interByteTime))) =
      s.setReceiver l (.inFrame (some n) (got ++ bs) (s.now + Config.interByteTime))
  | [], got, _ => by rw [List.append_nil]; rfl
  | b :: bs, got, h => by
    rw [List.length_cons] at h
    have taken : receiveByte l b (s.setReceiver l (.inFrame (some n) got (s.now + Config.interByteTime))) =
        s.setReceiver l (.inFrame (some n) (got ++ [b]) (s.now + Config.interByteTime)) := by
      unfold receiveByte
      rw [State.receiver_setReceiver]
      dsimp only
      rw [if_pos (by omega), State.setReceiver_setReceiver]
      rfl
    rw [List.foldl_cons, taken, foldl_receiveByte_inFrame l n s bs (got ++ [b]) (by simp; omega), List.append_assoc]
    rfl

/-- Settles O23: the receiver gathers all bytes but the last, and the last completes a frame whose check agrees. -/
theorem aFrameIsReceivedAsTheMessageItWasBuiltFrom : Obligations.AFrameIsReceivedAsTheMessageItWasBuiltFrom := by
  intro l kind body s hunting hlen
  have length : (byteOf (body.length + 1)).toNat = body.length + 1 := by rw [toNat_byteOf]; omega
  obtain ⟨high, low, hcheck⟩ : ∃ high low, checkBytes (byteOf (body.length + 1) :: kind :: body) = [high, low] := ⟨_, _, rfl⟩
  have frame : frameOf kind body = Config.leadByte :: byteOf (body.length + 1) :: ((kind :: body ++ [high]) ++ [low]) := by
    unfold frameOf
    dsimp only
    rw [hcheck]
    simp
  have lead : receiveByte l Config.leadByte s = s.setReceiver l (.inFrame none [] (s.now + Config.interByteTime)) := by
    unfold receiveByte
    rw [hunting]
    dsimp only
    rw [if_pos rfl]
  have sized : receiveByte l (byteOf (body.length + 1)) (s.setReceiver l (.inFrame none [] (s.now + Config.interByteTime))) =
      s.setReceiver l (.inFrame (some (body.length + 1)) [] (s.now + Config.interByteTime)) := by
    unfold receiveByte
    rw [State.receiver_setReceiver]
    dsimp only
    rw [length, if_neg (by simp [Config.maxLength]; omega), State.setReceiver_setReceiver]
    rfl
  rw [frame, List.foldl_cons, List.foldl_cons, lead, sized, List.foldl_append,
    foldl_receiveByte_inFrame l _ s _ [] (by simp), List.foldl_cons, List.foldl_nil]
  unfold receiveByte
  rw [State.receiver_setReceiver]
  dsimp only
  rw [if_neg (by simp), State.setReceiver_setReceiver, State.setReceiver_self hunting]
  have gathered : [] ++ (kind :: body ++ [high]) ++ [low] = (kind :: body) ++ [high, low] := by simp
  have covered : (kind :: body).length = body.length + 1 := rfl
  unfold completeFrame
  rw [gathered, List.take_left' covered, List.drop_left' covered]
  dsimp only
  rw [if_pos hcheck]

end Sys2Proof.Machine
end

