-- ==== Sys2Proof/Proofs/NoticesAndTransmission.lean ====
section
/-! PROOF. The notice queue and the transmitter (R167 to R169, R174, R176): how a notice joins, what an idle transmitter begins and behind
which four bytes of status, and what the end of a frame makes of the link. -/

namespace Sys2Proof.Machine

-- One theorem after another, so that the compile needs few threads.
set_option Elab.async false

/-! ## A notice at the queue (R169) -/

theorem State.notify_of_down {s : State} {l : Link} (h : (s.link l).state = .down) (n : Notice) : s.notify l n = s := by
  unfold State.notify
  rw [h]

theorem State.notify_of_up {s : State} {l : Link} (h : (s.link l).state = .up) (n : Notice) :
    ((s.notify l n).link l).notices = (joinNotices (s.link l).notices n).1 ∧
      (s.notify l n).counters = (if (joinNotices (s.link l).notices n).2 then s.bump (.noticesDiscarded l) else s).counters := by
  unfold State.notify
  rw [h]
  dsimp only
  split
  · rw [State.link_of_links (State.bump_links _ _), State.link_modLink_same]
    exact ⟨rfl, rfl⟩
  · rw [State.link_modLink_same]
    exact ⟨rfl, rfl⟩

theorem joinNotices_of_room {q : List Notice} (h : q.length < 16) (n : Notice) : joinNotices q n = (q ++ [n], false) := by
  unfold joinNotices
  exact if_pos h

theorem joinNotices_of_routine {q : List Notice} {n : Notice} (h : q.length = 16) (hn : n.urgent = false) : joinNotices q n = (q, true) := by
  unfold joinNotices
  rw [if_neg (by rw [h]; decide), hn]
  rfl

theorem joinNotices_of_all_urgent {q : List Notice} {n : Notice} (h : q.length = 16) (hq : ∀ x ∈ q, x.urgent = true) :
    joinNotices q n = (q, true) := by
  have none : q.any (fun m => !m.urgent) = false := by
    rw [List.any_eq_false]
    intro x hx
    simp [hq x hx]
  unfold joinNotices
  rw [if_neg (by rw [h]; decide), none, Bool.and_false]
  rfl

theorem joinNotices_displacing {us : List Notice} {m : Notice} {rest : List Notice} {n : Notice} (h : (us ++ m :: rest).length = 16)
    (hn : n.urgent = true) (hus : ∀ x ∈ us, x.urgent = true) (hm : m.urgent = false) :
    joinNotices (us ++ m :: rest) n = (us ++ rest ++ [n], true) := by
  have some : (us ++ m :: rest).any (fun m => !m.urgent) = true := by simp [hm]
  unfold joinNotices
  rw [if_neg (by rw [h]; decide), hn, some, List.eraseP_append_right _ (fun x hx => by simp [hus x hx]), List.eraseP_cons_of_pos (by simp [hm])]
  rfl

/-- Settles O26, a clause from the equation of its way. -/
theorem aNoticeJoinsDisplacesOrIsDiscarded : Obligations.ANoticeJoinsDisplacesOrIsDiscarded := by
  intro l n s
  refine ⟨fun h => State.notify_of_down h n, fun up room => ?_, fun up full urgent => ⟨fun us m rest hq hus hm => ?_, fun all => ?_⟩,
    fun up full routine => ?_, notify_facing l l n s, notify_of_ne (otherLink_ne l) n s, notify_only s l n⟩
  all_goals
    obtain ⟨queue, counted⟩ := State.notify_of_up up n
    rw [queue, counted]
  · rw [joinNotices_of_room room]
    exact ⟨rfl, rfl⟩
  · rw [hq, joinNotices_displacing (hq ▸ full) urgent hus hm]
    exact ⟨rfl, rfl⟩
  · rw [joinNotices_of_all_urgent full all]
    exact ⟨rfl, rfl⟩
  · rw [joinNotices_of_routine full routine]
    exact ⟨rfl, rfl⟩

/-! ## What is sent, byte by byte (R174, R176) -/

theorem byteOf_add (m n : Nat) : byteOf (m + n) = byteOf m + byteOf n := BitVec.ofNat_add m n

theorem orNone2_eq (v : Option Nat) : orNone2 v = optBytes2 v := by cases v <;> rfl

theorem orNone_eq (v : Option Nat) : orNone v = optByte v := by cases v <;> rfl

theorem ReplyCode.number_eq (c : ReplyCode) : c.number = byteOf c.code := by cases c <;> rfl

theorem Notice.fields_eq (n : Notice) : n.fields = n.bytes := by
  cases n with
  | linkUp l | linkDown l => cases l <;> rfl
  | cueStopped reason i =>
    show [11, _] ++ orNone2 i = 11 :: _ :: optBytes2 i
    rw [orNone2_eq]
    cases reason <;> rfl
  | _ => rfl

theorem State.portDown_iff {s : State} : s.portDown = true ↔
    s.engine = .ready ∧ ∃ p ∈ List.range 8, s.portEntry p ≠ none ∧ (s.ports[p]?).map (fun pt : Port => pt.state) ≠ some .active := by
  have active : ∀ p, s.portActive p = true ↔ (s.ports[p]?).map (fun pt : Port => pt.state) = some .active := fun p => by
    unfold State.portActive
    cases s.ports[p]? <;> simp
  unfold State.portDown
  rw [Bool.and_eq_true, State.ready_iff, List.any_eq_true]
  refine and_congr_right fun _ => exists_congr fun p => and_congr_right fun _ => ?_
  rw [Bool.and_eq_true, Option.isSome_iff_ne_none, Bool.not_eq_true', ← Bool.not_eq_true, active]

theorem State.prefixBytes_eq (s : State) (l : Link) : s.prefixBytes l = s.statusPrefix l := by
  unfold State.prefixBytes State.statusPrefix
  simp only [byteOf_add, orNone2_eq, List.cons_append, List.nil_append, List.cons.injEq, and_true]
  congr 1
  · congr 1
    · congr 1
      · congr 1
        · cases s.engine <;> rfl
        · cases s.cue.state <;> rfl
      · unfold State.supplyGood
        cases s.supply.state <;> rfl
    · split
      next h => rw [State.portDown_iff.2 h]; rfl
      next h => rw [Bool.eq_false_iff.2 fun e => h (State.portDown_iff.1 e)]; rfl
  · cases (s.link l).flow <;> rfl

/-! ## The transmitter (R168) -/

theorem findIdx?_reply {passed rest : List Place} {r : Reply} (h : ∀ p ∈ passed, ∃ tag, p = .reserved tag) :
    (passed ++ .holding r :: rest).findIdx? (fun p => p.reply?.isSome) = some passed.length := by
  rw [List.findIdx?_eq_some_iff_getElem]
  refine ⟨by simp, by simp [Place.reply?], fun j hj => ?_⟩
  obtain ⟨tag, e⟩ := h passed[j] (List.getElem_mem hj)
  rw [List.getElem_append_left hj, e]
  exact Bool.false_ne_true

theorem beginTransmission_reply {s : State} {l : Link} {passed rest : List Place} {r : Reply} (idle : (s.link l).transmitter = .idle)
    (hr : (s.link l).replies = passed ++ .holding r :: rest) (h : ∀ p ∈ passed, ∃ tag, p = .reserved tag) :
    beginTransmission l s = s.modLink l fun i =>
      { i with transmitter := .sending (.reply passed.length) (frameOf Kind.reply (s.statusPrefix l ++ r.bytes)) s.now } := by
  unfold beginTransmission
  rw [idle]
  dsimp only
  rw [hr, findIdx?_reply h]
  dsimp only
  rw [List.getElem?_append_right le_rfl, Nat.sub_self]
  rfl

theorem beginTransmission_notice {s : State} {l : Link} {n : Notice} {rest : List Notice} (idle : (s.link l).transmitter = .idle)
    (hr : ∀ p ∈ (s.link l).replies, p.reply? = none) (hn : (s.link l).notices = n :: rest) :
    (beginTransmission l s).link l = { s.link l with
      notices := rest
      transmitter := .sending (.notice n)
        (frameOf Kind.notice ((s.modLink l fun i => { i with notices := rest }).statusPrefix l ++ n.bytes)) s.now } := by
  unfold beginTransmission
  rw [idle]
  dsimp only
  rw [findReply_none hr]
  dsimp only
  rw [hn]
  dsimp only
  rw [State.link_modLink_same, State.link_modLink_same]

theorem reply?_of_reserved {ps : List Place} (h : ∀ p ∈ ps, ∃ tag, p = .reserved tag) : ∀ p ∈ ps, p.reply? = none := fun p hp => by
  obtain ⟨tag, rfl⟩ := h p hp
  rfl

/-- Settles O27. -/
theorem anIdleTransmitterBeginsTheOldestReplyOrNotice : Obligations.AnIdleTransmitterBeginsTheOldestReplyOrNotice := by
  intro l s
  refine ⟨fun sending => beginTransmission_of_quiet fun idle => absurd idle sending, fun passed r rest idle hr h => ?_,
    fun n rest idle reserved hn => ?_, fun idle reserved hn => beginTransmission_of_quiet fun _ => ⟨hn, reply?_of_reserved reserved⟩,
    beginTransmission_other l _ (otherLink_ne l) s, beginTransmission_only l s⟩
  · rw [beginTransmission_reply idle hr h, State.link_modLink_same, State.prefixBytes_eq, ReplyCode.number_eq]
    rfl
  · rw [beginTransmission_notice idle (reply?_of_reserved reserved) hn, State.prefixBytes_eq, Notice.fields_eq]
    rfl

/-! ## The end of an event at one link -/

/-- Where the other link is quiet, one transmitter alone may begin. -/
theorem transmit_of_quiet_other {l : Link} {s : State} (h : (s.link (otherLink l)).Quiet) :
    beginTransmission .two (beginTransmission .one s) = beginTransmission l s := by
  cases l with
  | one =>
    refine beginTransmission_of_quiet ?_
    rw [beginTransmission_other .one .two (by decide)]
    exact h
  | two => exact congrArg _ (beginTransmission_of_quiet h)

/-- The places that the end of a frame leaves. -/
def Sending.left (what : Sending) (places : List Place) : List Place :=
  match what with
  | .reply place => places.eraseIdx place
  | .notice _ => places

theorem endTransmission_of_sending {s : State} {l : Link} {what : Sending} {frame : List Byte} {began : Nat}
    (h : (s.link l).transmitter = .sending what frame began) : endTransmission l s = s.modLink l fun i =>
      { i with transmitter := .idle, replies := what.left i.replies } := by
  unfold endTransmission
  rw [h]
  cases what <;> rfl

/-- Settles O31. -/
theorem theEndOfAFrameFreesItsPlaceAndBeginsTheNext : Obligations.TheEndOfAFrameFreesItsPlaceAndBeginsTheNext := by
  intro l s what frame began hd noReset sending ended_by
  have due : s.due (s.sendingUntil l) = true := by
    unfold State.sendingUntil State.due
    rw [sending]
    exact decide_eq_true ended_by
  have ends := endTransmission_of_sending sending
  have only : Only [.links] s (endTransmission l s) := endTransmission_only l s
  have other : (endTransmission l s).link (otherLink l) = s.link (otherLink l) := by
    rw [ends, State.link_modLink_of_ne _ (otherLink_ne l)]
  have quiet : ((endTransmission l s).link (otherLink l)).Quiet := other ▸ hd.quiet (otherLink l)
  refine ⟨beginTransmission l (endTransmission l s), ?_, congrArg (fun t => (beginTransmission l t).link l) ends, ?_, only.trans (beginTransmission_only _ _)⟩
  · show execTransmitEnd l s = _
    unfold execTransmitEnd
    rw [if_pos due, noReset, ← transmit_of_quiet_other quiet, ← finish_of_settled (hd.settled.of_only only.mono)]
    rfl
  · rw [beginTransmission_other l _ (otherLink_ne l), other]

end Sys2Proof.Machine
end

