-- ==== Sys2Proof/Proofs/Telling.lean ====
section
/-! PROOF. What a link is told in an event (R166, R168, R169, R170). `Tells` says which notices an effect has appended at a link; the end of
the event begins the first of them, or the reply before them. -/

namespace Sys2Proof.Machine

-- One theorem after another, so that the compile needs few threads.
set_option Elab.async false

/-! ## The transmitters at the end of an event -/

theorem settleAndServe_link (serve : Bool) (s : State) (m : Link) : (settleAndServe serve s).link m = s.link m :=
  State.link_of_links (settleAndServe_only serve s).links m

/-- Each link's transmitter acts on its own interface as the event left it. -/
theorem finish_link (serve : Bool) (u : State) (m : Link) :
    ∃ w, w.link m = u.link m ∧ w.now = u.now ∧ (finish serve u).link m = (beginTransmission m w).link m := by
  unfold finish
  cases m with
  | one =>
    exact ⟨settleAndServe serve u, settleAndServe_link serve u .one, (settleAndServe_only serve u).now,
      beginTransmission_other .two .one (by decide) _⟩
  | two =>
    refine ⟨beginTransmission .one (settleAndServe serve u), ?_, ?_, rfl⟩
    · rw [beginTransmission_other .one .two (by decide), settleAndServe_link]
    · rw [(beginTransmission_only .one _).now, (settleAndServe_only serve u).now]

theorem finish_of_link_quiet {u : State} {m : Link} (serve : Bool) (h : (u.link m).Quiet) : (finish serve u).link m = u.link m := by
  obtain ⟨w, hw, -, e⟩ := finish_link serve u m
  rw [e, beginTransmission_of_quiet (hw ▸ h), hw]

theorem finish_of_sending {u : State} {m : Link} (serve : Bool) (h : (u.link m).transmitter ≠ .idle) : (finish serve u).link m = u.link m :=
  finish_of_link_quiet serve fun idle => absurd idle h

theorem finish_begins_notice {u : State} {m : Link} {n : Notice} {rest : List Notice} (serve : Bool) (idle : (u.link m).transmitter = .idle)
    (hr : ∀ p ∈ (u.link m).replies, p.reply? = none) (hn : (u.link m).notices = n :: rest) :
    ∃ frame, (finish serve u).link m = { u.link m with notices := rest, transmitter := .sending (.notice n) frame u.now } := by
  obtain ⟨w, hw, hnow, e⟩ := finish_link serve u m
  have begun := beginTransmission_notice (hw ▸ idle) (hw ▸ hr) (hw ▸ hn)
  rw [hw, hnow] at begun
  exact ⟨_, e.trans begun⟩

theorem finish_begins_reply {u : State} {m : Link} {r : Reply} {passed : List Place} (serve : Bool) (idle : (u.link m).transmitter = .idle)
    (hp : ∀ p ∈ passed, ∃ tag, p = .reserved tag) (hr : (u.link m).replies = passed ++ [.holding r]) :
    ∃ frame, (finish serve u).link m = { u.link m with transmitter := .sending (.reply passed.length) frame u.now } := by
  obtain ⟨w, hw, hnow, e⟩ := finish_link serve u m
  have begun := congrArg (fun t => t.link m) (beginTransmission_reply (rest := []) (hw ▸ idle) (hw ▸ hr) hp)
  simp only [State.link_modLink_same] at begun
  rw [hw, hnow] at begun
  exact ⟨_, e.trans begun⟩

/-! ## Notices appended by an effect -/

/-- A link's interface stands but for notices appended to its queue, as far as the queue holds them. -/
structure Tells (m : Link) (ns : List Notice) (s u : State) : Prop where
  now : u.now = s.now
  state : (u.link m).state = (s.link m).state
  transmitter : (u.link m).transmitter = (s.link m).transmitter
  replies : (u.link m).replies = (s.link m).replies
  notices : (s.link m).state = .up → (s.link m).notices.length + ns.length ≤ 16 → (u.link m).notices = (s.link m).notices ++ ns

theorem Tells.of_link {m : Link} {s u : State} (hl : u.link m = s.link m) (hn : u.now = s.now) : Tells m [] s u :=
  ⟨hn, by rw [hl], by rw [hl], by rw [hl], fun _ _ => by rw [hl, List.append_nil]⟩

theorem Tells.of_only {fs : List Field} (m : Link) {s u : State} (k : Only fs s u) (hl : Field.links ∉ fs := by decide)
    (hn : Field.now ∉ fs := by decide) : Tells m [] s u :=
  .of_link (State.link_of_links (k.links hl) m) (k.now hn)

theorem Tells.trans {m : Link} {ns ks : List Notice} {s t u : State} (h : Tells m ns s t) (k : Tells m ks t u) : Tells m (ns ++ ks) s u := by
  refine ⟨k.now.trans h.now, k.state.trans h.state, k.transmitter.trans h.transmitter, k.replies.trans h.replies, fun up fits => ?_⟩
  rw [List.length_append] at fits
  have first := h.notices up (by omega)
  rw [k.notices (h.state.trans up) (by rw [first, List.length_append]; omega), first, List.append_assoc]

theorem LinkIf.replies_of_facing {i j : LinkIf} (h : i.facing = j.facing) : i.replies = j.replies := by
  have e : i.facing.replies = j.facing.replies := by rw [h]
  exact e

theorem tells_notify (l : Link) (n : Notice) (s : State) : Tells l [n] s (s.notify l n) := by
  have facing := notify_facing l l n s
  refine ⟨(notify_only s l n).now, LinkIf.state_of_facing facing, ?_, LinkIf.replies_of_facing facing, fun up fits => ?_⟩
  · unfold State.notify
    split
    · rfl
    · dsimp only
      split
      · rw [State.link_of_links (State.bump_links _ _), State.link_modLink_same]
      · rw [State.link_modLink_same]
  · rw [(State.notify_of_up up n).1, joinNotices_of_room (by simpa using fits)]

theorem tells_notify_other {l m : Link} (h : m ≠ l) (n : Notice) (s : State) : Tells m [] s (s.notify l n) :=
  .of_link (notify_of_ne h n s) (notify_only s l n).now

theorem tells_notifyAll (m : Link) (n : Notice) (s : State) : Tells m [n] s (s.notifyAll n) := by
  cases m with
  | one => exact (tells_notify .one n s).trans (tells_notify_other (by decide) n _)
  | two => exact (tells_notify_other (by decide) n s).trans (tells_notify .two n _)

theorem tells_judgeFlow (l : Link) (s : State) : Tells l ((s.link l).flowNotices (s.link l).input.length) s (judgeFlow l s) := by
  have turned : ∀ f n, Tells l [n] s ((s.modLink l fun i => { i with flow := f }).notify l n) := fun f n =>
    Tells.trans (ns := []) (t := s.modLink l fun i => { i with flow := f })
      ⟨rfl, by rw [State.link_modLink_same], by rw [State.link_modLink_same], by rw [State.link_modLink_same],
        fun _ _ => by rw [State.link_modLink_same, List.append_nil]⟩ (tells_notify l n _)
  unfold judgeFlow LinkIf.flowNotices LinkIf.flowAt
  cases hf : (s.link l).flow with
  | flowing =>
    dsimp only
    split
    · exact turned _ _
    · exact .of_link rfl rfl
  | held =>
    dsimp only
    split
    · exact turned _ _
    · exact .of_link rfl rfl

theorem tells_judgeFlow_other {l m : Link} (h : m ≠ l) (s : State) : Tells m [] s (judgeFlow l s) :=
  .of_link (judgeFlow_of_ne h s) (judgeFlow_only l s).now

theorem tells_takeHead (l : Link) (s : State) : Tells l (s.takingNotices l) s (takeHead l s) := by
  have taken : Tells l [] s (s.modLink l fun i => { i with input := i.input.tail }) :=
    ⟨rfl, by rw [State.link_modLink_same], by rw [State.link_modLink_same], by rw [State.link_modLink_same],
      fun _ _ => by rw [State.link_modLink_same, List.append_nil]⟩
  have judged := taken.trans (tells_judgeFlow l _)
  rw [State.link_modLink_same] at judged
  exact judged

theorem tells_takeHead_other {l m : Link} (h : m ≠ l) (s : State) : Tells m [] s (takeHead l s) :=
  .of_link (takeHead_of_ne h s) (takeHead_only l s).now

theorem LinkIf.flowNotices_length (i : LinkIf) (fill : Nat) : (i.flowNotices fill).length ≤ 1 := by
  unfold LinkIf.flowNotices
  split
  · exact Nat.zero_le 1
  · split <;> exact le_rfl

/-! ## What the event has told -/

theorem finish_tells {m : Link} {ns : List Notice} {s u : State} (serve : Bool) (h : Tells m ns s u) (quiet : (s.link m).Quiet)
    (fits : ns.length ≤ 16) : Told m ns s (finish serve u) := by
  refine fun up => ⟨fun idle => ?_, fun sending room => ?_⟩
  · obtain ⟨none, silent⟩ := quiet idle
    have hn : (u.link m).notices = ns := by rw [h.notices up (by rw [none]; simpa using fits), none, List.nil_append]
    have hidle : (u.link m).transmitter = .idle := h.transmitter.trans idle
    have hr : ∀ p ∈ (u.link m).replies, p.reply? = Option.none := by rw [h.replies]; exact silent
    cases ns with
    | nil =>
      rw [finish_of_link_quiet serve fun _ => ⟨hn, hr⟩]
      exact ⟨hidle, hn⟩
    | cons n rest =>
      obtain ⟨frame, e⟩ := finish_begins_notice serve hidle hr hn
      rw [e, h.now]
      exact ⟨⟨frame, rfl⟩, rfl⟩
  · rw [finish_of_sending serve (h.transmitter ▸ sending)]
    exact ⟨h.transmitter, h.notices up room⟩

/-- The reply of a command is begun before any notice. -/
theorem finish_tells_behind {l : Link} {ns : List Notice} {s u : State} (serve : Bool) (h : Tells l (s.takingNotices l ++ ns) s u)
    (quiet : (s.link l).Quiet) (fits : ns.length < 16) (tag kind : Byte) (code : ReplyCode) (contents : List Byte) :
    ToldBehindReply l ns s (finish serve (addReply l tag kind code contents u)) := by
  intro up
  dsimp only
  have queued : (s.takingNotices l ++ ns).length ≤ 16 := by
    have := (s.link l).flowNotices_length (s.link l).input.tail.length
    rw [List.length_append]
    unfold State.takingNotices
    omega
  have added : (addReply l tag kind code contents u).link l =
      { u.link l with replies := (u.link l).replies ++ [.holding { tag := tag, kind := kind, code := code, contents := contents }] } :=
    State.link_modLink_same _ _ _
  refine ⟨fun idle => ?_, fun sending room => ?_⟩
  · obtain ⟨none, silent⟩ := quiet idle
    have reserved : ∀ p ∈ (u.link l).replies, ∃ tag, p = .reserved tag := fun p hp => by
      rw [h.replies] at hp
      have := silent p hp
      cases p with
      | reserved tag => exact ⟨tag, rfl⟩
      | holding r => cases this
    obtain ⟨frame, e⟩ := finish_begins_reply (u := addReply l tag kind code contents u) serve
      (by rw [added]; exact h.transmitter.trans idle) reserved (by rw [added])
    rw [e, added, h.replies]
    refine ⟨⟨frame, ?_⟩, ?_⟩
    · show Transmitter.sending _ frame u.now = _
      rw [h.now]
    · show (u.link l).notices = _
      rw [h.notices up (by rw [none]; simpa using queued), none, List.nil_append]
  · rw [finish_of_sending serve (by rw [added]; exact h.transmitter ▸ sending), added]
    exact ⟨h.transmitter, h.notices up room⟩

end Sys2Proof.Machine
end

