-- ==== Sys2Proof/Proofs/LinkEvents.lean ====
section
/-! PROOF. What arrives at a link (R161 to R165): bytes and cuts at the receiver, a good frame, and the messages that leave nothing but a
count or a reply. -/

namespace Sys2Proof.Machine

-- One theorem after another, so that the compile needs few threads.
set_option Elab.async false

/-! ## Counters, one after another -/

theorem Raised.counted {n : Nat} {c : Counter} {is : List Nat} {s t u : State} (h : Raised n c s t) (k : CountedOnly is t u)
    (hc : c.index ∉ is) : Raised n c s u := (k c.index hc).trans h

theorem Raised.of_counted {n : Nat} {c : Counter} {is : List Nat} {s t u : State} (k : CountedOnly is s t) (h : Raised n c t u)
    (hc : c.index ∉ is) : Raised n c s u := by
  unfold Raised at h ⊢
  rw [h, k c.index hc]

theorem saturatingAdd_zero (v : Nat) : saturatingAdd v 0 = v := by
  unfold saturatingAdd
  split <;> omega

theorem saturatingAdd_add (v m n : Nat) : saturatingAdd (saturatingAdd v m) n = saturatingAdd v (m + n) := by
  unfold saturatingAdd
  split
  · split <;> omega
  · rfl

theorem Raised.zero {c : Counter} {s t : State} (h : t.counters[c.index]? = s.counters[c.index]?) : Raised 0 c s t := by
  unfold Raised
  rw [h]
  cases s.counters[c.index]? with
  | none => rfl
  | some v => exact congrArg some (saturatingAdd_zero v).symm

theorem Raised.of_counted_only {c : Counter} {is : List Nat} {s t : State} (k : CountedOnly is s t) (hc : c.index ∉ is) : Raised 0 c s t :=
  .zero (k c.index hc)

theorem Raised.add {m n : Nat} {c : Counter} {s t u : State} (h : Raised m c s t) (k : Raised n c t u) : Raised (m + n) c s u := by
  unfold Raised at h k ⊢
  rw [k, h, Option.map_map]
  congr 1
  funext v
  exact saturatingAdd_add v m n

theorem notifyAll_counted (n : Notice) (s : State) : CountedOnly [discards .one, discards .two] s (s.notifyAll n) :=
  ((notify_counted .one n s).mono (by simp)).trans ((notify_counted .two n _).mono (by simp))

/-! ## The receiver (R161, R162, R163) -/

theorem Done.setReceiver {s : State} (h : Done s) (l : Link) (r : Receiver) : Done (s.setReceiver l r) where
  settled := h.settled.of_only (setReceiver_only s l r).mono
  quiet := fun m => by
    unfold State.setReceiver
    rw [State.link_modLink]
    split
    · exact h.quiet m
    · exact h.quiet m

theorem Done.bump {s : State} (h : Done s) (c : Counter) : Done (s.bump c) where
  settled := h.settled.of_only (bump_only s c).mono
  quiet := h.quiet

/-- A byte that leaves the event done is all the event. -/
theorem exec_byteArrival_of_done {l : Link} {b : Byte} {s t : State} (h : receiveByte l b s = t) (hd : Done t) :
    exec (.byteArrival l b) s = .next t := by
  show event false (receiveByte l b s) = _
  rw [h, event, finish_of_done hd]

/-- The second check byte completes a frame, which is good where its check agrees. -/
theorem receiveByte_completes {s : State} {l : Link} {b kind : Byte} {n e : Nat} {got body check : List Byte}
    (inFrame : (s.link l).receiver = .inFrame (some n) got e) (hn : (kind :: body).length = n) (hgot : got ++ [b] = kind :: body ++ check)
    (hc : check.length = 2) : receiveByte l b s =
      if checkBytes (byteOf n :: kind :: body) = check then goodFrame l { kind := kind, body := body } (s.setReceiver l .hunting)
      else (s.setReceiver l .hunting).bump (.framesBad l) := by
  have complete : got.length + 1 = n + 2 := by
    have := congrArg List.length hgot
    rw [List.length_append, List.length_append, hn, hc] at this
    exact this
  unfold receiveByte
  rw [inFrame]
  refine (if_neg (by omega)).trans ?_
  unfold completeFrame
  rw [hgot, List.take_left' hn, List.drop_left' hn]

/-- Settles O28. -/
theorem theReceiverHuntsAssemblesAndDropsBadOrCutFrames : Obligations.TheReceiverHuntsAssemblesAndDropsBadOrCutFrames := by
  intro l b s hd
  refine ⟨fun hunting hb => ?_, fun hunting hb => ?_, fun got e inFrame => ⟨fun bad => ?_, fun low high => ?_⟩,
    fun n got e inFrame more => ?_, fun n kind body c1 c2 got e inFrame hn hgot wrong => ?_, fun n got e inFrame due => ?_⟩
  · refine exec_byteArrival_of_done ?_ hd
    unfold receiveByte
    rw [hunting]
    exact if_neg hb
  · refine exec_byteArrival_of_done ?_ (hd.setReceiver l _)
    unfold receiveByte
    rw [hunting]
    exact if_pos hb
  · refine exec_byteArrival_of_done ?_ ((hd.setReceiver l .hunting).bump (.framesBad l))
    unfold receiveByte
    rw [inFrame]
    exact if_pos bad
  · refine exec_byteArrival_of_done ?_ (hd.setReceiver l _)
    unfold receiveByte
    rw [inFrame]
    exact if_neg (by show ¬(_ ∨ 252 < _); omega)
  · refine exec_byteArrival_of_done ?_ (hd.setReceiver l _)
    unfold receiveByte
    rw [inFrame]
    exact if_pos more
  · refine exec_byteArrival_of_done ?_ ((hd.setReceiver l .hunting).bump (.framesBad l))
    have unequal : checkBytes (byteOf n :: kind :: body) ≠ [c1, c2] := fun same => by
      obtain ⟨e1, e2⟩ : _ = c1 ∧ _ = c2 := by simpa [checkBytes, bytes2] using same
      exact wrong (by rw [← e1, ← e2]; exact number2_byteOf (crc _).isLt)
    rw [receiveByte_completes inFrame hn hgot rfl, if_neg unequal]
    rfl
  · have cut : s.due (s.link l).interByteTimer = true := by
      unfold LinkIf.interByteTimer State.due
      rw [inFrame]
      exact decide_eq_true due
    show execInterByteTimerExpiry l s = _
    unfold execInterByteTimerExpiry
    rw [if_pos cut, event, finish_of_done ((hd.setReceiver l .hunting).bump (.framesCut l))]
    rfl

/-! ## A good frame (R164) -/

/-- The counters a good frame may raise. -/
def goodFrameCounters (l : Link) : List Nat :=
  [(Counter.framesGood l).index, (Counter.framesDropped l).index, discards l, discards (otherLink l)]

theorem discards_mem (l m : Link) : discards m = discards l ∨ discards m = discards (otherLink l) := by
  cases l <;> cases m <;> simp [otherLink]

theorem framesGood_ne_discards (l m : Link) : (Counter.framesGood l).index ≠ discards m := by cases l <;> cases m <;> decide

theorem framesDropped_ne_discards (l m : Link) : (Counter.framesDropped l).index ≠ discards m := by cases l <;> cases m <;> decide

theorem framesGood_ne_framesDropped (l : Link) : (Counter.framesGood l).index ≠ (Counter.framesDropped l).index := by cases l <;> decide

theorem broughtUp_facing (l : Link) (s : State) :
    ((broughtUp l s).link l).facing = ({ s.link l with state := .up } : LinkIf).facing := by
  unfold broughtUp
  split
  · rw [notifyAll_facing, State.link_modLink_same]
    rfl
  next h => rw [← h, State.link_of_links (State.bump_links _ _)]

theorem broughtUp_other_facing (l : Link) (s : State) :
    ((broughtUp l s).link (otherLink l)).facing = (s.link (otherLink l)).facing := by
  unfold broughtUp
  split
  · rw [notifyAll_facing, State.link_modLink_other]
    rfl
  · rfl

theorem broughtUp_counted (l : Link) (s : State) :
    CountedOnly [discards .one, discards .two] (s.bump (.framesGood l)) (broughtUp l s) := by
  unfold broughtUp
  split
  · exact notifyAll_counted _ _
  · exact CountedOnly.refl _ _

theorem heard_counted (l : Link) (s : State) : CountedOnly [discards .one, discards .two] (s.bump (.framesGood l)) (heard l s) :=
  broughtUp_counted l s

/-- An interface with its silence timer set. -/
theorem LinkIf.facing_timed {i j : LinkIf} (h : i.facing = j.facing) (now : Nat) :
    ({ i with silenceTimer := some (now + i.silenceTime) } : LinkIf).facing =
      ({ j with silenceTimer := some (now + j.silenceTime) } : LinkIf).facing :=
  congrArg (fun k : LinkIf => { k with silenceTimer := some (now + k.silenceTime) }) h

theorem heard_facing (l : Link) (s : State) : ((heard l s).link l).facing =
    ({ s.link l with state := .up, silenceTimer := some (s.now + (s.link l).silenceTime) } : LinkIf).facing := by
  unfold heard
  rw [State.link_modLink_same]
  exact LinkIf.facing_timed (broughtUp_facing l s) s.now

theorem heard_other_facing (l : Link) (s : State) : ((heard l s).link (otherLink l)).facing = (s.link (otherLink l)).facing := by
  unfold heard
  rw [State.link_modLink_other]
  exact broughtUp_other_facing l s

theorem heard_input (l : Link) (s : State) : ((heard l s).link l).input = (s.link l).input := by
  have e := congrArg (fun i : LinkIf => i.input) (heard_facing l s)
  exact e

/-- A link's queue grown by a message, with flow judged. -/
theorem LinkIf.facing_joined {i j : LinkIf} (h : i.facing = j.facing) (m : Message) :
    ({ i with input := i.input ++ [m], flow := i.flowAt (i.input ++ [m]).length } : LinkIf).facing =
      ({ j with input := j.input ++ [m], flow := j.flowAt (j.input.length + 1) } : LinkIf).facing := by
  have e := congrArg (fun k : LinkIf => { k with input := k.input ++ [m], flow := k.flowAt (k.input.length + 1) }) h
  rw [List.length_append, List.length_singleton]
  exact e

section
variable {l : Link} {m : Message} {s : State}

theorem goodFrame_joins (h : m.kind ≠ Kind.presence ∧ (s.link l).input.length < 64) :
    goodFrame l m s = judgeFlow l ((heard l s).modLink l fun i => { i with input := i.input ++ [m] }) := by
  rw [goodFrame_eq, if_neg h.1, if_pos (by rw [heard_input]; exact h.2)]

theorem goodFrame_drops (h : m.kind ≠ Kind.presence ∧ 64 ≤ (s.link l).input.length) :
    goodFrame l m s = (heard l s).bump (.framesDropped l) := by
  rw [goodFrame_eq, if_neg h.1, if_neg (by rw [heard_input]; exact Nat.not_lt.2 h.2)]

theorem goodFrame_presence (h : m.kind = Kind.presence) : goodFrame l m s = heard l s := by rw [goodFrame_eq, if_pos h]

/-- A good frame joins, is dropped, or is PRESENCE. -/
theorem goodFrame_ways (l : Link) (m : Message) (s : State) :
    (m.kind ≠ Kind.presence ∧ (s.link l).input.length < 64) ∨ (m.kind ≠ Kind.presence ∧ 64 ≤ (s.link l).input.length) ∨
      m.kind = Kind.presence := by
  by_cases h : m.kind = Kind.presence
  · exact .inr (.inr h)
  · rcases Nat.lt_or_ge (s.link l).input.length 64 with room | full
    · exact .inl ⟨h, room⟩
    · exact .inr (.inl ⟨h, full⟩)

theorem goodFrame_joins_facing (h : m.kind ≠ Kind.presence ∧ (s.link l).input.length < 64) :
    ((goodFrame l m s).link l).facing = ({ s.link l with
      state := .up
      silenceTimer := some (s.now + (s.link l).silenceTime)
      input := (s.link l).input ++ [m]
      flow := (s.link l).flowAt ((s.link l).input.length + 1) } : LinkIf).facing := by
  rw [goodFrame_joins h, judgeFlow_facing, State.link_modLink_same]
  exact LinkIf.facing_joined (heard_facing l s) m

theorem goodFrame_stays_facing (h : ¬(m.kind ≠ Kind.presence ∧ (s.link l).input.length < 64)) :
    ((goodFrame l m s).link l).facing =
      ({ s.link l with state := .up, silenceTimer := some (s.now + (s.link l).silenceTime) } : LinkIf).facing := by
  rcases goodFrame_ways l m s with joins | drops | presence
  · exact absurd joins h
  · rw [goodFrame_drops drops]
    exact heard_facing l s
  · rw [goodFrame_presence presence]
    exact heard_facing l s

theorem goodFrame_other_facing (l : Link) (m : Message) (s : State) :
    ((goodFrame l m s).link (otherLink l)).facing = (s.link (otherLink l)).facing := by
  rcases goodFrame_ways l m s with joins | drops | presence
  · rw [goodFrame_joins joins, judgeFlow_of_ne (otherLink_ne l), State.link_modLink_other]
    exact heard_other_facing l s
  · rw [goodFrame_drops drops]
    exact heard_other_facing l s
  · rw [goodFrame_presence presence]
    exact heard_other_facing l s

theorem goodFrame_raised_good (l : Link) (m : Message) (s : State) : Raised 1 (.framesGood l) s (goodFrame l m s) := by
  have good : Raised 1 (.framesGood l) s (heard l s) :=
    (bumpBy_raised s 1 (.framesGood l)).counted (heard_counted l s) (by simp [framesGood_ne_discards])
  rcases goodFrame_ways l m s with joins | drops | presence
  · rw [goodFrame_joins joins]
    exact Raised.counted (t := (heard l s).modLink l fun i => { i with input := i.input ++ [m] }) good (judgeFlow_counted l _)
      (by simp [framesGood_ne_discards])
  · rw [goodFrame_drops drops]
    exact good.counted (bumpBy_counted _ 1 (.framesDropped l)) (by simp [framesGood_ne_framesDropped])
  · rw [goodFrame_presence presence]
    exact good

theorem goodFrame_raised_dropped (l : Link) (m : Message) (s : State) :
    Raised (if m.kind ≠ Kind.presence ∧ 64 ≤ (s.link l).input.length then 1 else 0) (.framesDropped l) s (goodFrame l m s) := by
  have good : CountedOnly ([(Counter.framesGood l).index, discards .one, discards .two]) s (heard l s) :=
    ((bumpBy_counted s 1 (.framesGood l)).mono (by simp)).trans ((heard_counted l s).mono (by simp))
  have apart : (Counter.framesDropped l).index ∉ [(Counter.framesGood l).index, discards .one, discards .two] := by
    simp [framesDropped_ne_discards, (framesGood_ne_framesDropped l).symm]
  have undropped : Raised 0 (.framesDropped l) s (heard l s) := .of_counted_only good apart
  rcases goodFrame_ways l m s with joins | drops | presence
  · rw [goodFrame_joins joins, if_neg fun h => absurd h.2 (Nat.not_le.2 joins.2)]
    exact Raised.counted (t := (heard l s).modLink l fun i => { i with input := i.input ++ [m] }) undropped (judgeFlow_counted l _)
      (by simp [framesDropped_ne_discards])
  · rw [goodFrame_drops drops, if_pos drops]
    exact .of_counted good (bumpBy_raised _ 1 (.framesDropped l)) apart
  · rw [goodFrame_presence presence, if_neg fun h => h.1 presence]
    exact undropped

theorem goodFrame_counted (l : Link) (m : Message) (s : State) : CountedOnly (goodFrameCounters l) s (goodFrame l m s) := by
  have discarded : ∀ i ∈ [discards .one, discards .two], i ∈ goodFrameCounters l := by cases l <;> decide
  have good : CountedOnly (goodFrameCounters l) s (heard l s) :=
    ((bumpBy_counted s 1 (.framesGood l)).mono (by simp [goodFrameCounters])).trans ((heard_counted l s).mono discarded)
  rcases goodFrame_ways l m s with joins | drops | presence
  · rw [goodFrame_joins joins]
    exact CountedOnly.trans (t := (heard l s).modLink l fun i => { i with input := i.input ++ [m] }) good
      ((judgeFlow_counted l _).mono (by simp [goodFrameCounters]))
  · rw [goodFrame_drops drops]
    exact good.trans ((bumpBy_counted _ 1 (.framesDropped l)).mono (by simp [goodFrameCounters]))
  · rw [goodFrame_presence presence]
    exact good

/-- Behind LINK UP the link may be told HOLD. -/
theorem tells_goodFrame (l : Link) (m : Message) (s : State) :
    (∃ ns, ns.length ≤ 1 ∧ Tells l ns (heard l s) (goodFrame l m s)) ∧ Tells (otherLink l) [] (heard l s) (goodFrame l m s) := by
  rcases goodFrame_ways l m s with joins | drops | presence
  · rw [goodFrame_joins joins]
    have grown : Tells l [] (heard l s) ((heard l s).modLink l fun i => { i with input := i.input ++ [m] }) :=
      ⟨rfl, by rw [State.link_modLink_same], by rw [State.link_modLink_same], by rw [State.link_modLink_same],
        fun _ _ => by rw [State.link_modLink_same, List.append_nil]⟩
    exact ⟨⟨_, LinkIf.flowNotices_length _ _, grown.trans (tells_judgeFlow l _)⟩,
      .of_link ((judgeFlow_of_ne (otherLink_ne l) _).trans (State.link_modLink_other _ _ _)) (judgeFlow_only l _).now⟩
  · rw [goodFrame_drops drops]
    exact ⟨⟨[], Nat.zero_le 1, .of_link rfl rfl⟩, .of_link rfl rfl⟩
  · rw [goodFrame_presence presence]
    exact ⟨⟨[], Nat.zero_le 1, .of_link rfl rfl⟩, .of_link rfl rfl⟩

/-- A link that was DOWN, and the other link, are told LINK UP. -/
theorem tells_heard (h : (s.link l).state = .down) (k : Link) :
    Tells k [.linkUp l] ((s.bump (.framesGood l)).modLink l fun i => { i with state := .up }) (heard l s) := by
  have up := tells_notifyAll k (.linkUp l) ((s.bump (.framesGood l)).modLink l fun i => { i with state := .up })
  have brought : broughtUp l s = (((s.bump (.framesGood l)).modLink l fun i => { i with state := .up }).notifyAll (.linkUp l)) := by
    unfold broughtUp
    rw [h]
  rw [← brought] at up
  refine up.trans (ks := []) ⟨rfl, ?_, ?_, ?_, fun _ _ => ?_⟩ <;> unfold heard <;> rw [State.link_modLink] <;> split
  all_goals first
    | rfl
    | rw [List.append_nil]

end

/-- Settles O29. -/
theorem aGoodFrameBringsItsLinkUpAndJoinsTheQueue : Obligations.AGoodFrameBringsItsLinkUpAndJoinsTheQueue := by
  intro l b s n kind body got e hd inFrame hn hgot
  dsimp only
  -- The frame is complete and its check agrees.
  have received : receiveByte l b s = goodFrame l { kind := kind, body := body } (s.setReceiver l .hunting) := by
    rw [receiveByte_completes inFrame hn hgot rfl, if_pos rfl]
  generalize hm : ({ kind := kind, body := body } : Message) = m at received
  have hkind : m.kind = kind := by rw [← hm]
  generalize hv : s.setReceiver l .hunting = v at received
  have link : v.link l = { s.link l with receiver := .hunting } := by rw [← hv]; exact State.link_modLink_same _ _ _
  have other : v.link (otherLink l) = s.link (otherLink l) := by rw [← hv]; exact State.link_modLink_other _ _ _
  have cleared : Only [.links] s v := by rw [← hv]; exact setReceiver_only s l _
  have quiet : ∀ k, (v.link k).Quiet := by rw [← hv]; exact (hd.setReceiver l .hunting).quiet
  have only : Only [.links, .counters] s (goodFrame l m v) := cleared.mono.trans (goodFrame_only l m v)
  have finished := finish_of_settled_only (hd.settled.of_links_counters only)
  have counters : v.counters = s.counters := cleared.counters
  have input : (v.link l).input = (s.link l).input := by rw [link]
  refine ⟨finish false (goodFrame l m v), by show event false _ = _; rw [received]; rfl, only.trans finished.mono, fun joins => ?_,
    fun stays => ?_, ?_, ?_, ?_, ?_, fun down idle => ?_, fun down up idle => ?_⟩
  · rw [finish_facing, goodFrame_joins_facing (by rw [hkind, input]; exact joins), link, cleared.now]
    rfl
  · rw [finish_facing, goodFrame_stays_facing (by rw [hkind, input]; exact stays), link, cleared.now]
  · rw [finish_facing, goodFrame_other_facing, other]
  · have := goodFrame_raised_good l m v
    unfold Raised at this ⊢
    rw [finished.counters, this, counters]
  · have := goodFrame_raised_dropped l m v
    rw [hkind, input] at this
    unfold Raised at this ⊢
    rw [finished.counters, this, counters]
    rfl
  · exact (CountedOnly.of_counters counters).trans ((goodFrame_counted l m v).trans (CountedOnly.of_counters finished.counters))
  · have hdown : (v.link l).state = .down := by rw [link]; exact down
    obtain ⟨⟨ns, short, behind⟩, -⟩ := tells_goodFrame l m v
    have told := finish_tells false ((tells_heard hdown l).trans behind) (fun _ => by
      rw [State.link_modLink_same]
      exact quiet l (by rw [link]; exact idle)) (by simp; omega) (by rw [State.link_modLink_same])
    obtain ⟨first, -⟩ := told.1 (by rw [State.link_modLink_same]; show (v.link l).transmitter = _; rw [link]; exact idle)
    exact cleared.now ▸ first
  · have hdown : (v.link l).state = .down := by rw [link]; exact down
    obtain ⟨-, behind⟩ := tells_goodFrame l m v
    have told := finish_tells false ((tells_heard hdown (otherLink l)).trans behind) (by
      rw [State.link_modLink_other]
      exact quiet (otherLink l)) (by simp) (by rw [State.link_modLink_other]; show (v.link _).state = _; rw [other]; exact up)
    obtain ⟨first, -⟩ := told.1 (by rw [State.link_modLink_other]; show (v.link _).transmitter = _; rw [other]; exact idle)
    exact cleared.now ▸ first

end Sys2Proof.Machine
end

