-- ==== Sys2Proof/Proofs/Answers.lean ====
section
/-! PROOF. Messages that leave one field, a count or a reply: refusals by the engine state (R5), malformed and discarded play (R4, R165),
FULL RESET and unknown kinds (R23), TRANSPOSE and TEMPO (R34, R97), the specification writes and SPEC COMMIT (R8, R17), the cue memory
(R140, R141). -/

namespace Sys2Proof.Machine

-- One theorem after another, so that the compile needs few threads.
set_option Elab.async false

/-! ## One field rewritten on both sides -/

/-- Two states that differ in some fields differ in no others once one field more is rewritten alike in both. -/
theorem Only.along {fs : List Field} {s t s' t' : State} (k : Only fs s t) (f : Field) (hs : Only [f] s s') (ht : Only [f] t t')
    (hf : f.same s' t') : Only fs s' t' := by
  intro x hx
  by_cases e : x = f
  · exact e ▸ hf
  · have a := hs x (by simpa using e)
    have b := ht x (by simpa using e)
    have c := k x hx
    cases x <;> exact b.trans (c.trans a.symm)

/-- A command whose owner rewrites one field, the same from the state it found and from the state that its taking left. -/
theorem takeCommand_writes {l : Link} {kind : Byte} {gate : Gate} {tag : Byte} {fields : List Byte} {owner : List Byte → State → Answer}
    {s : State} {code : ReplyCode} {contents : List Byte} (f : Field) {g : State → State} (hw : Waits s l kind (tag :: fields))
    (hg : gate.refusal s.engine = none)
    (ha : owner fields (takeHead l s) = { state := g (takeHead l s), code := code, contents := contents }) (hs : Settled (g s))
    (only : ∀ u, Only [f] u (g u)) (same : f.same (g s) (g (takeHead l s))) (hf : f ≠ .links ∧ f ≠ .counters := by decide) :
    ∃ t, takeCommand l kind gate owner s = .next t ∧
      Acted l [.holding { tag := tag, kind := kind, code := code, contents := contents }] (g s) t :=
  takeCommand_acted hw hg ha rfl ((only _).links (by simpa using hf.1.symm)) ((only _).counters (by simpa using hf.2.symm))
    ((takeHead_only l s).along f (only s) (only _) same) ((only s).links (by simpa using hf.1.symm))
    ((only s).counters (by simpa using hf.2.symm)) hs

/-- The same of a play message. -/
theorem takePlay_writes {l : Link} {kind : Byte} {body : List Byte} {owner : List Byte → State → State} {s : State} (f : Field)
    {g : State → State} (hw : Waits s l kind body) (hr : s.engine = .ready) (ha : owner body (takeHead l s) = g (takeHead l s))
    (hs : Settled (g s)) (only : ∀ u, Only [f] u (g u)) (same : f.same (g s) (g (takeHead l s)))
    (hf : f ≠ .links ∧ f ≠ .counters := by decide) : ∃ t, takePlay l kind owner s = .next t ∧ Acted l [] (g s) t := by
  refine takePlay_acted hw hr ?_ ?_ ?_ ((only s).links (by simpa using hf.1.symm)) ((only s).counters (by simpa using hf.2.symm)) hs <;> rw [ha]
  · exact (only _).links (by simpa using hf.1.symm)
  · exact (only _).counters (by simpa using hf.2.symm)
  · exact (takeHead_only l s).along f (only s) (only _) same

/-! ## Refusals by the engine state (R5) -/

theorem Gate.begin_refusal (e : EngineState) : Gate.begin.refusal e = if e = .checking then some .busy else none := by cases e <;> rfl

theorem Gate.idle_refusal (e : EngineState) : Gate.idle.refusal e = if e = .checking then some .busy else none := by cases e <;> rfl

theorem Gate.loading_refusal (e : EngineState) : Gate.loading.refusal e =
    if e = .checking then some .busy else if e = .loading then none else some .badState := by cases e <;> rfl

theorem Gate.ready_refusal (e : EngineState) : Gate.ready.refusal e =
    if e = .checking then some .busy else if e = .ready then none else some .badState := by cases e <;> rfl

/-- Settles O40, by the gate of each command. -/
theorem commandsAreRefusedByTheEngineState : Obligations.CommandsAreRefusedByTheEngineState := by
  intro l s c kind row body code busy loading ready hc hd hrow hw
  have begins : busy s.engine = some code → Gate.begin.refusal s.engine = some code := (Gate.begin_refusal s.engine).trans
  have idles : busy s.engine = some code → Gate.idle.refusal s.engine = some code := (Gate.idle_refusal s.engine).trans
  have loads : loading s.engine = some code → Gate.loading.refusal s.engine = some code := (Gate.loading_refusal s.engine).trans
  have plays : ready s.engine = some code → Gate.ready.refusal s.engine = some code := (Gate.ready_refusal s.engine).trans
  simp only [List.mem_cons, Prod.mk.injEq, List.not_mem_nil, or_false] at hc
  rcases hc with ⟨rfl, rfl, rfl⟩ | ⟨rfl, rfl, rfl⟩ | ⟨rfl, rfl, rfl⟩ | ⟨rfl, rfl, rfl⟩ | ⟨rfl, rfl, rfl⟩ | ⟨rfl, rfl, rfl⟩ |
    ⟨rfl, rfl, rfl⟩ | ⟨rfl, rfl, rfl⟩ | ⟨rfl, rfl, rfl⟩ | ⟨rfl, rfl, rfl⟩ | ⟨rfl, rfl, rfl⟩ | ⟨rfl, rfl, rfl⟩ | ⟨rfl, rfl, rfl⟩ |
    ⟨rfl, rfl, rfl⟩ | ⟨rfl, rfl, rfl⟩ | ⟨rfl, rfl, rfl⟩ | ⟨rfl, rfl, rfl⟩ | ⟨rfl, rfl, rfl⟩ | ⟨rfl, rfl, rfl⟩ | ⟨rfl, rfl, rfl⟩ |
    ⟨rfl, rfl, rfl⟩ | ⟨rfl, rfl, rfl⟩ | ⟨rfl, rfl, rfl⟩ | ⟨rfl, rfl, rfl⟩
  all_goals dsimp only [exec, execSpecBegin, execSpecDivision, execSpecSource, execSpecStop, execSpecChamber, execSpecTremulant, execSpecPort,
    execSpecFigure, execSpecCommit, execSilence, execLinkRelease, execConfigure, execQueryOutput, execCueWrite, execCueRead, execCueStart,
    execCueSuspend, execCueResume, execCueAbort, execFigureStart, execFigureStop, execFigureSync, execPortRestore, execPortDisable,
    takeCommand]
  all_goals first
    | exact takeCommandThen_refused hw (begins hrow) hd.settled
    | exact takeCommandThen_refused hw (loads hrow) hd.settled
    | exact takeCommandThen_refused hw (plays hrow) hd.settled
    | exact takeCommandThen_refused hw (idles hrow) hd.settled

/-! ## Play discarded or malformed (R4, R165) -/

/-- What taking a message leaves with one count more. -/
theorem taken_counted {l : Link} {s : State} (hd : Done s) {c : Counter} (hc : c.index ≠ discards l) :
    let t := finish false ((takeHead l s).bump c)
    Took l [] s t ∧ Only [.links, .counters] s t ∧ Raised 1 c s t ∧ CountedOnly [c.index, discards l] s t := by
  have only : Only [.links, .counters] s ((takeHead l s).bump c) := (takeHead_only l s).trans (bump_only _ _).mono
  have finished := finish_of_settled_only (hd.settled.of_links_counters only)
  refine ⟨(Took.of_takeHead (State.bump_links _ _)).finish false, only.trans finished.mono, ?_,
    (takeHead_bump_counted l c s).trans (.of_counters finished.counters)⟩
  unfold Raised
  rw [finished.counters]
  exact takeHead_bump_raised hc s

theorem takePlay_discards {l : Link} {kind : Byte} {body : List Byte} {owner : List Byte → State → State} {s : State}
    (hw : Waits s l kind body) (hr : s.engine ≠ .ready) :
    takePlay l kind owner s = .next (finish false ((takeHead l s).bump (.playDiscarded l))) := by
  have hready : s.ready = false := decide_eq_false hr
  simp [takePlay, head_of_waits hw, hready, event]

theorem playDiscarded_ne_discards (l : Link) : (Counter.playDiscarded l).index ≠ discards l := by cases l <;> decide

theorem playEntriesIgnored_ne_discards (l : Link) : Counter.playEntriesIgnored.index ≠ discards l := by cases l <;> decide

theorem readOne_eq_none {body : List Byte} (h : body.length ≠ 1) : readOne body = none := by
  match body with
  | [] => rfl
  | [_] => exact absurd rfl h
  | _ :: _ :: _ => rfl

theorem readTwo_eq_none {body : List Byte} (h : body.length ≠ 2) : readTwo body = none := by
  match body with
  | [] | [_] => rfl
  | [_, _] => exact absurd rfl h
  | _ :: _ :: _ :: _ => rfl

theorem playGo_of_fields {body : List Byte} (h : body ≠ []) (t : State) : playGo body t = ignoreEntry t := by
  cases body with
  | nil => exact absurd rfl h
  | cons _ _ => rfl

/-- A play message whose kind and owner are given: discarded outside READY, ignored where its owner ignores its body. -/
theorem play_discarded_or_ignored {l : Link} {s : State} {kind : Byte} {body : List Byte} {owner : List Byte → State → State}
    {malformed : Prop} (hd : Done s) (hw : Waits s l kind body) (hm : malformed → ∀ t, owner body t = ignoreEntry t) :
    (s.engine ≠ .ready → ∃ t, takePlay l kind owner s = .next t ∧ Took l [] s t ∧ Only [.links, .counters] s t ∧
      Raised 1 (.playDiscarded l) s t ∧ CountedOnly [(Counter.playDiscarded l).index, discards l] s t) ∧
    (s.engine = .ready → malformed → ∃ t, takePlay l kind owner s = .next t ∧ Took l [] s t ∧ Only [.links, .counters] s t ∧
      Raised 1 .playEntriesIgnored s t ∧ CountedOnly [14, discards l] s t) := by
  refine ⟨fun hne => ⟨_, takePlay_discards hw hne, taken_counted hd (playDiscarded_ne_discards l)⟩, fun hr h => ⟨_, takePlay_next hw hr, ?_⟩⟩
  rw [hm h]
  exact taken_counted hd (playEntriesIgnored_ne_discards l)

/-- Settles O34. -/
theorem playIsDiscardedOutsideReadyOrWhenMalformed : Obligations.PlayIsDiscardedOutsideReadyOrWhenMalformed := by
  intro l s c kind malformed body hd hc hw
  simp only [List.mem_cons, Prod.mk.injEq, List.not_mem_nil, or_false] at hc
  rcases hc with ⟨rfl, rfl, rfl⟩ | ⟨rfl, rfl, rfl⟩ | ⟨rfl, rfl, rfl⟩ | ⟨rfl, rfl, rfl⟩ | ⟨rfl, rfl, rfl⟩ | ⟨rfl, rfl, rfl⟩ |
    ⟨rfl, rfl, rfl⟩ | ⟨rfl, rfl, rfl⟩
  · refine play_discarded_or_ignored hd hw fun h t => ?_
    unfold playKeys
    rw [Option.isNone_iff_eq_none.1 h]
  · refine play_discarded_or_ignored hd hw fun h t => ?_
    unfold playStops
    rw [Option.isNone_iff_eq_none.1 h]
  · refine play_discarded_or_ignored hd hw fun h t => ?_
    unfold playTabs
    rw [Option.isNone_iff_eq_none.1 h]
  · refine play_discarded_or_ignored hd hw fun h t => ?_
    unfold playRegistration
    rw [Option.isNone_iff_eq_none.1 h]
  · refine play_discarded_or_ignored hd hw fun h t => ?_
    unfold playTranspose
    rw [readOne_eq_none (of_decide_eq_true h)]
  · refine play_discarded_or_ignored hd hw fun h t => ?_
    unfold playExpression
    rw [readTwo_eq_none (of_decide_eq_true h)]
  · exact play_discarded_or_ignored hd hw fun h t => playGo_of_fields (of_decide_eq_true h) t
  · refine play_discarded_or_ignored hd hw fun h t => ?_
    unfold playTempo
    rw [readOne_eq_none (of_decide_eq_true h)]

/-! ## FULL RESET and unknown kinds (R23, R165) -/

/-- A link whose message is taken, with reset pending set. -/
theorem Took.resetPending {l : Link} {places : List Place} {s t : State} (h : Took l places s t) :
    Took l places (s.modLink l fun i => { i with resetPending := true }) (t.modLink l fun i => { i with resetPending := true }) where
  this := by
    rw [State.link_modLink_same, State.link_modLink_same]
    exact congrArg (fun i : LinkIf => { i with resetPending := true }) h.this
  other := by
    rw [State.link_modLink_other, State.link_modLink_other]
    exact h.other

/-- Settles O33. -/
theorem fullResetIsAnsweredBeforeItActsAndUnknownKindsAreRefused :
    Obligations.FullResetIsAnsweredBeforeItActsAndUnknownKindsAreRefused := by
  intro l s hd
  dsimp only [exec, execFullReset]
  refine ⟨fun tag hw => ?_, fun tag x rest hw => takeCommand_refuses hw rfl rfl hd.settled, fun kind body hw unknown => ?_⟩
  · refine ⟨_, takeCommand_next hw rfl, ?_⟩
    have pending : Only [.links] s (s.modLink l fun i => { i with resetPending := true }) := modLink_only _ _ _
    refine Acted.of_pre (Took.addPlace (Took.resetPending (Took.of_takeHead rfl)) _) ?_ ?_ (hd.settled.of_only pending.mono)
    · refine Only.trans (t := (takeHead l s).modLink l fun i => { i with resetPending := true }) (fun x hx => ?_) (modLink_only _ _ _).mono
      have same := takeHead_only l s x hx
      cases x <;> first | exact same | exact absurd (by decide) hx
    · exact takeHead_counted l s
  · refine ⟨_, ?_, Acted.of_pre ((Took.of_takeHead rfl).addPlace _) ((takeHead_only l s).trans (modLink_only _ _ _).mono)
      (takeHead_counted l s) hd.settled⟩
    unfold execUnknownKind
    rw [head_of_waits hw]
    exact if_pos unknown

/-! ## TRANSPOSE and TEMPO (R34, R97) -/

theorem State.modReg_modReg (s : State) (l : Link) (f g : Registration → Registration) :
    (s.modReg l f).modReg l g = s.modReg l fun r => g (f r) := by cases l <;> rfl

theorem State.modReg_congr {s : State} {l : Link} {f g : Registration → Registration} (h : f (s.reg l) = g (s.reg l)) :
    s.modReg l f = s.modReg l g := by
  unfold State.modReg
  rw [h]

theorem Registration.request_eq (v : Int) (r : Registration) : r.request v =
    { r with requested := max (-6) (min 6 v), effective := if r.holdsNoKey then max (-6) (min 6 v) else r.effective } := by
  have same : ({ r with requested := max (-6) (min 6 v) } : Registration).holdsNoKey = r.holdsNoKey := rfl
  unfold Registration.request Registration.taken
  rw [same]
  split <;> rfl

theorem requestTransposition_eq (l : Link) (v : Int) (s : State) : requestTransposition l v s = s.modReg l (.request v) := by
  have holds : ((s.modReg l fun r => { r with requested := max (-6) (min 6 v) }).reg l).holdsNoKey = (s.reg l).holdsNoKey := by
    rw [State.reg_modReg_same]
    rfl
  unfold requestTransposition takeTransposition
  rw [holds]
  split
  next h =>
    rw [State.modReg_modReg]
    exact State.modReg_congr (by rw [Registration.request_eq, if_pos h])
  next h => exact State.modReg_congr (by rw [Registration.request_eq, if_neg h])

theorem State.regs_modReg_congr {s t : State} (h : t.regs = s.regs) (l : Link) (f : Registration → Registration) :
    (t.modReg l f).regs = (s.modReg l f).regs := by
  unfold State.modReg State.reg
  rw [h]

/-- Settles O38. -/
theorem transposeAndTempoAreClampedAndSet : Obligations.TransposeAndTempoAreClampedAndSet := by
  intro l s v hd hr
  dsimp only [exec, execTranspose, execTempo]
  refine ⟨fun hw => ?_, fun hw => ?_⟩
  · have requested : (fun r : Registration => ({ r with
        requested := max (-6) (min 6 v.toInt)
        effective := if r.holdsNoKey then max (-6) (min 6 v.toInt) else r.effective } : Registration)) = .request v.toInt :=
      funext fun r => (Registration.request_eq v.toInt r).symm
    rw [requested]
    exact takePlay_writes .regs hw hr (requestTransposition_eq _ _ _) (hd.settled.of_only (modReg_only s l _).mono) (fun u => modReg_only u l _)
      (State.regs_modReg_congr (takeHead_only l s).regs l _)
  · have figures : (takeHead l s).figures = s.figures := (takeHead_only l s).figures
    refine takePlay_writes .figures (g := setTempo (max 50 (min 200 v.toNat))) hw hr rfl (hd.settled.of_only (setTempo_only _ s).mono)
      (setTempo_only _) ?_
    show ({ (takeHead l s).figures with tempo := _ } : Figures) = _
    rw [figures]
    rfl

/-! ## Writes and the commit while LOADING (R8, R17) -/

/-- At rest the ports are as settling leaves them, whatever else changes. -/
theorem settled_of_resting {s t : State} (hr : RestOutsideReady s) (hne : s.engine ≠ .ready) (hp : t.ports = s.ports) : Settled t := by
  have rested : ∀ i pt, t.ports[i]? = some pt → settlePort t i pt = pt := fun i pt h => by
    have resting := hr.ports hne pt (by rw [← hp]; exact List.mem_of_getElem? h)
    rw [resting]
    unfold settlePort
    rw [if_neg fun h => by cases h.1]
    rfl
  have same : t.ports.mapIdx (settlePort t) = t.ports := by
    refine List.ext_getElem? fun i => ?_
    rw [List.getElem?_mapIdx]
    cases h : t.ports[i]? with
    | none => rfl
    | some pt => exact congrArg some (rested i pt h)
  exact congrArg (fun x => { t with ports := x }) same

/-- A write that is accepted replaces its entry; any other is refused. -/
theorem answerWrite_acted {α : Type} {l : Link} {s : State} {tag kind : Byte} {fields : List Byte} {size : Nat}
    {entry : List Byte → Option α} {put : Nat → Option α → Tables → Tables} (hd : Done s) (hrest : RestOutsideReady s)
    (hl : s.engine = .loading) :
    (∀ w, readEntry size entry fields = some w → Waits s l kind (tag :: fields) →
      ∃ t, takeCommand l kind .loading (answerWrite size entry put) s = .next t ∧ Acted l [okPlace tag kind []]
        { s with store := { s.store with tables := put w.index w.entry s.store.tables } } t) ∧
    (readEntry size entry fields = none → Waits s l kind (tag :: fields) →
      ∃ t, takeCommand l kind .loading (answerWrite size entry put) s = .next t ∧ Acted l [refusalPlace tag kind .badArgument] s t) := by
  have gate : Gate.loading.refusal s.engine = none := by rw [hl]; rfl
  have store : (takeHead l s).store = s.store := (takeHead_only l s).store
  refine ⟨fun w h hw => ?_, fun h hw => takeCommand_refuses hw gate (by unfold answerWrite; rw [h]) hd.settled⟩
  refine takeCommand_writes .store (g := fun u => u.modTables (put w.index w.entry)) hw gate (by unfold answerWrite; rw [h])
    (settled_of_resting hrest (by rw [hl]; decide) rfl) (fun u => modTables_only u _) ?_
  show ({ (takeHead l s).store with tables := _ } : Store) = _
  rw [store]
  rfl

/-- Settles O41. -/
theorem aSpecWriteReplacesItsOwnEntryAlone : Obligations.ASpecWriteReplacesItsOwnEntryAlone := by
  intro l s tag fields hd hrest hl accepts refuses
  obtain ⟨d1, d2⟩ := answerWrite_acted (kind := Kind.specDivision) (size := 6) (entry := readDivision) (l := l) (tag := tag) (fields := fields)
    (put := fun i e t => { t with divisions := t.divisions.set i e }) hd hrest hl
  obtain ⟨s1, s2⟩ := answerWrite_acted (kind := Kind.specSource) (size := 64) (entry := readSource) (l := l) (tag := tag) (fields := fields)
    (put := fun i e t => { t with sources := t.sources.set i e }) hd hrest hl
  obtain ⟨t1, t2⟩ := answerWrite_acted (kind := Kind.specStop) (size := 192) (entry := readStop) (l := l) (tag := tag) (fields := fields)
    (put := fun i e t => { t with stops := t.stops.set i e }) hd hrest hl
  obtain ⟨c1, c2⟩ := answerWrite_acted (kind := Kind.specChamber) (size := 4) (entry := readChamber) (l := l) (tag := tag) (fields := fields)
    (put := fun i e t => { t with chambers := t.chambers.set i e }) hd hrest hl
  obtain ⟨m1, m2⟩ := answerWrite_acted (kind := Kind.specTremulant) (size := 8) (entry := readTremulant) (l := l) (tag := tag) (fields := fields)
    (put := fun i e t => { t with tremulants := t.tremulants.set i e }) hd hrest hl
  obtain ⟨p1, p2⟩ := answerWrite_acted (kind := Kind.specPort) (size := 8) (entry := readPort) (l := l) (tag := tag) (fields := fields)
    (put := fun i e t => { t with ports := t.ports.set i e }) hd hrest hl
  obtain ⟨f1, f2⟩ := answerWrite_acted (kind := Kind.specFigure) (size := 16) (entry := readFigure) (l := l) (tag := tag) (fields := fields)
    (put := fun i e t => { t with figures := t.figures.set i e }) hd hrest hl
  exact ⟨d1, d2, s1, s2, t1, t2, c1, c2, m1, m2, p1, p2, f1, f2⟩

/-- The engine CHECKING from now on (R17). -/
def beginCheck (s : State) : State := { s with store := { s.store with engine := .checking, checkBegan := some s.now } }

theorem beginCheck_only (s : State) : Only [.store] s (beginCheck s) :=
  store_only s fun x => { x with engine := .checking, checkBegan := some s.now }

/-- Settles O43. -/
theorem specCommitBeginsTheCheckAndReservesAPlace : Obligations.SpecCommitBeginsTheCheckAndReservesAPlace := by
  intro l s tag hd hrest hl
  dsimp only [exec, execSpecCommit]
  have gate : Gate.loading.refusal s.engine = none := by rw [hl]; rfl
  have taken := takeHead_only l s
  refine ⟨fun hw => ?_, fun x rest hw => ?_⟩
  · have began : Only [.links, .counters] (beginCheck s) (beginCheck (takeHead l s)) := by
      refine taken.along .store (beginCheck_only s) (beginCheck_only _) ?_
      show ({ (takeHead l s).store with engine := _, checkBegan := some (takeHead l s).now } : Store) = _
      rw [taken.store, taken.now]
      rfl
    have took : Took l [] (beginCheck s) (beginCheck (takeHead l s)) :=
      Took.congr (e := beginCheck s) (Took.of_takeHead (u := beginCheck (takeHead l s)) rfl) rfl
    refine ⟨_, ?_, Acted.of_pre (took.addPlace (.reserved tag)) (began.trans (modLink_only _ _ _).mono) (takeHead_counted l s)
      (settled_of_resting hrest (by rw [hl]; decide) rfl)⟩
    unfold takeCommandThen
    rw [head_of_waits hw]
    dsimp only
    rw [if_pos (show (0x28 : Byte) = Kind.specCommit from rfl), gate]
    rfl
  · refine ⟨_, ?_, Acted.of_pre (u := addReply l tag Kind.specCommit .badArgument [] (takeHead l s)) ((Took.of_takeHead rfl).addPlace _)
      (taken.trans (modLink_only _ _ _).mono) (takeHead_counted l s) hd.settled⟩
    unfold takeCommandThen
    rw [head_of_waits hw]
    dsimp only
    rw [if_pos (show (0x28 : Byte) = Kind.specCommit from rfl), gate]
    rfl

/-! ## The cue memory (R140, R141) -/

theorem readRecordIndex_two (high low : Byte) :
    readRecordIndex [high, low] = if number2 high low < 512 then some (number2 high low) else none := by
  show field2 0 511 high low = _
  unfold field2
  by_cases h : number2 high low < 512
  · rw [if_pos h, if_pos ⟨Nat.zero_le _, by omega⟩]
  · rw [if_neg h, if_neg (by omega)]

theorem readRecordIndex_eq_none {fields : List Byte} (h : fields.length ≠ 2) : readRecordIndex fields = none := by
  match fields with
  | [] | [_] => rfl
  | [_, _] => exact absurd rfl h
  | _ :: _ :: _ :: _ => rfl

/-- Settles O51, in the order of the tests. -/
theorem cueRecordsAreWrittenAndRead : Obligations.CueRecordsAreWrittenAndRead := by
  intro l s tag hd hne
  dsimp only [exec, execCueWrite, execCueRead]
  have gate := Gate.idle_refusal_of_ne_checking hne
  have taken := takeHead_only l s
  refine ⟨fun fields hw => ⟨fun h => ?_, fun w h => ⟨fun ⟨hb, hcur⟩ => ?_, fun hfree => ?_⟩⟩, fun high low hw => ⟨fun h => ?_, fun rec h hrec => ?_⟩,
    fun fields hw h => ?_⟩
  · exact takeCommand_refuses hw gate (by unfold answerCueWrite; rw [h]) hd.settled
  · refine takeCommand_refuses hw gate ?_ hd.settled
    unfold answerCueWrite
    rw [h]
    dsimp only
    rw [if_pos ⟨CueUnit.busy_iff.2 (by rw [takeHead_cue]; exact hb), by rw [takeHead_cue]; exact hcur⟩]
  · refine takeCommand_writes .memory (g := fun u => { u with memory := u.memory.set w.index (some { state := .written, body := w.body }) })
      hw gate ?_ (hd.settled.of_only (memory_only s fun m => m.set w.index (some { state := .written, body := w.body })).mono)
      (fun u => memory_only u fun m => m.set w.index (some { state := .written, body := w.body })) ?_
    · unfold answerCueWrite
      rw [h]
      dsimp only
      rw [if_neg]
      rw [takeHead_cue]
      exact fun ⟨hb, hcur⟩ => hfree.elim (fun hi => CueUnit.busy_iff.1 hb hi) fun hn => hn hcur
    · show (takeHead l s).memory.set _ _ = _
      rw [taken.memory]
  · refine takeCommand_refuses hw gate ?_ hd.settled
    rw [readRecordIndex_two, if_neg (Nat.not_lt.2 h)]
  · refine takeCommand_acted (a := { state := takeHead l s, code := .ok, contents := cueContents rec }) hw gate ?_ rfl rfl rfl taken rfl rfl hd.settled
    rw [readRecordIndex_two, if_pos h]
    unfold State.cueRecord
    dsimp only
    rw [taken.memory, hrec]
    rfl
  · exact takeCommand_refuses hw gate (by rw [readRecordIndex_eq_none h]) hd.settled

end Sys2Proof.Machine
end

