-- ==== Sys2Proof/Proofs/Reports.lean ====
section
/-! PROOF. What the reading commands report (R64, R175, R179): the contents of each reply are the bytes that the manual's tables give, and are
the same read from the state that the event leaves. -/

namespace Sys2Proof.Machine

-- One theorem after another, so that the compile needs few threads.
set_option Elab.async false

/-! ## The STATUS reply (R175) -/

theorem State.linkStatus_eq (s : State) (l : Link) : s.linkStatus l =
    [match (s.link l).state with | .down => 0 | .up => 1, match (s.link l).flow with | .flowing => 0 | .held => 1,
      BitVec.ofInt 8 (s.reg l).requested, BitVec.ofInt 8 (s.reg l).effective] := by
  unfold State.linkStatus
  cases (s.link l).state <;> cases (s.link l).flow <;> rfl

theorem Port.status_eq (pt : Port) : pt.status =
    [match pt.state with | .off => 0 | .active => 1 | .tripped => 2 | .locked => 3, byteOf (pt.load / 256), byteOf pt.load,
      byteOf pt.history.length] := by
  unfold Port.status
  cases pt.state <;> rfl

theorem OwnerSet.byte_code (o : OwnerSet) : byteOf o.code =
    (if o.claim then 1 else 0) + (if o.cue then 2 else 0) + (if o.link1 then 4 else 0) + (if o.link2 then 8 else 0) := by
  obtain ⟨claim, cue, link1, link2⟩ := o
  cases claim <;> cases cue <;> cases link1 <;> cases link2 <;> rfl

theorem playerStatus_eq (run : Option Run) : playerStatus run =
    [match run with | some _ => 1 | none => 0, orNone (run.map (·.figure)), orNone (run.map (·.step)),
      match run with
      | some r => (if r.owners.claim then 1 else 0) + (if r.owners.cue then 2 else 0) + (if r.owners.link1 then 4 else 0) +
          (if r.owners.link2 then 8 else 0)
      | none => 0] := by
  cases run with
  | none => rfl
  | some r =>
    show [1, byteOf r.figure, byteOf r.step, byteOf r.owners.code] = [1, byteOf r.figure, byteOf r.step, _]
    rw [OwnerSet.byte_code]

theorem State.chamberStatus_eq (s : State) (c : Nat) : s.chamberStatus c =
    match s.engine, s.chamber c with
    | .ready, some (.enclosed stages _ channel _) =>
      [byteOf (s.chamberState c).current, byteOf (((s.channel channel) * stages + 64) / 128)]
    | _, _ => [0xFF, 0xFF] := by
  unfold State.chamberStatus State.ready State.engine
  cases s.store.engine <;> rcases s.chamber c with _ | _ | _ <;> rfl

theorem CheckResult.bytes_eq (x : CheckResult) : x.bytes =
    match x with
    | .none => [0, 0xFF, 0xFF, 0xFF]
    | .passed => [1, 0xFF, 0xFF, 0xFF]
    | .failed f =>
      [2,
        match f.kind with | .noPort => 0 | .outOfPort => 1 | .overlap => 2 | .badCompass => 3 | .badTiming => 4 | .badLink => 5,
        match f.table with
        | .division => 0 | .source => 1 | .stop => 2 | .chamber => 3 | .tremulant => 4 | .port => 5 | .figure => 6,
        byteOf f.entry] := by
  cases x with
  | failed f =>
    obtain ⟨kind, table, entry⟩ := f
    cases kind <;> cases table <;> rfl
  | _ => rfl

theorem UnitState.byte_code (x : UnitState) : byteOf x.code =
    (match x with | .idle => 0 | .running => 1 | .timing _ => 2 | .awaiting => 3 | .suspended _ => 4 : Byte) := by cases x <;> rfl

theorem ownerByte (x : Option Link) : optByte (x.map linkNumber) = (match x with | some .one => 1 | some .two => 2 | none => 0xFF : Byte) := by
  rcases x with _ | l
  · rfl
  · cases l <;> rfl

theorem stopReasonByte (x : Option StopReason) : byteOf ((x.map StopReason.code).getD 0) =
    (match x with
      | none => 0 | some .ended => 1 | some .aborted => 2 | some .chainBroken => 3 | some .failed => 4 | some .runaway => 5
      | some .silenced => 6 | some .reset => 7 | some .ownerLost => 8 : Byte) := by
  rcases x with _ | r
  · rfl
  · cases r <;> rfl

/-- The contents of a STATUS reply are the values of R175's table. -/
theorem State.statusContents_eq (s : State) : s.statusContents = s.statusReply := by
  have engine : byteOf s.engine.code = match s.engine with | .unconfigured => 0 | .loading => 1 | .checking => 2 | .ready => 3 := by
    cases s.engine <;> rfl
  have supply : byteOf s.supply.state.code = match s.supply.state with | .low => 0 | .good => 1 := by cases s.supply.state <;> rfl
  have phases : (s.generators.map fun g => byteOf g.phase.code) =
      s.generators.map fun g => match g.phase with | .off => 0 | .opened _ => 1 | .closed _ => 2 :=
    List.map_congr_left fun g _ => by cases g.phase <;> rfl
  unfold State.statusContents State.statusReply State.cueStatus
  simp only [engine, supply, phases, CheckResult.bytes_eq, State.linkStatus_eq, UnitState.byte_code, ownerByte, stopReasonByte, orNone2_eq, List.flatMap, funext Port.status_eq,
    funext playerStatus_eq, funext s.chamberStatus_eq, List.append_assoc, List.cons_append, List.nil_append]
  rfl

/-- The contents of a STATUS reply read neither the counters nor what is queued at the links. -/
theorem State.statusContents_congr {s t : State} (k : Only [.links, .counters] s t)
    (hl : ∀ l, (t.link l).state = (s.link l).state ∧ (t.link l).flow = (s.link l).flow) : t.statusContents = s.statusContents := by
  have link : ∀ l, t.linkStatus l = s.linkStatus l := fun l => by
    unfold State.linkStatus
    rw [(hl l).1, (hl l).2, State.reg_of_regs k.regs]
  have chamber : ∀ c, t.chamberStatus c = s.chamberStatus c := fun c => by
    unfold State.chamberStatus State.ready State.chamber State.chamberState State.channel
    rw [k.store, k.shutters]
  unfold State.statusContents State.cueStatus State.engine
  rw [link, link, funext chamber, k.store, k.ports, k.supply, k.cue, k.figures, k.generators]

/-! ## The counters (R179) -/

theorem State.counterContents_eq (s : State) : s.counterContents = counterReply s.counters := rfl

theorem notify_discards (l : Link) (n : Notice) (s : State) : Raised 0 (.noticesDiscarded l) s (s.notify l n) ∨
    Raised 1 (.noticesDiscarded l) s (s.notify l n) := by
  unfold State.notify
  split
  · exact .inl (.zero rfl)
  · dsimp only
    split
    · exact .inr (bumpBy_raised _ 1 _)
    · exact .inl (.zero rfl)

/-- Taking a message discards one notice at most. -/
theorem takeHead_discards (l : Link) (s : State) : Raised 0 (.noticesDiscarded l) s (takeHead l s) ∨
    Raised 1 (.noticesDiscarded l) s (takeHead l s) := by
  unfold takeHead judgeFlow
  split <;> split
  · exact notify_discards l _ ((s.modLink l fun i => { i with input := i.input.tail }).modLink l fun i => { i with flow := .held })
  · exact .inl (.zero rfl)
  · exact notify_discards l _ ((s.modLink l fun i => { i with input := i.input.tail }).modLink l fun i => { i with flow := .flowing })
  · exact .inl (.zero rfl)

theorem map_const_congr {α β : Type} {xs ys : List α} (h : ∀ i : Nat, (xs[i]?).isSome = (ys[i]?).isSome) (b : β) :
    (xs.map fun _ => b) = ys.map fun _ => b := by
  refine List.ext_getElem? fun i => ?_
  have := h i
  rw [List.getElem?_map, List.getElem?_map]
  cases hx : xs[i]? <;> cases hy : ys[i]? <;> simp_all

/-- Cleared counters are the same after the taking. -/
theorem takeHead_cleared (l : Link) (s : State) : ((takeHead l s).counters.map fun _ => 0) = s.counters.map fun _ => 0 := by
  refine map_const_congr (fun i => ?_) 0
  by_cases e : i = discards l
  · rcases takeHead_discards l s with h | h
    all_goals
      unfold Raised at h
      rw [e, discards, h, Option.isSome_map]
  · rw [takeHead_counted l s i (by simpa using e)]

/-! ## The QUERY OUTPUT reply (R64) -/

theorem addressReply_eq (x : Target) : addressReply x = x.bytes := by cases x <;> rfl

/-- What is reported on a record is R64's table. -/
theorem State.queryContents_of_record {s : State} {x : Target} {r : Record} (h : s.record x = some r) : s.queryContents x = s.recordReply r := by
  obtain ⟨-, rfl⟩ := State.mem_of_record h
  have carries : s.energized r.target =
      match r.target with
      | .output a => (s.ports[a.port]?).any fun pt => pt.energized.contains a.index
      | .claim _ => false := by
    unfold State.energized
    cases r.target with
    | output a =>
      dsimp only
      cases s.ports[a.port]? <;> rfl
    | claim i => rfl
  have stroke : byteOf (strokeCode r.stroke) =
      (match r.stroke with | some .idle => 0 | some (.striking _) => 1 | some (.resting _) => 2 | none => 3 : Byte) := by
    rcases r.stroke with _ | _ | _ | _ <;> rfl
  have owner : r.owner.bytes =
      (match r.owner with
      | .rank i n => [0, byteOf i, byteOf n]
      | .percussion i n => [1, byteOf i, byteOf n]
      | .trap i .single => [2, byteOf i, 0]
      | .trap i (.reiterate _) => [2, byteOf i, 1]
      | .trap i .hold => [2, byteOf i, 2]
      | .damper i => [3, byteOf i, 0xFF]
      | .stage c k => [4, byteOf c, byteOf k]
      | .valve j => [5, byteOf j, 0xFF]
      | .figureClaim i => [6, byteOf i, 0xFF] : List Byte) := by
    cases r.owner with
    | trap i m => cases m <;> rfl
    | _ => rfl
  unfold State.queryContents State.recordReply
  rw [h]
  dsimp only
  rw [carries, stroke, owner, addressReply_eq]
  simp only [bytes2, bytes3, Record.total, flagByte, List.append_assoc, List.cons_append, List.nil_append] <;> rfl

theorem State.queryContents_of_none {s : State} {x : Target} (h : s.record x = none) :
    s.queryContents x = [7, 0xFF, 0xFF] ++ addressReply x ++ [0, 0, 0, 0, 0, 0, 0, 0, 0, 0, 3] := by
  unfold State.queryContents
  rw [h]
  dsimp only
  rw [addressReply_eq, List.append_assoc, List.append_assoc, List.append_assoc, List.append_assoc, List.append_assoc]
  rfl

theorem State.queryContents_congr {s t : State} (k : Only [.links, .counters] s t) (x : Target) : t.queryContents x = s.queryContents x := by
  have demands : ∀ r, t.demands r = s.demands r := fun r => by
    unfold State.demands State.damperDemand State.chamberState State.generator
    rw [k.sched, k.shutters, k.generators]
  unfold State.queryContents State.record State.energized
  rw [k.table, k.ports]
  split
  · rw [demands]
  · rfl

theorem State.queryTarget_of_output {s : State} {fields : List Byte} {a : Addr} (h : readQuery fields = some (.output a)) :
    s.queryTarget fields = some (.output a) := by
  unfold State.queryTarget
  rw [h]

theorem State.queryTarget_of_claim {s : State} {fields : List Byte} {i f : Nat} (h : readQuery fields = some (.claim i))
    (hs : s.source i = some (.figureTrap f)) : s.queryTarget fields = some (.claim i) := by
  unfold State.queryTarget
  rw [h]
  dsimp only
  rw [hs]

theorem State.queryTarget_of_other {s : State} {fields : List Byte} {i : Nat} (h : readQuery fields = some (.claim i))
    (hs : ∀ f, s.source i ≠ some (.figureTrap f)) : s.queryTarget fields = none := by
  unfold State.queryTarget
  rw [h]
  dsimp only
  split
  next f e => exact absurd e (hs f)
  all_goals rfl

theorem State.queryTarget_of_unread {s : State} {fields : List Byte} (h : readQuery fields = none) : s.queryTarget fields = none := by
  unfold State.queryTarget
  rw [h]

theorem State.queryTarget_congr {s t : State} (h : t.store = s.store) (fields : List Byte) : t.queryTarget fields = s.queryTarget fields := by
  unfold State.queryTarget State.source
  rw [h]

/-! ## The reading commands -/

/-- What taking a message leaves at the links reads the same once the event has placed a reply and begun to send. -/
theorem finish_reply_status (l m : Link) (p : Place) (u : State) :
    ((finish false (addPlace l p u)).link m).state = (u.link m).state ∧ ((finish false (addPlace l p u)).link m).flow = (u.link m).flow := by
  have facing := finish_facing false m (addPlace l p u)
  have same : ((addPlace l p u).link m).state = (u.link m).state ∧ ((addPlace l p u).link m).flow = (u.link m).flow := by
    unfold addPlace
    rw [State.link_modLink]
    split <;> exact ⟨rfl, rfl⟩
  have state := congrArg (fun i : LinkIf => i.state) facing
  have flow := congrArg (fun i : LinkIf => i.flow) facing
  exact ⟨state.trans same.1, flow.trans same.2⟩

section
variable {l : Link} {s : State} {tag kind : Byte} {contents : List Byte}

theorem answered_acted (hd : Done s) : Acted l [okPlace tag kind contents] s (finish false (addReply l tag kind .ok contents (takeHead l s))) :=
  Acted.of_pre ((Took.of_takeHead rfl).addPlace _) ((takeHead_only l s).trans (modLink_only _ _ _).mono) (takeHead_counted l s) hd.settled

theorem answered_finished (hd : Done s) :
    Only [.links] (takeHead l s) (finish false (addReply l tag kind .ok contents (takeHead l s))) := by
  have placed : Only [.links] (takeHead l s) (addReply l tag kind .ok contents (takeHead l s)) := modLink_only _ _ _
  exact placed.trans (finish_of_settled_only (hd.settled.of_links_counters ((takeHead_only l s).trans placed.mono)))

end

/-- Settles O47. -/
theorem readingReportsTheStateAndChangesNothing : Obligations.ReadingReportsTheStateAndChangesNothing := by
  intro l s tag hd
  dsimp only [exec, execStatus, execCountersRead, execCountersReadAndClear, execQueryOutput]
  have taken := takeHead_only l s
  refine ⟨fun hw => ?_, fun hw => ?_, fun hw => ?_, fun fields hw hr => ?_⟩
  · refine ⟨_, takeCommand_next hw rfl, ?_⟩
    have reported : (finish false (addReply l tag Kind.status .ok (takeHead l s).statusContents (takeHead l s))).statusReply =
        (takeHead l s).statusContents := by
      rw [← State.statusContents_eq]
      exact State.statusContents_congr (answered_finished hd).mono fun m => finish_reply_status l m _ _
    show Acted l [okPlace tag 0x38 (finish false (addReply l tag Kind.status .ok (takeHead l s).statusContents (takeHead l s))).statusReply] s
      (finish false (addReply l tag Kind.status .ok (takeHead l s).statusContents (takeHead l s)))
    rw [reported]
    exact answered_acted hd
  · refine ⟨_, takeCommand_next hw rfl, ?_⟩
    show Acted l [okPlace tag 0x39 (counterReply (finish false (addReply l tag Kind.countersRead .ok (takeHead l s).counterContents
      (takeHead l s))).counters)] s (finish false (addReply l tag Kind.countersRead .ok (takeHead l s).counterContents (takeHead l s)))
    rw [(answered_finished hd).counters]
    exact answered_acted hd
  · have cleared : Only [.links, .counters] s (clearCounters (takeHead l s)) := fun x hx => by
      have := taken x hx
      cases x <;> first | exact this | exact absurd (by decide) hx
    have placed : Only [.links] (clearCounters (takeHead l s))
        (addReply l tag Kind.countersReadAndClear .ok (takeHead l s).counterContents (clearCounters (takeHead l s))) := modLink_only _ _ _
    have finished := placed.trans (finish_of_settled_only (hd.settled.of_links_counters (cleared.trans placed.mono)))
    have took := (Took.of_takeHead (u := clearCounters (takeHead l s)) rfl).addPlace (okPlace tag 0x3A (counterReply (takeHead l s).counters))
    refine ⟨_, (takeHead l s).counters, takeCommand_next hw rfl, took.finish false,
      fun i hi => takeHead_counted l s i (by simpa using hi), ?_, cleared.trans finished.mono, finished.counters.trans (takeHead_cleared l s)⟩
    rcases takeHead_discards l s with h | h
    · unfold Raised at h
      rw [funext fun v => saturatingAdd_zero v, Option.map_id'] at h
      exact .inl h
    · exact .inr h
  · have gate : Gate.ready.refusal s.engine = none := by rw [hr]; rfl
    have answers : ∀ x, s.queryTarget fields = some x → ∃ t, takeCommand l Kind.queryOutput .ready (fun fields s =>
        match s.queryTarget fields with
        | some t => { state := s, code := .ok, contents := s.queryContents t }
        | none => .refuse .badArgument s) s = .next t ∧ Acted l [okPlace tag 0x3B (s.queryContents x)] s t := fun x hx => by
      refine takeCommand_acted (a := { state := takeHead l s, code := .ok, contents := s.queryContents x }) hw gate ?_ rfl rfl rfl taken rfl rfl
        hd.settled
      rw [State.queryTarget_congr taken.store, hx]
      dsimp only
      rw [State.queryContents_congr taken]
    have refuses : s.queryTarget fields = none → ∃ t, takeCommand l Kind.queryOutput .ready (fun fields s =>
        match s.queryTarget fields with
        | some t => { state := s, code := .ok, contents := s.queryContents t }
        | none => .refuse .badArgument s) s = .next t ∧ Acted l [refusalPlace tag 0x3B .badArgument] s t := fun hx =>
      takeCommand_refuses hw gate (by rw [State.queryTarget_congr taken.store, hx]) hd.settled
    refine ⟨fun a h => ⟨fun r hrec => ?_, fun hrec => ?_⟩, fun i f h hs => ⟨fun r hrec => ?_, fun hrec => ?_⟩,
      fun i h hs => refuses (State.queryTarget_of_other h hs), fun h => refuses (State.queryTarget_of_unread h)⟩
    · rw [← State.queryContents_of_record hrec]
      exact answers _ (State.queryTarget_of_output h)
    · rw [← State.queryContents_of_none hrec]
      exact answers _ (State.queryTarget_of_output h)
    · rw [← State.queryContents_of_record hrec]
      exact answers _ (State.queryTarget_of_claim h hs)
    · rw [← State.queryContents_of_none hrec]
      exact answers _ (State.queryTarget_of_claim h hs)

end Sys2Proof.Machine
end

