-- ==== Sys2Proof/Proofs/Ledger.lean ====
section
/-! PROOF. What playing counts and what it leaves beside its own link: the counters that strikes, reiteration and players raise (R177), the
counts of the other link and of the Cue (R41, R52), and releases, which raise no counter and start nothing. -/

namespace Sys2Proof.Machine

-- One theorem after another, so that the compile needs few threads.
set_option Elab.async false

/-! ## Counters -/

/-- The counters that playing raises (R177). -/
def playCounters : List Nat := 15 :: relayCounters

theorem CountedOnly.of_only {fs : List Field} {is : List Nat} {s t : State} (k : Only fs s t)
    (hf : Field.counters ∉ fs := by decide) : CountedOnly is s t := .of_counters (k.counters hf)

theorem startStroke_counted (a : Addr) (s : State) : CountedOnly [15] s (startStroke a s) := by
  unfold startStroke
  split
  · exact CountedOnly.trans (t := (s.setStroke a _).addLoad a.port _) (.of_counters rfl) (bumpBy_counted _ 1 .strikesStarted)
  · exact .refl _ _

theorem relaying_counted : Relaying (allBut [.counters]) (CountedOnly playCounters) where
  free := fun k => .of_only k
  trans := CountedOnly.trans
  count := fun s n c hc => (bumpBy_counted s n c).mono fun i hi => by
    rw [List.mem_singleton.1 hi]
    exact List.mem_cons_of_mem _ hc
  settle := fun _ => .of_counters rfl
  start := fun s a => (startStroke_counted a s).mono (by simp [playCounters])
  dequeue := fun _ _ => .of_counters rfl
  join := fun _ _ _ _ => .of_counters rfl
  reiterate := fun _ _ _ _ => .of_counters rfl
  endReiteration := fun _ _ => .of_counters rfl
  damper := fun _ _ _ => .of_counters rfl
  joins := fun _ _ _ _ _ _ => .of_counters rfl
  begins := fun _ _ _ _ _ _ _ _ => .of_counters rfl
  steps := fun _ _ _ _ _ _ _ _ _ => .of_counters rfl
  leaves := fun _ _ _ _ _ _ => .of_counters rfl

theorem countsMove_counted (l : Link) : CountsMove l (CountedOnly playCounters) := fun _ _ _ _ _ => .of_counters rfl

theorem serveEntry_counted (s : State) (e : QueuedStrike) : CountedOnly [15] s (serveEntry s e) := by
  unfold serveEntry
  split
  · exact CountedOnly.trans (t := dequeue e.out s) (.of_counters rfl) (startStroke_counted _ _)
  · exact .refl _ _

theorem serveQueue_counted (s : State) : CountedOnly [15] s (serveQueue s) := by
  unfold serveQueue
  generalize s.sched.queue = queue
  induction queue generalizing s with
  | nil => exact .refl _ _
  | cons e es ih => exact (serveEntry_counted s e).trans (ih _)

/-- The end of an event counts the strokes that it starts. -/
theorem finish_counted (serve : Bool) (s : State) : CountedOnly [15] s (finish serve s) := by
  have served : CountedOnly [15] s (settleAndServe serve s) := by
    unfold settleAndServe
    split
    · exact CountedOnly.trans (t := serveQueue (settle s)) (serveQueue_counted (settle s)) (.of_counters rfl)
    · exact .of_counters rfl
  exact served.trans ((CountedOnly.of_only (beginTransmission_only .one _)).trans (.of_only (beginTransmission_only .two _)))

/-! ## Releases -/

theorem reportChange_of_le {before after : Record} (h : after.total ≤ before.total) (s : State) :
    Only [.sched, .figures] s (reportChange before after s) := by
  unfold reportChange
  rw [if_neg (by omega)]
  exact Only.ite (reportRelease_only _ _) (Only.refl _ _)

theorem countClaim_of_le {f : Record → Record} (hf : ∀ r, (f r).total ≤ r.total) (x : Target) (s : State) :
    Only [.table, .sched, .figures] s (countClaim x f s) := by
  unfold countClaim
  split
  next r _ => exact (modRecord_only s x _).mono.trans (reportChange_of_le (hf r) _).mono
  · exact Only.refl _ _

theorem Record.countLink_removal (l : Link) (r : Record) : (r.countLink l false).total ≤ r.total := by
  cases l <;> simp only [Record.countLink, Record.total, Bool.false_eq_true, if_false] <;> omega

theorem handClaim_removal (l : Link) (st : Stop) (k : Nat) (s : State) :
    Only [.table, .sched, .figures] s (handClaim l false st k s) := by
  unfold handClaim
  split
  · exact countClaim_of_le (Record.countLink_removal l) _ _
  · exact Only.refl _ _

theorem changeUnderStop_released (l : Link) (d k : Nat) (a : Level) (s : State) (i : Nat) :
    Only [.table, .sched, .figures] s (changeUnderStop l d k a .released s i) := by
  unfold changeUnderStop
  split
  next st _ =>
    have silent : st.touch.admits .released = false := by cases st.touch <;> rfl
    rw [silent, Bool.false_and, if_neg Bool.false_ne_true]
    exact Only.ite (Only.ite (handClaim_removal _ _ _ _) (Only.refl _ _)) (Only.refl _ _)
  · exact Only.refl _ _

theorem setKey_released (l : Link) (d k : Nat) (s : State) :
    Only [.regs, .table, .sched, .figures] s (setKey l d k .released s) :=
  (modReg_only s l _).mono.trans (Only.foldl (changeUnderStop_released l d k _) _ _).mono

theorem releaseKeys_releases (l : Link) (s : State) : Only [.regs, .table, .sched, .figures] s (releaseKeys l s) :=
  Only.foldl (fun _ d => Only.foldl (fun u k => Only.ite (Only.refl _ u) (setKey_released l d k u)) _ _) _ _

/-- The teardown of a lost link raises no counter and starts no stroke. -/
theorem emptiedLink_releases (l : Link) (s : State) :
    Only [.links, .regs, .table, .sched, .figures, .generators] s (emptiedLink l s) := by
  unfold emptiedLink
  dsimp only
  refine Only.trans ?_ (modLink_only _ _ _).mono
  refine Only.trans ?_ (removeOwnerEverywhere_only _ _).mono
  refine Only.trans ?_ (modReg_only _ _ _).mono
  refine Only.trans ?_ (Only.foldl (fun t j => (setTab_only l j false t).mono) _ _)
  exact ((modLink_only _ _ _).mono.trans (releaseKeys_releases _ _).mono).trans (modReg_only _ _ _).mono

/-! ## The counts beside a link's own -/

/-- The record without its stroke state and without a link's count. -/
def Record.beside (l : Link) (r : Record) : Record :=
  match l with
  | .one => { r.bare with link1 := 0 }
  | .two => { r.bare with link2 := 0 }

/-- Every record agrees but for its stroke state and a link's own count. -/
def CountsBeside (l : Link) (s t : State) : Prop := ∀ x, (t.record x).map (Record.beside l) = (s.record x).map (Record.beside l)

theorem CountsBeside.otherCountsKept {l : Link} {s t : State} (h : CountsBeside l s t) : OtherCountsKept l s t := by
  intro x r hr
  have := h x
  rw [hr] at this
  obtain ⟨r', hr', e⟩ := Option.map_eq_some_iff.1 this
  have other : ∀ q : Record, (q.beside l).linkCount (otherLink l) = q.linkCount (otherLink l) := fun q => by cases l <;> rfl
  have owner : ∀ q : Record, (q.beside l).owner = q.owner := fun q => by cases l <;> rfl
  have cue : ∀ q : Record, (q.beside l).cue = q.cue := fun q => by cases l <;> rfl
  exact ⟨r', hr', by rw [← owner, e, owner], by rw [← other, e, other], by rw [← cue, e, cue]⟩

theorem BareSame.countsBeside {s t : State} (h : BareSame s t) (l : Link) : CountsBeside l s t := fun x => by
  have bare : ∀ q : Record, q.bare.beside l = q.beside l := fun q => by cases l <;> rfl
  have := congrArg (Option.map (Record.beside l)) (h.bare x)
  unfold State.bare at this
  rw [Option.map_map, Option.map_map] at this
  have e : Record.beside l ∘ Record.bare = Record.beside l := funext bare
  rwa [e] at this

theorem relayed_countsBeside (l : Link) : Relayed (allBut [.table]) (CountsBeside l) where
  free := fun k => (relayed_bareSame.free k).countsBeside l
  trans := fun h k x => (k x).trans (h x)
  bump := fun s n c => (relayed_bareSame.bump s n c).countsBeside l
  settle := fun s => (relayed_bareSame.settle s).countsBeside l
  start := fun s a => (relayed_bareSame.start s a).countsBeside l
  dequeue := fun s a => (relayed_bareSame.dequeue s a).countsBeside l
  join := fun s a h hl => (relayed_bareSame.join s a h hl).countsBeside l
  reiterate := fun s a n h => (relayed_bareSame.reiterate s a n h).countsBeside l
  endReiteration := fun s a => (relayed_bareSame.endReiteration s a).countsBeside l
  damper := fun s i f => (relayed_bareSame.damper s i f).countsBeside l
  joins := fun s p run o h ho => (relayed_bareSame.joins s p run o h ho).countsBeside l
  begins := fun s p f o h h0 hp ho => (relayed_bareSame.begins s p f o h h0 hp ho).countsBeside l
  steps := fun s p run fig k e h hf hk => (relayed_bareSame.steps s p run fig k e h hf hk).countsBeside l
  leaves := fun s p run o h ho => (relayed_bareSame.leaves s p run o h ho).countsBeside l

theorem countsMove_countsBeside (l : Link) : CountsMove l (CountsBeside l) := fun s x r add hr y => by
  have target : (r.countLink l add).target = x := (Record.countLink_target l add r).trans (State.mem_of_record hr).2
  rw [s.record_modRecord_const target]
  split
  next h =>
    subst h
    rw [hr]
    exact congrArg some (by cases l <;> rfl)
  · rfl

end Sys2Proof.Machine
end

