-- ==== Sys2Proof/Proofs/Demand.lean ====
section
/-! PROOF. Tremulants whose demand stands through a part of an event, and tabs turned one after another (06 R104, R106; 02 R31, R32, R40). -/

namespace Sys2Proof.Machine

-- One theorem after another, so that the compile needs few threads.
set_option Elab.async false

/-- Nothing of what R104 names has changed, nor any generator. -/
structure DemandStands (s t : State) : Prop where
  now : t.now = s.now
  tables : t.store.tables = s.store.tables
  generators : t.generators = s.generators
  demanded : ∀ j, t.demanded j = s.demanded j

theorem DemandStands.of_tabs {s t : State} (hnow : t.now = s.now) (hs : t.store = s.store) (hg : t.generators = s.generators)
    (htabs : ∀ l, (t.reg l).tabs = (s.reg l).tabs) : DemandStands s t :=
  ⟨hnow, by rw [hs], hg, fun j => by unfold State.demanded State.ready State.generator; rw [hs, hg, htabs, htabs]⟩

theorem DemandStands.of_only {fs : List Field} {s t : State} (k : Only fs s t) (hn : Field.now ∉ fs := by decide)
    (hs : Field.store ∉ fs := by decide) (hr : Field.regs ∉ fs := by decide) (hg : Field.generators ∉ fs := by decide) :
    DemandStands s t :=
  .of_tabs (k.now hn) (k.store hs) (k.generators hg) fun l => by rw [State.reg_of_regs (k.regs hr)]

theorem DemandStands.generator {s t : State} (h : DemandStands s t) (j : Nat) : t.generator j = s.generator j := by
  unfold State.generator
  rw [h.generators]

theorem DemandStands.tremulant {s t : State} (h : DemandStands s t) (j : Nat) : t.tremulant j = s.tremulant j := by
  unfold State.tremulant
  rw [h.tables]

/-- What follows demand after its standing follows it from before. -/
theorem DemandStands.follow {s t u : State} (h : DemandStands s t) (k : GeneratorsFollow t u) : GeneratorsFollow s u where
  opens := fun j x hx hj h0 h1 => h.now ▸ k.opens j x ((h.tremulant j).trans hx) (h.generators ▸ hj) ((h.demanded j).trans h0) h1
  ends := fun j h0 h1 => k.ends j ((h.demanded j).trans h0) h1
  stands := fun j h0 h1 => (k.stands j ((h.demanded j).trans h0) h1).trans (congrArg Generator.phase (h.generator j))
  rests := fun j h0 h1 hp => k.rests j ((h.demanded j).trans h0) h1 (by rw [h.generator]; exact hp)

theorem GeneratorsFollow.stand {s t u : State} (h : GeneratorsFollow s t) (k : DemandStands t u) : GeneratorsFollow s u where
  opens := fun j x hx hj h0 h1 => by rw [k.generator]; exact h.opens j x hx hj h0 ((k.demanded j).symm.trans h1)
  ends := fun j h0 h1 => by rw [k.generator]; exact h.ends j h0 ((k.demanded j).symm.trans h1)
  stands := fun j h0 h1 => by rw [k.generator]; exact h.stands j h0 ((k.demanded j).symm.trans h1)
  rests := fun j h0 h1 hp => by rw [k.generator]; exact h.rests j h0 ((k.demanded j).symm.trans h1) hp

/-! ## Tabs turned one after another -/

theorem foldl_setTab_demanded (l : Link) (on : Nat → Bool) (i : Nat) : ∀ (js : List Nat) (s : State),
    (js.foldl (fun t j => setTab l j (on j) t) s).demanded i = if i ∈ js then s.ready && (on i || s.elsewhere l i) else s.demanded i
  | [], _ => by simp
  | j :: js, s => by
    rw [List.foldl_cons, foldl_setTab_demanded l on i js, setTab_ready, setTab_elsewhere, setTab_demanded]
    by_cases hj : i = j
    · subst hj
      simp
    · simp [hj]

/-- Every tab is turned one way: no demand lapses on the way. -/
theorem foldl_setTab_generatorsFollow (l : Link) (on : Nat → Bool) : ∀ (js : List Nat) (s : State),
    GeneratorsFollow s (js.foldl (fun t j => setTab l j (on j) t) s)
  | [], s => .of_same rfl fun _ => rfl
  | j :: js, s => by
    have only := setTab_only l j (on j) s
    refine (setTab_generatorsFollow l j (on j) s).trans (foldl_setTab_generatorsFollow l on js _) only.now (by rw [only.store])
      (setTab_length l j (on j) s) fun i before after => ?_
    rw [setTab_demanded]
    split
    next h =>
      subst h
      rw [foldl_setTab_demanded, if_pos List.mem_cons_self] at after
      exact after
    · exact before

end Sys2Proof.Machine
end

