-- ==== Sys2Proof/Proofs/LinkLoss.lean ====
section
/-! PROOF. The loss of a link (09 R171; 02 R40; 05 R100; 08 R156) and a FULL RESET taking effect (01 R24). -/

namespace Sys2Proof.Machine

-- One theorem after another, so that the compile needs few threads.
set_option Elab.async false

/-! ## The end of an event at its links -/

theorem finish_other_facing {s u : State} {m : Link} (h : (u.link m).facing = (s.link m).facing) (serve : Bool) :
    ((finish serve u).link m).facing = (s.link m).facing := (finish_facing serve m u).trans h

/-- A notice told alone begins at an idle transmitter. -/
theorem Told.begins {m : Link} {n : Notice} {rest : List Notice} {s t : State} (h : Told m (n :: rest) s t) (up : (s.link m).state = .up)
    (idle : (s.link m).transmitter = .idle) :
    (∃ frame, (t.link m).transmitter = .sending (.notice n) frame s.now) ∧ (t.link m).notices = rest := (h up).1 idle

/-! ## The teardown -/

theorem emptiedLink_link (l : Link) (s : State) : (emptiedLink l s).link l = (s.link l).lost := by
  rw [State.link_of_links (emptiedLink_links l s), State.link_modLink_same]

theorem emptiedLink_link_other (l : Link) (s : State) : (emptiedLink l s).link (otherLink l) = s.link (otherLink l) := by
  rw [State.link_of_links (emptiedLink_links l s), State.link_modLink_other]

/-- No player keeps the link as an owner (R100). -/
theorem emptiedLink_owners {l : Link} {s : State} {p : Nat} {run : Run} (h : (emptiedLink l s).playing p = some run) :
    run.owners.has (.link l) = false := removeOwnerEverywhere_has (State.mem_of_playing h)

theorem tabs_modReg {f : Registration → Registration} (hf : ∀ r, (f r).tabs = r.tabs) (l m : Link) (s : State) :
    ((s.modReg l f).reg m).tabs = (s.reg m).tabs := by
  by_cases h : m = l
  · rw [h, State.reg_modReg_same, hf]
  · rw [State.reg_modReg_of_ne _ h]

theorem emptiedLink_generatorsFollow (l : Link) (s : State) : GeneratorsFollow s (emptiedLink l s) := by
  unfold emptiedLink
  dsimp only
  have released := releaseKeys_only l (s.modLink l fun i => { i with state := .down, silenceTimer := none })
  have rewritten := releaseKeys_rewrites l (s.modLink l fun i => { i with state := .down, silenceTimer := none })
  have before : DemandStands s ((releaseKeys l (s.modLink l fun i => { i with state := .down, silenceTimer := none })).modReg l
      fun r => { r with stops := [] }) := by
    refine .of_tabs released.now released.store released.generators fun m => ?_
    have lifted : ((releaseKeys l (s.modLink l fun i => { i with state := .down, silenceTimer := none })).reg m).tabs = (s.reg m).tabs := by
      by_cases h : m = l
      · subst h
        rw [rewritten.reg_same, Registration.lifted_eq]
        rfl
      · rw [rewritten.reg_of_ne h]
        rfl
    exact (tabs_modReg (by intro _; rfl) l m _).trans lifted
  refine (before.follow (foldl_setTab_generatorsFollow l (fun _ => false) (s.reg l).tabs _)).stand ?_
  generalize (List.foldl _ _ _ : State) = u
  have torn : DemandStands u (u.modReg l fun r => { r with requested := 0, effective := 0 }) :=
    .of_tabs rfl rfl rfl fun m => tabs_modReg (by intro _; rfl) l m u
  have removed := (removeOwnerEverywhere_only (.link l) (u.modReg l fun r => { r with requested := 0, effective := 0 })).mono (gs := [.figures, .links])
  exact ⟨removed.now.trans torn.now, (congrArg Store.tables removed.store).trans torn.tables, removed.generators.trans torn.generators,
    fun j => ((DemandStands.of_only removed).demanded j).trans (torn.demanded j)⟩

/-! ## What the loss tells -/

/-- The unit suspended at the loss of its owner's link (R156). -/
def CueUnit.ownerLost (now : Nat) (c : CueUnit) : CueUnit :=
  { c with
    owner := none
    stopReason := some .ownerLost
    state := .suspended (match c.state with
      | .timing expiry => .timing (expiry - now)
      | .awaiting => .awaiting
      | .suspended sub => sub
      | .running | .idle => .running) }

section
variable {l : Link} {s : State}

theorem cueOwnerLost_of_owned (h : s.cue.owner = some l ∧ s.cue.state ≠ .idle) :
    cueOwnerLost l s = (s.modCue (CueUnit.ownerLost s.now)).notifyAll (.cueStopped .ownerLost s.cue.current) := by
  have busy : s.cue.busy = true := CueUnit.busy_iff.2 h.2
  unfold cueOwnerLost
  rw [if_pos ⟨h.1, busy⟩]
  unfold State.modCue CueUnit.ownerLost CueUnit.remembered
  cases hs : s.cue.state with
  | idle => exact absurd hs h.2
  | _ => rfl

theorem cueOwnerLost_of_not_owned (h : ¬(s.cue.owner = some l ∧ s.cue.state ≠ .idle)) : cueOwnerLost l s = s := by
  unfold cueOwnerLost
  rw [if_neg fun hc => h ⟨hc.1, CueUnit.busy_iff.1 hc.2⟩]

theorem tellLoss_of_not_owned (h : ¬(s.cue.owner = some l ∧ s.cue.state ≠ .idle)) : tellLoss l s = s.notify (otherLink l) (.linkDown l) := by
  unfold tellLoss
  rw [if_neg fun hc => h ⟨hc.1, CueUnit.busy_iff.1 hc.2.1⟩, cueOwnerLost_of_not_owned h]

/-- LINK DOWN goes before CUE STOPPED or after it (log 12). -/
theorem tellLoss_of_owned (h : s.cue.owner = some l ∧ s.cue.state ≠ .idle) :
    tellLoss l s = ((s.notify (otherLink l) (.linkDown l)).modCue (CueUnit.ownerLost s.now)).notifyAll (.cueStopped .ownerLost s.cue.current) ∨
    tellLoss l s = ((s.modCue (CueUnit.ownerLost s.now)).notifyAll (.cueStopped .ownerLost s.cue.current)).notify (otherLink l) (.linkDown l) := by
  have only := notify_only s (otherLink l) (.linkDown l)
  unfold tellLoss
  split
  · left
    rw [cueOwnerLost_of_owned (by rw [only.cue]; exact h), only.now, only.cue]
  · right
    rw [cueOwnerLost_of_owned h]

theorem tellLoss_cue_of_owned (h : s.cue.owner = some l ∧ s.cue.state ≠ .idle) : (tellLoss l s).cue = s.cue.ownerLost s.now := by
  rcases tellLoss_of_owned h with e | e <;> rw [e]
  · rw [(notifyAll_only _ _).cue]
    exact congrArg (CueUnit.ownerLost s.now) (notify_only s (otherLink l) (.linkDown l)).cue
  · rw [(notify_only _ _ _).cue, (notifyAll_only _ _).cue]
    rfl

theorem tellLoss_cue_of_not_owned (h : ¬(s.cue.owner = some l ∧ s.cue.state ≠ .idle)) : (tellLoss l s).cue = s.cue := by
  rw [tellLoss_of_not_owned h]
  exact (notify_only _ _ _).cue

theorem tellLoss_counted (l : Link) (s : State) : CountedOnly [discards .one, discards .two] s (tellLoss l s) := by
  have notified : ∀ t n, CountedOnly [discards .one, discards .two] t (t.notify (otherLink l) n) := fun t n =>
    (notify_counted _ n t).mono fun i hi => by rw [List.mem_singleton.1 hi]; cases l <;> simp [otherLink]
  by_cases h : s.cue.owner = some l ∧ s.cue.state ≠ .idle
  · rcases tellLoss_of_owned h with e | e <;> rw [e]
    · exact ((notified s _).trans (.of_counters rfl)).trans (notifyAll_counted _ _)
    · exact (CountedOnly.trans (t := s.modCue _) (.of_counters rfl) (notifyAll_counted _ _)).trans (notified _ _)
  · rw [tellLoss_of_not_owned h]
    exact notified s _

theorem notifyAll_of_down {m : Link} (h : (s.link m).state = .down) (n : Notice) : (s.notifyAll n).link m = s.link m := by
  unfold State.notifyAll
  cases m with
  | one => rw [notify_of_ne (by decide), State.notify_of_down h]
  | two =>
    have other := notify_of_ne (show Link.two ≠ .one by decide) n s
    rw [State.notify_of_down (by rw [other]; exact h), other]

/-- The lost link itself is told nothing. -/
theorem tellLoss_link (h : (s.link l).state = .down) : (tellLoss l s).link l = s.link l := by
  have apart : l ≠ otherLink l := (otherLink_ne l).symm
  have other : ∀ t n, (State.notify t (otherLink l) n).link l = t.link l := fun t n => notify_of_ne apart n t
  by_cases ho : s.cue.owner = some l ∧ s.cue.state ≠ .idle
  · rcases tellLoss_of_owned ho with e | e <;> rw [e]
    · exact (notifyAll_of_down (s := (s.notify (otherLink l) (.linkDown l)).modCue _) (by rw [← other s (.linkDown l)] at h; exact h) _).trans (other s _)
    · exact (other _ _).trans (notifyAll_of_down (s := s.modCue _) h _)
  · rw [tellLoss_of_not_owned ho]
    exact other s _

theorem tellLoss_facing (l m : Link) (s : State) : ((tellLoss l s).link m).facing = (s.link m).facing := by
  by_cases h : s.cue.owner = some l ∧ s.cue.state ≠ .idle
  · rcases tellLoss_of_owned h with e | e <;> rw [e]
    · exact (notifyAll_facing m _ _).trans (notify_facing _ m _ s)
    · exact (notify_facing _ m _ _).trans (notifyAll_facing m _ _)
  · rw [tellLoss_of_not_owned h]
    exact notify_facing _ m _ s

/-- The notices of a loss, in their order. -/
theorem tells_tellLoss (l : Link) (s : State) : ∃ ns, Tells (otherLink l) ns s (tellLoss l s) ∧
    (¬(s.cue.owner = some l ∧ s.cue.state ≠ .idle) → ns = [.linkDown l]) ∧
    (s.cue.owner = some l ∧ s.cue.state ≠ .idle → ns = [.linkDown l, .cueStopped .ownerLost s.cue.current] ∨
      ns = [.cueStopped .ownerLost s.cue.current, .linkDown l]) := by
  by_cases h : s.cue.owner = some l ∧ s.cue.state ≠ .idle
  · have suspended : ∀ t : State, Tells (otherLink l) [] t (t.modCue (CueUnit.ownerLost s.now)) := fun t => .of_link rfl rfl
    rcases tellLoss_of_owned h with e | e <;> rw [e]
    · exact ⟨_, ((tells_notify _ (.linkDown l) s).trans (suspended _)).trans (tells_notifyAll _ _ _), fun hn => absurd h hn, fun _ => .inl rfl⟩
    · exact ⟨_, ((suspended s).trans (tells_notifyAll _ _ _)).trans (tells_notify _ (.linkDown l) _), fun hn => absurd h hn, fun _ => .inr rfl⟩
  · rw [tellLoss_of_not_owned h]
    exact ⟨_, tells_notify _ _ s, fun _ => rfl, fun ho => absurd ho h⟩

end

/-! ## The whole loss -/

/-- The state that the loss of a link leaves where no reset is pending. -/
def lostLink (l : Link) (s : State) : State := (tellLoss l (emptiedLink l s)).bump (.linkLosses l)

theorem lostLink_only (l : Link) (s : State) :
    Only [.links, .regs, .table, .sched, .figures, .generators, .cue, .counters] s (lostLink l s) :=
  ((emptiedLink_releases l s).mono.trans (tellLoss_only _ _).mono).trans (bump_only _ _).mono

theorem linkLosses_ne_discards (l m : Link) : (Counter.linkLosses l).index ≠ discards m := by cases l <;> cases m <;> decide

theorem lostLink_raised (l : Link) (s : State) : Raised 1 (.linkLosses l) s (lostLink l s) :=
  .of_counted ((CountedOnly.of_only (emptiedLink_releases l s)).trans (tellLoss_counted l _)) (bumpBy_raised _ 1 _)
    (by simp [linkLosses_ne_discards])

theorem lostLink_link (l : Link) (s : State) : (lostLink l s).link l = (s.link l).lost :=
  (tellLoss_link (by rw [emptiedLink_link]; rfl)).trans (emptiedLink_link l s)

theorem lostLink_other_facing (l : Link) (s : State) : ((lostLink l s).link (otherLink l)).facing = (s.link (otherLink l)).facing :=
  (tellLoss_facing l (otherLink l) (emptiedLink l s)).trans (by rw [emptiedLink_link_other])

theorem lostLink_regs (l : Link) (s : State) : (lostLink l s).regs = (emptiedLink l s).regs := (tellLoss_only l _).regs

theorem lostLink_countsBeside (l : Link) (s : State) : CountsBeside l s (lostLink l s) := by
  have relayed := relayed_countsBeside l
  refine relayed.trans (relayed.emptiedLink (countsMove_countsBeside l) (by decide) (by decide) (relayed.tabsTurn (by decide) (by decide) l) s) ?_
  exact relayed.free ((tellLoss_only l _).mono.trans (bump_only _ _).mono : Only [.cue, .links, .counters] _ _).but

theorem tells_lostLink (l : Link) (s : State) : ∃ ns, Tells (otherLink l) ns s (lostLink l s) ∧
    (¬(s.cue.owner = some l ∧ s.cue.state ≠ .idle) → ns = [.linkDown l]) ∧
    (s.cue.owner = some l ∧ s.cue.state ≠ .idle → ns = [.linkDown l, .cueStopped .ownerLost s.cue.current] ∨
      ns = [.cueStopped .ownerLost s.cue.current, .linkDown l]) := by
  have only := emptiedLink_releases l s
  have emptied : Tells (otherLink l) [] s (emptiedLink l s) := .of_link (emptiedLink_link_other l s) only.now
  obtain ⟨ns, tells, alone, both⟩ := tells_tellLoss l (emptiedLink l s)
  rw [only.cue] at alone both
  have whole : Tells (otherLink l) ([] ++ ns ++ []) s (lostLink l s) := (emptied.trans tells).trans (.of_link rfl rfl)
  rw [List.append_nil, List.nil_append] at whole
  exact ⟨ns, whole, alone, both⟩

/-- Settles O30. -/
theorem theLossOfALinkTearsDownWhatItHeld : Obligations.TheLossOfALinkTearsDownWhatItHeld := by
  intro l s e hd timer expired noReset places owned
  have due : s.due (s.link l).silenceTimer = true := by
    rw [timer]
    exact decide_eq_true expired
  have runs : exec (.silenceTimerExpiry l) s = .next (finish false (lostLink l s)) := by
    show execSilenceTimerExpiry l s = _
    unfold execSilenceTimerExpiry
    rw [if_pos due, loseLink_eq, noReset]
    rfl
  have only := lostLink_only l s
  have finished := finish_only false (lostLink l s)
  have rewritten := emptiedLink_rewrites l s
  have regs : (finish false (lostLink l s)).regs = (emptiedLink l s).regs := finished.regs.trans (lostLink_regs l s)
  have emptied : (finish false (lostLink l s)).reg l = Registration.empty := by
    rw [State.reg_of_regs regs, rewritten.reg_same, Registration.emptied_eq_empty places]
  have quiet : ((lostLink l s).link l).Quiet := by
    rw [lostLink_link]
    exact fun _ => ⟨rfl, fun _ h => nomatch h⟩
  have figures : (finish false (lostLink l s)).figures = (emptiedLink l s).figures :=
    finished.figures.trans (tellLoss_only l (emptiedLink l s)).figures
  have cue : (finish false (lostLink l s)).cue = (tellLoss l (emptiedLink l s)).cue := finished.cue
  have emptiedCue : (emptiedLink l s).cue = s.cue := (emptiedLink_releases l s).cue
  obtain ⟨ns, tells, alone, both⟩ := tells_lostLink l s
  have short : ns.length ≤ 16 := by
    by_cases h : owned
    · rcases both h with e | e <;> rw [e] <;> exact (by decide : 2 ≤ 16)
    · rw [alone h]
      exact (by decide : 1 ≤ 16)
  have told := finish_tells false tells (hd.quiet (otherLink l)) short
  refine ⟨_, runs, ?_, finish_other_facing (lostLink_other_facing l s) false, emptied, ?_, ?_, fun rests shaped law r hr => ?_,
    fun p run hp => ?_, fun ho => ?_, fun ho => ?_, ?_, ?_, (only.mono).trans finished.mono, fun ho up idle => ?_, fun ho up idle => ?_⟩
  · rw [finish_of_link_quiet false quiet, lostLink_link, LinkIf.lost, ← noReset]
  · rw [State.reg_of_regs regs, rewritten.reg_other]
  · exact ((relayed_countsBeside l).trans (lostLink_countsBeside l s) ((relayed_countsBeside l).finish (by decide) false _)).otherCountsKept
  · have kept := claimLaws_kept (exec_keepsTargets runs rests) (exec_keepsClaims runs rests) shaped law
    rw [kept.2 l r hr]
    exact State.standing_of_no_stops (by rw [emptied]; rfl) _
  · rw [State.playing_of_figures figures] at hp
    exact emptiedLink_owners hp
  · rw [cue, tellLoss_cue_of_owned (by rw [emptiedCue]; exact ho), emptiedCue, (emptiedLink_releases l s).now]
    rfl
  · rw [cue, tellLoss_cue_of_not_owned (by rw [emptiedCue]; exact ho), emptiedCue]
  · exact (lostLink_raised l s).counted (finish_counted false _) (by cases l <;> decide)
  · refine ((emptiedLink_generatorsFollow l s).stand (.of_only (tellLoss_only l _))).stand ?_
    exact .of_only ((bump_only _ _).mono.trans finished.mono : Only [.table, .ports, .counters, .sched, .links] _ _)
  · rw [alone ho] at told
    exact (told.begins up idle).1
  · rcases both ho with e | e <;> rw [e] at told
    all_goals obtain ⟨⟨frame, begun⟩, waits⟩ := told.begins up idle
    · exact ⟨_, _, frame, begun, waits, .inl rfl⟩
    · exact ⟨_, _, frame, begun, waits, .inr rfl⟩

/-! ## FULL RESET taking effect (R24) -/

/-- As many players and generators as there were. -/
def SizesKept (s t : State) : Prop :=
  t.figures.players.length = s.figures.players.length ∧ t.generators.length = s.generators.length

theorem sizesKept_setPlayer (s : State) (p : Nat) (run : Option Run) : SizesKept s (s.setPlayer p run) := ⟨List.length_set, rfl⟩

theorem relayed_sizesKept : Relayed (allBut [.figures, .generators]) SizesKept where
  free := fun {s t} k => by
    have figures : t.figures = s.figures := k.field (f := .figures) (by simp)
    have generators : t.generators = s.generators := k.field (f := .generators) (by simp)
    rw [SizesKept, figures, generators]
    exact ⟨rfl, rfl⟩
  trans := fun h k => ⟨k.1.trans h.1, k.2.trans h.2⟩
  bump := fun _ _ _ => ⟨rfl, rfl⟩
  settle := fun _ => ⟨rfl, rfl⟩
  start := fun s a => by rw [SizesKept, (startStroke_only a s).figures, (startStroke_only a s).generators]; exact ⟨rfl, rfl⟩
  dequeue := fun _ _ => ⟨rfl, rfl⟩
  join := fun _ _ _ _ => ⟨rfl, rfl⟩
  reiterate := fun _ _ _ _ => ⟨rfl, rfl⟩
  endReiteration := fun _ _ => ⟨rfl, rfl⟩
  damper := fun _ _ _ => ⟨rfl, rfl⟩
  joins := fun s p _ _ _ _ => sizesKept_setPlayer s p _
  begins := fun s p _ _ _ _ _ _ => sizesKept_setPlayer s p _
  steps := fun s p _ _ _ _ _ _ _ => sizesKept_setPlayer s p _
  leaves := fun s p _ _ _ _ => sizesKept_setPlayer s p _

theorem lostLink_sizesKept (l : Link) (s : State) : SizesKept s (lostLink l s) := by
  have relayed := relayed_sizesKept
  refine relayed.trans (relayed.emptiedLink (fun _ _ _ _ _ => ⟨rfl, rfl⟩) (by decide) (by decide) (fun t j on => ?_) s)
    (relayed.trans (relayed.free (tellLoss_only l _).but) (relayed.bump _ 1 _))
  exact ⟨congrArg (fun f => f.players.length) (setTab_only l j on t).figures, setTab_length l j on t⟩

theorem done_resetPart (l : Link) (up : Bool) (s : State) : Done (resetPart l up s) where
  settled := settled_of_resting (restOutsideReady_iff.2 fun _ => resting_resetPart l up s)
    (show EngineState.unconfigured ≠ .ready by decide) rfl
  quiet := fun m _ => by
    have bare : ((resetPart l up s).link m).notices = [] ∧ ((resetPart l up s).link m).replies = [] := by
      cases l <;> cases m <;> cases up <;> exact ⟨rfl, rfl⟩
    rw [bare.1, bare.2]
    exact ⟨rfl, fun _ h => nomatch h⟩

theorem map_const_of_length {α β : Type} {xs ys : List α} (h : xs.length = ys.length) (b : β) : (xs.map fun _ => b) = ys.map fun _ => b := by
  rw [List.map_const', List.map_const', h]

/-- A reset from the state that a loss leaves is a reset from the state before it, but for the counters. -/
theorem resetPart_lostLink (l : Link) (s : State) : Only [.counters] (resetPart l false s) (resetPart l false (lostLink l s)) := by
  have only := lostLink_only l s
  obtain ⟨players, generators⟩ := lostLink_sizesKept l s
  have figures : (resetPart l false (lostLink l s)).figures = (resetPart l false s).figures :=
    congrArg (fun ps => ({ players := ps, tempo := 100 } : Figures)) (map_const_of_length players none)
  intro f hf
  cases f with
  | now => exact only.now
  | rate => exact only.rate
  | store => rfl
  | links => rfl
  | regs => rfl
  | table => rfl
  | sched => rfl
  | figures => exact figures
  | generators => exact map_const_of_length generators _
  | shutters => exact congrArg (fun x : Shutters => Shutters.mk (x.channels.map fun _ => 0) (x.chambers.map fun _ => ⟨0, none⟩)) only.shutters
  | ports => exact congrArg (List.map fun pt : Port => Port.atPowerOn pt.overload) only.ports
  | supply => exact only.supply
  | memory => exact only.memory
  | cue => rfl
  | counters => exact absurd List.mem_cons_self hf
  | pending => exact only.pending

/-- Settles O32. -/
theorem aFullResetTakingEffectLeavesThePowerOnValues : Obligations.AFullResetTakingEffectLeavesThePowerOnValues := by
  intro l s pending reset
  have resets : ∀ up, event false (resetPart l up s) = .next (reset up) := fun up => by
    rw [event, finish_of_done (done_resetPart l up s)]
    rfl
  refine ⟨fun place r frame began sending holds kind code ended => ?_, fun e timer expired => ?_⟩
  · have due : s.due (s.sendingUntil l) = true := by
      unfold State.sendingUntil State.due
      rw [sending]
      exact decide_eq_true ended
    have its : s.sendingReset l = true := by
      unfold State.sendingReset
      rw [pending, sending]
      dsimp only
      rw [holds]
      exact Bool.and_eq_true_iff.2 ⟨rfl, Bool.and_eq_true_iff.2 ⟨decide_eq_true kind, decide_eq_true code⟩⟩
    constructor
    · show execTransmitEnd l s = _
      unfold execTransmitEnd
      rw [if_pos due, if_pos its, resets]
    · show execFullResetTakesEffect l s = _
      unfold execFullResetTakesEffect
      rw [if_pos pending, if_pos (by rw [its, due]; rfl), resets]
  · have due : s.due (s.link l).silenceTimer = true := by
      rw [timer]
      exact decide_eq_true expired
    have loses : event false (loseLink l s) = .next (resetPart l false (lostLink l s)) := by
      rw [loseLink_eq, if_pos pending, event]
      exact congrArg _ (finish_of_done (done_resetPart l false (lostLink l s)))
    refine ⟨resetPart l false (lostLink l s), ?_, fun noReply => ?_, resetPart_lostLink l s, lostLink_raised l s⟩
    · show execSilenceTimerExpiry l s = _
      unfold execSilenceTimerExpiry
      rw [if_pos due, loses]
    · show execFullResetTakesEffect l s = _
      unfold execFullResetTakesEffect
      rw [if_pos pending, if_neg (by rw [noReply]; simp), if_pos due, loses]

end Sys2Proof.Machine
end

