-- ==== Sys2Proof/Proofs/PlayedRegistrations.lean ====
section
/-! PROOF. The play messages that change a registration block, in READY: KEY CHANGE (R27, R35), STOP CHANGE and TREMULANT TAB (R30, R31),
REGISTRATION (R32). -/

namespace Sys2Proof.Machine

-- One theorem after another, so that the compile needs few threads.
set_option Elab.async false

/-! ## Entries that are ignored -/

/-- Entries that a test of what does not change refuses are ignored, and each is counted once (R27, R30, R31). -/
theorem foldl_ignored {α : Type} {g : State → α → State} {keep : α → Bool} {s : State} (hstore : ∀ t e, (g t e).store = t.store)
    (good : ∀ t e, t.store = s.store → keep e = true → CountedOnly playCounters t (g t e))
    (bad : ∀ t e, t.store = s.store → keep e = false → g t e = ignoreEntry t) :
    ∀ (es : List α) (t : State), t.store = s.store → Raised (es.filter fun e => !keep e).length .playEntriesIgnored t (es.foldl g t)
  | [], t, _ => .zero rfl
  | e :: es, t, ht => by
    have rest := foldl_ignored hstore good bad es (g t e) ((hstore t e).trans ht)
    cases hk : keep e with
    | true =>
      rw [List.filter_cons_of_neg (by simp [hk])]
      exact .of_counted (good t e ht hk) rest (by decide)
    | false =>
      rw [List.filter_cons_of_pos (by simp [hk]), List.length_cons, Nat.add_comm]
      refine Raised.add ?_ rest
      rw [bad t e ht hk]
      exact bumpBy_raised t 1 .playEntriesIgnored

/-- What the taking and the end of a play message leave of its effect at the links, the counters and the table. -/
theorem played_effects {l : Link} {s u : State} {n : Nat} (links : u.links = (takeHead l s).links)
    (raised : Raised n .playEntriesIgnored (takeHead l s) u) :
    Took l [] s (finish false u) ∧ Raised n .playEntriesIgnored s (finish false u) := by
  refine ⟨(Took.of_takeHead links).finish false, ?_⟩
  exact (Raised.of_counted (takeHead_counted l s) raised (by cases l <;> decide)).counted (finish_counted false u) (by decide)

theorem played_countsBeside {l : Link} {s u : State} (h : CountsBeside l (takeHead l s) u) : OtherCountsKept l s (finish false u) := by
  have relayed := relayed_countsBeside l
  exact (relayed.trans (relayed.trans (relayed.free (takeHead_only l s).but) h) (relayed.finish (by decide) false u)).otherCountsKept

theorem played_reg {l : Link} {s u : State} {f : Registration → Registration} (h : Rewrites l f (takeHead l s) u) :
    (finish false u).reg l = f (s.reg l) ∧ (finish false u).reg (otherLink l) = s.reg (otherLink l) := by
  have taken : ∀ m, (takeHead l s).reg m = s.reg m := State.reg_of_regs (takeHead_only l s).regs
  have finished : ∀ m, (finish false u).reg m = u.reg m := State.reg_of_regs (finish_only false u).regs
  rw [finished, finished, h.reg_same, h.reg_other, taken, taken]
  exact ⟨rfl, rfl⟩

theorem readPairs_eq {lo hi : Nat} {count : Byte} {rest : List Byte} {entries : List (Byte × Byte)} (pairs : pairsOf rest = some entries)
    (length : entries.length = count.toNat) (low : lo ≤ entries.length) (high : entries.length ≤ hi) :
    readPairs lo hi count rest = some entries := by
  unfold readPairs
  rw [pairs]
  exact if_pos ⟨length, low, high⟩

/-! ## KEY CHANGE -/

/-- The key of an entry exists in the division (R27). -/
def State.keyExists (s : State) (d : Nat) (e : Nat × Level) : Bool :=
  match s.division d with
  | some keys => decide (e.1 < keys)
  | none => false

theorem keyEntry_of_exists {s : State} {d : Nat} {e : Nat × Level} (h : s.keyExists d e = true) (l : Link) :
    keyEntry l d s e = takeTransposition l (setKey l d e.1 e.2 s) := by
  unfold State.keyExists at h
  unfold keyEntry
  cases hd : s.division d with
  | none => rw [hd] at h; cases h
  | some keys =>
    rw [hd] at h
    exact if_pos (of_decide_eq_true h)

theorem keyEntry_of_not_exists {s : State} {d : Nat} {e : Nat × Level} (h : s.keyExists d e = false) (l : Link) :
    keyEntry l d s e = ignoreEntry s := by
  unfold State.keyExists at h
  unfold keyEntry
  cases hd : s.division d with
  | none => rfl
  | some keys =>
    rw [hd] at h
    exact if_neg (of_decide_eq_false h)

theorem State.keyed_eq (s : State) (d : Nat) (e : Nat × Level) (r : Registration) :
    s.keyed d e r = if s.keyExists d e then (r.press d e.1 e.2).taken else r := by
  unfold State.keyed State.keyExists
  cases s.division d with
  | none => rfl
  | some keys => by_cases h : e.1 < keys <;> simp [h]

theorem State.keyExists_of_store {s t : State} (h : t.store = s.store) (d : Nat) (e : Nat × Level) : t.keyExists d e = s.keyExists d e := by
  unfold State.keyExists
  rw [State.division_of_store h]

theorem keyEntries_ignored (l : Link) (d : Nat) (es : List (Nat × Level)) (s : State) :
    Raised (es.filter fun e => !s.keyExists d e).length .playEntriesIgnored s (es.foldl (keyEntry l d) s) := by
  refine foldl_ignored (s := s) (fun t e => (keyEntry_only l d t e).store) (fun t e ht hk => ?_) (fun t e ht hk => ?_) es s rfl
  · rw [keyEntry_of_exists (by rwa [State.keyExists_of_store ht])]
    exact relaying_counted.trans (relaying_counted.setKey (countsMove_counted l) (by decide) _ _ _ _)
      (relaying_counted.takeTransposition (by decide) _)
  · exact keyEntry_of_not_exists (by rwa [State.keyExists_of_store ht]) l

theorem Registration.taken_press (r : Registration) (d k : Nat) (b : Level) : (r.press d k b).taken =
    { r with
      keys := r.keys.set (64 * d + k) b
      effective := if (r.keys.set (64 * d + k) b).all (fun v => decide (v = .released)) then r.requested else r.effective } := by
  unfold Registration.taken Registration.press Registration.holdsNoKey keyPlace
  dsimp only
  split <;> rfl

/-- Settles O35. -/
theorem keyChangeSetsTheLevelsOfTheKeysThatExist : Obligations.KeyChangeSetsTheLevelsOfTheKeysThatExist := by
  intro l s division count rest entries hd ready hw pairs length low high taken press
  let es := entries.map fun e => (e.1.toNat, readLevel e.2)
  have reads : readKeyChange (division :: count :: rest) = some (division.toNat, es) := by
    unfold readKeyChange
    dsimp only
    rw [readPairs_eq pairs length low high]
    rfl
  have plays : playKeys l (division :: count :: rest) (takeHead l s) = es.foldl (keyEntry l division.toNat) (takeHead l s) := by
    unfold playKeys
    rw [reads]
  have store := (takeHead_only l s).store
  have exists_iff : ∀ e : Byte × Byte, (takeHead l s).keyExists division.toNat (e.1.toNat, readLevel e.2) = taken e := fun e => by
    rw [State.keyExists_of_store store]
    rfl
  have only := Only.foldl (keyEntry_only l division.toNat) es (takeHead l s)
  have beside := (relayed_countsBeside l).foldl
    ((relayed_countsBeside l).keyEntry (countsMove_countsBeside l) (by decide) division.toNat) es (takeHead l s)
  obtain ⟨took, raised⟩ := played_effects only.links (keyEntries_ignored l division.toNat es (takeHead l s))
  obtain ⟨own, other⟩ := played_reg (keyEntries_rewrites l division.toNat es (takeHead l s))
  refine ⟨_, (takePlay_next hw ready).trans (congrArg _ (congrArg _ plays)), took, ?_, other, played_countsBeside beside, ?_,
    ((takeHead_only l s).mono.trans only.mono).trans (finish_only _ _).mono⟩
  · rw [own, List.foldl_map]
    refine List.foldl_ext _ _ _ fun r e _ => ?_
    rw [State.keyed_eq, exists_iff, Registration.taken_press]
    rfl
  · rw [List.filter_map, List.length_map] at raised
    have same : (entries.filter fun e => !taken e) =
        entries.filter ((fun e => !(takeHead l s).keyExists division.toNat e) ∘ fun e => (e.1.toNat, readLevel e.2)) :=
      List.filter_congr fun e _ => congrArg _ (exists_iff e).symm
    rw [same]
    exact raised

/-! ## STOP CHANGE -/

theorem Registration.contains_draw (r : Registration) (i j : Nat) : (r.draw i).stops.contains j = if j = i then true else r.stops.contains j := by
  rw [Registration.draw, Bool.eq_iff_iff, List.contains_iff_mem, mem_insertMember]
  by_cases h : j = i <;> simp [h]

theorem Registration.contains_cancel (r : Registration) (i j : Nat) :
    (r.cancel i).stops.contains j = if j = i then false else r.stops.contains j := by
  rw [Registration.cancel, Bool.eq_iff_iff, List.contains_iff_mem, List.mem_filter]
  by_cases h : j = i <;> simp [h]

/-- An entry that names a stop of the specification and has a word of meaning makes it a member, or none (R30). -/
theorem State.contains_stopped (s : State) (i : Nat) (word : Option Bool) (r : Registration) (j : Nat) :
    (s.stopped (i, word) r).stops.contains j =
      match word with
      | some drawn => if i = j ∧ (s.stop j).isSome then drawn else r.stops.contains j
      | none => r.stops.contains j := by
  unfold State.stopped
  cases hs : s.stop i with
  | none =>
    cases word with
    | none => rfl
    | some drawn =>
      dsimp only
      rw [if_neg]
      rintro ⟨rfl, h⟩
      rw [hs] at h
      cases h
  | some st =>
    cases word with
    | none => rfl
    | some drawn =>
      have present : (i = j ∧ (s.stop j).isSome) ↔ j = i := ⟨fun h => h.1.symm, fun h => ⟨h.symm, by rw [h, hs]; rfl⟩⟩
      dsimp only
      simp only [present]
      split
      next h =>
        split
        next e => rw [e, h]
        · rfl
      · cases drawn with
        | true => exact r.contains_draw i j
        | false => exact r.contains_cancel i j

theorem State.stopped_beside (s : State) (e : Nat × Option Bool) (r : Registration) :
    { s.stopped e r with stops := [] } = { r with stops := [] } := by
  unfold State.stopped
  split
  · split
    · rfl
    · split <;> rfl
  · rfl
  · rfl

/-- The word of an entry and the stop that it names are what the model knows (R30; log 25). -/
def State.stopNamed (s : State) (e : Nat × Option Bool) : Bool := (s.stop e.1).isSome && e.2.isSome

theorem State.stopNamed_of_store {s t : State} (h : t.store = s.store) (e : Nat × Option Bool) : t.stopNamed e = s.stopNamed e := by
  unfold State.stopNamed
  rw [State.stop_of_store h]

theorem stopEntry_counted {l : Link} {s : State} {e : Nat × Option Bool} (h : s.stopNamed e = true) :
    CountedOnly playCounters s (stopEntry l s e) := by
  unfold State.stopNamed at h
  unfold stopEntry
  split
  · refine relaying_counted.ite (fun _ => .refl _ _) fun _ => relaying_counted.ite (fun _ => ?_) fun _ => ?_
    · exact relaying_counted.drawStop (countsMove_counted l) (by decide) _ _
    · exact relaying_counted.cancelStop (countsMove_counted l) (by decide) _ _
  next hs => simp [hs] at h
  next hw => simp [hw] at h

theorem stopEntry_of_not_named {s : State} {e : Nat × Option Bool} (h : s.stopNamed e = false) (l : Link) :
    stopEntry l s e = ignoreEntry s := by
  unfold State.stopNamed at h
  unfold stopEntry
  split
  next hs hw => rw [hs, hw] at h; cases h
  · rfl
  · rfl

theorem stopEntries_ignored (l : Link) (es : List (Nat × Option Bool)) (s : State) :
    Raised (es.filter fun e => !s.stopNamed e).length .playEntriesIgnored s (es.foldl (stopEntry l) s) :=
  foldl_ignored (s := s) (fun t e => (stopEntry_only l t e).store)
    (fun _ _ ht hk => stopEntry_counted (by rwa [State.stopNamed_of_store ht]))
    (fun _ _ ht hk => stopEntry_of_not_named (by rwa [State.stopNamed_of_store ht]) l) es s rfl

/-! ## TREMULANT TAB -/

/-- An entry names one of the eight tremulants and has a word of meaning (R31; log 25). -/
def tabNamed (e : Nat × Option Bool) : Bool := decide (e.1 < 8) && e.2.isSome

theorem tabEntry_of_named {l : Link} {s : State} {j : Nat} {on : Bool} (h : j < 8) : tabEntry l s (j, some on) = setTab l j on s := if_pos h

theorem tabEntry_of_not_named {s : State} {e : Nat × Option Bool} (h : tabNamed e = false) (l : Link) : tabEntry l s e = ignoreEntry s := by
  unfold tabNamed at h
  unfold tabEntry
  split
  next hw =>
    rw [hw, Option.isSome_some, Bool.and_true] at h
    exact if_neg (of_decide_eq_false h)
  · rfl

theorem tabEntry_eq_of_named {e : Nat × Option Bool} (h : tabNamed e = true) : ∃ on, ∀ l s, tabEntry l s e = setTab l e.1 on s := by
  obtain ⟨j, word⟩ := e
  unfold tabNamed at h
  cases word with
  | none => simp at h
  | some on => exact ⟨on, fun l s => tabEntry_of_named (by simpa using h)⟩

theorem tabEntries_ignored (l : Link) (es : List (Nat × Option Bool)) (s : State) :
    Raised (es.filter fun e => !tabNamed e).length .playEntriesIgnored s (es.foldl (tabEntry l) s) := by
  refine foldl_ignored (s := s) (fun t e => (tabEntry_only l t e).store) (fun t e _ hk => ?_) (fun t e _ hk => tabEntry_of_not_named hk l) es s rfl
  obtain ⟨on, turns⟩ := tabEntry_eq_of_named hk
  rw [turns]
  exact .of_only (setTab_only l e.1 on t)

theorem contains_tabbed (j : Nat) (word : Option Bool) (r : Registration) (i : Nat) :
    (tabbed (j, word) r).tabs.contains i =
      match word with
      | some on => if j = i ∧ i < 8 then on else r.tabs.contains i
      | none => r.tabs.contains i := by
  unfold tabbed
  cases word with
  | none => rfl
  | some on =>
    dsimp only
    by_cases h : j < 8
    · have named : (j = i ∧ i < 8) ↔ i = j := ⟨fun k => k.1.symm, fun k => ⟨k.symm, k ▸ h⟩⟩
      simp only [named, if_pos h, Registration.contains_tab]
    · rw [if_neg h, if_neg fun k : j = i ∧ i < 8 => h (k.1 ▸ k.2)]

theorem tabbed_beside (e : Nat × Option Bool) (r : Registration) : { tabbed e r with tabs := [] } = { r with tabs := [] } := by
  unfold tabbed Registration.tab
  split
  · split
    · split <;> rfl
    · rfl
  · rfl

/-- The generators have been judged since a state, once or more: where demand has come it is in the phase that opens it, and where demand
has gone it is OFF. Of demand that came and went between, or went and came, nothing is said (log 33). -/
structure DemandJudged (s t : State) : Prop where
  now : t.now = s.now
  tables : t.store.tables = s.store.tables
  length : t.generators.length = s.generators.length
  comes : ∀ j x, s.tremulant j = some x → j < s.generators.length → t.demanded j = true →
    (t.generator j).phase = .opened (s.now + x.openTime) ∨ s.demanded j = true
  goes : ∀ j, t.demanded j = false → (t.generator j).phase = .off ∨ s.demanded j = false

theorem DemandJudged.refl (s : State) : DemandJudged s s := by
  refine ⟨rfl, rfl, rfl, fun j x _ _ h => .inr h, fun j h => .inr h⟩

theorem DemandJudged.follow {s t u : State} (h : DemandJudged s t) (k : GeneratorsFollow t u) (hnow : u.now = t.now)
    (htables : u.store.tables = t.store.tables) (hlen : u.generators.length = t.generators.length) : DemandJudged s u := by
  refine ⟨hnow.trans h.now, htables.trans h.tables, hlen.trans h.length, fun j x hx hj h1 => ?_, fun j h1 => ?_⟩
  · cases ht : t.demanded j with
    | true =>
      rw [k.stands j ht h1]
      exact h.comes j x hx hj ht
    | false =>
      have same : t.tremulant j = s.tremulant j := by unfold State.tremulant; rw [h.tables]
      exact .inl (h.now ▸ k.opens j x (same.trans hx) (h.length ▸ hj) ht h1)
  · cases ht : t.demanded j with
    | true => exact .inl (k.ends j ht h1)
    | false => exact (h.goes j ht).imp_left (k.rests j ht h1)

theorem tabEntries_judged (l : Link) : ∀ (es : List (Nat × Option Bool)) {s t : State}, DemandJudged s t → DemandJudged s (es.foldl (tabEntry l) t)
  | [], _, _, h => h
  | e :: es, s, t, h => by
    refine tabEntries_judged l es ?_
    have only := tabEntry_only l t e
    cases hk : tabNamed e with
    | true =>
      obtain ⟨on, turns⟩ := tabEntry_eq_of_named hk
      rw [turns]
      exact h.follow (setTab_generatorsFollow l e.1 on t) (setTab_only l e.1 on t).now (by rw [(setTab_only l e.1 on t).store])
        (setTab_length l e.1 on t)
    | false =>
      rw [tabEntry_of_not_named hk]
      exact h.follow (.of_only (bump_only t _)) rfl rfl rfl

/-! ## The entries of both -/

/-- A word byte of an entry: 0, 1 or of no meaning. -/
theorem fieldFlag_cases (w : Byte) : (w = 0 ∧ fieldFlag w = some false) ∨ (w = 1 ∧ fieldFlag w = some true) ∨
    (w ≠ 0 ∧ w ≠ 1 ∧ fieldFlag w = none) := by
  unfold fieldFlag
  by_cases h0 : w = 0
  · subst h0
    exact .inl ⟨rfl, rfl⟩
  · by_cases h1 : w = 1
    · subst h1
      exact .inr (.inl ⟨rfl, rfl⟩)
    · exact .inr (.inr ⟨h0, h1, by rw [if_neg h0, if_neg h1]⟩)

/-- Membership after the entries, by the last of them that names the number. -/
theorem foldl_member {f : Nat × Option Bool → Registration → Registration} {set : Registration → List Nat} {valid : Nat → Bool}
    (hf : ∀ i word r j, (set (f (i, word) r)).contains j =
      match word with
      | some on => if i = j ∧ valid j then on else (set r).contains j
      | none => (set r).contains j) (j : Nat) : ∀ (es : List (Byte × Byte)) (r : Registration),
    (set ((es.map fun e => (e.1.toNat, fieldFlag e.2)).foldl (fun q e => f e q) r)).contains j =
      es.foldl (fun m e => if e.1.toNat = j ∧ valid j ∧ (e.2 = 0 ∨ e.2 = 1) then decide (e.2 = 1) else m) ((set r).contains j)
  | [], _ => rfl
  | e :: es, r => by
    rw [List.map_cons, List.foldl_cons, foldl_member hf j es, List.foldl_cons]
    congr 1
    rw [hf]
    rcases fieldFlag_cases e.2 with ⟨h, w⟩ | ⟨h, w⟩ | ⟨h0, h1, w⟩ <;> rw [w]
    · simp [h]
    · simp [h]
    · rw [if_neg fun k => k.2.2.elim h0 h1]

theorem ignored_entries {p : Nat × Option Bool → Bool} {valid : Nat → Bool} (hp : ∀ e, p e = (valid e.1 && e.2.isSome))
    (es : List (Byte × Byte)) : ((es.map fun e => (e.1.toNat, fieldFlag e.2)).filter fun e => !p e).length =
      (es.filter fun e => !(valid e.1.toNat && (e.2 == 0 || e.2 == 1))).length := by
  rw [List.filter_map, List.length_map]
  congr 1
  refine List.filter_congr fun e _ => ?_
  rw [Function.comp, hp]
  rcases fieldFlag_cases e.2 with ⟨h, w⟩ | ⟨h, w⟩ | ⟨h0, h1, w⟩ <;> dsimp only <;> rw [w]
  · rw [h]
    rfl
  · rw [h]
    rfl
  · rw [beq_false_of_ne h0, beq_false_of_ne h1]
    rfl

/-- Settles O36. -/
theorem stopChangeAndTremulantTabSetMembership : Obligations.StopChangeAndTremulantTabSetMembership := by
  intro l s count rest entries hd ready pairs length low after ignored stop tab
  let es := entries.map fun e => (e.1.toNat, fieldFlag e.2)
  have taken := takeHead_only l s
  refine ⟨fun high hw => ?_, fun high hw => ?_⟩
  · have reads : readStopChange (count :: rest) = some es := by
      unfold readStopChange
      dsimp only
      rw [readPairs_eq pairs length low high]
      rfl
    have plays : playStops l (count :: rest) (takeHead l s) = es.foldl (stopEntry l) (takeHead l s) := by
      unfold playStops
      rw [reads]
    have only := Only.foldl (stopEntry_only l) es (takeHead l s)
    have beside := (relayed_countsBeside l).foldl
      ((relayed_countsBeside l).stopEntry (countsMove_countsBeside l) (by decide)) es (takeHead l s)
    have named : ∀ e, (takeHead l s).stopNamed e = (stop e.1 && e.2.isSome) := State.stopNamed_of_store taken.store
    have counted := stopEntries_ignored l es (takeHead l s)
    rw [ignored_entries named] at counted
    obtain ⟨took, raised⟩ := played_effects only.links counted
    obtain ⟨own, other⟩ := played_reg (stopEntries_rewrites l es (takeHead l s))
    refine ⟨_, (takePlay_next hw ready).trans (congrArg _ (congrArg _ plays)), took, fun i => ?_, ?_, other, played_countsBeside beside,
      raised, (taken.mono.trans only.mono).trans (finish_only _ _).mono⟩
    · rw [own]
      refine foldl_member (set := Registration.stops) (valid := stop) (fun i word r j => ?_) i entries (s.reg l)
      rw [State.contains_stopped, State.stop_of_store taken.store]
    · rw [own]
      exact foldl_keeps (P := fun r => { r with stops := [] } = { s.reg l with stops := [] })
        (fun r e h => (State.stopped_beside _ e r).trans h) es (s.reg l) rfl
  · have reads : readTremulantTab (count :: rest) = some es := by
      unfold readTremulantTab
      dsimp only
      rw [readPairs_eq pairs length low high]
      rfl
    have plays : playTabs l (count :: rest) (takeHead l s) = es.foldl (tabEntry l) (takeHead l s) := by
      unfold playTabs
      rw [reads]
    have only := Only.foldl (tabEntry_only l) es (takeHead l s)
    have counted := tabEntries_ignored l es (takeHead l s)
    rw [ignored_entries (p := tabNamed) (valid := tab) fun e => rfl] at counted
    obtain ⟨took, raised⟩ := played_effects only.links counted
    obtain ⟨own, other⟩ := played_reg (tabEntries_rewrites l es (takeHead l s))
    have started : DemandJudged s (takeHead l s) :=
      (DemandJudged.refl s).follow (.of_only taken) taken.now (by rw [taken.store]) (by rw [taken.generators])
    have finished := finish_only false (es.foldl (tabEntry l) (takeHead l s))
    have judged := (tabEntries_judged l es started).follow (.of_only finished) finished.now (by rw [finished.store]) (by rw [finished.generators])
    refine ⟨_, (takePlay_next hw ready).trans (congrArg _ (congrArg _ plays)), took, fun j => ?_, ?_, other, fun j x hx hj => ⟨fun h0 h1 => ?_,
      fun h0 h1 => ?_⟩, raised, (taken.mono.trans only.mono).trans finished.mono⟩
    · rw [own]
      refine foldl_member (set := Registration.tabs) (valid := tab) (fun i word r j => ?_) j entries (s.reg l)
      rw [contains_tabbed]
      cases word with
      | none => rfl
      | some on => simp only [tab, decide_eq_true_eq]
    · rw [own]
      exact foldl_keeps (P := fun r => { r with tabs := [] } = { s.reg l with tabs := [] })
        (fun r e h => (tabbed_beside e r).trans h) es (s.reg l) rfl
    · exact (judged.comes j x hx hj h1).resolve_right (by simp [h0])
    · exact (judged.goes j h1).resolve_right (by simp [h0])

/-! ## REGISTRATION -/

theorem State.mem_drawings (s : State) (i : Nat) : ∀ (js : List Nat) (r : Registration),
    i ∈ (js.foldl (fun q j => s.drawing j q) r).stops ↔ i ∈ r.stops ∨ (i ∈ js ∧ (s.stop i).isSome)
  | [], _ => by simp
  | j :: js, r => by
    rw [List.foldl_cons, State.mem_drawings s i js]
    unfold State.drawing
    by_cases h : i = j
    · subst h
      cases s.stop i <;> simp [Registration.mem_draw]
    · cases s.stop j <;> simp [Registration.mem_draw, h]

theorem State.mem_cancellings (s : State) (i : Nat) : ∀ (js : List Nat) (r : Registration),
    i ∈ (js.foldl (fun q j => s.cancelling j q) r).stops ↔ i ∈ r.stops ∧ ¬(i ∈ js ∧ (s.stop i).isSome)
  | [], _ => by simp
  | j :: js, r => by
    have cancelled : i ∈ (r.cancel j).stops ↔ i ∈ r.stops ∧ i ≠ j := by simp [Registration.cancel]
    rw [List.foldl_cons, State.mem_cancellings s i js]
    unfold State.cancelling
    by_cases h : i = j
    · subst h
      cases s.stop i <;> simp [cancelled]
    · cases s.stop j <;> simp [cancelled, h]

theorem contains_turned (on : Nat → Bool) (i : Nat) : ∀ (js : List Nat) (r : Registration),
    (js.foldl (fun q j => q.tab j (on j)) r).tabs.contains i = if i ∈ js then on i else r.tabs.contains i
  | [], _ => by simp
  | j :: js, r => by
    rw [List.foldl_cons, contains_turned on i js, Registration.contains_tab]
    by_cases h : i = j <;> simp [h]

/-- The parts of a block that drawing and cancelling stops leave. -/
theorem State.drawings_keep (s : State) (js : List Nat) (r : Registration) :
    { js.foldl (fun q j => s.drawing j q) r with stops := [] } = { r with stops := [] } :=
  foldl_keeps (P := fun q => { q with stops := [] } = { r with stops := [] })
    (fun q j h => by unfold State.drawing; cases s.stop j <;> exact h) js r rfl

theorem State.cancellings_keep (s : State) (js : List Nat) (r : Registration) :
    { js.foldl (fun q j => s.cancelling j q) r with stops := [] } = { r with stops := [] } :=
  foldl_keeps (P := fun q => { q with stops := [] } = { r with stops := [] })
    (fun q j h => by unfold State.cancelling; cases s.stop j <;> exact h) js r rfl

theorem turned_keep (on : Nat → Bool) (js : List Nat) (r : Registration) :
    { js.foldl (fun q j => q.tab j (on j)) r with tabs := [] } = { r with tabs := [] } :=
  foldl_keeps (P := fun q => { q with tabs := [] } = { r with tabs := [] })
    (fun q j h => (by unfold Registration.tab; split <;> rfl : { q.tab j (on j) with tabs := [] } = { q with tabs := [] }).trans h) js r rfl

/-- What a REGISTRATION leaves of its link's block (R32). -/
structure Registered (s : State) (b : RegistrationBody) (r r' : Registration) : Prop where
  stops : ∀ i, i ∈ r'.stops ↔ i ∈ b.stops ∧ (s.stop i).isSome
  tabs : ∀ j, j ∈ r'.tabs ↔ j ∈ b.tabs ∧ j < 8
  keys : r'.keys = r.keys
  requested : r'.requested = max (-6) (min 6 b.transposition)
  effective : r'.effective = if r.holdsNoKey then max (-6) (min 6 b.transposition) else r.effective

theorem State.registered_spec {s : State} {b : RegistrationBody} {r : Registration} (stops : ∀ i ∈ r.stops, (s.stop i).isSome)
    (tabs : ∀ j ∈ r.tabs, j < 8) : Registered s b r (s.registered b r) := by
  unfold State.registered
  dsimp only
  have drawn := fun i => s.mem_drawings i ((s.listedStops b).filter fun i => !r.stops.contains i) r
  have drawnKeeps := s.drawings_keep ((s.listedStops b).filter fun i => !r.stops.contains i) r
  generalize List.foldl (fun q i => s.drawing i q) r _ = d at drawn drawnKeeps
  have cancelled := fun i => s.mem_cancellings i (r.stops.filter fun i => !(s.listedStops b).contains i) d
  have cancelledKeeps := s.cancellings_keep (r.stops.filter fun i => !(s.listedStops b).contains i) d
  generalize List.foldl (fun q i => s.cancelling i q) d _ = c at cancelled cancelledKeeps
  have turned := fun j => contains_turned (listedTabs b).contains j ((List.range 8).filter fun j => r.tabs.contains j != (listedTabs b).contains j) c
  have turnedKeeps := turned_keep (listedTabs b).contains ((List.range 8).filter fun j => r.tabs.contains j != (listedTabs b).contains j) c
  generalize List.foldl (fun q j => q.tab j ((listedTabs b).contains j)) c _ = t at turned turnedKeeps
  obtain ⟨dk, dt, dr, de⟩ : d.keys = r.keys ∧ d.tabs = r.tabs ∧ d.requested = r.requested ∧ d.effective = r.effective := by
    simpa using drawnKeeps
  obtain ⟨ck, ct, cr, ce⟩ : c.keys = d.keys ∧ c.tabs = d.tabs ∧ c.requested = d.requested ∧ c.effective = d.effective := by
    simpa using cancelledKeeps
  obtain ⟨tk, ts, tr, te⟩ : t.keys = c.keys ∧ t.stops = c.stops ∧ t.requested = c.requested ∧ t.effective = c.effective := by
    simpa using turnedKeeps
  have keys : t.keys = r.keys := tk.trans (ck.trans dk)
  rw [Registration.request_eq]
  refine ⟨fun i => ?_, fun j => ?_, keys, rfl, ?_⟩
  · dsimp only
    rw [ts, cancelled, drawn]
    simp only [List.mem_filter, List.contains_iff_mem, Bool.not_eq_true', Bool.eq_false_iff, ne_eq, State.mem_listedStops]
    have := stops i
    tauto
  · dsimp only
    rw [← List.contains_iff_mem, turned, ct, dt]
    simp only [List.mem_filter, List.mem_range, bne_iff_ne, ne_eq]
    have old := tabs j
    have listed := mem_listedTabs (b := b) (j := j)
    by_cases hj : j < 8
    · by_cases he : r.tabs.contains j = (listedTabs b).contains j
      · rw [if_neg fun h => h.2 he, he, List.contains_iff_mem, listed]
      · rw [if_pos ⟨hj, he⟩, List.contains_iff_mem, listed]
    · rw [if_neg fun h => hj h.1, List.contains_iff_mem]
      exact ⟨fun h => absurd (old h) hj, fun h => absurd h.2 hj⟩
  · unfold Registration.holdsNoKey
    dsimp only
    rw [keys, te, ce, de]

/-- The entries of a REGISTRATION that name nothing (R32; log 26). -/
def State.unlisted (s : State) (b : RegistrationBody) : Nat :=
  (b.stops.filter fun i => (s.stop i).isNone).length + (b.tabs.filter fun j => decide (8 ≤ j)).length

theorem length_sub_filter {α : Type} (p : α → Bool) (xs : List α) : xs.length - (xs.filter p).length = (xs.filter fun x => !p x).length := by
  have := List.length_eq_length_filter_add (l := xs) p
  omega

theorem replaceRegistration_raised (l : Link) (b : RegistrationBody) (s : State) :
    Raised (s.unlisted b) .playEntriesIgnored s (replaceRegistration l b s) := by
  have stops : b.stops.length - (b.stops.filter fun i => (s.stop i).isSome).length = (b.stops.filter fun i => (s.stop i).isNone).length := by
    rw [length_sub_filter]
    exact congrArg _ (List.filter_congr fun i _ => by cases s.stop i <;> rfl)
  have tabs : b.tabs.length - (b.tabs.filter fun j => decide (j < 8)).length = (b.tabs.filter fun j => decide (8 ≤ j)).length := by
    rw [length_sub_filter]
    exact congrArg _ (List.filter_congr fun j _ => by by_cases h : j < 8 <;> simp [h]; omega)
  have k := relaying_counted
  unfold replaceRegistration
  dsimp only
  rw [stops, tabs]
  refine (bumpBy_raised s _ .playEntriesIgnored).counted ?_ (by decide : 14 ∉ playCounters)
  refine CountedOnly.trans ?_ (k.requestTransposition (by decide) _ _)
  refine CountedOnly.trans ?_ (k.foldl (fun t j => .of_only (setTab_only l j _ t)) _ _)
  refine CountedOnly.trans ?_ (k.foldl (fun t i => k.cancelStop (countsMove_counted l) (by decide) i t) _ _)
  exact k.foldl (fun t i => k.drawStop (countsMove_counted l) (by decide) i t) _ _

/-- Drawing or cancelling a stop leaves the tabs. -/
theorem demandStands_drawStop (l : Link) (i : Nat) (s : State) : DemandStands s (drawStop l i s) := by
  have only := drawStop_only l i s
  refine .of_tabs only.now only.store only.generators fun m => ?_
  by_cases h : m = l
  · subst h
    rw [(drawStop_rewrites_any m s i).reg_same]
    unfold State.drawing
    cases s.stop i <;> rfl
  · rw [(drawStop_rewrites_any l s i).reg_of_ne h]

theorem demandStands_cancelStop (l : Link) (i : Nat) (s : State) : DemandStands s (cancelStop l i s) := by
  have only := cancelStop_only l i s
  refine .of_tabs only.now only.store only.generators fun m => ?_
  by_cases h : m = l
  · subst h
    rw [(cancelStop_rewrites_any m s i).reg_same]
    unfold State.cancelling
    cases s.stop i <;> rfl
  · rw [(cancelStop_rewrites_any l s i).reg_of_ne h]

theorem DemandStands.refl (s : State) : DemandStands s s := ⟨rfl, rfl, rfl, fun _ => rfl⟩

theorem DemandStands.trans {s t u : State} (h : DemandStands s t) (k : DemandStands t u) : DemandStands s u :=
  ⟨k.now.trans h.now, k.tables.trans h.tables, k.generators.trans h.generators, fun j => (k.demanded j).trans (h.demanded j)⟩

theorem DemandStands.foldl {α : Type} {g : State → α → State} (hg : ∀ t x, DemandStands t (g t x)) : ∀ (xs : List α) (s : State),
    DemandStands s (xs.foldl g s)
  | [], s => .refl s
  | x :: xs, s => (hg s x).trans (DemandStands.foldl hg xs (g s x))

theorem demandStands_requestTransposition (l : Link) (v : Int) (s : State) : DemandStands s (requestTransposition l v s) := by
  rw [requestTransposition_eq]
  refine .of_tabs rfl rfl rfl fun m => tabs_modReg (fun r => ?_) l m s
  rw [Registration.request_eq]

theorem replaceRegistration_generatorsFollow (l : Link) (b : RegistrationBody) (s : State) :
    GeneratorsFollow s (replaceRegistration l b s) := by
  unfold replaceRegistration
  dsimp only
  refine GeneratorsFollow.stand ?_ (demandStands_requestTransposition l b.transposition _)
  refine DemandStands.follow ?_ (foldl_setTab_generatorsFollow l _ _ _)
  refine DemandStands.trans ?_ (.foldl (fun t i => demandStands_cancelStop l i t) _ _)
  exact DemandStands.trans (.of_only (bumpBy_only s _ _)) (.foldl (fun t i => demandStands_drawStop l i t) _ _)

/-- Settles O37. -/
theorem registrationReplacesTheLinksRegistration : Obligations.RegistrationReplacesTheLinksRegistration := by
  intro l s body b hd ready hw reads stops tabs v
  have taken := takeHead_only l s
  have plays : playRegistration l body (takeHead l s) = replaceRegistration l b (takeHead l s) := by
    unfold playRegistration
    rw [reads]
  have only := replaceRegistration_only l b (takeHead l s)
  have finished := finish_only false (replaceRegistration l b (takeHead l s))
  have relayed := relayed_countsBeside l
  have beside := relayed.replaceRegistration (countsMove_countsBeside l) (by decide) (relayed.tabsTurn (by decide) (by decide) l) b (takeHead l s)
  have stopsAt : ∀ i, (takeHead l s).stop i = s.stop i := State.stop_of_store taken.store
  obtain ⟨took, raised⟩ := played_effects only.links (replaceRegistration_raised l b (takeHead l s))
  obtain ⟨own, other⟩ := played_reg (replaceRegistration_rewrites l b (takeHead l s))
  have before : (takeHead l s).reg l = s.reg l := State.reg_of_regs taken.regs l
  rw [before] at own
  have spec := State.registered_spec (s := takeHead l s) (b := b) (fun i hi => by rw [stopsAt]; exact stops i hi) tabs
  rw [← own] at spec
  simp only [State.unlisted, stopsAt] at raised
  refine ⟨_, (takePlay_next hw ready).trans (congrArg _ (congrArg _ plays)), took, fun i => ?_, spec.tabs, spec.keys, spec.requested,
    spec.effective, other, played_countsBeside beside, raised, ?_, (taken.mono.trans only.mono).trans finished.mono⟩
  · rw [spec.stops, stopsAt]
  · exact ((DemandStands.of_only taken).follow (replaceRegistration_generatorsFollow l b _)).stand (.of_only finished)

end Sys2Proof.Machine
end

