-- ==== Sys2Proof/Proofs/Stopping.lean ====
section
/-! PROOF. What stops at once: the cue unit going IDLE (08 R155), SILENCE (01 R22), SPEC BEGIN (01 R6, R7), LINK RELEASE (02 R36) and, with
its limit on queued strikes, CONFIGURE (09 R172; 04 R74). -/

namespace Sys2Proof.Machine

-- One theorem after another, so that the compile needs few threads.
set_option Elab.async false

/-! ## The end of an event -/

/-- The marks of a port, which settling and strokes leave. -/
def Port.marks (pt : Port) : PortState × List Nat × Option Nat × Option Nat × Bool := (pt.state, pt.history, pt.detect, pt.off, pt.overload)

/-- Every port's marks stand. -/
def MarksKept (s t : State) : Prop := ∀ p : Nat, (t.ports[p]?).map Port.marks = (s.ports[p]?).map Port.marks

theorem marksKept_settle (s : State) : MarksKept s (settle s) := fun p => by
  unfold settle
  rw [List.getElem?_mapIdx, Option.map_map]
  congr 1
  funext pt
  show (settlePort s p pt).marks = pt.marks
  unfold settlePort
  split <;> rfl

theorem marksKept_addLoad (s : State) (p load : Nat) : MarksKept s (s.addLoad p load) := fun q => by
  unfold State.addLoad State.modPort
  rw [List.getElem?_modify]
  cases s.ports[q]? with
  | none => rfl
  | some pt => by_cases h : p = q <;> simp [h, Port.marks]

theorem marksKept_of_ports {s t : State} (h : t.ports = s.ports) : MarksKept s t := fun p => by rw [h]

theorem marksKept_startStroke (a : Addr) (s : State) : MarksKept s (startStroke a s) := by
  unfold startStroke
  split
  · exact marksKept_addLoad (s.setStroke a _) a.port _
  · exact marksKept_of_ports rfl

theorem relayed_marksKept : Relayed (allBut [.ports]) MarksKept where
  free := fun k => marksKept_of_ports (k.field (f := .ports) (by simp))
  trans := fun h k p => (k p).trans (h p)
  bump := fun _ _ _ => marksKept_of_ports rfl
  settle := marksKept_settle
  start := fun s a => marksKept_startStroke a s
  dequeue := fun _ _ => marksKept_of_ports rfl
  join := fun _ _ _ _ => marksKept_of_ports rfl
  reiterate := fun _ _ _ _ => marksKept_of_ports rfl
  endReiteration := fun _ _ => marksKept_of_ports rfl
  damper := fun _ _ _ => marksKept_of_ports rfl
  joins := fun _ _ _ _ _ _ => marksKept_of_ports rfl
  begins := fun _ _ _ _ _ _ _ _ => marksKept_of_ports rfl
  steps := fun _ _ _ _ _ _ _ _ _ => marksKept_of_ports rfl
  leaves := fun _ _ _ _ _ _ => marksKept_of_ports rfl

/-- Where no strike is queued, the end of an event settles the ports and nothing more. -/
theorem finish_of_empty_queue {s : State} (h : s.sched.queue = []) (serve : Bool) : Only [.ports, .links] s (finish serve s) := by
  have served : serveQueue (settle s) = settle s := by
    unfold serveQueue
    rw [show (settle s).sched.queue = [] from h]
    rfl
  have settled : Only [.ports, .links] s (settleAndServe serve s) := by
    unfold settleAndServe
    rw [served]
    exact Only.ite ((settle_only s).mono.trans (settle_only _).mono) (settle_only s).mono
  exact settled.trans ((beginTransmission_only .one _).mono.trans (beginTransmission_only .two _).mono)

/-- A stroke that is cut rests (R75, R86). -/
theorem cutRecord_not_striking {s : State} {reached : Addr → Bool} {r : Record}
    (timed : r.stroke ≠ none → (s.strikeTimes r).isSome = true ∧ ∃ a, r.target = .output a)
    (reaches : ∀ a, r.target = .output a → reached a = true) (e : Nat) : (cutRecord s reached r).stroke ≠ some (.striking e) := by
  unfold cutRecord
  split
  next a _ k ht _ _ =>
    rw [if_pos (reaches a ht)]
    exact fun h => nomatch h
  next no =>
    intro h
    obtain ⟨times, a, ha⟩ := timed (by rw [h]; exact fun h => nomatch h)
    obtain ⟨k, hk⟩ := Option.isSome_iff_exists.1 times
    exact no a e k ha h hk

/-! ## What playing never turns: the tempo scale and the deferral limit -/

/-- The tempo scale and the deferral limit stand. -/
def DialsKept (s t : State) : Prop := t.figures.tempo = s.figures.tempo ∧ t.sched.deferral = s.sched.deferral

theorem relayed_dialsKept : Relayed (allBut [.figures, .sched]) DialsKept where
  free := fun {s t} k => by
    have figures : t.figures = s.figures := k.field (f := .figures) (by simp)
    have sched : t.sched = s.sched := k.field (f := .sched) (by simp)
    rw [DialsKept, figures, sched]
    exact ⟨rfl, rfl⟩
  trans := fun h k => ⟨k.1.trans h.1, k.2.trans h.2⟩
  bump := fun _ _ _ => ⟨rfl, rfl⟩
  settle := fun _ => ⟨rfl, rfl⟩
  start := fun s a => by rw [DialsKept, (startStroke_only a s).figures, (startStroke_only a s).sched]; exact ⟨rfl, rfl⟩
  dequeue := fun _ _ => ⟨rfl, rfl⟩
  join := fun _ _ _ _ => ⟨rfl, rfl⟩
  reiterate := fun _ _ _ _ => ⟨rfl, rfl⟩
  endReiteration := fun _ _ => ⟨rfl, rfl⟩
  damper := fun _ _ _ => ⟨rfl, rfl⟩
  joins := fun _ _ _ _ _ _ => ⟨rfl, rfl⟩
  begins := fun _ _ _ _ _ _ _ _ => ⟨rfl, rfl⟩
  steps := fun _ _ _ _ _ _ _ _ _ => ⟨rfl, rfl⟩
  leaves := fun _ _ _ _ _ _ => ⟨rfl, rfl⟩

/-! ## The cue unit going IDLE (R155) -/

/-- The going IDLE but for what it tells. -/
def cueCleared (reason : StopReason) (s : State) : State :=
  (removeOwnerEverywhere .cue (clearCueFlags (rewriteCounts Record.withoutCue (s.modCue fun c => { c with state := .idle })))).modCue
    fun c => { c with pendingGo := false, owner := none, stopReason := some reason }

theorem cueGoesIdle_eq (reason : StopReason) (s : State) :
    cueGoesIdle reason s = (cueCleared reason s).notifyAll (.cueStopped reason s.cue.current) := rfl

theorem cueCleared_only (reason : StopReason) (s : State) : Only [.table, .sched, .figures, .generators, .cue] s (cueCleared reason s) :=
  ((((modCue_only _ _).mono.trans (rewriteCounts_only _ _).mono).trans (clearCueFlags_only _).mono).trans
    (removeOwnerEverywhere_only _ _).mono).trans (modCue_only _ _).mono

theorem cueGoesIdle_counted (reason : StopReason) (s : State) : CountedOnly [discards .one, discards .two] s (cueGoesIdle reason s) :=
  (CountedOnly.of_only (cueCleared_only reason s)).trans (notifyAll_counted _ _)

theorem tells_cueGoesIdle (m : Link) (reason : StopReason) (s : State) :
    Tells m [.cueStopped reason s.cue.current] s (cueGoesIdle reason s) :=
  (Tells.of_only m (cueCleared_only reason s)).trans (tells_notifyAll m _ _)

theorem cueGoesIdle_facing (m : Link) (reason : StopReason) (s : State) : ((cueGoesIdle reason s).link m).facing = (s.link m).facing := by
  rw [cueGoesIdle_eq, notifyAll_facing, State.link_of_links (cueCleared_only reason s).links]

/-- The generators follow their demand as the Cue flags are cleared. -/
theorem cueGoesIdle_generatorsFollow (reason : StopReason) (s : State) : GeneratorsFollow s (cueGoesIdle reason s) := by
  have before : Only [.cue, .table, .sched, .figures] s (rewriteCounts Record.withoutCue (s.modCue fun c => { c with state := .idle })) :=
    (modCue_only _ _).mono.trans (rewriteCounts_only _ _).mono
  have behind : Only [.figures, .cue, .links, .counters]
      (clearCueFlags (rewriteCounts Record.withoutCue (s.modCue fun c => { c with state := .idle }))) (cueGoesIdle reason s) :=
    ((removeOwnerEverywhere_only _ _).mono.trans (modCue_only _ _).mono).trans (notifyAll_only _ _).mono
  exact ((DemandStands.of_only before).follow (clearCueFlags_cleared _).follow).stand (.of_only behind)

/-- The table after the unit has gone IDLE: the Cue counts at 0. -/
theorem cueGoesIdle_table (reason : StopReason) (s : State) : (cueGoesIdle reason s).table = s.table.map Record.withoutCue := by
  have behind : Only [.generators, .figures, .cue, .links, .counters]
      (rewriteCounts Record.withoutCue (s.modCue fun c => { c with state := .idle })) (cueGoesIdle reason s) :=
    (((clearCueFlags_only _).mono.trans (removeOwnerEverywhere_only _ _).mono).trans (modCue_only _ _).mono).trans (notifyAll_only _ _).mono
  rw [behind.table, rewriteCounts_table]
  rfl

/-- Where no count stands, none falls. -/
theorem rewriteCounts_of_zero {s : State} (h : ∀ r ∈ s.table, r.total = 0) (f : Record → Record) :
    rewriteCounts f s = { s with table := s.table.map f } := by
  have silent : (s.table.filter fun r => decide (0 < r.total) && decide ((f r).total = 0)) = [] :=
    List.filter_eq_nil_iff.2 fun r hr => by simp [h r hr]
  unfold rewriteCounts
  rw [silent]
  rfl

theorem cueGoesIdle_sched_of_zero {s : State} (h : ∀ r ∈ s.table, r.total = 0) (reason : StopReason) :
    (cueGoesIdle reason s).sched = s.sched := by
  have behind : Only [.generators, .figures, .cue, .links, .counters]
      (rewriteCounts Record.withoutCue (s.modCue fun c => { c with state := .idle })) (cueGoesIdle reason s) :=
    (((clearCueFlags_only _).mono.trans (removeOwnerEverywhere_only _ _).mono).trans (modCue_only _ _).mono).trans (notifyAll_only _ _).mono
  rw [behind.sched]
  have stands := rewriteCounts_of_zero (s := s.modCue fun c => { c with state := .idle }) h Record.withoutCue
  rw [stands]
  rfl

theorem cueDriven_dialsKept : CueDriven (allBut [.figures, .sched]) DialsKept :=
  relayed_dialsKept.cueDriven (fun s l n => relayed_dialsKept.free (notify_only s l n).but) (by decide) (by decide) (by decide)
    (fun _ _ _ _ => ⟨rfl, rfl⟩) (fun _ _ _ _ _ _ => ⟨rfl, rfl⟩) (fun _ => ⟨rfl, rfl⟩) (fun _ _ _ _ _ => ⟨rfl, rfl⟩)

/-! ## SILENCE's effects (R22) -/

theorem silencedPart_dialsKept (s : State) : DialsKept s (silencedPart s) := relayed_dialsKept.rewriteCounts ⟨rfl, rfl⟩

theorem silencedPart_sched (s : State) : (silencedPart s).sched.queue = [] ∧ (silencedPart s).sched.reiterations = [] ∧
    ∀ d ∈ (silencedPart s).sched.dampers, d.holdover = none :=
  ⟨rfl, rfl, fun _ hd => by obtain ⟨_, -, rfl⟩ := List.mem_map.1 hd; rfl⟩

theorem silencedPart_reg (s : State) (m : Link) : (silencedPart s).reg m = (s.reg m).quieted := by
  have stands : ∀ l, (rewriteCounts Record.silenced s).reg l = s.reg l := State.reg_of_regs (rewriteCounts_only _ s).regs
  have quiets : (silencedPart s).reg m =
      (((rewriteCounts Record.silenced s).modReg .one Registration.quieted).modReg .two Registration.quieted).reg m := rfl
  rw [quiets]
  cases m with
  | one => rw [State.reg_modReg_of_ne _ (by decide), State.reg_modReg_same, stands]
  | two => rw [State.reg_modReg_same, State.reg_modReg_of_ne _ (by decide), stands]

theorem silencedPart_total (s : State) : ∀ r ∈ (silencedPart s).table, r.total = 0 := fun r hr => by
  rw [silencedPart_table] at hr
  obtain ⟨r', -, rfl⟩ := List.mem_map.1 hr
  rw [cutRecord_eq]
  rfl

theorem demandStands_silencedPart (s : State) : DemandStands s (silencedPart s) := by
  have only := silencedPart_only s
  exact .of_tabs only.now only.store only.generators fun m => by rw [silencedPart_reg]; rfl

/-- What SILENCE's effects tell each link (R22, R155). -/
def State.stopNotices (s : State) (reason : StopReason) : List Notice :=
  if s.cue.state = .idle then [] else [.cueStopped reason s.cue.current]

theorem stopNotices_length (s : State) (reason : StopReason) : (s.stopNotices reason).length < 16 := by
  unfold State.stopNotices
  split
  · exact Nat.zero_lt_succ _
  · exact Nat.succ_lt_succ (Nat.zero_lt_succ _)

section
variable {s : State} (reason : StopReason)

theorem silenceEffects_of_idle (h : s.cue.state = .idle) : silenceEffects reason s = silencedPart s := by
  rw [silenceEffects_eq, if_neg]
  rw [(silencedPart_only s).cue, CueUnit.busy_iff]
  exact fun hne => hne h

theorem silenceEffects_of_busy (h : s.cue.state ≠ .idle) : silenceEffects reason s = cueGoesIdle reason (silencedPart s) := by
  rw [silenceEffects_eq, if_pos]
  rw [(silencedPart_only s).cue, CueUnit.busy_iff]
  exact h

theorem silenceEffects_cue_of_idle (h : s.cue.state = .idle) : (silenceEffects reason s).cue = s.cue := by
  rw [silenceEffects_of_idle reason h, (silencedPart_only s).cue]

theorem silenceEffects_cue_of_busy (h : s.cue.state ≠ .idle) : (silenceEffects reason s).cue = s.cue.stopped reason := by
  rw [silenceEffects_of_busy reason h, cueGoesIdle_cue, (silencedPart_only s).cue]

theorem silenceEffects_counted (s : State) : CountedOnly [discards .one, discards .two] s (silenceEffects reason s) := by
  have part : CountedOnly [discards .one, discards .two] s (silencedPart s) := .of_only (silencedPart_only s)
  by_cases h : s.cue.state = .idle
  · rwa [silenceEffects_of_idle reason h]
  · rw [silenceEffects_of_busy reason h]
    exact part.trans (cueGoesIdle_counted _ _)

theorem tells_silenceEffects (m : Link) (s : State) : Tells m (s.stopNotices reason) s (silenceEffects reason s) := by
  have part : Tells m [] s (silencedPart s) := .of_only m (silencedPart_only s)
  unfold State.stopNotices
  by_cases h : s.cue.state = .idle
  · rwa [silenceEffects_of_idle reason h, if_pos h]
  · rw [silenceEffects_of_busy reason h, if_neg h]
    have told := part.trans (tells_cueGoesIdle m reason _)
    rwa [(silencedPart_only s).cue] at told

theorem silenceEffects_facing (m : Link) (s : State) : ((silenceEffects reason s).link m).facing = (s.link m).facing := by
  have part : (silencedPart s).link m = s.link m := State.link_of_links (silencedPart_only s).links m
  by_cases h : s.cue.state = .idle
  · rw [silenceEffects_of_idle reason h, part]
  · rw [silenceEffects_of_busy reason h, cueGoesIdle_facing, part]

theorem silenceEffects_generatorsFollow (s : State) : GeneratorsFollow s (silenceEffects reason s) := by
  by_cases h : s.cue.state = .idle
  · rw [silenceEffects_of_idle reason h]
    exact .of_same (demandStands_silencedPart s).generators (demandStands_silencedPart s).demanded
  · rw [silenceEffects_of_busy reason h]
    exact (demandStands_silencedPart s).follow (cueGoesIdle_generatorsFollow _ _)

theorem silenceEffects_sched (s : State) : (silenceEffects reason s).sched = (silencedPart s).sched := by
  by_cases h : s.cue.state = .idle
  · rw [silenceEffects_of_idle reason h]
  · rw [silenceEffects_of_busy reason h, cueGoesIdle_sched_of_zero (silencedPart_total s)]

theorem silenceEffects_regs (s : State) : (silenceEffects reason s).regs = (silencedPart s).regs := by
  by_cases h : s.cue.state = .idle
  · rw [silenceEffects_of_idle reason h]
  · rw [silenceEffects_of_busy reason h, (cueGoesIdle_only _ _).regs]

theorem silenceEffects_dialsKept (s : State) : DialsKept s (silenceEffects reason s) :=
  cueDriven_dialsKept.silenceEffects (silencedPart_dialsKept s) reason

/-- Every count at 0 and no stroke in progress (R22, R86). -/
theorem silenceEffects_table (timed : StrokesTimed s) : ∀ r ∈ (silenceEffects reason s).table,
    r.link1 = 0 ∧ r.link2 = 0 ∧ r.cue = 0 ∧ ∀ e, r.stroke ≠ some (.striking e) := by
  have part : ∀ r ∈ (silencedPart s).table, r.link1 = 0 ∧ r.link2 = 0 ∧ r.cue = 0 ∧ ∀ e, r.stroke ≠ some (.striking e) := fun r hr => by
    rw [silencedPart_table] at hr
    obtain ⟨r', hr', rfl⟩ := List.mem_map.1 hr
    have silent := cutRecord_eq s (fun _ => true) r'.silenced
    refine ⟨by rw [silent]; rfl, by rw [silent]; rfl, by rw [silent]; rfl, fun e => cutRecord_not_striking ?_ (fun _ _ => rfl) e⟩
    exact timed r' hr'
  by_cases h : s.cue.state = .idle
  · rwa [silenceEffects_of_idle reason h]
  · rw [silenceEffects_of_busy reason h, cueGoesIdle_table]
    intro r hr
    obtain ⟨r', hr', rfl⟩ := List.mem_map.1 hr
    obtain ⟨h1, h2, -, h4⟩ := part r' hr'
    exact ⟨h1, h2, rfl, h4⟩

end

/-! ## A command that stops playing -/

theorem Took.of_facing {l : Link} {s u : State} (h : ∀ m, (u.link m).facing = ((takeHead l s).link m).facing) : Took l [] s u where
  this := (h l).trans (Took.of_takeHead (l := l) (s := s) (u := takeHead l s) rfl).this
  other := (h (otherLink l)).trans (Took.of_takeHead (l := l) (s := s) (u := takeHead l s) rfl).other

theorem tells_taken {l : Link} {ns : List Notice} {s u : State} (m : Link) (h : Tells m ns (takeHead l s) u) :
    Tells m ((if m = l then s.takingNotices l else []) ++ ns) s u := by
  split
  next e =>
    subst e
    exact (tells_takeHead m s).trans h
  next e => exact (tells_takeHead_other e s).trans h

/-- An answered command whose answer is known. -/
theorem takeCommand_answers {l : Link} {kind : Byte} {gate : Gate} {tag : Byte} {fields : List Byte} {owner : List Byte → State → Answer}
    {s u : State} {code : ReplyCode} {contents : List Byte} {serve : Bool} (hw : Waits s l kind (tag :: fields))
    (hg : gate.refusal s.engine = none)
    (ha : owner fields (takeHead l s) = { state := u, code := code, contents := contents, serve := serve }) :
    takeCommand l kind gate owner s = .next (finish serve (addReply l tag kind code contents u)) := by
  rw [takeCommand_next hw hg, ha]

/-- What the notices of a command's effect come to, behind its reply and at the other link. -/
theorem answered_tells {l : Link} {ns : List Notice} {s u : State} (hd : Done s) (serve : Bool) (h : ∀ m, Tells m ns (takeHead l s) u)
    (fits : ns.length < 16) (tag kind : Byte) (code : ReplyCode) (contents : List Byte) :
    ToldBehindReply l ns s (finish serve (addReply l tag kind code contents u)) ∧
      Told (otherLink l) ns s (finish serve (addReply l tag kind code contents u)) := by
  have own := tells_taken l (h l)
  rw [if_pos rfl] at own
  have other := tells_taken (otherLink l) (h (otherLink l))
  rw [if_neg (otherLink_ne l), List.nil_append] at other
  have replied : Tells (otherLink l) [] u (addReply l tag kind code contents u) :=
    .of_link (State.link_modLink_of_ne _ (otherLink_ne l) _) rfl
  have whole := other.trans replied
  rw [List.append_nil] at whole
  exact ⟨finish_tells_behind serve own (hd.quiet l) fits tag kind code contents,
    finish_tells serve whole (hd.quiet (otherLink l)) (Nat.le_of_lt fits)⟩

/-- Settles O45. -/
theorem silenceStopsEverySoundAndKeepsTheRegistrations : Obligations.SilenceStopsEverySoundAndKeepsTheRegistrations := by
  intro l s tag hd timed ready hw
  dsimp only [exec, execSilence]
  have taken := takeHead_only l s
  have timedTaken : StrokesTimed (takeHead l s) := fun r hr hs => by
    rw [taken.table] at hr
    unfold State.strikeTimes State.source
    rw [taken.store]
    exact timed r hr hs
  have only : Only [.table, .sched, .figures, .regs, .generators, .cue, .links, .counters] s (silenceEffects .silenced (takeHead l s)) :=
    taken.mono.trans (silenceEffects_only _ _)
  obtain ⟨players, -⟩ := silenceEffects_stops .silenced (takeHead l s)
  have regs : ∀ m, (silenceEffects .silenced (takeHead l s)).reg m = (s.reg m).quieted := fun m => by
    rw [State.reg_of_regs (silenceEffects_regs _ _), silencedPart_reg, State.reg_of_regs taken.regs]
  have table := silenceEffects_table .silenced timedTaken
  obtain ⟨queue, reiterations, holdovers⟩ := silencedPart_sched (takeHead l s)
  rw [← silenceEffects_sched .silenced] at queue reiterations holdovers
  obtain ⟨tempo, deferral⟩ := silenceEffects_dialsKept .silenced (takeHead l s)
  have idle := silenceEffects_cue_of_idle (s := takeHead l s) .silenced
  have busy := silenceEffects_cue_of_busy (s := takeHead l s) .silenced
  rw [takeHead_cue] at idle busy
  have told := answered_tells hd false (fun m => tells_silenceEffects .silenced m (takeHead l s))
    (stopNotices_length _ _) tag Kind.silence .ok []
  have stopped : (takeHead l s).stopNotices .silenced = s.stopNotices .silenced := by unfold State.stopNotices; rw [takeHead_cue]
  rw [stopped] at told
  have follow : GeneratorsFollow s (silenceEffects .silenced (takeHead l s)) :=
    (DemandStands.of_only taken).follow (silenceEffects_generatorsFollow .silenced (takeHead l s))
  have took := (Took.of_facing fun m => silenceEffects_facing .silenced m (takeHead l s)).addPlace (okPlace tag 0x30 [])
  refine ⟨_, takeCommand_answers (u := silenceEffects .silenced (takeHead l s)) hw (by rw [ready]; rfl) rfl, ?_⟩
  generalize silenceEffects .silenced (takeHead l s) = u at *
  have added : Only [.links] u (addReply l tag Kind.silence .ok [] u) := addReply_only _ _ _ _ _ _
  have finished : Only [.ports, .links] u (finish false (addReply l tag Kind.silence .ok [] u)) :=
    added.mono.trans (finish_of_empty_queue (s := addReply l tag Kind.silence .ok [] u) queue false)
  have marks : MarksKept s (finish false (addReply l tag Kind.silence .ok [] u)) :=
    relayed_marksKept.trans (relayed_marksKept.free (only.mono.trans added.mono :
      Only [.table, .sched, .figures, .regs, .generators, .cue, .links, .counters] _ _).but) (relayed_marksKept.finish (by decide) false _)
  refine ⟨took.finish false, by rw [finished.table]; exact table, fun m => by rw [State.reg_of_regs finished.regs, regs]; rfl,
    by rw [finished.sched]; exact queue, by rw [finished.sched]; exact reiterations, by rw [finished.sched]; exact holdovers,
    by rw [finished.sched, deferral, taken.sched], by rw [finished.figures]; exact players, by rw [finished.figures, tempo, taken.figures],
    fun h => by rw [finished.cue]; exact busy h, fun h => by rw [finished.cue]; exact idle h, told, follow.stand (.of_only finished), marks,
    only.mono.trans finished.mono⟩

/-! ## SPEC BEGIN (R6, R7) -/

theorem modes (mode : Byte) : (2 ≤ mode.toNat ∧ readMode [mode] = none) ∨
    (mode.toNat ≤ 1 ∧ readMode [mode] = some (decide (mode = 1))) := by
  have reads : readMode [mode] = fieldFlag mode := rfl
  rw [reads]
  rcases fieldFlag_cases mode with ⟨h, w⟩ | ⟨h, w⟩ | ⟨h0, h1, w⟩
  · exact .inr ⟨by rw [h]; decide, by rw [w, h]; rfl⟩
  · exact .inr ⟨by rw [h]; decide, by rw [w, h]; rfl⟩
  · refine .inl ⟨?_, w⟩
    have none : mode.toNat ≠ 0 := fun h => h0 (BitVec.eq_of_toNat_eq h)
    have one : mode.toNat ≠ 1 := fun h => h1 (BitVec.eq_of_toNat_eq h)
    omega

/-- The tables that a loading session begins with. -/
theorem beginLoading_eq (mode : Byte) (s : State) : beginLoading (decide (mode = 1)) s =
    { s with store := { s.store with engine := .loading, tables := if mode = 1 then Tables.blank else s.store.tables } } := by
  unfold beginLoading
  simp only [decide_eq_true_eq]

section
variable (s : State)

theorem stopAllPlaying_counted : CountedOnly [discards .one, discards .two] s (stopAllPlaying s) :=
  (silenceEffects_counted .reset s).trans (.of_only (stopAllPlaying_behind s))

theorem stopAllPlaying_facing (m : Link) : ((stopAllPlaying s).link m).facing = (s.link m).facing := by
  rw [State.link_of_links (stopAllPlaying_behind s).links, silenceEffects_facing]

theorem stopAllPlaying_dialsKept : DialsKept s (stopAllPlaying s) := by
  obtain ⟨tempo, deferral⟩ := silenceEffects_dialsKept .reset s
  exact ⟨by rw [(stopAllPlaying_behind s).figures, tempo], deferral⟩

theorem stopAllPlaying_cue_of_idle (h : s.cue.state = .idle) : (stopAllPlaying s).cue = s.cue := by
  rw [(stopAllPlaying_behind s).cue, silenceEffects_cue_of_idle .reset h]

theorem stopAllPlaying_cue_of_busy (h : s.cue.state ≠ .idle) : (stopAllPlaying s).cue = s.cue.stopped .reset := by
  rw [(stopAllPlaying_behind s).cue, silenceEffects_cue_of_busy .reset h]

end

/-- Settles O42. -/
theorem specBeginOpensALoadingSession : Obligations.SpecBeginOpensALoadingSession := by
  intro l s tag mode hd hw hchecking tables
  have gate : Gate.begin.refusal s.engine = none := by rw [Gate.begin_refusal, if_neg hchecking]
  have taken := takeHead_only l s
  dsimp only [exec, execSpecBegin]
  rcases modes mode with ⟨hm, reads⟩ | ⟨hm, reads⟩
  · refine ⟨fun _ => ?_, fun h => absurd hm (by omega), fun h => absurd hm (by omega)⟩
    exact takeCommand_refuses hw gate (by unfold answerSpecBegin; rw [reads]) hd.settled
  refine ⟨fun h => absurd hm (by omega), fun _ hne rests => ?_, fun _ ready => ?_⟩
  · have unready : (takeHead l s).ready = false := by unfold State.ready; rw [taken.store]; exact decide_eq_false hne
    refine takeCommand_writes .store (g := fun u => { u with store := { u.store with engine := .loading, tables := if mode = 1 then Tables.blank else u.store.tables } })
      (contents := []) hw gate ?_ (settled_of_resting rests hne rfl) (fun u => store_only u fun x => { x with engine := .loading, tables := if mode = 1 then Tables.blank else x.tables }) ?_
    · unfold answerSpecBegin
      rw [reads, unready]
      dsimp only
      rw [if_neg Bool.false_ne_true, beginLoading_eq]
    · exact congrArg (fun x : Store => { x with engine := .loading, tables := if mode = 1 then Tables.blank else x.tables }) taken.store
  · have isReady : (takeHead l s).ready = true := by unfold State.ready; rw [taken.store]; exact decide_eq_true ready
    have answers : answerSpecBegin [mode] (takeHead l s) =
        { state := beginLoading (decide (mode = 1)) (stopAllPlaying (takeHead l s)), code := .ok } := by
      unfold answerSpecBegin
      rw [reads, isReady]
      rfl
    have runs := takeCommand_answers hw gate answers
    have rests : RestOutsideReady (finish false (addReply l tag 0x20 .ok [] (beginLoading (decide (mode = 1)) (stopAllPlaying (takeHead l s))))) :=
      exec_restOutsideReady (c := .specBegin l) runs (restOutsideReady_iff.2 fun h => absurd ready h)
    have stopped := stopAllPlaying_only (takeHead l s)
    have loads := beginLoading_only (decide (mode = 1)) (stopAllPlaying (takeHead l s))
    have store : (beginLoading (decide (mode = 1)) (stopAllPlaying (takeHead l s))).store = { s.store with engine := .loading, tables := tables } := by
      rw [beginLoading_eq]
      dsimp only
      rw [stopped.store, taken.store]
    have queue : (beginLoading (decide (mode = 1)) (stopAllPlaying (takeHead l s))).sched.queue = [] := rfl
    obtain ⟨tempo, deferral⟩ := stopAllPlaying_dialsKept (takeHead l s)
    have channels : (stopAllPlaying (takeHead l s)).shutters.channels = s.shutters.channels := by
      rw [stopAllPlaying_shutters, taken.shutters]
    have idle := stopAllPlaying_cue_of_idle (takeHead l s)
    have busy := stopAllPlaying_cue_of_busy (takeHead l s)
    rw [takeHead_cue] at idle busy
    have counted : CountedOnly [discards .one, discards .two] s (stopAllPlaying (takeHead l s)) :=
      ((takeHead_counted l s).mono (by cases l <;> simp)).trans (stopAllPlaying_counted _)
    have took : Took l [] s (beginLoading (decide (mode = 1)) (stopAllPlaying (takeHead l s))) :=
      .of_facing fun m => (congrArg LinkIf.facing (State.link_of_links loads.links m)).trans (stopAllPlaying_facing _ m)
    refine ⟨_, runs, (took.addPlace _).finish false, rests, ?_⟩
    rw [taken.figures] at tempo
    rw [taken.sched] at deferral
    have only : Only [.table, .sched, .figures, .regs, .generators, .cue, .links, .counters, .shutters, .ports] s (stopAllPlaying (takeHead l s)) :=
      taken.mono.trans stopped
    generalize stopAllPlaying (takeHead l s) = w at *
    generalize beginLoading (decide (mode = 1)) w = u at *
    have added : Only [.links] u (addReply l tag 0x20 .ok [] u) := addReply_only _ _ _ _ _ _
    have finished : Only [.ports, .links] u (finish false (addReply l tag 0x20 .ok [] u)) :=
      added.mono.trans (finish_of_empty_queue (s := addReply l tag 0x20 .ok [] u) queue false)
    exact ⟨finished.store.trans store, fun h => by rw [finished.cue, loads.cue]; exact busy h,
      fun h => by rw [finished.cue, loads.cue]; exact idle h, by rw [finished.figures, loads.figures, tempo],
      by rw [finished.shutters, loads.shutters, channels], by rw [finished.sched, loads.sched, deferral],
      (counted.trans (.of_only loads)).trans (.of_only finished), (only.mono.trans loads.mono).trans finished.mono⟩

/-! ## LINK RELEASE (R36) and CONFIGURE (R172, R74) -/

theorem Registration.lifted_taken {r : Registration} (h : r.keys.length = 384) :
    r.lifted.taken = { r with keys := List.replicate 384 .released, effective := r.requested } := by
  have keys := Registration.lifted_keys h
  have none : r.lifted.holdsNoKey = true := by
    unfold Registration.holdsNoKey
    rw [keys, List.all_eq_true]
    exact fun x hx => decide_eq_true (List.eq_of_mem_replicate hx)
  unfold Registration.taken
  rw [if_pos none, Registration.lifted_eq] at *
  exact congrArg (fun ks => ({ r with keys := ks, effective := r.requested } : Registration)) keys

theorem setDeferral_counted (d : Nat) (s : State) : CountedOnly [18] s (setDeferral d s) := by
  unfold setDeferral
  exact CountedOnly.trans (t := { s with sched := _ }) (.of_counters rfl) (bumpBy_counted _ _ .strikesLate)

theorem setDeferral_raised (d : Nat) (s : State) :
    Raised (s.sched.queue.filter fun e => decide (e.joined + d ≤ s.now)).length .strikesLate s (setDeferral d s) := by
  unfold setDeferral
  exact bumpBy_raised { s with sched := _ } _ .strikesLate

theorem setDeferral_sched (d : Nat) (s : State) : (setDeferral d s).sched = { s.sched with
    deferral := d, queue := s.sched.queue.filter fun e => decide (s.now < e.joined + d) } := by
  have kept : (s.sched.queue.filter fun e => !QueuedStrike.expired d s.now e) = s.sched.queue.filter fun e => decide (s.now < e.joined + d) :=
    List.filter_congr fun e _ => by
      unfold QueuedStrike.expired
      by_cases h : e.joined + d ≤ s.now
      · simp [h]
      · simp [Nat.lt_of_not_le h, h]
  unfold setDeferral
  rw [State.bumpBy_sched, kept]

/-- The marks and the silence time of a CONFIGURE at its link. -/
theorem configuredLink_facing (l : Link) (b : ConfigureBody) (s : State) : ((configuredLink l b s).link l).facing =
    ({ s.link l with
      low := b.low
      high := b.high
      flow := ({ s.link l with low := b.low, high := b.high } : LinkIf).flowAt (s.link l).input.length
      silenceTime := b.silenceTime
      silenceTimer := some (s.now + b.silenceTime) } : LinkIf).facing := by
  have judged := judgeFlow_facing l (s.modLink l fun i => { i with low := b.low, high := b.high })
  rw [State.link_modLink_same] at judged
  unfold configuredLink
  rw [State.link_modLink_same]
  exact congrArg (fun i : LinkIf => { i with silenceTime := b.silenceTime, silenceTimer := some (s.now + b.silenceTime) }) judged

theorem configuredLink_only (l : Link) (b : ConfigureBody) (s : State) : Only [.links, .counters] s (configuredLink l b s) :=
  ((modLink_only _ _ _).mono.trans (judgeFlow_only _ _).mono).trans (modLink_only _ _ _).mono

theorem configuredLink_other (l : Link) (b : ConfigureBody) (s : State) :
    (configuredLink l b s).link (otherLink l) = s.link (otherLink l) := by
  unfold configuredLink
  rw [State.link_modLink_of_ne _ (otherLink_ne l), judgeFlow_of_ne (otherLink_ne l), State.link_modLink_of_ne _ (otherLink_ne l)]

theorem configuredLink_counted (l : Link) (b : ConfigureBody) (s : State) : CountedOnly [discards l] s (configuredLink l b s) := by
  have judged := judgeFlow_counted l (s.modLink l fun i => { i with low := b.low, high := b.high })
  exact judged

/-- The interface that an accepted CONFIGURE leaves, its message taken (R172, R166). -/
theorem configured_facing (l : Link) (b : ConfigureBody) (s : State) (p : Place) :
    ((addPlace l p (configuredLink l b (takeHead l s))).link l).facing =
      (let i := s.link l
       let judged : LinkIf := { i with low := b.low, high := b.high, flow := i.flowAt i.input.tail.length }
       ({ judged with
         input := i.input.tail
         replies := i.replies ++ [p]
         flow := judged.flowAt i.input.tail.length
         silenceTime := b.silenceTime
         silenceTimer := some (s.now + b.silenceTime) } : LinkIf).facing) := by
  have taken := takeHead_facing l s
  have configured := configuredLink_facing l b (takeHead l s)
  have marked := configured.trans (congrArg (fun i : LinkIf => { i with
      low := b.low
      high := b.high
      flow := ({ i with low := b.low, high := b.high } : LinkIf).flowAt i.input.length
      silenceTime := b.silenceTime
      silenceTimer := some ((takeHead l s).now + b.silenceTime) }) taken)
  have placed := congrArg (fun i : LinkIf => { i with replies := i.replies ++ [p] }) marked
  have added : (addPlace l p (configuredLink l b (takeHead l s))).link l =
      { (configuredLink l b (takeHead l s)).link l with replies := ((configuredLink l b (takeHead l s)).link l).replies ++ [p] } :=
    State.link_modLink_same _ _ _
  rw [added]
  rw [(takeHead_only l s).now] at placed
  exact placed

/-- What settling reads of the scheduler is its dampers (R57, R83). -/
theorem Settled.of_dampers {s t : State} (hs : Settled s)
    (h : Only [.now, .rate, .links, .regs, .sched, .figures, .memory, .cue, .counters, .pending] s t)
    (hd : t.sched.dampers = s.sched.dampers) : Settled t := by
  have e : settlePort t = settlePort s := by
    funext p pt
    unfold settlePort State.demanding State.demands State.recordLoad State.supplyGood State.damperDemand State.chamberState
      State.generator State.source State.chamber State.tremulant
    rw [h.table, hd, h.store, h.shutters, h.generators, h.supply]
  have k : t.ports.mapIdx (settlePort t) = t.ports := by
    rw [e, h.ports]
    exact congrArg State.ports hs
  exact congrArg (fun ps => { t with ports := ps }) k

/-- Settles O46. -/
theorem linkReleaseAndConfigureActOnTheSendingLink : Obligations.LinkReleaseAndConfigureActOnTheSendingLink := by
  intro l s tag hd
  have taken := takeHead_only l s
  have release : Gate.idle.refusal s.engine = none → Waits s l 0x32 [tag] → exec (.linkRelease l) s = .next (finish false (addReply l tag 0x32 .ok []
      (if (takeHead l s).ready then takeTransposition l (releaseKeys l (takeHead l s)) else takeHead l s))) := fun gate hw =>
    takeCommand_answers hw gate rfl
  refine ⟨fun hw ready => ?_, fun hw resting => ?_, fun fields hw hchecking => ⟨fun reads => ?_, fun v reads => ?_⟩⟩
  · have isReady : (takeHead l s).ready = true := by unfold State.ready; rw [taken.store]; exact decide_eq_true ready
    have runs := release (by rw [ready]; rfl) hw
    rw [if_pos isReady] at runs
    have only : Only [.regs, .table, .sched, .figures] (takeHead l s) (takeTransposition l (releaseKeys l (takeHead l s))) :=
      (releaseKeys_releases l _).trans (takeTransposition_only l _).mono
    have rewritten := (releaseKeys_rewrites l (takeHead l s)).trans (takeTransposition_rewrites l _)
    have relayed := relayed_countsBeside l
    have beside : CountsBeside l (takeHead l s) (takeTransposition l (releaseKeys l (takeHead l s))) :=
      relayed.trans (relayed.releaseKeys (countsMove_countsBeside l) (by decide) _) (relayed.takeTransposition (by decide) _)
    generalize takeTransposition l (releaseKeys l (takeHead l s)) = u at *
    have finished := finish_only false (addReply l tag 0x32 .ok [] u)
    have added : Only [.links] u (addReply l tag 0x32 .ok [] u) := addReply_only _ _ _ _ _ _
    have regs : ∀ m, (finish false (addReply l tag 0x32 .ok [] u)).reg m = u.reg m :=
      State.reg_of_regs (finished.regs.trans added.regs)
    have own : (takeHead l s).reg l = s.reg l := State.reg_of_regs taken.regs l
    refine ⟨_, runs, ((Took.of_takeHead only.links).addPlace _).finish false, fun places => ?_, ?_, ?_,
      ((taken.mono.trans only.mono).trans added.mono).trans finished.mono⟩
    · rw [regs, rewritten.reg_same, own, Function.comp, Registration.lifted_taken places]
    · rw [regs, rewritten.reg_other]
      exact State.reg_of_regs taken.regs _
    · exact (relayed.trans (relayed.trans (relayed.trans (relayed.free taken.but) beside) (relayed.free added.but))
        (relayed.finish (by decide) false _)).otherCountsKept
  · have unready : (takeHead l s).ready = false := by
      unfold State.ready
      rw [taken.store]
      rcases resting with h | h
      · exact decide_eq_false fun e => nomatch h.symm.trans e
      · exact decide_eq_false fun e => nomatch h.symm.trans e
    have gate : Gate.idle.refusal s.engine = none := by
      rcases resting with h | h
      · rw [h]; rfl
      · rw [h]; rfl
    refine ⟨_, release gate hw, ?_⟩
    rw [unready, if_neg Bool.false_ne_true]
    exact Acted.of_pre ((Took.of_takeHead rfl).addPlace _) (taken.trans (addReply_only _ _ _ _ _ _).mono) (takeHead_counted l s) hd.settled
  · dsimp only [exec, execConfigure]
    exact takeCommand_refuses hw (by rw [Gate.idle_refusal, if_neg hchecking]) (by rw [reads]) hd.settled
  · have runs : exec (.configure l) s = .next (finish false (addReply l tag 0x33 .ok [] (configureLink l v (takeHead l s)))) := by
      dsimp only [exec, execConfigure]
      exact takeCommand_answers hw (by rw [Gate.idle_refusal, if_neg hchecking]) (by rw [reads])
    have configured := configuredLink_only l v (takeHead l s)
    have only : Only [.links, .sched, .counters] s (configureLink l v (takeHead l s)) :=
      (taken.mono.trans configured.mono).trans (setDeferral_only _ _).mono
    have sched : (configuredLink l v (takeHead l s)).sched = s.sched := configured.sched.trans taken.sched
    have now : (configuredLink l v (takeHead l s)).now = s.now := configured.now.trans taken.now
    have before : CountedOnly [discards l] s (configuredLink l v (takeHead l s)) := (takeHead_counted l s).trans (configuredLink_counted l v _)
    have raised := setDeferral_raised v.deferral (configuredLink l v (takeHead l s))
    have counted := setDeferral_counted v.deferral (configuredLink l v (takeHead l s))
    have set := setDeferral_sched v.deferral (configuredLink l v (takeHead l s))
    rw [sched, now] at raised set
    rw [← configureLink_eq] at raised counted set
    have links : (configureLink l v (takeHead l s)).links = (configuredLink l v (takeHead l s)).links := (setDeferral_only _ _).links
    have own := configured_facing l v s (okPlace tag 0x33 [])
    have other : (configureLink l v (takeHead l s)).link (otherLink l) = s.link (otherLink l) :=
      (State.link_of_links links _).trans ((configuredLink_other l v _).trans (takeHead_of_ne (otherLink_ne l) s))
    generalize configureLink l v (takeHead l s) = u at *
    have placed : (addReply l tag 0x33 .ok [] u).link l = (addPlace l (okPlace tag 0x33 []) (configuredLink l v (takeHead l s))).link l := by
      refine (State.link_modLink_same _ _ _).trans (Eq.trans ?_ (State.link_modLink_same _ _ _).symm)
      rw [State.link_of_links links]
      rfl
    have added : Only [.links] u (addReply l tag 0x33 .ok [] u) := addReply_only _ _ _ _ _ _
    have settled : Settled (addReply l tag 0x33 .ok [] u) :=
      hd.settled.of_dampers (only.mono.trans added.mono) (by rw [added.sched, set])
    have finished := finish_of_settled_only settled
    refine ⟨_, runs, ?_, ?_, by rw [finished.sched, added.sched, set], ?_, ?_, (only.mono.trans added.mono).trans finished.mono⟩
    · rw [finish_facing, placed]
      exact own
    · rw [finish_facing, addReply, addPlace, State.link_modLink_of_ne _ (otherLink_ne l), other]
    · refine (Raised.of_counted before raised ?_).counted ((CountedOnly.of_only added (is := [])).trans (.of_only finished)) (by simp)
      cases l <;> decide
    · refine ((before.mono (by simp)).trans (counted.mono (by simp))).trans ((CountedOnly.of_only added).trans (.of_only finished))

end Sys2Proof.Machine
end

