-- ==== Sys2Proof/Proofs/Loads.lean ====
section
/-! PROOF. Events in which no port's load falls (04 R72; 07 R121): strike requests only add demand, so the strike queue is not served, and the
end of the event settles the ports and nothing more. -/

namespace Sys2Proof.Machine

-- One theorem after another, so that the compile needs few threads.
set_option Elab.async false

/-- The loads of what demands drive on a port. -/
def State.portDemand (s : State) (p : Nat) : Nat := ((s.demanding p).map s.recordLoad).sum

/-- No port's load can have fallen: the ports and the supply stand as settled, and no demand has ended. -/
structure LoadsHold (s t : State) : Prop where
  ports : ∀ p : Nat, (t.ports[p]?).map (fun pt => (pt.state, pt.load)) = (s.ports[p]?).map (fun pt => (pt.state, pt.load))
  supply : t.supply = s.supply
  demand : ∀ p, s.portDemand p ≤ t.portDemand p

theorem LoadsHold.refl (s : State) : LoadsHold s s := ⟨fun _ => rfl, rfl, fun _ => Nat.le_refl _⟩

theorem LoadsHold.trans {s t u : State} (h : LoadsHold s t) (k : LoadsHold t u) : LoadsHold s u :=
  ⟨fun p => (k.ports p).trans (h.ports p), k.supply.trans h.supply, fun p => (h.demand p).trans (k.demand p)⟩

/-- What settling reads stands. -/
theorem LoadsHold.of_same {s t : State} (h : Only [.now, .rate, .links, .regs, .sched, .figures, .memory, .cue, .counters, .pending] s t)
    (hd : t.sched.dampers = s.sched.dampers) : LoadsHold s t := by
  refine ⟨fun p => by rw [h.ports], h.supply, fun p => Nat.le_of_eq ?_⟩
  unfold State.portDemand State.demanding State.demands State.recordLoad State.damperDemand State.chamberState State.generator State.source
    State.chamber State.tremulant
  rw [h.table, hd, h.store, h.shutters, h.generators]

theorem LoadsHold.of_only {s t : State} (h : Only [.now, .rate, .links, .regs, .figures, .memory, .cue, .counters, .pending] s t) :
    LoadsHold s t := .of_same h.mono (by rw [h.sched])

theorem settlePort_load (s : State) (p : Nat) (pt : Port) :
    (settlePort s p pt).load = if pt.state = .active ∧ s.supplyGood = true then s.portDemand p else 0 := by
  unfold settlePort State.portDemand
  split <;> rfl

theorem LoadsHold.not_fell {s t : State} (hs : Settled s) (h : LoadsHold s t) : loadFell t (settle t) = false := by
  unfold loadFell
  rw [List.any_eq_false]
  intro x hx
  obtain ⟨i, hi, rfl⟩ := List.mem_iff_getElem.1 hx
  have lt : i < t.ports.length := by
    rw [List.length_zip] at hi
    exact lt_of_lt_of_le hi (Nat.min_le_left _ _)
  have before := h.ports i
  rw [List.getElem?_eq_getElem lt] at before
  obtain ⟨pt, hpt, e⟩ := Option.map_eq_some_iff.1 before.symm
  obtain ⟨state, load⟩ := Prod.mk.inj e
  have settled := congrArg Port.load (hs.port hpt)
  rw [settlePort_load, state, load] at settled
  have good : t.supplyGood = s.supplyGood := by unfold State.supplyGood; rw [h.supply]
  have demand := h.demand i
  have after : (settle t).ports[i]? = some (settlePort t i t.ports[i]) := by
    unfold settle
    rw [List.getElem?_mapIdx, List.getElem?_eq_getElem lt]
    rfl
  obtain ⟨_, got⟩ := List.getElem?_eq_some_iff.1 after
  rw [List.getElem_zip, decide_eq_true_iff]
  dsimp only
  rw [got, settlePort_load, ← settled, good, Nat.not_lt]
  split
  · exact demand
  · exact Nat.le_refl _

/-! ## Strokes begun -/

theorem sum_map_filter {α : Type} (p : α → Bool) (f : α → Nat) (xs : List α) :
    ((xs.filter p).map f).sum = (xs.map fun x => if p x then f x else 0).sum := by
  induction xs with
  | nil => rfl
  | cons x xs ih => by_cases h : p x <;> simp [h, ih]

theorem sum_map_le {α : Type} {f g : α → Nat} : ∀ {xs : List α}, (∀ x ∈ xs, f x ≤ g x) → (xs.map f).sum ≤ (xs.map g).sum
  | [], _ => Nat.le_refl _
  | x :: xs, h => by
    rw [List.map_cons, List.map_cons, List.sum_cons, List.sum_cons]
    exact Nat.add_le_add (h x List.mem_cons_self) (sum_map_le fun y hy => h y (List.mem_cons_of_mem _ hy))

/-- A record that comes to strike demands no less. -/
theorem State.demands_striking (s : State) (r : Record) (e : Nat) (h : s.demands r = true) :
    s.demands { r with stroke := some (.striking e) } = true := by
  obtain ⟨target, owner, link1, link2, cue, stroke⟩ := r
  cases owner with
  | trap i mode =>
    cases mode with
    | hold => simp [State.demands, Record.striking, Stroke.isStriking]
    | _ => rfl
  | percussion => rfl
  | _ => exact h

theorem State.portDemand_setStroke (s : State) (a : Addr) (e : Nat) (p : Nat) :
    s.portDemand p ≤ (s.setStroke a (.striking e)).portDemand p := by
  unfold State.portDemand State.demanding
  rw [sum_map_filter, sum_map_filter]
  have table : (s.setStroke a (.striking e)).table =
      s.table.map fun r => if r.target = .output a then { r with stroke := some (.striking e) } else r := rfl
  rw [table, List.map_map]
  refine sum_map_le fun r _ => ?_
  have demands : ∀ q, (s.setStroke a (.striking e)).demands q = s.demands q := fun _ => rfl
  have load : ∀ q, (s.setStroke a (.striking e)).recordLoad q = s.recordLoad q := fun _ => rfl
  rw [Function.comp, demands, load]
  by_cases ht : r.target = .output a
  · rw [if_pos ht]
    by_cases hd : (r.onPort p && s.demands r) = true
    · obtain ⟨on, demanded⟩ := Bool.and_eq_true_iff.1 hd
      have stays : (({ r with stroke := some (.striking e) } : Record).onPort p &&
          s.demands { r with stroke := some (.striking e) }) = true := Bool.and_eq_true_iff.2 ⟨on, s.demands_striking r e demanded⟩
      rw [if_pos hd, if_pos stays]
      exact Nat.le_refl _
    · rw [if_neg hd]
      exact Nat.zero_le _
  · rw [if_neg ht]

theorem loadsHold_startStroke (a : Addr) (s : State) : LoadsHold s (startStroke a s) := by
  unfold startStroke
  split
  next k _ =>
    refine ⟨fun p => ?_, rfl, State.portDemand_setStroke s a _⟩
    show (((s.setStroke a _).addLoad a.port _).ports[p]?).map _ = _
    unfold State.addLoad State.modPort
    dsimp only
    rw [List.getElem?_modify]
    show Option.map _ (Option.map _ s.ports[p]?) = _
    cases s.ports[p]? with
    | none => rfl
    | some pt => by_cases h : a.port = p <;> simp [h]
  · exact .refl s

theorem loadsHold_requestStrike (a : Addr) (s : State) : LoadsHold s (requestStrike a s) := by
  unfold requestStrike queueStrike
  split
  · exact .of_only (bump_only _ _).mono
  · split
    · exact loadsHold_startStroke a s
    · split
      · exact .of_only (bump_only _ _).mono
      · split
        · exact .of_only (bump_only _ _).mono
        · exact .of_same (sched_only s fun x => { x with queue := x.queue ++ _ }).mono rfl

theorem loadsHold_requestStrikes (outputs : List Addr) (s : State) : LoadsHold s (outputs.foldl (fun u a => requestStrike a u) s) := by
  induction outputs generalizing s with
  | nil => exact .refl s
  | cons a outputs ih => exact (loadsHold_requestStrike a s).trans (ih _)

/-! ## The end of such an event -/

theorem finish_links_of_quiet {u : State} (serve : Bool) (h : ∀ l, (u.link l).Quiet) : (finish serve u).links = u.links :=
  Pair.ext_get fun l => finish_of_link_quiet serve (h l)

/-- Where no load has fallen, the ports settle and the transmitters go on, and nothing more. -/
theorem finish_of_loadsHold {s u : State} (hs : Settled s) (h : LoadsHold s u) : Only [.ports, .links] u (finish false u) := by
  have settled : settleAndServe false u = settle u := by
    unfold settleAndServe
    rw [h.not_fell hs]
    rfl
  unfold finish
  rw [settled]
  exact ((settle_only u).mono.trans (beginTransmission_only .one _).mono).trans (beginTransmission_only .two _).mono

/-- The same where the links had nothing to send. -/
theorem finish_of_loadsHold_quiet {s u : State} (hd : Done s) (h : LoadsHold s u) (links : u.links = s.links) :
    Only [.ports] u (finish false u) := by
  have quiet : ∀ l, (u.link l).Quiet := fun l => by rw [State.link_of_links links]; exact hd.quiet l
  have only := finish_of_loadsHold hd.settled h
  intro f hf
  by_cases e : f = .links
  · subst e
    exact finish_links_of_quiet false quiet
  · exact only f (by simp_all)

/-- The end of an event leaves the links alone where they had nothing to send. -/
theorem finish_only_of_quiet {s u : State} (hd : Done s) (serve : Bool) (links : u.links = s.links) :
    Only [.table, .ports, .counters, .sched] u (finish serve u) := by
  have quiet : ∀ l, (u.link l).Quiet := fun l => by rw [State.link_of_links links]; exact hd.quiet l
  intro f hf
  by_cases e : f = .links
  · subst e
    exact finish_links_of_quiet serve quiet
  · exact finish_only serve u f (by simp_all)

end Sys2Proof.Machine
end

