-- ==== Sys2Proof/Proofs/FigurePlay.lean ====
section
/-! PROOF. Figures (05): starting, stopping and restarting players by command (R91, R94, R98, R99), and the end of a step (R92, R93, R96). -/

namespace Sys2Proof.Machine

-- One theorem after another, so that the compile needs few threads.
set_option Elab.async false

/-! ## Players -/

theorem State.setPlayer_self {s : State} {p : Nat} {run : Run} (h : s.playing p = some run) : s.setPlayer p (some run) = s := by
  have same : s.figures.players.set p (some run) = s.figures.players := by
    obtain ⟨hlt, e⟩ := List.getElem?_eq_some_iff.1 (State.playing_eq_some h)
    rw [← e, List.set_getElem_self]
  unfold State.setPlayer
  rw [same]

/-- The player that runs a figure is the one found, where no other runs it. -/
theorem State.playerOf_of_single {s : State} {f p : Nat} {run : Run} (law : PlayerLaw s) (hp : s.playing p = some run)
    (hf : run.figure = f) : s.playerOf f = some p := by
  cases hq : s.playerOf f with
  | none => exact absurd hf (State.playerOf_eq_none hq p run hp)
  | some q =>
    obtain ⟨other, ho, hof⟩ := State.playerOf_eq_some hq
    rw [law.single p q run other hp ho (hf.trans hof.symm)]

theorem State.playerOf_of_none {s : State} {f : Nat} (h : ∀ p run, s.playing p = some run → run.figure ≠ f) : s.playerOf f = none := by
  cases hq : s.playerOf f with
  | none => rfl
  | some q =>
    obtain ⟨run, hr, hf⟩ := State.playerOf_eq_some hq
    exact absurd hf (h q run hr)

theorem State.playing_of_lt {s : State} {p : Nat} (h : p < s.figures.players.length) : s.playing p = s.figures.players[p] := by
  unfold State.playing
  rw [List.getElem?_eq_getElem h]
  rfl

theorem State.idlePlayer_of_none {s : State} (h : ∀ p, ¬(p < s.figures.players.length ∧ s.playing p = none)) : s.idlePlayer = none := by
  refine List.findIdx?_eq_none_iff.2 fun x hx => ?_
  obtain ⟨p, hp, rfl⟩ := List.mem_iff_getElem.1 hx
  have busy : s.playing p ≠ none := fun e => h p ⟨hp, e⟩
  rw [State.playing_of_lt hp] at busy
  exact Option.isNone_eq_false_iff.2 (Option.isSome_iff_ne_none.2 busy)

theorem State.idlePlayer_of_lowest {s : State} {p : Nat} (hlt : p < s.figures.players.length) (h0 : s.playing p = none)
    (lowest : ∀ q, q < p → ¬(q < s.figures.players.length ∧ s.playing q = none)) : s.idlePlayer = some p := by
  refine List.findIdx?_eq_some_iff_getElem.2 ⟨hlt, ?_, fun q hq => ?_⟩
  · rw [← State.playing_of_lt hlt, h0]
    rfl
  · have hqlt := Nat.lt_trans hq hlt
    rw [← State.playing_of_lt hqlt]
    intro idle
    exact lowest q hq ⟨hqlt, Option.isNone_iff_eq_none.1 idle⟩

/-- A player begins a step: its voices strike, and its timer runs the step's time scaled by the tempo (R92, R96). -/
theorem beginStep_of_step {s : State} {p n : Nat} {run : Run} {fig : Figure} {st : FigureStep} (hp : s.playing p = some run)
    (hf : s.figure run.figure = some fig) (hs : fig.steps[n]? = some st) : beginStep p n s =
      (st.voices.foldl (strikeVoice fig.voices) s).setPlayer p
        (some { run with step := n, expiry := s.now + scaledDuration st.duration s.figures.tempo }) := by
  unfold beginStep
  rw [hp]
  dsimp only
  rw [hf]
  dsimp only
  rw [hs]

theorem strikeVoices_only (voices ps : List Nat) (s : State) :
    Only [.table, .ports, .counters, .sched] s (ps.foldl (strikeVoice voices) s) := Only.foldl (strikeVoice_only voices) _ _

theorem State.playing_beginStep_same {s : State} {p n : Nat} {run : Run} {fig : Figure} {st : FigureStep} (hp : s.playing p = some run)
    (hf : s.figure run.figure = some fig) (hs : fig.steps[n]? = some st) :
    (beginStep p n s).playing p = some { run with step := n, expiry := s.now + scaledDuration st.duration s.figures.tempo } := by
  rw [beginStep_of_step hp hf hs]
  refine State.playing_setPlayer_same ?_ _
  rw [(strikeVoices_only fig.voices st.voices s).figures]
  exact State.lt_of_playing hp

theorem State.playing_beginStep_of_ne {p q : Nat} (h : q ≠ p) (n : Nat) (s : State) : (beginStep p n s).playing q = s.playing q := by
  unfold beginStep
  split
  · split
    next fig _ =>
      split
      next st _ =>
        rw [State.playing_setPlayer_of_ne h, State.playing_of_figures (strikeVoices_only fig.voices st.voices s).figures]
      · rfl
    · rfl
  · rfl

/-! ## FIGURE SYNC (R99) -/

theorem syncPlayer_of_ne {p q : Nat} (h : q ≠ p) (listed : List Nat) (s : State) : (syncPlayer listed s p).playing q = s.playing q := by
  unfold syncPlayer
  split
  · split
    · exact State.playing_beginStep_of_ne h 0 s
    · rfl
  · rfl

/-- What restarting leaves as it is: the clock, the specification and the tempo. -/
def SyncStands (s t : State) : Prop := t.now = s.now ∧ t.store = s.store ∧ t.figures.tempo = s.figures.tempo

theorem syncPlayer_stands (listed : List Nat) (s : State) (p : Nat) : SyncStands s (syncPlayer listed s p) := by
  have only := syncPlayer_only listed s p
  exact ⟨only.now, only.store, (relayed_dialsKept.syncPlayer listed s p).1⟩

/-- Each player meets its restart as it was, and keeps what comes of it. -/
theorem foldl_syncPlayer (listed : List Nat) {p : Nat} : ∀ (ps : List Nat) (s : State), ps.Nodup →
    SyncStands s (ps.foldl (syncPlayer listed) s) ∧
    (p ∉ ps → (ps.foldl (syncPlayer listed) s).playing p = s.playing p) ∧
    (p ∈ ps → ∃ u, u.playing p = s.playing p ∧ SyncStands s u ∧ (ps.foldl (syncPlayer listed) s).playing p = (syncPlayer listed u p).playing p)
  | [], s, _ => ⟨⟨rfl, rfl, rfl⟩, fun _ => rfl, fun h => nomatch h⟩
  | q :: ps, s, nodup => by
    obtain ⟨apart, rest⟩ := List.nodup_cons.1 nodup
    obtain ⟨stands, outside, inside⟩ := foldl_syncPlayer listed (p := p) ps (syncPlayer listed s q) rest
    obtain ⟨hn, hs, ht⟩ := syncPlayer_stands listed s q
    refine ⟨⟨stands.1.trans hn, stands.2.1.trans hs, stands.2.2.trans ht⟩, fun h => ?_, fun h => ?_⟩
    · obtain ⟨hq, hps⟩ := not_or.1 (mt List.mem_cons.2 h)
      exact (outside hps).trans (syncPlayer_of_ne hq listed s)
    · by_cases hq : p = q
      · subst hq
        exact ⟨s, rfl, ⟨rfl, rfl, rfl⟩, outside apart⟩
      · obtain ⟨u, hu, ⟨un, us, ut⟩, e⟩ := inside ((List.mem_cons.1 h).resolve_left hq)
        exact ⟨u, hu.trans (syncPlayer_of_ne hq listed s), ⟨un.trans hn, us.trans hs, ut.trans ht⟩, e⟩

theorem syncPlayer_of_idle {s : State} {p : Nat} (h : s.playing p = none) (listed : List Nat) : syncPlayer listed s p = s := by
  unfold syncPlayer
  rw [h]

theorem syncPlayer_of_run {s : State} {p : Nat} {run : Run} (h : s.playing p = some run) (listed : List Nat) :
    syncPlayer listed s p = if run.figure ∈ listed then beginStep p 0 s else s := by
  unfold syncPlayer
  rw [h]
  simp only [List.contains_eq_mem, decide_eq_true_eq]

/-- What a player holds after all of them met their restart. -/
theorem playing_foldl_syncPlayer (listed : List Nat) (s : State) (p : Nat) : ∃ w, w.playing p = s.playing p ∧ SyncStands s w ∧
    ((List.range s.figures.players.length).foldl (syncPlayer listed) s).playing p = (syncPlayer listed w p).playing p := by
  obtain ⟨-, outside, inside⟩ := foldl_syncPlayer listed (p := p) (List.range s.figures.players.length) s List.nodup_range
  by_cases hp : p < s.figures.players.length
  · exact inside (List.mem_range.2 hp)
  · have idle : s.playing p = none := by
      unfold State.playing
      rw [List.getElem?_eq_none (Nat.not_lt.1 hp)]
      rfl
    exact ⟨s, rfl, ⟨rfl, rfl, rfl⟩, by rw [outside (mt List.mem_range.1 hp), syncPlayer_of_idle idle]⟩

/-- FIGURE SYNC restarts the RUNNING players of the listed figures and no other (R99). -/
theorem syncPlayers_playing (listed : List Nat) (s : State) :
    let t := (List.range s.figures.players.length).foldl (syncPlayer listed) s
    (∀ p, s.playing p = none → t.playing p = none) ∧
    (∀ p run, s.playing p = some run → run.figure ∉ listed → t.playing p = some run) ∧
    (∀ p run fig first, s.playing p = some run → run.figure ∈ listed → s.figure run.figure = some fig → fig.steps[0]? = some first →
      t.playing p = some { run with step := 0, expiry := s.now + scaledDuration first.duration s.figures.tempo }) ∧
    t.figures.tempo = s.figures.tempo := by
  refine ⟨fun p hp => ?_, fun p run hp apart => ?_, fun p run fig first hp joins hfig hfirst => ?_,
    (foldl_syncPlayer listed (p := 0) _ s List.nodup_range).1.2.2⟩
  all_goals obtain ⟨w, hw, ⟨hn, hs, ht⟩, e⟩ := playing_foldl_syncPlayer listed s p
  · rw [e, syncPlayer_of_idle (hw.trans hp), hw, hp]
  · rw [e, syncPlayer_of_run (hw.trans hp), if_neg apart, hw, hp]
  · rw [e, syncPlayer_of_run (hw.trans hp), if_pos joins,
      State.playing_beginStep_same (hw.trans hp) ((State.figure_of_store hs _).trans hfig) hfirst, hn, ht]

/-! ## The commands -/

theorem State.namedFigure_of_some {s : State} {f : Byte} {fig : Figure} (hf : f.toNat < 16) (h : s.figure f.toNat = some fig) :
    s.namedFigure [f] = some f.toNat := by
  have read : readFigureIndex [f] = some f.toNat := field1_eq_some.2 ⟨rfl, Nat.zero_le _, by omega⟩
  unfold State.namedFigure
  rw [read, Option.bind_some, h]
  rfl

theorem State.namedFigure_of_none {s : State} {f : Byte} (h : 16 ≤ f.toNat ∨ s.figure f.toNat = none) : s.namedFigure [f] = none := by
  unfold State.namedFigure
  cases hr : readFigureIndex [f] with
  | none => rfl
  | some n =>
    obtain ⟨rfl, -, hn⟩ := field1_eq_some.1 (show field1 0 15 f = some n from hr)
    rcases h with h | h
    · omega
    · rw [Option.bind_some, h]
      rfl

theorem State.namedFigure_of_store {s t : State} (h : t.store = s.store) (fields : List Byte) : t.namedFigure fields = s.namedFigure fields := by
  unfold State.namedFigure
  simp only [State.figure_of_store h]

theorem startFigure_joins {s : State} {f p : Nat} {run : Run} (o : FigureOwner) (h : s.playerOf f = some p) (hp : s.playing p = some run) :
    startFigure f o s = (s.setPlayer p (some { run with owners := run.owners.put o true }), true) := by
  unfold startFigure
  rw [h]
  dsimp only
  rw [hp]

theorem startFigure_refused {s : State} {f : Nat} (o : FigureOwner) (h : s.playerOf f = none) (hi : s.idlePlayer = none) :
    startFigure f o s = (s.bump .figuresRefused, false) := by
  unfold startFigure
  rw [h]
  dsimp only
  rw [hi]

theorem startFigure_begins {s : State} {f p : Nat} (o : FigureOwner) (h : s.playerOf f = none) (hi : s.idlePlayer = some p) :
    startFigure f o s =
      (beginStep p 0 (s.setPlayer p (some { figure := f, step := 0, expiry := s.now, owners := OwnerSet.only o })), true) := by
  unfold startFigure
  rw [h]
  dsimp only
  rw [hi]

/-- An owner leaves the player of a figure, which stops where it leaves none (R94). -/
theorem removeFigureOwner_of_player {s : State} {f p : Nat} {run : Run} (law : PlayerLaw s) (o : FigureOwner) (hp : s.playing p = some run)
    (hf : run.figure = f) : removeFigureOwner o f s =
      s.setPlayer p (if (run.owners.put o false).isEmpty then none else some { run with owners := run.owners.put o false }) := by
  unfold removeFigureOwner removeOwner
  rw [State.playerOf_of_single law hp hf]
  dsimp only
  rw [hp]
  dsimp only
  split
  · rfl
  next absent =>
    have same : run.owners.put o false = run.owners := by
      rcases ho : run.owners with ⟨a, b, c, d⟩
      rw [ho] at absent
      cases o with
      | claim | cue => simpa [OwnerSet.has, OwnerSet.put, eq_comm] using absent
      | link l => cases l <;> simpa [OwnerSet.has, OwnerSet.put, eq_comm] using absent
    rw [same, if_neg (by rw [law.owned p run hp]; exact Bool.false_ne_true), State.setPlayer_self hp]

theorem removeFigureOwner_of_none {s : State} {f : Nat} (o : FigureOwner) (h : s.playerOf f = none) : removeFigureOwner o f s = s := by
  unfold removeFigureOwner
  rw [h]

theorem State.playerOf_of_figures {s t : State} (h : t.figures = s.figures) (f : Nat) : t.playerOf f = s.playerOf f := by
  unfold State.playerOf
  rw [h]

theorem State.idlePlayer_of_figures {s t : State} (h : t.figures = s.figures) : t.idlePlayer = s.idlePlayer := by
  unfold State.idlePlayer
  rw [h]

theorem readFigureList_eq (count : Byte) (listed : List Byte) : readFigureList (count :: listed) =
    if listed.length = count.toNat ∧ 1 ≤ listed.length ∧ listed.length ≤ 16 ∧ ∀ f ∈ listed, f.toNat ≤ 15 then
      some (listed.map BitVec.toNat) else none := by
  unfold readFigureList
  simp only [List.all_eq_true, decide_eq_true_eq]

theorem figuresRefused_ne_discards (l : Link) : Counter.figuresRefused.index ≠ discards l := by cases l <;> decide

/-- What a figure command that is answered leaves: the players as its effect has them. -/
theorem figures_answered {l : Link} {s u : State} (only : Only [.table, .ports, .counters, .sched, .figures] (takeHead l s) u)
    (tag kind : Byte) :
    let t := finish false (addReply l tag kind .ok [] u)
    Took l [okPlace tag kind []] s t ∧ t.figures = u.figures ∧ Only [.links, .table, .sched, .figures, .ports, .counters] s t := by
  have replied : Only [.links] u (addReply l tag kind .ok [] u) := addPlace_only l (okPlace tag kind []) u
  have ended := finish_only false (addReply l tag kind .ok [] u)
  exact ⟨((Took.of_takeHead only.links).addPlace _).finish false, ended.figures.trans replied.figures,
    (((takeHead_only l s).mono.trans only.mono).trans replied.mono).trans ended.mono⟩

/-- A start that is refused for want of a player is answered FULL and counted (R91). -/
theorem startRefused_answered {l : Link} {s : State} (hd : Done s) (tag : Byte) :
    let t := finish false (addReply l tag Kind.figureStart .full [] ((takeHead l s).bump .figuresRefused))
    Took l [refusalPlace tag 0x48 .full] s t ∧ Only [.links, .counters] s t ∧ Raised 1 .figuresRefused s t ∧
      CountedOnly [20, discards l] s t := by
  have refused : Only [.links, .counters] s ((takeHead l s).bump .figuresRefused) := (takeHead_only l s).mono.trans (bump_only _ _).mono
  have replied : Only [.links] _ (addReply l tag Kind.figureStart .full [] ((takeHead l s).bump .figuresRefused)) :=
    addPlace_only l (refusalPlace tag 0x48 .full) _
  have ended := finish_of_settled_only (hd.settled.of_links_counters (refused.trans replied.mono))
  have counted := CountedOnly.of_counters (is := []) (ended.counters.trans replied.counters)
  exact ⟨((Took.of_takeHead (bump_only _ _).links).addPlace _).finish false, (refused.trans replied.mono).trans ended.mono,
    (takeHead_bump_raised (figuresRefused_ne_discards l) s).counted counted (by simp),
    (takeHead_bump_counted l .figuresRefused s).trans (counted.mono (by simp))⟩

/-- The player that a figure begins on, at step 0, and the others as they were (R91, R92). -/
theorem beginsFigure {s : State} {p : Nat} {started : Run} {fig : Figure} {first : FigureStep} (hlt : p < s.figures.players.length)
    (hfig : s.figure started.figure = some fig) (hfirst : fig.steps[0]? = some first) :
    let u := beginStep p 0 (s.setPlayer p (some started))
    Only [.table, .ports, .counters, .sched, .figures] s u ∧
      u.playing p = some { started with step := 0, expiry := s.now + scaledDuration first.duration s.figures.tempo } ∧
      (∀ q, q ≠ p → u.playing q = s.playing q) ∧ u.figures.tempo = s.figures.tempo :=
  ⟨(setPlayer_only s p (some started)).mono.trans (beginStep_only p 0 _),
    State.playing_beginStep_same (State.playing_setPlayer_same hlt _) ((State.figure_of_store (setPlayer_only s p _).store _).trans hfig) hfirst,
    fun q hq => (State.playing_beginStep_of_ne hq _ _).trans (State.playing_setPlayer_of_ne hq _),
    (relayed_dialsKept.beginStep p 0 _).1⟩

/-- Settles O53. -/
theorem figureCommandsStartStopAndRestartPlayers : Obligations.FigureCommandsStartStopAndRestartPlayers := by
  intro l s tag hd law ready refused acts idle begun
  have gate : Gate.ready.refusal s.engine = none := by rw [ready]; rfl
  have taken := takeHead_only l s
  have named : ∀ fields, (takeHead l s).namedFigure fields = s.namedFigure fields := State.namedFigure_of_store taken.store
  have playing : ∀ p, (takeHead l s).playing p = s.playing p := State.playing_of_figures taken.figures
  have lawTaken : PlayerLaw (takeHead l s) := keepsPlayerLaw_of_only taken.but law
  refine ⟨fun f bad => ⟨fun hw => ?_, fun hw => ?_⟩, fun f fig first hf hfig hfirst => ⟨fun hw => ⟨fun p run hr => ?_, fun absent idles => ?_,
    fun p absent hi lowest => ?_⟩, fun hw => ⟨fun p run hr => ?_, fun absent => ?_⟩⟩, fun count listed hw => ⟨fun bad => ?_, fun good => ?_⟩⟩
  · dsimp only [refused, exec, execFigureStart]
    exact takeCommand_refuses hw gate (by rw [named, State.namedFigure_of_none bad]) hd.settled
  · dsimp only [refused, exec, execFigureStop]
    exact takeCommand_refuses hw gate (by rw [named, State.namedFigure_of_none bad]) hd.settled
  · obtain ⟨hp, hpf⟩ := hr
    have found : (takeHead l s).playerOf f.toNat = some p := State.playerOf_of_single lawTaken ((playing p).trans hp) hpf
    dsimp only [acts, exec, execFigureStart]
    refine takeCommand_writes .figures (g := fun u => u.setPlayer p (some { run with owners := run.owners.put (.link l) true })) (contents := [])
      hw gate ?_ (hd.settled.of_only (setPlayer_only s p _).mono) (fun u => setPlayer_only u p _) ?_
    · rw [named, State.namedFigure_of_some hf hfig]
      dsimp only
      rw [startFigure_joins (.link l) found ((playing p).trans hp)]
      rfl
    · exact congrArg (fun x : Figures => { x with players := x.players.set p (some { run with owners := run.owners.put (.link l) true }) })
        taken.figures
  · have found : (takeHead l s).playerOf f.toNat = none :=
      State.playerOf_of_none fun p run hp e => absent p run ⟨(playing p).symm.trans hp, e⟩
    have full : (takeHead l s).idlePlayer = none :=
      (State.idlePlayer_of_figures taken.figures).trans (State.idlePlayer_of_none idles)
    dsimp only [exec, execFigureStart]
    refine ⟨_, takeCommand_answers (u := (takeHead l s).bump .figuresRefused) (code := .full) (contents := []) (serve := false) hw gate ?_, ?_⟩
    · rw [named, State.namedFigure_of_some hf hfig]
      dsimp only
      rw [startFigure_refused (.link l) found full]
      rfl
    · exact startRefused_answered hd tag
  · have found : (takeHead l s).playerOf f.toNat = none :=
      State.playerOf_of_none fun p run hp e => absent p run ⟨(playing p).symm.trans hp, e⟩
    have lies : (takeHead l s).figures.players.length = s.figures.players.length := by rw [taken.figures]
    have chosen : (takeHead l s).idlePlayer = some p := State.idlePlayer_of_lowest (lies ▸ hi.1) ((playing p).trans hi.2)
      fun q hq idleThere => lowest q hq ⟨lies ▸ idleThere.1, (playing q).symm.trans idleThere.2⟩
    obtain ⟨only, begunAs, others, tempo⟩ := beginsFigure (s := takeHead l s)
      (started := { figure := f.toNat, step := 0, expiry := s.now, owners := OwnerSet.only (.link l) }) (lies.symm ▸ hi.1)
      ((State.figure_of_store taken.store _).trans hfig) hfirst
    obtain ⟨took, figures, changed⟩ := figures_answered only tag 0x48
    dsimp only [exec, execFigureStart]
    refine ⟨_, takeCommand_answers (code := .ok) (contents := []) (serve := false) hw gate ?_, took, ?_, fun q hq => ?_, ?_, changed⟩
    · rw [named, State.namedFigure_of_some hf hfig]
      dsimp only
      rw [startFigure_begins (.link l) found chosen, taken.now]
      rfl
    · rw [taken.now, taken.figures] at begunAs
      exact (State.playing_of_figures figures p).trans begunAs
    · exact (State.playing_of_figures figures q).trans ((others q hq).trans (playing q))
    · exact (congrArg Figures.tempo figures).trans (tempo.trans (congrArg Figures.tempo taken.figures))
  · obtain ⟨hp, hpf⟩ := hr
    dsimp only [acts, exec, execFigureStop]
    refine takeCommand_writes .figures (g := fun u => u.setPlayer p (if (run.owners.put (.link l) false).isEmpty then none
            else some { run with owners := run.owners.put (.link l) false })) (contents := [])
      hw gate ?_ (hd.settled.of_only (setPlayer_only s p _).mono) (fun u => setPlayer_only u p _) ?_
    · rw [named, State.namedFigure_of_some hf hfig]
      dsimp only
      rw [removeFigureOwner_of_player lawTaken (.link l) ((playing p).trans hp) hpf]
    · exact congrArg (fun x : Figures => { x with players := x.players.set p (if (run.owners.put (.link l) false).isEmpty then none
            else some { run with owners := run.owners.put (.link l) false }) }) taken.figures
  · have found : (takeHead l s).playerOf f.toNat = none :=
      State.playerOf_of_none fun p run hp e => absent p run ⟨(playing p).symm.trans hp, e⟩
    dsimp only [acts, exec, execFigureStop]
    refine takeCommand_acted (a := { state := takeHead l s, code := .ok }) hw gate ?_ rfl rfl rfl taken rfl rfl hd.settled
    rw [named, State.namedFigure_of_some hf hfig]
    dsimp only
    rw [removeFigureOwner_of_none (.link l) found]
  · dsimp only [refused, exec, execFigureSync]
    exact takeCommand_refuses hw gate (by rw [readFigureList_eq, if_neg bad]) hd.settled
  · obtain ⟨idle, unlisted, restarts, tempo⟩ := syncPlayers_playing (listed.map BitVec.toNat) (takeHead l s)
    obtain ⟨took, figures, changed⟩ := figures_answered
      (Only.foldl (syncPlayer_only (listed.map BitVec.toNat)) (List.range (takeHead l s).figures.players.length) (takeHead l s)) tag 0x4A
    dsimp only [exec, execFigureSync]
    refine ⟨_, takeCommand_answers (code := .ok) (contents := []) (serve := false) hw gate (by rw [readFigureList_eq, if_pos good]), took,
      fun p hp => ?_, fun p run hp apart => ?_, fun p run fig first hp joins hfig hfirst => ?_, ?_, changed⟩
    · exact (State.playing_of_figures figures p).trans (idle p ((playing p).trans hp))
    · refine (State.playing_of_figures figures p).trans (unlisted p run ((playing p).trans hp) fun h => ?_)
      obtain ⟨f, hf, e⟩ := List.mem_map.1 h
      exact apart f hf e
    · have restarted := restarts p run fig first ((playing p).trans hp) (List.mem_map.2 joins)
        ((State.figure_of_store taken.store _).trans hfig) hfirst
      exact (State.playing_of_figures figures p).trans (restarted.trans (by rw [taken.now, taken.figures]))
    · exact (congrArg Figures.tempo figures).trans (tempo.trans (congrArg Figures.tempo taken.figures))

/-! ## The end of a step (R93) -/

theorem foldl_strikeVoice {voices : List Nat} {ps : List Nat} {outputs : List Addr} {s : State}
    (h : ps.map (fun v => (voices[v]?).bind s.voiceOutput) = outputs.map some) :
    ps.foldl (strikeVoice voices) s = outputs.foldl (fun u a => requestStrike a u) s := by
  induction ps generalizing outputs s with
  | nil =>
    cases outputs with
    | nil => rfl
    | cons a outputs => cases h
  | cons p ps ih =>
    cases outputs with
    | nil => cases h
    | cons a outputs =>
      obtain ⟨head, tail⟩ := List.cons.inj h
      have struck : strikeVoice voices s p = requestStrike a s := by
        dsimp only at head
        unfold strikeVoice
        rw [head]
      have outputsStand : (requestStrike a s).voiceOutput = s.voiceOutput := by
        funext i
        unfold State.voiceOutput State.source
        rw [(requestStrike_only a s).store]
      rw [List.foldl_cons, List.foldl_cons, struck]
      exact ih (by rw [outputsStand]; exact tail)

/-- Settles O54. -/
theorem aStepTimerMovesItsPlayerToTheNextStepOrStopsIt : Obligations.AStepTimerMovesItsPlayerToTheNextStepOrStopsIt := by
  intro s p run fig hd hp due hfig ended next
  have runs : exec (.stepTimerExpiry p) s = .next (finish false (endStep p run s)) := by
    show execStepTimerExpiry p s = _
    unfold execStepTimerExpiry
    rw [hp]
    exact if_pos due
  rw [runs]
  have steps : endStep p run s =
      if run.step + 1 < fig.steps.length then beginStep p (run.step + 1) s else if fig.loop then beginStep p 0 s else s.setPlayer p none := by
    unfold endStep
    rw [hfig]
  refine ⟨fun last once => ?_, fun st outputs goes hst voices => ?_⟩
  · rw [steps, if_neg (Nat.not_lt.2 last), once, if_neg Bool.false_ne_true]
    exact congrArg _ (finish_of_done ⟨hd.settled.of_only (setPlayer_only s p none).mono, hd.quiet⟩)
  · have begins : endStep p run s = beginStep p next s := by
      rw [steps]
      by_cases last : ended
      · have loops : fig.loop = true := goes.resolve_left fun h => h last
        have first : next = 0 := if_pos last
        rw [if_neg (Nat.not_lt.2 last), if_pos loops, first]
      · have on : next = run.step + 1 := if_neg last
        rw [if_pos (Nat.lt_of_not_le last), on]
    have struck := Only.foldl (fun u a => requestStrike_only a u) outputs s
    rw [begins, beginStep_of_step hp hfig hst, foldl_strikeVoice voices]
    have holds := (loadsHold_requestStrikes outputs s)
    generalize outputs.foldl (fun u a => requestStrike a u) s = u at *
    have set := setPlayer_only u p (some { run with step := next, expiry := s.now + scaledDuration st.duration s.figures.tempo })
    have finished := finish_of_loadsHold_quiet hd (holds.trans (.of_only set.mono)) (set.links.trans struck.links)
    refine ⟨_, rfl, ?_, finished.table.trans set.table, finished.sched.trans set.sched, finished.counters.trans set.counters,
      (struck.mono.trans set.mono).trans finished.mono⟩
    rw [finished.figures]
    exact congrArg (fun x : Figures =>
      { x with players := x.players.set p (some { run with step := next, expiry := s.now + scaledDuration st.duration s.figures.tempo }) })
      struck.figures

end Sys2Proof.Machine
end

