-- ==== Sys2Proof/Proofs/Timers.lean ====
section
/-! PROOF. The part's own timers: late strikes, reiterations and holdovers (04: R73, R79, R83), tremulant phases and chamber stages (06: R105,
R106, R113, R115). -/

namespace Sys2Proof.Machine

-- One theorem after another, so that the compile needs few threads.
set_option Elab.async false

/-! ## Serving the queue -/

/-- Serving takes strikes from the queue and changes nothing else of the schedule. -/
def QueueServed (s t : State) : Prop :=
  { t.sched with queue := [] } = { s.sched with queue := [] } ∧ ∀ x ∈ t.sched.queue, x ∈ s.sched.queue

theorem QueueServed.refl (s : State) : QueueServed s s := ⟨rfl, fun _ h => h⟩

theorem QueueServed.of_sched {s t : State} (h : t.sched = s.sched) : QueueServed s t := by
  unfold QueueServed
  rw [h]
  exact QueueServed.refl s

theorem QueueServed.trans {s t u : State} (h : QueueServed s t) (k : QueueServed t u) : QueueServed s u :=
  ⟨k.1.trans h.1, fun x hx => h.2 x (k.2 x hx)⟩

theorem QueueServed.dampers {s t : State} (h : QueueServed s t) : t.sched.dampers = s.sched.dampers := by
  simpa using congrArg Scheduler.dampers h.1

theorem QueueServed.reiterations {s t : State} (h : QueueServed s t) : t.sched.reiterations = s.sched.reiterations := by
  simpa using congrArg Scheduler.reiterations h.1

theorem queueServed_serveEntry (s : State) (e : QueuedStrike) : QueueServed s (serveEntry s e) := by
  unfold serveEntry
  split
  · exact QueueServed.trans (t := dequeue e.out s) ⟨rfl, fun x hx => (List.mem_filter.1 hx).1⟩
      (.of_sched (startStroke_only e.out (dequeue e.out s)).sched)
  · exact .refl s

theorem queueServed_serveQueue (s : State) : QueueServed s (serveQueue s) := by
  have served : ∀ (q : List QueuedStrike) (u : State), QueueServed u (q.foldl serveEntry u) := fun q => by
    induction q with
    | nil => exact QueueServed.refl
    | cons e q ih => exact fun u => (queueServed_serveEntry u e).trans (ih _)
  exact served s.sched.queue s

theorem queueServed_finish (serve : Bool) (s : State) : QueueServed s (finish serve s) := by
  have served : QueueServed s (settleAndServe serve s) := by
    unfold settleAndServe
    split
    · exact queueServed_serveQueue (settle s)
    · exact .refl s
  exact served.trans (.of_sched (((beginTransmission_only .one _).trans (beginTransmission_only .two _)).sched))

/-! ## Entries by their place -/

section
variable {α : Type} {p : α → Bool} {f : α → α} {before after : List α} {x : α}

theorem find?_of_split (hx : p x = true) (h : ∀ y ∈ before ++ after, p y = false) : (before ++ x :: after).find? p = some x := by
  have passed : before.find? p = none := List.find?_eq_none.2 fun y hy => by simp [h y (List.mem_append_left _ hy)]
  rw [List.find?_append, passed, List.find?_cons_of_pos hx]
  rfl

theorem filter_of_split (hx : p x = false) (h : ∀ y ∈ before ++ after, p y = true) : (before ++ x :: after).filter p = before ++ after := by
  rw [List.filter_append, List.filter_cons_of_neg (by simp [hx]), ← List.filter_append, List.filter_eq_self.2 h]

theorem map_of_split (h : ∀ y ∈ before ++ after, f y = y) : (before ++ x :: after).map f = before ++ f x :: after := by
  have same : ∀ ys : List α, (∀ y ∈ ys, f y = y) → ys.map f = ys := fun ys hy => by
    rw [List.map_congr_left hy, List.map_id']
  rw [List.map_append, List.map_cons, same before fun y hy => h y (List.mem_append_left _ hy),
    same after fun y hy => h y (List.mem_append_right _ hy)]

end

/-! ## Late strikes, reiterations and holdovers -/

/-- A strike request neither reads nor moves the reiteration set. -/
theorem requestStrike_rearm (a b : Addr) (interval : Nat) (s : State) :
    requestStrike a (rearm b interval s) = rearm b interval (requestStrike a s) := by
  have starts : startStroke a (rearm b interval s) = rearm b interval (startStroke a s) := by
    unfold startStroke
    rw [show (rearm b interval s).timesAt a = s.timesAt a from rfl]
    cases s.timesAt a <;> rfl
  have queues : queueStrike a (rearm b interval s) = rearm b interval (queueStrike a s) := by
    unfold queueStrike
    rw [show (rearm b interval s).sched.queue = s.sched.queue from rfl]
    split
    · rfl
    · split <;> rfl
  unfold requestStrike
  rw [show ((rearm b interval s).ready && (rearm b interval s).drivable a) = (s.ready && s.drivable a) from rfl,
    show (rearm b interval s).startable a = s.startable a from rfl, starts, queues]
  split
  · rfl
  · split <;> rfl

theorem requestStrike_reiterations (a : Addr) (s : State) : (requestStrike a s).sched.reiterations = s.sched.reiterations := by
  unfold requestStrike
  split
  · rfl
  · split
    · rw [(startStroke_only a s).sched]
    · unfold queueStrike
      split
      · rfl
      · split <;> rfl

section
variable {s : State} (hd : Done s)
include hd

theorem deferralLimitExpiry_discards {x : QueuedStrike} {before after : List QueuedStrike} (hq : s.sched.queue = before ++ x :: after)
    (others : ∀ y ∈ before ++ after, y.out ≠ x.out) (due : x.joined + s.sched.deferral ≤ s.now) :
    exec (.deferralLimitExpiry x.out) s =
      .next { s with sched := { s.sched with queue := before ++ after }, counters := (s.bump .strikesLate).counters } := by
  have found : s.sched.queue.find? (fun e => decide (e.out = x.out)) = some x := by
    rw [hq]
    exact find?_of_split (decide_eq_true rfl) fun y hy => decide_eq_false (others y hy)
  have left : (s.sched.queue.filter fun e => !decide (e.out = x.out)) = before ++ after := by
    rw [hq]
    exact filter_of_split (by simp) fun y hy => by simp [others y hy]
  show execDeferralLimitExpiry x.out s = _
  unfold execDeferralLimitExpiry
  rw [found]
  dsimp only
  have late : x.expired s.sched.deferral s.now = true := decide_eq_true due
  rw [if_pos late]
  have leaves : (dequeue x.out s).bump .strikesLate =
      { s with sched := { s.sched with queue := before ++ after }, counters := (s.bump .strikesLate).counters } := by
    unfold dequeue
    rw [left]
    rfl
  have only : Only [.sched, .counters] s ((dequeue x.out s).bump .strikesLate) :=
    (sched_only s fun x => { x with queue := x.queue.filter _ }).mono.trans (bump_only _ _).mono
  rw [← leaves]
  exact congrArg _ (finish_of_done ⟨hd.settled.of_dampers only.mono rfl, fun l => by
    rw [State.link_of_links only.links]
    exact hd.quiet l⟩)

theorem reiterationDue_rearms {x : Reiteration} {before after : List Reiteration} {interval : Nat}
    (hq : s.sched.reiterations = before ++ x :: after) (others : ∀ y ∈ before ++ after, y.out ≠ x.out)
    (hi : s.intervalAt x.out = some interval) (due : x.due ≤ s.now) :
    let struck := requestStrike x.out s
    ∃ t, exec (.reiterationDue x.out) s = .next t ∧
      t.sched = { struck.sched with reiterations := before ++ { x with due := x.due + interval } :: after } ∧
      t.table = struck.table ∧ t.counters = struck.counters ∧ Only [.table, .sched, .ports, .counters] s t := by
  intro struck
  have found : s.sched.reiterations.find? (fun e => decide (e.out = x.out)) = some x := by
    rw [hq]
    exact find?_of_split (decide_eq_true rfl) fun y hy => decide_eq_false (others y hy)
  have struckOnly := requestStrike_only x.out s
  have rearmed := rearm_only x.out interval struck
  have kept : struck.sched.reiterations = s.sched.reiterations := requestStrike_reiterations x.out s
  have finished := finish_of_loadsHold_quiet hd ((loadsHold_requestStrike x.out s).trans (.of_same rearmed.mono rfl))
    (rearmed.links.trans struckOnly.links)
  refine ⟨finish false (rearm x.out interval struck), ?_, ?_, finished.table.trans rearmed.table, finished.counters.trans rearmed.counters,
    (struckOnly.mono.trans rearmed.mono).trans finished.mono⟩
  · show execReiterationDue x.out s = _
    unfold execReiterationDue
    rw [found, hi]
    dsimp only
    rw [if_pos due, requestStrike_rearm]
    rfl
  · refine finished.sched.trans (congrArg (fun r => { struck.sched with reiterations := r }) ?_)
    rw [kept, hq, map_of_split fun y hy => if_neg (others y hy), if_pos rfl]

theorem holdoverTimerExpiry_ends {d : DamperState} {before after : List DamperState} {expiry : Nat}
    (hq : s.sched.dampers = before ++ d :: after) (others : ∀ y ∈ before ++ after, y.source ≠ d.source)
    (hh : d.holdover = some expiry) (due : expiry ≤ s.now) :
    ∃ t, exec (.holdoverTimerExpiry d.source) s = .next t ∧
      t.sched.dampers = before ++ { d with holdover := none } :: after ∧
      (d.sounding = 0 → t.damperDemand d.source = false) ∧
      t.sched.reiterations = s.sched.reiterations ∧ (∀ x ∈ t.sched.queue, x ∈ s.sched.queue) ∧ CountedOnly [15] s t ∧
      Only [.table, .sched, .ports, .counters] s t := by
  have found : s.sched.dampers.find? (fun x => decide (x.source = d.source)) = some d := by
    rw [hq]
    exact find?_of_split (decide_eq_true rfl) fun y hy => decide_eq_false (others y hy)
  have ends := modDamper_only s d.source fun x => { x with holdover := none }
  have dampers : (s.modDamper d.source fun x => { x with holdover := none }).sched.dampers = before ++ { d with holdover := none } :: after := by
    unfold State.modDamper
    dsimp only
    rw [hq, map_of_split fun y hy => if_neg (others y hy), if_pos rfl]
  have served := queueServed_finish false (s.modDamper d.source fun x => { x with holdover := none })
  have finished := finish_only_of_quiet hd false ends.links
  have after' := served.dampers.trans dampers
  refine ⟨finish false (s.modDamper d.source fun x => { x with holdover := none }), ?_, after', fun silent => ?_,
    served.reiterations, served.2, (CountedOnly.of_counters ends.counters).trans (finish_counted false _),
    (ends.mono.trans finished.mono)⟩
  · show execHoldoverTimerExpiry d.source s = _
    unfold execHoldoverTimerExpiry
    rw [found]
    dsimp only
    rw [hh]
    exact if_pos (decide_eq_true due)
  · unfold State.damperDemand
    rw [after', List.any_eq_false]
    intro y hy
    rcases List.mem_append.1 hy with h | h
    · simp [others y (List.mem_append_left _ h)]
    · rcases List.mem_cons.1 h with rfl | h
      · simp [silent]
      · simp [others y (List.mem_append_right _ h)]

end

/-- Settles O59. -/
theorem queuedStrikesReiterationsAndHoldoversEndOnTime : Obligations.QueuedStrikesReiterationsAndHoldoversEndOnTime := fun _ hd =>
  ⟨fun _ _ _ => deferralLimitExpiry_discards hd, fun _ _ _ _ => reiterationDue_rearms hd, fun _ _ _ _ => holdoverTimerExpiry_ends hd⟩

/-! ## Tremulant phases and chamber stages -/

theorem modify_eq_set_getD {α : Type} {xs : List α} {i : Nat} (h : i < xs.length) (f : α → α) (d : α) :
    xs.modify i f = xs.set i (f (xs[i]?.getD d)) := by
  rw [List.getElem?_eq_getElem h, Option.getD_some]
  refine List.ext_getElem? fun k => ?_
  rw [List.getElem?_modify, List.getElem?_set]
  by_cases e : i = k
  · subst e
    simp [h]
  · rw [if_neg e]
    cases xs[k]? <;> simp [e]

theorem State.generators_modGenerator {s : State} {j : Nat} (h : j < s.generators.length) (f : Generator → Generator) :
    (s.modGenerator j f).generators = s.generators.set j (f (s.generator j)) := modify_eq_set_getD h f _

theorem State.chambers_modChamber {s : State} {c : Nat} (h : c < s.shutters.chambers.length) (f : ChamberState → ChamberState) :
    (s.modChamber c f).shutters = { s.shutters with chambers := s.shutters.chambers.set c (f (s.chamberState c)) } :=
  congrArg (fun x => { s.shutters with chambers := x }) (modify_eq_set_getD h f _)

/-- What turning a generator's phase leaves at the end of the event. -/
theorem modGenerator_turned {s : State} (hd : Done s) {j : Nat} (h : j < s.generators.length) (f : Generator → Generator) :
    let t := finish false (s.modGenerator j f)
    t.generators = s.generators.set j (f (s.generator j)) ∧ CountedOnly [15] s t ∧
      Only [.table, .sched, .generators, .ports, .counters] s t := by
  have turned := modGenerator_only s j f
  have finished := finish_only_of_quiet hd false turned.links
  exact ⟨finished.generators.trans (State.generators_modGenerator h f), (CountedOnly.of_counters turned.counters).trans (finish_counted false _),
    turned.mono.trans finished.mono⟩

/-- A port that stands settled has no load admitted beside its computed one (R121). -/
theorem Settled.admitted {s : State} (hs : Settled s) {p : Nat} {pt : Port} (hp : s.ports[p]? = some pt) : pt.admitted = 0 := by
  have settled := congrArg Port.admitted (hs.port hp)
  unfold settlePort at settled
  split at settled <;> exact settled.symm

/-- An opening is admitted where the part stands settled: nothing has been admitted before it in the event (R113). -/
theorem openingAdmitted_iff_of_settled {s : State} (hs : Settled s) (o : Outlet) : s.openingAdmitted o = true ↔
    ∃ pt e, s.ports[o.port]? = some pt ∧ s.portEntry o.port = some e ∧ pt.state = .active ∧ s.supply.state = .good ∧
      pt.load + o.load ≤ e.budget := by
  unfold State.openingAdmitted
  rw [Bool.and_eq_true, Bool.and_eq_true, State.loadFits_iff]
  have good : s.supplyGood = true ↔ s.supply.state = .good := decide_eq_true_iff
  rw [good]
  constructor
  · rintro ⟨⟨active, supply⟩, pt, e, hp, he, fits⟩
    unfold State.portActive at active
    rw [hp] at active
    rw [Settled.admitted hs hp] at fits
    exact ⟨pt, e, hp, he, of_decide_eq_true active, supply, fits⟩
  · rintro ⟨pt, e, hp, he, active, supply, fits⟩
    refine ⟨⟨?_, supply⟩, pt, e, hp, he, by rw [Settled.admitted hs hp]; exact fits⟩
    unfold State.portActive
    rw [hp]
    exact decide_eq_true active

section
variable {s : State} {c stages channel : Nat} {o : Outlet} {interval : Option Nat} (h : s.chamber c = some (.enclosed stages o channel interval))
include h

/-- The four ways of a chamber's step (R113). -/
theorem stepChamber_rests (ht : (s.chamberState c).current = stageTarget (s.channel channel) stages) : stepChamber c s = s := by
  unfold stepChamber
  rw [h]
  dsimp only
  rw [if_neg (by omega), if_neg (by omega)]

theorem stepChamber_closes (ht : stageTarget (s.channel channel) stages < (s.chamberState c).current) :
    stepChamber c s = s.modChamber c fun _ => { current := (s.chamberState c).current - 1, timer := some (s.now + interval.getD 0) } := by
  unfold stepChamber
  rw [h]
  dsimp only
  rw [if_neg (by omega), if_pos ht]

theorem stepChamber_opens (ht : (s.chamberState c).current < stageTarget (s.channel channel) stages) (ho : s.openingAdmitted o = true) :
    stepChamber c s =
      (s.modChamber c fun _ => { current := (s.chamberState c).current + 1, timer := some (s.now + interval.getD 0) }).addLoad o.port o.load := by
  unfold stepChamber
  rw [h]
  dsimp only
  rw [if_pos ht, if_pos ho]

theorem stepChamber_waits (ht : (s.chamberState c).current < stageTarget (s.channel channel) stages) (ho : ¬s.openingAdmitted o = true) :
    stepChamber c s = s.modChamber c fun _ => { current := (s.chamberState c).current, timer := some (s.now + interval.getD 0) } := by
  unfold stepChamber
  rw [h]
  dsimp only
  rw [if_pos ht, if_neg ho]

end

/-- What a chamber's step leaves at the end of the event, whatever load it admitted. -/
theorem stageTimer_stands {s u : State} (hd : Done s) {c : Nat} {x : ChamberState} (only : Only [.shutters, .ports] s u)
    (shutters : u.shutters = { s.shutters with chambers := s.shutters.chambers.set c x }) :
    let t := finish false u
    t.shutters = { s.shutters with chambers := s.shutters.chambers.set c x } ∧ CountedOnly [15] s t ∧
      Only [.table, .sched, .shutters, .ports, .counters] s t := by
  have finished := finish_only_of_quiet hd false only.links
  exact ⟨finished.shutters.trans shutters, (CountedOnly.of_counters only.counters).trans (finish_counted false _), only.mono.trans finished.mono⟩

/-- Settles O60. -/
theorem tremulantsAlternateAndChambersStepToTheirTargets : Obligations.TremulantsAlternateAndChambersStepToTheirTargets := by
  intro s expiry hd due
  refine ⟨fun j x hj hx => ⟨fun phase => ?_, fun phase => ?_⟩, fun c stages o channel interval hc hch timer =>
    ?_⟩
  · refine ⟨_, ?_, modGenerator_turned hd hj fun g => { g with phase := .closed (s.now + x.closedTime) }⟩
    show execPhaseTimerExpiry j s = _
    unfold execPhaseTimerExpiry
    rw [phase, hx]
    exact if_pos due
  · refine ⟨_, ?_, modGenerator_turned hd hj fun g => { g with phase := .opened (s.now + x.openTime) }⟩
    show execPhaseTimerExpiry j s = _
    unfold execPhaseTimerExpiry
    rw [phase, hx]
    exact if_pos due
  · have runs : exec (.stageTimerExpiry c) s = .next (finish false (stepChamber c (s.modChamber c fun x => { x with timer := none }))) := by
      show execStageTimerExpiry c s = _
      unfold execStageTimerExpiry
      rw [timer]
      exact if_pos (decide_eq_true due)
    have shut := State.chamberState_modChamber s c c (fun x => { x with timer := none }) fun _ => hc
    rw [if_pos rfl] at shut
    have emptied := modChamber_only s c fun x => { x with timer := none }
    have stopped := State.chambers_modChamber hc fun x => { x with timer := none }
    have entry : (s.modChamber c fun x => { x with timer := none }).chamber c = some (.enclosed stages o channel (some interval)) := hch
    have admits := openingAdmitted_iff_of_settled hd.settled o
    have rewritten : ∀ x, ((s.modChamber c fun x => { x with timer := none }).modChamber c fun _ => x).shutters =
        { s.shutters with chambers := s.shutters.chambers.set c x } := fun x => by
      rw [State.chambers_modChamber (by rw [stopped, List.length_set]; exact hc), stopped, List.set_set]
    have stood := (congrArg ChamberState.current shut)
    refine ⟨fun h => ?_, fun h => ?_, fun h hf => ?_, fun h hf => ?_⟩
    all_goals refine ⟨_, runs, stageTimer_stands hd (emptied.mono.trans (stepChamber_only c _).mono) ?_⟩
    · rw [stepChamber_rests entry (stood.trans h)]
      exact stopped
    · rw [stepChamber_closes entry (lt_of_lt_of_eq h stood.symm), rewritten, shut]
      rfl
    · rw [stepChamber_opens entry (lt_of_eq_of_lt stood h) (admits.2 hf)]
      refine (rewritten _).trans ?_
      rw [shut]
      rfl
    · rw [stepChamber_waits entry (lt_of_eq_of_lt stood h) (mt admits.1 hf), rewritten, shut]
      rfl

end Sys2Proof.Machine
end

