-- ==== Sys2Proof/Proofs/DriveSwitching.lean ====
section
/-! PROOF. The drive ports and the supply (07): port commands (R129, R130), overload detection and trips (R123 to R126), the supply monitor (R132,
R133), and what of the strikes each of them ends (04 R75). -/

namespace Sys2Proof.Machine

-- One theorem after another, so that the compile needs few threads.
set_option Elab.async false

/-! ## One port rewritten -/

theorem State.ports_modPort (s : State) (p : Nat) (f : Port → Port) (n : Nat) :
    (s.modPort p f).ports[n]? = if n = p then (s.ports[n]?).map f else s.ports[n]? := by
  unfold State.modPort
  rw [List.getElem?_modify]
  by_cases h : n = p
  · simp [h]
  · simp [h, Ne.symm h]

theorem State.modPort_of_same {s : State} {p : Nat} {f : Port → Port} (h : ∀ pt, f pt = pt) : s.modPort p f = s := by
  have same : f = id := funext h
  unfold State.modPort
  rw [same, List.modify_id]

theorem State.modPort_modPort (s : State) (p : Nat) (f g : Port → Port) : (s.modPort p f).modPort p g = s.modPort p fun pt => g (f pt) := by
  unfold State.modPort
  rw [List.modify_modify_eq]
  rfl

theorem State.modPort_eq_set {s : State} {p : Nat} {pt : Port} (h : s.ports[p]? = some pt) (f : Port → Port) :
    s.modPort p f = { s with ports := s.ports.set p (f pt) } := by
  obtain ⟨hlt, -⟩ := List.getElem?_eq_some_iff.1 h
  unfold State.modPort
  rw [modify_eq_set_getD hlt f pt, h]
  rfl

/-- The detect timer that a port starts where its three conditions hold together (R123). -/
def State.detecting (s : State) (p : Nat) (pt : Port) : Option Nat :=
  if pt.state = .active ∧ pt.overload = true ∧ s.supply.state = .good ∧ pt.detect = none then (s.portEntry p).map fun e => s.now + e.detect
  else pt.detect

theorem startDetect_eq (p : Nat) (s : State) : startDetect p s = s.modPort p fun pt => { pt with detect := s.detecting p pt } := by
  unfold startDetect
  cases hp : s.portEntry p with
  | none =>
    refine (State.modPort_of_same fun pt => ?_).symm
    unfold State.detecting
    split
    next h => rw [hp, Option.map_none, ← h.2.2.2]
    · rfl
  | some e =>
    dsimp only
    by_cases good : s.supply.state = .good
    · rw [if_pos (show s.supplyGood = true from decide_eq_true good)]
      congr 1
      funext pt
      unfold State.detecting
      by_cases h : pt.state = .active ∧ pt.overload = true ∧ pt.detect = none
      · rw [if_pos h, if_pos ⟨h.1, h.2.1, good, h.2.2⟩, hp]
        rfl
      · rw [if_neg h, if_neg fun k => h ⟨k.1, k.2.1, k.2.2.2⟩]
    · rw [if_neg (show ¬s.supplyGood = true from mt of_decide_eq_true good)]
      refine (State.modPort_of_same fun pt => ?_).symm
      unfold State.detecting
      rw [if_neg fun k => good k.2.2.1]

/-- The ports stay settled where only over indications, timers and a LOW supply's dwell change. -/
theorem Settled.of_detection {s t : State} {f : Nat → Port → Port} (hs : Settled s) (only : Only [.ports, .supply, .links, .counters] s t)
    (supply : t.supply.state = s.supply.state) (ports : ∀ n : Nat, t.ports[n]? = (s.ports[n]?).map (f n))
    (hf : ∀ n pt, ∃ o d, f n pt = { pt with overload := o, detect := d }) : Settled t := by
  have settles : ∀ n pt o d, settlePort t n { pt with overload := o, detect := d } =
      { settlePort s n pt with overload := o, detect := d } := fun n pt o d => by
    unfold settlePort State.demanding State.demands State.recordLoad State.supplyGood State.damperDemand State.chamberState
      State.generator State.source State.chamber State.tremulant
    rw [only.table, only.sched, only.store, only.shutters, only.generators, supply]
    by_cases h : pt.state = .active ∧ decide (s.supply.state = .good) = true
    · rw [if_pos h, if_pos h]
    · rw [if_neg h, if_neg h]
  have same : t.ports.mapIdx (settlePort t) = t.ports := List.ext_getElem? fun n => by
    rw [List.getElem?_mapIdx, ports n]
    cases hp : s.ports[n]? with
    | none => rfl
    | some pt =>
      obtain ⟨o, d, e⟩ := hf n pt
      rw [Option.map_some, Option.map_some, e, settles, hs.port hp]
  exact congrArg (fun x => { t with ports := x }) same

/-- A port that does not drive, or whose supply is LOW, stands settled with nothing energized and no load (R120, R121). -/
theorem Settled.idlePort {s : State} (hs : Settled s) {p : Nat} {pt : Port} (hp : s.ports[p]? = some pt)
    (h : ¬(pt.state = .active ∧ s.supply.state = .good)) : pt = { pt with energized := [], load := 0, admitted := 0 } := by
  have settled := hs.port hp
  unfold settlePort at settled
  rw [if_neg fun k => h ⟨k.1, of_decide_eq_true k.2⟩] at settled
  exact settled.symm

theorem Port.cleared_of_marks {q r : Port} (h : q.marks = r.marks) :
    { q with energized := [], load := 0, admitted := 0 } = { r with energized := [], load := 0, admitted := 0 } := by
  cases q
  cases r
  simp only [Port.marks, Prod.mk.injEq] at h
  obtain ⟨rfl, rfl, rfl, rfl, rfl⟩ := h
  rfl

/-- Where an event's effect stands as settled, and an idle transmitter had nothing to send, its end changes nothing. -/
theorem Done.event {s u : State} (hd : Done s) (hs : Settled u) (links : u.links = s.links) : finish false u = u :=
  finish_of_done ⟨hs, fun l => by rw [State.link_of_links links]; exact hd.quiet l⟩

/-! ## Strikes dropped (R75) -/

theorem dropStrikes_sched (reached : Addr → Bool) (s : State) :
    (dropStrikes reached s).sched = { s.sched with queue := s.sched.queue.filter fun e => !reached e.out } := rfl

theorem dropStrikes_raised (reached : Addr → Bool) (s : State) :
    Raised (s.sched.queue.filter fun e => reached e.out).length .strikesShed s (dropStrikes reached s) := bumpBy_raised _ _ _

theorem dropStrikes_counted (reached : Addr → Bool) (s : State) : CountedOnly [17] s (dropStrikes reached s) :=
  fun i hi => bumpBy_counted s _ .strikesShed i hi

/-- A stroke that runs on after the strikes were dropped is on an output that the loss did not reach. -/
theorem dropStrikes_striking {s : State} (timed : StrokesTimed s) (reached : Addr → Bool) {r : Record} (hr : r ∈ (dropStrikes reached s).table)
    {expiry : Nat} (hs : r.stroke = some (.striking expiry)) : ∃ a, r.target = .output a ∧ reached a = false := by
  obtain ⟨r', hr', rfl⟩ := List.mem_map.1 hr
  have target : (cutRecord (shedQueued reached s) reached r').target = r'.target := by rw [cutRecord_eq]
  have timedShed : r'.stroke ≠ none → ((shedQueued reached s).strikeTimes r').isSome = true ∧ ∃ a, r'.target = .output a := timed r' hr'
  have struck : r'.stroke ≠ none := fun h => by
    unfold cutRecord at hs
    split at hs
    next hk _ => rw [h] at hk; cases hk
    · rw [h] at hs; cases hs
  obtain ⟨-, a, ha⟩ := timedShed struck
  refine ⟨a, target.trans ha, Bool.eq_false_iff.2 fun reaches => ?_⟩
  refine cutRecord_not_striking timedShed (fun b hb => ?_) expiry hs
  rw [ha] at hb
  exact (Target.output.inj hb) ▸ reaches

theorem dropStrikes_stroke {s : State} (timed : StrokesTimed s) {reached : Addr → Bool} {a : Addr} (h : reached a = true) (expiry : Nat) :
    (dropStrikes reached s).stroke a ≠ some (.striking expiry) := by
  intro hs
  obtain ⟨r, hr, hk⟩ := Option.bind_eq_some_iff.1 hs
  obtain ⟨member, target⟩ := State.mem_of_record hr
  obtain ⟨b, hb, unreached⟩ := dropStrikes_striking timed reached member hk
  rw [Target.output.inj (target.symm.trans hb)] at h
  exact Bool.false_ne_true (unreached.symm.trans h)

/-! ## Outputs that no port drives -/

theorem State.drivable_of_marks {s t : State} (marks : MarksKept s t) (supply : t.supply = s.supply) (a : Addr) : t.drivable a = s.drivable a := by
  have active : t.portActive a.port = s.portActive a.port := by
    have m := marks a.port
    unfold State.portActive
    cases hs : s.ports[a.port]? with
    | none =>
      rw [hs, Option.map_none, Option.map_eq_none_iff] at m
      rw [m]
    | some pt =>
      rw [hs] at m
      obtain ⟨q, hq, e⟩ := Option.map_eq_some_iff.1 m
      rw [hq]
      exact congrArg (fun x => decide (x = PortState.active)) (Prod.mk.inj e).1
  unfold State.drivable State.supplyGood
  rw [active, supply]

/-- No stroke starts where the port does not drive (R68, R72). -/
theorem serveEntry_undrivable {s : State} {a : Addr} (h : s.drivable a = false) (e : QueuedStrike) :
    (serveEntry s e).stroke a = s.stroke a ∧ (serveEntry s e).drivable a = false := by
  refine ⟨?_, (State.drivable_of_marks (relayed_marksKept.serveEntry s e) (serveEntry_only s e).supply a).trans h⟩
  unfold serveEntry
  split
  next starts =>
    have apart : a ≠ e.out := fun k => by
      rw [← k, h] at starts
      exact Bool.false_ne_true starts
    exact startStroke_stroke_of_ne apart
  · rfl

theorem finish_undrivable {s : State} {a : Addr} (h : s.drivable a = false) (serve : Bool) : (finish serve s).stroke a = s.stroke a := by
  have served : ∀ (q : List QueuedStrike) (u : State), u.drivable a = false →
      (q.foldl serveEntry u).stroke a = u.stroke a ∧ (q.foldl serveEntry u).drivable a = false := fun q => by
    induction q with
    | nil => exact fun u hu => ⟨rfl, hu⟩
    | cons e q ih =>
      intro u hu
      obtain ⟨same, still⟩ := serveEntry_undrivable hu e
      obtain ⟨rest, last⟩ := ih _ still
      exact ⟨rest.trans same, last⟩
  have settled : (settle s).drivable a = false := (State.drivable_of_marks (marksKept_settle s) rfl a).trans h
  have ended : (settleAndServe serve s).stroke a = s.stroke a := by
    unfold settleAndServe
    split
    · exact (served (settle s).sched.queue (settle s) settled).1
    · rfl
  exact (State.stroke_of_table ((beginTransmission_only .one _).trans (beginTransmission_only .two _)).table a).trans ended

/-! ## A port that stops driving -/

section
variable {s v u : State} {p : Nat} {pt : Port} {f : Port → Port} (hv : Only [.ports, .links, .counters] s v)
  (ports : ∀ n : Nat, v.ports[n]? = if n = p then (s.ports[n]?).map f else s.ports[n]?)
  (hp : s.ports[p]? = some pt) (off : (f pt).state ≠ .active) (hu : Only [.links] (dropStrikes (onPort p) v) u)

include ports hp off hu in
/-- What the end of the event leaves at a port that stops driving and at the others (R75, R120, R125). -/
theorem stoppedPort_ports (serve : Bool) :
    (finish serve u).ports[p]? = some { f pt with energized := [], load := 0, admitted := 0 } ∧
      ∀ n : Nat, n ≠ p → ((finish serve u).ports[n]?).map Port.marks = (s.ports[n]?).map Port.marks := by
  have before : ∀ n : Nat, u.ports[n]? = v.ports[n]? := fun n => by rw [hu.ports, (dropStrikes_only _ v).ports]
  have marks := relayed_marksKept.finish (by decide) serve u
  refine ⟨?_, fun n hn => by rw [marks n, before n, ports n, if_neg hn]⟩
  have here := marks p
  rw [before p, ports p, if_pos rfl, hp] at here
  obtain ⟨q, hq, e⟩ := Option.map_eq_some_iff.1 here
  have settled : Settled (finish serve u) :=
    (settled_settleAndServe serve u).of_only ((beginTransmission_only .one _).mono.trans (beginTransmission_only .two _).mono)
  have state : q.state = (f pt).state := (Prod.mk.inj e).1
  rw [hq, settled.idlePort hq fun k => off (state.symm.trans k.1), Port.cleared_of_marks e]

include hu in
theorem stoppedPort_queue (serve : Bool) : ∀ x ∈ (finish serve u).sched.queue, x.out.port ≠ p := by
  intro x hx
  have left := (queueServed_finish serve u).2 x hx
  rw [hu.sched] at left
  simpa [onPort] using (List.mem_filter.1 left).2

include hv ports hp off hu in
theorem stoppedPort_strokes (timed : StrokesTimed s) (serve : Bool) (a : Addr) (expiry : Nat) (ha : a.port = p) :
    (finish serve u).stroke a ≠ some (.striking expiry) := by
  have still : u.drivable a = false := by
    unfold State.drivable State.portActive
    rw [hu.ports, (dropStrikes_only _ v).ports, ha, ports p, if_pos rfl, hp]
    exact Bool.and_eq_false_iff.2 (.inl (decide_eq_false off))
  have timedThere : StrokesTimed v := fun r hr hs => by
    rw [hv.table] at hr
    unfold State.strikeTimes State.source
    rw [hv.store]
    exact timed r hr hs
  rw [finish_undrivable still, State.stroke_of_table hu.table]
  exact dropStrikes_stroke timedThere (decide_eq_true ha) expiry

include hv hu in
theorem stoppedPort_shed (serve : Bool) :
    Raised (s.sched.queue.filter fun x => decide (x.out.port = p)).length .strikesShed v (finish serve u) ∧
      CountedOnly [15, 17] v (finish serve u) := by
  have shed := dropStrikes_raised (onPort p) v
  rw [hv.sched] at shed
  have ended : CountedOnly [15] (dropStrikes (onPort p) v) (finish serve u) := (CountedOnly.of_counters hu.counters).trans (finish_counted serve u)
  exact ⟨shed.counted ended (by decide), ((dropStrikes_counted _ v).mono (by simp)).trans (ended.mono (by simp))⟩

end

/-! ## Overload detection and trips (R123 to R125) -/

/-- The trips that a port remembers after one more (R124). -/
def Port.tripHistory (now : Nat) (e : PortEntry) (pt : Port) : List Nat := prunedHistory now e.window pt.history ++ [now]

/-- The trip locks its port (R124). -/
def Port.locks (now : Nat) (e : PortEntry) (pt : Port) : Bool := decide (e.lockout ≤ (pt.tripHistory now e).length)

/-- What a trip makes of its port (R124). -/
def Port.tripped (now : Nat) (e : PortEntry) (pt : Port) : Port :=
  { pt with
    state := if pt.locks now e then .locked else .tripped
    detect := none
    off := if pt.locks now e then none else some (now + e.off)
    history := pt.tripHistory now e }

theorem Port.tripped_inactive (now : Nat) (e : PortEntry) (pt : Port) : (pt.tripped now e).state ≠ .active := by
  unfold Port.tripped
  dsimp only
  split <;> exact fun h => nomatch h

/-- The notice of a trip (R125). -/
def tripNotice (p now : Nat) (e : PortEntry) (pt : Port) : Notice :=
  if pt.locks now e then .portLocked p (pt.tripHistory now e).length else .portTripped p (pt.tripHistory now e).length

/-- The count of a trip, and of a lockout (R124). -/
def tripCounted (p : Nat) (locks : Bool) (s : State) : State :=
  if locks then (s.bump (.portTrips p)).bump .lockouts else s.bump (.portTrips p)

theorem tripCounted_only (p : Nat) (locks : Bool) (s : State) : Only [.counters] s (tripCounted p locks s) :=
  Only.ite ((bump_only _ _).trans (bump_only _ _)) (bump_only _ _)

theorem lockouts_ne_portTrips {p : Nat} (h : p < 8) : Counter.lockouts.index ≠ (Counter.portTrips p).index := by
  show 29 ≠ 21 + p
  omega

theorem tripCounted_trips {p : Nat} (h : p < 8) (locks : Bool) (s : State) : Raised 1 (.portTrips p) s (tripCounted p locks s) := by
  have once : Raised 1 (.portTrips p) s (s.bump (.portTrips p)) := bumpBy_raised _ _ _
  unfold tripCounted
  split
  · exact once.counted (bumpBy_counted _ 1 .lockouts) (by simpa using (lockouts_ne_portTrips h).symm)
  · exact once

theorem tripCounted_lockouts {p : Nat} (h : p < 8) (locks : Bool) (s : State) :
    Raised (if locks then 1 else 0) .lockouts s (tripCounted p locks s) := by
  have apart : Counter.lockouts.index ∉ [(Counter.portTrips p).index] := by simpa using lockouts_ne_portTrips h
  cases locks with
  | true => exact Raised.of_counted (bumpBy_counted s 1 (.portTrips p)) (bumpBy_raised (s.bump (.portTrips p)) 1 .lockouts) apart
  | false => exact .of_counted_only (bumpBy_counted s 1 (.portTrips p)) apart

theorem tripCounted_counted (p : Nat) (locks : Bool) (s : State) : CountedOnly [21 + p, 29] s (tripCounted p locks s) := by
  have once : CountedOnly [21 + p, 29] s (s.bump (.portTrips p)) := (bumpBy_counted s 1 (.portTrips p)).mono (by simp [Counter.index])
  unfold tripCounted
  split
  · exact once.trans ((bumpBy_counted _ 1 .lockouts).mono (by simp [Counter.index]))
  · exact once

/-- The port and the counters of a trip. -/
def trippedPart (p : Nat) (e : PortEntry) (pt : Port) (s : State) : State :=
  { tripCounted p (pt.locks s.now e) s with ports := s.ports.set p (pt.tripped s.now e) }

theorem trippedPart_only (p : Nat) (e : PortEntry) (pt : Port) (s : State) : Only [.ports, .counters] s (trippedPart p e pt s) :=
  (tripCounted_only p (pt.locks s.now e) s).mono.trans (ports_only _ fun _ => s.ports.set p (pt.tripped s.now e)).mono

theorem trippedPart_ports {s : State} {p : Nat} {pt : Port} (hp : s.ports[p]? = some pt) (e : PortEntry) (n : Nat) :
    (trippedPart p e pt s).ports[n]? = if n = p then (s.ports[n]?).map fun _ => pt.tripped s.now e else s.ports[n]? := by
  show (s.ports.set p (pt.tripped s.now e))[n]? = _
  rw [List.getElem?_set]
  by_cases h : n = p
  · subst h
    obtain ⟨hlt, -⟩ := List.getElem?_eq_some_iff.1 hp
    rw [if_pos rfl, if_pos rfl, if_pos hlt, hp]
    rfl
  · rw [if_neg (Ne.symm h), if_neg h]

/-- A trip: its port, the counters, the notice and the strikes dropped (R124, R125, R75). -/
theorem tripPort_eq {s : State} {p : Nat} {pt : Port} (hp : s.ports[p]? = some pt) (e : PortEntry) :
    tripPort p e pt s = dropStrikes (onPort p) ((trippedPart p e pt s).notifyAll (tripNotice p s.now e pt)) := by
  have locks : pt.locks s.now e = decide (e.lockout ≤ (prunedHistory s.now e.window pt.history ++ [s.now]).length) := rfl
  unfold tripPort
  dsimp only
  rw [State.modPort_eq_set (s := s.bump (.portTrips p)) hp, State.modPort_eq_set (s := s.bump (.portTrips p)) hp]
  unfold trippedPart Port.tripped tripNotice tripCounted
  dsimp only
  split
  next h =>
    rw [locks, decide_eq_true h]
    rfl
  next h =>
    rw [locks, decide_eq_false h]
    rfl

/-- An event that rewrites a port's over indication and detect timer changes nothing else. -/
theorem Done.detection {s : State} (hd : Done s) {p : Nat} {pt : Port} (hp : s.ports[p]? = some pt) {f : Port → Port}
    (hf : ∀ q, ∃ o d, f q = { q with overload := o, detect := d }) :
    finish false (s.modPort p f) = { s with ports := s.ports.set p (f pt) } := by
  rw [hd.event (u := s.modPort p f) ?_ rfl, State.modPort_eq_set hp]
  refine hd.settled.of_detection (modPort_only s p f).mono rfl (f := fun n q => if n = p then f q else q) (fun n => ?_) fun n q => ?_
  · rw [State.ports_modPort]
    by_cases h : n = p <;> simp [h]
  · by_cases h : n = p
    · obtain ⟨o, d, e⟩ := hf q
      exact ⟨o, d, (if_pos h).trans e⟩
    · exact ⟨q.overload, q.detect, if_neg h⟩

theorem currentRising_detects {s : State} (hd : Done s) {p : Nat} {pt : Port} (hp : s.ports[p]? = some pt) :
    exec (.currentRising p) s = .next { s with ports := s.ports.set p { pt with
      overload := true
      detect := if pt.state = .active ∧ s.supply.state = .good ∧ pt.detect = none then
        (s.portEntry p).map fun e => s.now + e.detect else pt.detect } } := by
  have rises : startDetect p (s.modPort p fun pt => { pt with overload := true }) =
      s.modPort p fun pt => { pt with overload := true, detect := s.detecting p { pt with overload := true } } := by
    rw [startDetect_eq, State.modPort_modPort]
    rfl
  show Host.Outcome.next (finish false (startDetect p (s.modPort p fun pt => { pt with overload := true }))) = _
  rw [rises, hd.detection hp fun q => ⟨true, _, rfl⟩]
  unfold State.detecting
  simp only [true_and]

/-- An idle transmitter begins the one notice that an event tells (R168). -/
theorem Told.begun {l : Link} {n : Notice} {s t : State} (h : Told l [n] s t) (up : (s.link l).state = .up)
    (idle : (s.link l).transmitter = .idle) : ∃ frame, (t.link l).transmitter = .sending (.notice n) frame s.now := ((h up).1 idle).1

/-- Settles O56. -/
theorem overcurrentIsTimedAndTripsThePort : Obligations.OvercurrentIsTimedAndTripsThePort := by
  intro s p hd
  refine ⟨fun pt hp => ⟨currentRising_detects hd hp, congrArg _ (hd.detection hp fun q => ⟨false, none, rfl⟩)⟩,
    fun pt e expiry hlt timed hp he active detect due => ?_⟩
  intro history locked
  have runs : exec (.detectTimerExpiry p) s = .next (finish false (tripPort p e pt s)) := by
    show execDetectTimerExpiry p s = _
    unfold execDetectTimerExpiry
    rw [hp, he]
    exact if_pos ⟨by rw [detect]; exact decide_eq_true due, active⟩
  have part := trippedPart_only p e pt s
  have noticed := notifyAll_only (trippedPart p e pt s) (tripNotice p s.now e pt)
  have noticedCounted : CountedOnly [5, 12] _ _ := notifyAll_counted (tripNotice p s.now e pt) (trippedPart p e pt s)
  have tells := fun m => (Tells.of_only m part).trans (tells_notifyAll m (tripNotice p s.now e pt) (trippedPart p e pt s))
  have trips : Raised 1 (.portTrips p) s (trippedPart p e pt s) := tripCounted_trips hlt (pt.locks s.now e) s
  have lockouts : Raised (if pt.locks s.now e then 1 else 0) .lockouts s (trippedPart p e pt s) :=
    tripCounted_lockouts hlt (pt.locks s.now e) s
  have tripOnly : CountedOnly [21 + p, 29] s (trippedPart p e pt s) := tripCounted_counted p (pt.locks s.now e) s
  have ports : ∀ n : Nat, ((trippedPart p e pt s).notifyAll (tripNotice p s.now e pt)).ports[n]? =
      if n = p then (s.ports[n]?).map fun _ => pt.tripped s.now e else s.ports[n]? := fun n => by
    rw [noticed.ports, trippedPart_ports hp]
  refine ⟨_, runs, ?_⟩
  rw [tripPort_eq hp e]
  generalize trippedPart p e pt s = w at *
  generalize w.notifyAll (tripNotice p s.now e pt) = v at *
  have only : Only [.ports, .links, .counters] s v := part.mono.trans noticed.mono
  have off : ((fun _ : Port => pt.tripped s.now e) pt).state ≠ .active := pt.tripped_inactive s.now e
  have dropped := dropStrikes_only (onPort p) v
  obtain ⟨here, others⟩ := stoppedPort_ports ports hp off (Only.refl _ _) false
  obtain ⟨shed, shedOnly⟩ := stoppedPort_shed only (Only.refl _ _) false
  have later : CountedOnly [5, 12, 15, 17] w (finish false (dropStrikes (onPort p) v)) :=
    (noticedCounted.mono (by simp)).trans (shedOnly.mono (by simp))
  refine ⟨?_, others, stoppedPort_queue (Only.refl _ _) false, stoppedPort_strokes only ports hp off (Only.refl _ _) timed false,
    trips.counted later ?_, ?_, ?_, fun l up idle => ?_, (only.mono.trans dropped.mono).trans (finish_only _ _).mono⟩
  · refine here.trans ?_
    simp only [Port.tripped, Port.locks, decide_eq_true_eq]
    rfl
  · show 21 + p ∉ [5, 12, 15, 17]
    simp
    omega
  · have locks : (if pt.locks s.now e then 1 else 0) = if locked then 1 else 0 := by
      simp only [Port.locks, decide_eq_true_eq]
      rfl
    rw [← locks]
    exact lockouts.counted later (by decide)
  · exact Raised.of_counted ((tripOnly.mono (by simp)).trans (noticedCounted.mono (by simp) : CountedOnly [21 + p, 29, 5, 12] w v)) shed
      (by show 17 ∉ [21 + p, 29, 5, 12]; simp; omega)
  · have told := finish_tells false ((tells l).trans (Tells.of_only l dropped)) (hd.quiet l) (by simp)
    have notice : tripNotice p s.now e pt = if locked then .portLocked p history.length else .portTripped p history.length := by
      simp only [tripNotice, Port.locks, decide_eq_true_eq]
      rfl
    rw [← notice]
    exact Told.begun told up idle

/-! ## Restorations (R126, R129) -/

/-- What a restoration makes of its port (R123, R126, R129). -/
def State.restored (s : State) (p : Nat) (history : List Nat) (pt : Port) : Port :=
  let active : Port := { pt with state := .active, off := none, history := history }
  { active with detect := s.detecting p active }

theorem restorePort_eq (p : Nat) (history : List Nat) (s : State) :
    restorePort p history s = (s.modPort p (s.restored p history)).notifyAll (.portRestored p history.length) := by
  unfold restorePort
  rw [startDetect_eq, State.modPort_modPort]
  rfl

/-- A restored port, in terms of what it was. -/
theorem restored_of_marks {s t : State} {p : Nat} {history : List Nat} {pt : Port}
    (h : (t.ports[p]?).map Port.marks = some (s.restored p history pt).marks) : ∃ q, t.ports[p]? = some q ∧ q.state = .active ∧
      q.history = history ∧ q.off = none ∧ q.overload = pt.overload ∧
      (pt.detect = none → q.detect = if s.supply.state = .good then (if pt.overload then (s.portEntry p).map fun e => s.now + e.detect else none)
        else none) := by
  obtain ⟨q, hq, e⟩ := Option.map_eq_some_iff.1 h
  simp only [Port.marks, State.restored, Prod.mk.injEq] at e
  obtain ⟨state, hist, detect, off, overload⟩ := e
  refine ⟨q, hq, state, hist, off, overload, fun undetected => ?_⟩
  rw [detect]
  unfold State.detecting
  dsimp only
  rw [undetected]
  by_cases good : s.supply.state = .good
  · by_cases loud : pt.overload = true
    · rw [if_pos ⟨rfl, loud, good, rfl⟩, if_pos good, if_pos loud]
    · rw [if_neg fun k => loud k.2.1, if_pos good, if_neg loud]
  · rw [if_neg fun k => good k.2.2.1, if_neg good]

/-- What a restoration leaves at the ports when the event ends. -/
theorem restorePort_ports {s u : State} {p : Nat} {pt : Port} (hp : s.ports[p]? = some pt) (history : List Nat)
    (hu : Only [.links] (restorePort p history s) u) (serve : Bool) :
    ((finish serve u).ports[p]?).map Port.marks = some (s.restored p history pt).marks ∧
      ∀ n : Nat, n ≠ p → ((finish serve u).ports[n]?).map Port.marks = (s.ports[n]?).map Port.marks := by
  have ports : ∀ n : Nat, u.ports[n]? = if n = p then (s.ports[n]?).map (s.restored p history) else s.ports[n]? := fun n => by
    rw [hu.ports, restorePort_eq, (notifyAll_only _ _).ports, State.ports_modPort]
  have marks := relayed_marksKept.finish (by decide) serve u
  refine ⟨?_, fun n hn => by rw [marks n, ports n, if_neg hn]⟩
  rw [marks p, ports p, if_pos rfl, hp]
  rfl

theorem tells_restorePort (m : Link) (p : Nat) (history : List Nat) (s : State) :
    Tells m [.portRestored p history.length] s (restorePort p history s) := by
  rw [restorePort_eq]
  exact (Tells.of_only m (modPort_only s p _)).trans (tells_notifyAll m _ _)

theorem restorePort_facing (m : Link) (p : Nat) (history : List Nat) (s : State) :
    ((restorePort p history s).link m).facing = (s.link m).facing := by
  rw [restorePort_eq, notifyAll_facing]
  rfl

/-- What PORT DISABLE makes of its port (R130). -/
def Port.disabled (pt : Port) : Port := { pt with state := .off, detect := none, off := none, history := [] }

/-! ## The port commands (R129, R130) -/

theorem State.namedPort_of_some {s : State} {p : Byte} {e : PortEntry} (hp : p.toNat < 8) (h : s.portEntry p.toNat = some e) :
    s.namedPort [p] = some p.toNat := by
  have read : readPortNumber [p] = some p.toNat := field1_eq_some.2 ⟨rfl, Nat.zero_le _, by omega⟩
  unfold State.namedPort
  rw [read, Option.bind_some, h]
  rfl

theorem State.namedPort_of_none {s : State} {p : Byte} (h : 8 ≤ p.toNat ∨ s.portEntry p.toNat = none) : s.namedPort [p] = none := by
  unfold State.namedPort
  cases hr : readPortNumber [p] with
  | none => rfl
  | some n =>
    obtain ⟨rfl, -, hn⟩ := field1_eq_some.1 (show field1 0 7 p = some n from hr)
    rcases h with h | h
    · omega
    · rw [Option.bind_some, h]
      rfl

/-- Settles O55. -/
theorem portRestoreAndPortDisableActOnTheirPort : Obligations.PortRestoreAndPortDisableActOnTheirPort := by
  intro l s tag p hd timed ready
  have gate : Gate.ready.refusal s.engine = none := by rw [ready]; rfl
  have taken := takeHead_only l s
  have named : (takeHead l s).namedPort [p] = s.namedPort [p] := by
    unfold State.namedPort State.portEntry
    rw [taken.store]
  refine ⟨fun bad => ⟨fun hw => ?_, fun hw => ?_⟩, fun pt e hlt he hp => ?_⟩
  · dsimp only [exec, execPortRestore]
    exact takeCommand_refuses hw gate (by rw [named, State.namedPort_of_none bad]) hd.settled
  · dsimp only [exec, execPortDisable]
    exact takeCommand_refuses hw gate (by rw [named, State.namedPort_of_none bad]) hd.settled
  · have known := named.trans (State.namedPort_of_some hlt he)
    have there : (takeHead l s).ports[p.toNat]? = some pt := by rw [taken.ports]; exact hp
    have state : (takeHead l s).portState p.toNat = pt.state := by
      unfold State.portState
      rw [there]
      rfl
    refine ⟨fun hw active => ?_, fun hw idle => ?_, fun hw off => ?_, fun hw on => ?_⟩
    · dsimp only [exec, execPortRestore]
      exact takeCommand_acted (a := { state := takeHead l s, code := .ok }) hw gate (by rw [known]; dsimp only; rw [state, active]) rfl rfl rfl
        taken rfl rfl hd.settled
    · have only := restorePort_only p.toNat [] (takeHead l s)
      have added : Only [.links] _ (addReply l tag Kind.portRestore .ok [] (restorePort p.toNat [] (takeHead l s))) := addReply_only _ _ _ _ _ _
      obtain ⟨here, others⟩ := restorePort_ports there [] added true
      have took := (Took.of_facing (s := s) fun m => restorePort_facing m p.toNat [] (takeHead l s)).addPlace (okPlace tag 0x50 [])
      have told := answered_tells hd true (fun m => tells_restorePort m p.toNat [] (takeHead l s)) (by simp) tag Kind.portRestore .ok []
      dsimp only [exec, execPortRestore]
      refine ⟨_, takeCommand_answers (u := restorePort p.toNat [] (takeHead l s)) (serve := true) (code := .ok) (contents := []) hw gate ?_,
        took.finish true, ?_, fun n hn => ?_, told.1, told.2, ((taken.mono.trans only.mono).trans added.mono).trans (finish_only _ _).mono⟩
      · rw [known]
        dsimp only
        rw [state]
        cases hs : pt.state with
        | active => exact absurd hs idle
        | off | tripped | locked => rfl
      · have restored := restored_of_marks here
        unfold State.portEntry at restored he
        rw [taken.now, taken.supply, taken.store, he] at restored
        obtain ⟨q, hq, state, history, off, overload, detect⟩ := restored
        exact ⟨q, hq, state, history, off, overload, fun undetected => (detect undetected).trans (by
          by_cases good : s.supply.state = .good <;> by_cases loud : pt.overload = true <;> simp [good, loud])⟩
      · rw [← taken.ports]
        exact others n hn
    · dsimp only [exec, execPortDisable]
      exact takeCommand_acted (a := { state := takeHead l s, code := .ok }) hw gate (by rw [known]; dsimp only; rw [state, off]) rfl rfl rfl
        taken rfl rfl hd.settled
    · have part := modPort_only (takeHead l s) p.toNat Port.disabled
      have ports : ∀ n : Nat, ((takeHead l s).modPort p.toNat Port.disabled).ports[n]? =
          if n = p.toNat then (s.ports[n]?).map Port.disabled else s.ports[n]? := fun n => by
        rw [State.ports_modPort, taken.ports]
      have only : Only [.ports, .links, .counters] s ((takeHead l s).modPort p.toNat Port.disabled) := taken.mono.trans part.mono
      have added : Only [.links] (dropStrikes (onPort p.toNat) ((takeHead l s).modPort p.toNat Port.disabled))
        (addReply l tag Kind.portDisable .ok [] (disablePort p.toNat (takeHead l s))) := addReply_only _ _ _ _ _ _
      have dropped := dropStrikes_only (onPort p.toNat) ((takeHead l s).modPort p.toNat Port.disabled)
      have off : (Port.disabled pt).state ≠ .active := fun h => nomatch h
      obtain ⟨here, others⟩ := stoppedPort_ports ports hp off added false
      obtain ⟨shed, -⟩ := stoppedPort_shed only added false
      have took := (Took.of_takeHead (l := l) (s := s) (dropped.links.trans part.links)).addPlace (okPlace tag 0x51 [])
      have uncounted : CountedOnly [discards l] s ((takeHead l s).modPort p.toNat Port.disabled) :=
        (takeHead_counted l s).trans (.of_counters part.counters)
      dsimp only [exec, execPortDisable]
      refine ⟨_, takeCommand_answers (u := disablePort p.toNat (takeHead l s)) (serve := false) (code := .ok) (contents := []) hw gate ?_,
        took.finish false, here, others, stoppedPort_queue added false, fun a expiry ha => stoppedPort_strokes only ports hp off added timed false a expiry ha,
        Raised.of_counted uncounted shed ?_, ((only.mono.trans dropped.mono).trans added.mono).trans (finish_only _ _).mono⟩
      · rw [known]
        dsimp only
        rw [state]
        cases hs : pt.state with
        | off => exact absurd hs on
        | active | tripped | locked => rfl
      · cases l <;> decide

/-! ## Off timers and the supply (R126, R132, R133) -/

theorem foldl_startDetect_ports : ∀ (ps : List Nat) (s : State), ps.Nodup → ∀ n : Nat,
    (ps.foldl (fun u p => startDetect p u) s).ports[n]? =
      if n ∈ ps then (s.ports[n]?).map fun pt => { pt with detect := s.detecting n pt } else s.ports[n]?
  | [], _, _, _ => (if_neg List.not_mem_nil).symm
  | p :: ps, s, nodup, n => by
    obtain ⟨apart, rest⟩ := List.nodup_cons.1 nodup
    have only := startDetect_only p s
    have same : (startDetect p s).detecting n = s.detecting n := by
      funext pt
      unfold State.detecting State.portEntry
      rw [only.supply, only.store, only.now]
    have here : (startDetect p s).ports[n]? = if n = p then (s.ports[n]?).map fun pt => { pt with detect := s.detecting n pt } else s.ports[n]? := by
      rw [startDetect_eq, State.ports_modPort]
      by_cases h : n = p
      · rw [if_pos h, if_pos h, h]
      · rw [if_neg h, if_neg h]
    rw [List.foldl_cons, foldl_startDetect_ports ps _ rest n, here, same]
    by_cases h : n = p
    · subst h
      rw [if_neg apart, if_pos rfl, if_pos List.mem_cons_self]
    · by_cases hn : n ∈ ps
      · rw [if_pos hn, if_neg h, if_pos (List.mem_cons_of_mem _ hn)]
      · rw [if_neg hn, if_neg h, if_neg (by simp [h, hn])]

section
variable {s : State} (hd : Done s)
include hd

theorem offTimerExpiry_restores {p expiry : Nat} {pt : Port} (hp : s.ports[p]? = some pt) (tripped : pt.state = .tripped)
    (off : pt.off = some expiry) (due : expiry ≤ s.now) : ∃ t, exec (.offTimerExpiry p) s = .next t ∧
      ((t.ports[p]?).map Port.marks = some (s.restored p pt.history pt).marks) ∧
      (∀ l, Told l [.portRestored p pt.history.length] s t) ∧ Only [.links, .table, .sched, .ports, .counters] s t := by
  refine ⟨finish true (restorePort p pt.history s), ?_, (restorePort_ports hp pt.history (Only.refl _ _) true).1,
    fun l => finish_tells true (tells_restorePort l p pt.history s) (hd.quiet l) (by simp),
    (restorePort_only p pt.history s).mono.trans (finish_only _ _).mono⟩
  show execOffTimerExpiry p s = _
  unfold execOffTimerExpiry
  rw [hp]
  exact if_pos ⟨by rw [off]; exact decide_eq_true due, tripped⟩

/-- The supply as it stands below its threshold, and the detect timers cancelled (R132). -/
def supplyLost (s : State) : State := { s with supply := { state := .low, dwell := none }, ports := s.ports.map fun pt => { pt with detect := none } }

theorem supplyDropping_fails (good : s.supply.state = .good) (timed : StrokesTimed s) : ∃ t, exec .supplyDropping s = .next t ∧
    t.supply = { state := .low, dwell := none } ∧ t.sched = { s.sched with queue := [] } ∧
    (∀ r ∈ t.table, ∀ expiry, r.stroke ≠ some (.striking expiry)) ∧
    t.ports = s.ports.map (fun pt => { pt with energized := [], load := 0, detect := none, admitted := 0 }) ∧
    Raised s.sched.queue.length .strikesShed s t ∧ (∀ l, Told l [.supplyLow] s t) ∧
    Only [.links, .table, .sched, .ports, .supply, .counters] s t := by
  have lost : Only [.supply, .ports] s (supplyLost s) :=
    (supply_only s fun _ => { state := .low, dwell := none }).mono.trans (ports_only _ fun ps => ps.map fun pt => { pt with detect := none }).mono
  have dropped := dropStrikes_only (fun _ => true) (supplyLost s)
  have noticed := notifyAll_only (dropStrikes (fun _ => true) (supplyLost s)) .supplyLow
  have sched : (supplyFails s).sched = { s.sched with queue := [] } := by
    refine noticed.sched.trans ((dropStrikes_sched _ _).trans ?_)
    rw [lost.sched]
    simp
  have finished := finish_of_empty_queue (s := supplyFails s) (by rw [sched]) false
  have shed := dropStrikes_raised (fun _ => true) (supplyLost s)
  rw [lost.sched, List.filter_eq_self.2 fun _ _ => rfl] at shed
  have supply : (finish false (supplyFails s)).supply = { state := .low, dwell := none } :=
    finished.supply.trans (noticed.supply.trans dropped.supply)
  refine ⟨finish false (supplyFails s), ?_, supply, finished.sched.trans sched, fun r hr expiry hs => ?_, ?_, ?_, fun l => ?_,
    (((lost.mono.trans dropped.mono).trans noticed.mono).trans finished.mono)⟩
  · show execSupplyDropping s = _
    unfold execSupplyDropping
    rw [good]
    rfl
  · rw [finished.table, show (supplyFails s).table = _ from noticed.table] at hr
    obtain ⟨a, -, unreached⟩ := dropStrikes_striking (s := supplyLost s) timed (fun _ => true) hr hs
    exact Bool.false_ne_true unreached.symm
  · have marks := relayed_marksKept.finish (by decide) false (supplyFails s)
    have settled : Settled (finish false (supplyFails s)) :=
      (settled_settleAndServe false (supplyFails s)).of_only ((beginTransmission_only .one _).mono.trans (beginTransmission_only .two _).mono)
    refine List.ext_getElem? fun n => ?_
    have here := marks n
    rw [show (supplyFails s).ports = s.ports.map fun pt => { pt with detect := none } from noticed.ports.trans dropped.ports, List.getElem?_map] at here
    rw [List.getElem?_map]
    cases hn : s.ports[n]? with
    | none =>
      rw [hn] at here
      exact Option.map_eq_none_iff.1 here
    | some pt =>
      rw [hn] at here
      obtain ⟨q, hq, e⟩ := Option.map_eq_some_iff.1 here
      rw [hq]
      exact congrArg some ((settled.idlePort hq fun k => by rw [supply] at k; exact nomatch k.2).trans (Port.cleared_of_marks e))
  · have ended : CountedOnly [15] _ _ := finish_counted false (supplyFails s)
    have noticedCounted : CountedOnly [5, 12] _ _ := notifyAll_counted .supplyLow (dropStrikes (fun _ => true) (supplyLost s))
    exact Raised.of_counted (.of_counters lost.counters : CountedOnly [] s (supplyLost s)) ((shed.counted noticedCounted (by decide)).counted ended (by decide))
      (by simp)
  · exact finish_tells false ((Tells.of_only l (lost.mono.trans dropped.mono : Only [.supply, .ports, .table, .sched, .counters] _ _)).trans
      (tells_notifyAll l .supplyLow _)) (hd.quiet l) (by simp)

theorem supplyStays {x : Supply} (low : s.supply.state = x.state) : finish false { s with supply := x } = { s with supply := x } := by
  refine hd.event (hd.settled.of_detection (f := fun _ pt => pt) ((supply_only s fun _ => x).mono) low.symm (fun n => ?_) fun _ q => ⟨q.overload, q.detect, rfl⟩) rfl
  cases s.ports[n]? <;> rfl

theorem dwellTimerExpiry_returns {expiry : Nat} (low : s.supply.state = .low) (dwell : s.supply.dwell = some expiry) (due : expiry ≤ s.now)
    (eight : s.ports.length = 8) : ∃ t, exec .dwellTimerExpiry s = .next t ∧ t.supply = { state := .good, dwell := none } ∧
      (∀ (p : Nat) (pt : Port), s.ports[p]? = some pt → ∃ q, t.ports[p]? = some q ∧ q.state = pt.state ∧ q.history = pt.history ∧ q.off = pt.off ∧
        q.overload = pt.overload ∧ (pt.detect = none → q.detect = if pt.state = .active then
          (if pt.overload then (s.portEntry p).map fun e => s.now + e.detect else none) else none)) ∧
      (∀ l, Told l [.supplyGood] s t) ∧ Only [.links, .table, .sched, .ports, .supply, .counters] s t := by
  have risen := supply_only s fun _ => { state := .good, dwell := none }
  have detected := Only.foldl (fun u p => startDetect_only p u) allPorts { s with supply := { state := .good, dwell := none } }
  have noticed := notifyAll_only (allPorts.foldl (fun u p => startDetect p u) { s with supply := { state := .good, dwell := none } }) .supplyGood
  have finished := finish_only true (supplyReturns s)
  refine ⟨finish true (supplyReturns s), ?_, finished.supply.trans (noticed.supply.trans detected.supply), fun p pt hp => ?_, fun l => ?_,
    ((risen.mono.trans detected.mono).trans noticed.mono).trans finished.mono⟩
  · show execDwellTimerExpiry s = _
    unfold execDwellTimerExpiry
    exact if_pos ⟨by rw [dwell]; exact decide_eq_true due, low⟩
  · have inRange : p ∈ allPorts := List.mem_range.2 (eight ▸ (List.getElem?_eq_some_iff.1 hp).1)
    have marks := relayed_marksKept.finish (by decide) true (supplyReturns s) p
    rw [show (supplyReturns s).ports = _ from noticed.ports, foldl_startDetect_ports allPorts _ (by decide) p, if_pos inRange, hp] at marks
    obtain ⟨q, hq, e⟩ := Option.map_eq_some_iff.1 marks
    simp only [Port.marks, Prod.mk.injEq] at e
    obtain ⟨state, history, detect, off, overload⟩ := e
    refine ⟨q, hq, state, history, off, overload, fun undetected => ?_⟩
    rw [detect]
    unfold State.detecting
    rw [undetected]
    by_cases active : pt.state = .active
    · by_cases loud : pt.overload = true
      · rw [if_pos ⟨active, loud, rfl, rfl⟩, if_pos active, if_pos loud]
        rfl
      · rw [if_neg fun k => loud k.2.1, if_pos active, if_neg loud]
    · rw [if_neg fun k => active k.1, if_neg active]
  · exact finish_tells true ((Tells.of_only l (risen.mono.trans detected.mono : Only [.supply, .ports] _ _)).trans (tells_notifyAll l .supplyGood _))
      (hd.quiet l) (by simp)

end

/-- Settles O57. -/
theorem offTimersAndTheSupplyMonitorSwitchTheDrive : Obligations.OffTimersAndTheSupplyMonitorSwitchTheDrive := by
  intro s hd told detecting
  refine ⟨fun p pt expiry hp tripped off due => ?_, fun good timed => ?_, fun low => ⟨?_, fun still => ?_, fun expiry dwell due eight => ?_⟩⟩
  · obtain ⟨t, runs, marks, begun, only⟩ := offTimerExpiry_restores hd hp tripped off due
    exact ⟨t, runs, restored_of_marks marks, fun l => (begun l).begun, only⟩
  · obtain ⟨t, runs, supply, sched, table, ports, shed, begun, only⟩ := supplyDropping_fails hd good timed
    exact ⟨t, runs, supply, sched, table, ports, shed, fun l => (begun l).begun, only⟩
  · show execSupplyDropping s = _
    unfold execSupplyDropping
    rw [low]
    exact congrArg _ ((supplyStays hd (x := { s.supply with dwell := none }) rfl).trans
      (congrArg (fun x => { s with supply := { state := x, dwell := none } }) low))
  · show execSupplyRising s = _
    unfold execSupplyRising
    rw [low, still]
    exact congrArg _ ((supplyStays hd (x := { s.supply with dwell := some (s.now + Config.dwellTime) }) rfl).trans
      (congrArg (fun x => { s with supply := { state := x, dwell := some (s.now + Config.dwellTime) } }) low))
  · obtain ⟨t, runs, supply, ports, begun, only⟩ := dwellTimerExpiry_returns hd low dwell due eight
    exact ⟨t, runs, supply, ports, fun l => (begun l).begun, only⟩

end Sys2Proof.Machine
end

