-- ==== Sys2Proof/Proofs/QueueService.lean ====
section
/-! PROOF. Strokes that run out and the pass over the strike queue (04: R66, R72). What one entry of the pass does is said once; by induction over the
entries, `PassReached` then follows what a pass can do to any output, and `PassStood` what it does where every stroke is timed. -/

namespace Sys2Proof.Machine

-- One theorem after another, so that the compile needs few threads.
set_option Elab.async false

/-! ## What the times and loads of strokes rest on -/

theorem State.timesAt_of_bare {s t : State} (h : BareSame s t) (store : t.store = s.store) (a : Addr) : t.timesAt a = s.timesAt a := by
  have bare : ∀ u : State, u.timesAt a = (u.bare (.output a)).bind u.strikeTimes := fun u => by
    unfold State.timesAt State.bare
    cases u.record (.output a) <;> rfl
  have times : t.strikeTimes = s.strikeTimes := by
    funext r
    unfold State.strikeTimes State.source
    rw [store]
  rw [bare, bare, h.bare, times]

theorem State.strikeLoad_of_bare {s t : State} (h : BareSame s t) (store : t.store = s.store) (a : Addr) : t.strikeLoad a = s.strikeLoad a := by
  have bare : ∀ u : State, u.strikeLoad a = ((u.bare (.output a)).map u.recordLoad).getD 0 := fun u => by
    unfold State.strikeLoad State.bare
    cases u.record (.output a) <;> rfl
  have loads : t.recordLoad = s.recordLoad := by
    funext r
    unfold State.recordLoad State.source State.chamber State.tremulant
    rw [store]
  rw [bare, bare, h.bare, loads]

/-! ## One entry of a pass -/

theorem serveEntry_bareSame (s : State) (e : QueuedStrike) : BareSame s (serveEntry s e) := relayed_bareSame.serveEntry s e

theorem State.drivable_and_startable_iff {s : State} {a : Addr} : (s.drivable a && s.startable a) = true ↔
    s.portActive a.port = true ∧ s.supply.state = .good ∧ s.stroke a = some .idle ∧ s.loadFits a.port (s.strikeLoad a) = true := by
  unfold State.drivable State.startable State.supplyGood
  simp only [Bool.and_eq_true, decide_eq_true_eq, and_assoc]

theorem serveEntry_stroke_of_ne {s : State} {e : QueuedStrike} {a : Addr} (h : a ≠ e.out) : (serveEntry s e).stroke a = s.stroke a := by
  unfold serveEntry
  split
  · exact startStroke_stroke_of_ne h
  · rfl

/-- A stroke that goes on, or rests, is not begun anew. -/
theorem serveEntry_stroke_of_busy {s : State} {a : Addr} (h : s.stroke a ≠ some .idle) (e : QueuedStrike) : (serveEntry s e).stroke a = s.stroke a := by
  by_cases ha : a = e.out
  · subst ha
    unfold serveEntry
    rw [if_neg fun k => h (State.drivable_and_startable_iff.1 k).2.2.1]
  · exact serveEntry_stroke_of_ne ha

theorem serveEntry_begins {s : State} {e : QueuedStrike} {k : Strike} (h : (s.drivable e.out && s.startable e.out) = true)
    (hk : s.timesAt e.out = some k) : (serveEntry s e).stroke e.out = some (.striking (s.now + k.stroke)) := by
  unfold serveEntry
  rw [if_pos h]
  exact startStroke_stroke_same (s := dequeue e.out s) hk

/-! ## What a pass can do to an output -/

/-- An output's queued strike has started its stroke. -/
structure StrikeBegun (s t : State) (a : Addr) : Prop where
  queued : ∃ x ∈ s.sched.queue, x.out = a
  gone : ∀ x ∈ t.sched.queue, x.out ≠ a
  strikes : ∃ k, s.timesAt a = some k ∧ t.stroke a = some (.striking (s.now + k.stroke))

/-- Each stroke stands as it was, or one that was IDLE has been started from the queue. -/
def PassReached (s t : State) : Prop := ∀ a, t.stroke a = s.stroke a ∨ s.stroke a = some .idle ∧ StrikeBegun s t a

theorem passReached_serveEntry {s t : State} {e : QueuedStrike} (he : e ∈ s.sched.queue) (only : Only [.table, .ports, .counters, .sched] s t)
    (bare : BareSame s t) (h : PassReached s t) : PassReached s (serveEntry t e) := by
  intro a
  have left : ∀ x ∈ (serveEntry t e).sched.queue, x ∈ t.sched.queue := (queueServed_serveEntry t e).2
  rcases h a with same | ⟨idle, begun⟩
  · by_cases starts : a = e.out ∧ (t.drivable e.out && t.startable e.out) = true
    · obtain ⟨rfl, starts⟩ := starts
      have idle : s.stroke e.out = some .idle := same.symm.trans (State.drivable_and_startable_iff.1 starts).2.2.1
      have times := State.timesAt_of_bare bare only.store e.out
      cases hk : t.timesAt e.out with
      | none =>
        refine .inl (Eq.trans ?_ same)
        unfold serveEntry
        rw [if_pos starts]
        unfold startStroke
        rw [show (dequeue e.out t).timesAt e.out = t.timesAt e.out from rfl, hk]
        rfl
      | some k =>
        refine .inr ⟨idle, ⟨e, he, rfl⟩, fun x hx => ?_, k, times.symm.trans hk, ?_⟩
        · unfold serveEntry at hx
          rw [if_pos starts, (startStroke_only _ _).sched] at hx
          simpa using (List.mem_filter.1 hx).2
        · rw [serveEntry_begins starts hk, only.now]
    · refine .inl (Eq.trans ?_ same)
      by_cases ha : a = e.out
      · subst ha
        unfold serveEntry
        rw [if_neg fun k => starts ⟨rfl, k⟩]
      · exact serveEntry_stroke_of_ne ha
  · obtain ⟨queued, gone, k, hk, strikes⟩ := begun
    have busy : t.stroke a ≠ some .idle := by rw [strikes]; exact fun h => nomatch h
    exact .inr ⟨idle, queued, fun x hx => gone x (left x hx), k, hk, (serveEntry_stroke_of_busy busy e).trans strikes⟩

theorem passReached_serveQueue (s : State) : PassReached s (serveQueue s) := by
  have pass : ∀ (q : List QueuedStrike) (t : State), (∀ e ∈ q, e ∈ s.sched.queue) → Only [.table, .ports, .counters, .sched] s t →
      BareSame s t → PassReached s t → PassReached s (q.foldl serveEntry t) := fun q => by
    induction q with
    | nil => exact fun _ _ _ _ h => h
    | cons e q ih =>
      intro t hq only bare h
      exact ih _ (fun x hx => hq x (List.mem_cons_of_mem _ hx)) (only.trans (serveEntry_only t e))
        (relayed_bareSame.trans bare (serveEntry_bareSame t e)) (passReached_serveEntry (hq e List.mem_cons_self) only bare h)
  exact pass _ s (fun _ h => h) (Only.refl _ _) rfl fun _ => .inl rfl

/-- The strike queued first starts where its output is IDLE, its port drives and its load fits. -/
theorem serveQueue_begins_first {s : State} {x : QueuedStrike} {rest : List QueuedStrike} {k : Strike} (hq : s.sched.queue = x :: rest)
    (starts : (s.drivable x.out && s.startable x.out) = true) (hk : s.timesAt x.out = some k) : StrikeBegun s (serveQueue s) x.out := by
  have strikes := serveEntry_begins starts hk
  have goesOn : ∀ (q : List QueuedStrike) (t : State), t.stroke x.out ≠ some .idle → (q.foldl serveEntry t).stroke x.out = t.stroke x.out := fun q => by
    induction q with
    | nil => exact fun _ _ => rfl
    | cons e q ih =>
      intro t busy
      have same := serveEntry_stroke_of_busy busy e
      exact (ih _ (by rw [same]; exact busy)).trans same
  have struck : (serveQueue s).stroke x.out = some (.striking (s.now + k.stroke)) := by
    unfold serveQueue
    rw [hq, List.foldl_cons, goesOn rest _ (by rw [strikes]; exact fun h => nomatch h), strikes]
  rcases passReached_serveQueue s x.out with same | ⟨-, begun⟩
  · rw [struck, (State.drivable_and_startable_iff.1 starts).2.2.1] at same
    cases same
  · exact begun

/-! ## A pass where every IDLE output has stroke times -/

/-- The loads of the strokes started on a port. -/
def State.startedLoad (s : State) (started : List Addr) (p : Nat) : Nat :=
  ((started.filter fun b => decide (b.port = p)).map s.strikeLoad).sum

/-- The part as a pass stands that has started the strokes of some outputs. -/
structure PassStood (s : State) (started : List Addr) (t : State) : Prop where
  only : Only [.table, .ports, .counters, .sched] s t
  bare : BareSame s t
  idle : ∀ a ∈ started, s.stroke a = some .idle
  stroke : ∀ a, t.stroke a = if a ∈ started then (s.timesAt a).map fun k => .striking (s.now + k.stroke) else s.stroke a
  queue : t.sched.queue = s.sched.queue.filter fun x => decide (x.out ∉ started)
  ports : ∀ p : Nat, t.ports[p]? = (s.ports[p]?).map fun pt => { pt with admitted := pt.admitted + s.startedLoad started p }
  counted : Raised started.length .strikesStarted s t

theorem PassStood.refl (s : State) : PassStood s [] s where
  only := Only.refl _ _
  bare := rfl
  idle := fun _ h => nomatch h
  stroke := fun _ => (if_neg List.not_mem_nil).symm
  queue := (List.filter_eq_self.2 fun _ _ => by simp).symm
  ports := fun p => by cases s.ports[p]? <;> rfl
  counted := .zero rfl

section
variable {s t : State} {started : List Addr} (settled : Settled s) (timed : ∀ a, s.stroke a = some .idle → (s.timesAt a).isSome = true)
  (h : PassStood s started t) (e : QueuedStrike)
include h

theorem PassStood.timesAt (a : Addr) : t.timesAt a = s.timesAt a := State.timesAt_of_bare h.bare h.only.store a

theorem PassStood.strikeLoad (a : Addr) : t.strikeLoad a = s.strikeLoad a := State.strikeLoad_of_bare h.bare h.only.store a

include settled timed in
/-- The entry's test in the pass, as R72 words it. -/
theorem PassStood.mayStart_iff (a : Addr) : (t.drivable a && t.startable a) = true ↔ s.mayStart started a = true := by
  have idle : t.stroke a = some .idle ↔ s.stroke a = some .idle ∧ a ∉ started := by
    rw [h.stroke a]
    by_cases ha : a ∈ started
    · rw [if_pos ha]
      obtain ⟨k, hk⟩ := Option.isSome_iff_exists.1 (timed a (h.idle a ha))
      rw [hk]
      exact ⟨fun h => (by cases h), fun h => absurd ha h.2⟩
    · rw [if_neg ha]
      exact ⟨fun h => ⟨h, ha⟩, And.left⟩
  have entry : t.portEntry a.port = s.portEntry a.port := by unfold State.portEntry; rw [h.only.store]
  rw [State.drivable_and_startable_iff, idle, State.loadFits_iff, entry, h.strikeLoad, h.only.supply]
  unfold State.portActive State.mayStart
  rw [h.ports a.port]
  cases hp : s.ports[a.port]? with
  | none => simp
  | some pt =>
    have admitted := settled.admitted hp
    cases he : s.portEntry a.port with
    | none => simp
    | some e =>
      simp only [Option.map_some, admitted, Nat.zero_add, decide_eq_true_eq, State.startedLoad, Option.some.injEq]
      constructor
      · rintro ⟨active, good, ⟨idle, apart⟩, _, _, rfl, rfl, fits⟩
        exact ⟨idle, apart, active, good, fits⟩
      · rintro ⟨idle, apart, active, good, fits⟩
        exact ⟨active, good, ⟨idle, apart⟩, _, _, rfl, rfl, fits⟩

include settled timed in
theorem PassStood.starts (hs : s.mayStart started e.out = true) : PassStood s (started ++ [e.out]) (serveEntry t e) := by
  have test := (h.mayStart_iff settled timed e.out).2 hs
  have idle : s.stroke e.out = some .idle := by
    have was := (State.drivable_and_startable_iff.1 test).2.2.1
    rw [h.stroke] at was
    split at was
    next again => exact h.idle _ again
    · exact was
  obtain ⟨k, hk⟩ := Option.isSome_iff_exists.1 (timed _ idle)
  have hkt : t.timesAt e.out = some k := (h.timesAt e.out).trans hk
  have strikes : (Machine.serveEntry t e).stroke e.out = some (.striking (s.now + k.stroke)) := by
    rw [serveEntry_begins test hkt, h.only.now]
  have started' : Machine.serveEntry t e =
      (((dequeue e.out t).setStroke e.out (.striking (t.now + k.stroke))).addLoad e.out.port (t.strikeLoad e.out)).bump .strikesStarted := by
    unfold Machine.serveEntry
    rw [if_pos test]
    exact startStroke_of_timesAt (s := dequeue e.out t) hkt
  refine ⟨h.only.trans (serveEntry_only t e), relayed_bareSame.trans h.bare (serveEntry_bareSame t e), fun a ha => ?_, fun a => ?_, ?_, fun p => ?_, ?_⟩
  · rcases List.mem_append.1 ha with ha | ha
    · exact h.idle a ha
    · rw [List.mem_singleton.1 ha]
      exact idle
  · by_cases ha : a = e.out
    · subst ha
      rw [strikes, if_pos (by simp), hk]
      rfl
    · rw [serveEntry_stroke_of_ne ha, h.stroke]
      simp only [List.mem_append, List.mem_singleton, ha, or_false]
  · rw [started']
    show t.sched.queue.filter _ = _
    rw [h.queue, List.filter_filter]
    refine List.filter_congr fun x _ => ?_
    simp only [List.mem_append, List.mem_singleton, not_or, Bool.decide_and, decide_not]
    exact Bool.and_comm _ _
  · have ports : (Machine.serveEntry t e).ports[p]? = (t.addLoad e.out.port (t.strikeLoad e.out)).ports[p]? := by
      rw [started']
      rfl
    have load : s.startedLoad (started ++ [e.out]) p = s.startedLoad started p + if p = e.out.port then s.strikeLoad e.out else 0 := by
      unfold State.startedLoad
      rw [List.filter_append, List.map_append, List.sum_append]
      by_cases hp : p = e.out.port
      · subst hp
        simp
      · simp [hp, Ne.symm hp]
    rw [ports, load]
    unfold State.addLoad
    rw [State.ports_modPort, h.ports, h.strikeLoad]
    by_cases hp : p = e.out.port
    · rw [if_pos hp, if_pos hp, Option.map_map]
      congr 1
      funext pt
      exact congrArg (fun n => ({ pt with admitted := n } : Port)) (Nat.add_assoc _ _ _)
    · rw [if_neg hp, if_neg hp]
      rfl
  · rw [List.length_append, started']
    exact h.counted.add (bumpBy_raised _ 1 .strikesStarted)

include settled timed in
theorem PassStood.serveEntry : PassStood s (if s.mayStart started e.out then started ++ [e.out] else started) (serveEntry t e) := by
  by_cases hs : s.mayStart started e.out = true
  · rw [if_pos hs]
    exact h.starts settled timed e hs
  · rw [if_neg hs]
    unfold Machine.serveEntry
    rw [if_neg (mt (h.mayStart_iff settled timed e.out).1 hs)]
    exact h

end

theorem passStood_foldl {s : State} (settled : Settled s) (timed : ∀ a, s.stroke a = some .idle → (s.timesAt a).isSome = true) :
    ∀ (q : List QueuedStrike) (started : List Addr) (t : State), PassStood s started t →
      PassStood s (s.starting started q) (q.foldl serveEntry t)
  | [], _, _, h => h
  | e :: q, _, _, h => passStood_foldl settled timed q _ _ (h.serveEntry settled timed e)

theorem passStood_serveQueue {s : State} (settled : Settled s) (timed : ∀ a, s.stroke a = some .idle → (s.timesAt a).isSome = true) :
    PassStood s (s.starting [] s.sched.queue) (serveQueue s) := passStood_foldl settled timed _ _ _ (.refl s)

/-! ## A stroke that runs out (R66, R72) -/

theorem loadFell_iff {s t : State} : loadFell s t = true ↔
    ∃ (p : Nat) (was now : Port), s.ports[p]? = some was ∧ t.ports[p]? = some now ∧ now.load < was.load := by
  unfold loadFell
  rw [List.any_eq_true]
  constructor
  · rintro ⟨x, hx, fell⟩
    obtain ⟨p, hp⟩ := List.mem_iff_getElem?.1 hx
    obtain ⟨was, now⟩ := x
    obtain ⟨hw, hn⟩ := List.getElem?_zip_eq_some.1 hp
    exact ⟨p, was, now, hw, hn, of_decide_eq_true fell⟩
  · rintro ⟨p, was, now, hw, hn, fell⟩
    exact ⟨(was, now), List.mem_iff_getElem?.2 ⟨p, List.getElem?_zip_eq_some.2 ⟨hw, hn⟩⟩, decide_eq_true fell⟩

section
variable {s : State} {a : Addr} {k : Strike} (hd : Done s) (hk : s.timesAt a = some k) (stroke : Stroke)

theorem settledStroke_only : Only [.table, .ports] s (settle (s.setStroke a stroke)) :=
  (setStroke_only s a stroke).mono.trans (settle_only _).mono

theorem settledStroke_bare : BareSame s (settle (s.setStroke a stroke)) := bareSame_setStroke s a stroke

theorem settledStroke_stroke_of_ne {b : Addr} (h : b ≠ a) : (settle (s.setStroke a stroke)).stroke b = s.stroke b :=
  State.stroke_setStroke_of_ne h stroke

include hk in
theorem settledStroke_stroke_same : (settle (s.setStroke a stroke)).stroke a = some stroke :=
  State.stroke_setStroke_same (State.record_isSome_of_timesAt hk) stroke

include hk in
theorem settledStroke_timed (timed : StrokesTimed s) (b : Addr) (h : (settle (s.setStroke a stroke)).stroke b = some .idle) :
    ((settle (s.setStroke a stroke)).timesAt b).isSome = true := by
  rw [State.timesAt_of_bare (settledStroke_bare stroke) (settledStroke_only stroke).store]
  by_cases hb : b = a
  · rw [hb, hk]
    rfl
  · rw [settledStroke_stroke_of_ne stroke hb] at h
    obtain ⟨r, hr, hs⟩ := Option.bind_eq_some_iff.1 h
    have times := (timed r (State.mem_of_record hr).1 (by rw [hs]; exact fun h => nomatch h)).1
    unfold State.timesAt
    rw [hr]
    exact times

include hd in
/-- The end of the event: the ports settle, and the queue is served where the event asks for it or a port's load has fallen. -/
theorem strokeEnds (serve : Bool) : finish serve (s.setStroke a stroke) =
    if serve || loadFell (s.setStroke a stroke) (settle (s.setStroke a stroke)) then settle (serveQueue (settle (s.setStroke a stroke)))
    else settle (s.setStroke a stroke) := by
  have quiet : ∀ u : State, u.links = s.links → beginTransmission .two (beginTransmission .one u) = u := fun u hu => by
    have q : ∀ l, (u.link l).Quiet := fun l => by
      rw [State.link_of_links hu]
      exact hd.quiet l
    rw [beginTransmission_of_quiet (q .one), beginTransmission_of_quiet (q .two)]
  exact quiet _ ((settleAndServe_only serve _).links)

/-- What a served queue leaves: the strokes of the pass, each stroke begun gone from the queue. -/
structure QueuePassed (s u t : State) : Prop where
  strokes : ∀ b, t.stroke b = u.stroke b ∨ u.stroke b = some .idle ∧ StrikeBegun s t b
  queue : QueueServed s t
  counted : CountedOnly [15] s t
  only : Only [.table, .sched, .ports, .counters] s t

theorem StrikeBegun.of_settled {t : State} {b : Addr} (h : StrikeBegun (settle (s.setStroke a stroke)) t b) : StrikeBegun s (settle t) b := by
  obtain ⟨queued, gone, k, hk, strikes⟩ := h
  exact ⟨queued, gone, k, (State.timesAt_of_bare (settledStroke_bare stroke) (settledStroke_only stroke).store b).symm.trans hk, strikes⟩

include hd in
theorem strokeEnds_passed (serve : Bool) : QueuePassed s (settle (s.setStroke a stroke)) (finish serve (s.setStroke a stroke)) where
  strokes := fun b => by
    rw [strokeEnds hd]
    split
    · rcases passReached_serveQueue (settle (s.setStroke a stroke)) b with same | ⟨idle, begun⟩
      · exact .inl same
      · exact .inr ⟨idle, begun.of_settled stroke⟩
    · exact .inl rfl
  queue := queueServed_finish serve (s.setStroke a stroke)
  counted := finish_counted serve (s.setStroke a stroke)
  only := (setStroke_only s a stroke).mono.trans (finish_only_of_quiet hd serve (setStroke_only s a stroke).links).mono

end

/-- Settles O58. -/
theorem aStrokeRestsAndAnIdleOutputServesTheQueue : Obligations.AStrokeRestsAndAnIdleOutputServesTheQueue := by
  intro s a k expiry hd hk due started others settled passed idles
  have beginsAs : ∀ {t b}, StrikeBegun s t b → started b t := fun h => ⟨h.queued, h.gone, h.strikes⟩
  have other : ∀ {stroke t}, QueuePassed s (settled stroke) t → others t := fun {stroke _} h =>
    ⟨fun b hb => (h.strokes b).imp (fun same => same.trans (settledStroke_stroke_of_ne stroke hb)) fun begun =>
      ⟨(settledStroke_stroke_of_ne stroke hb).symm.trans begun.1, beginsAs begun.2⟩, h.queue.2, h.queue.1, h.counted, h.only⟩
  have served : ∀ stroke, passed (settled stroke) (settle (serveQueue (settled stroke))) ((settled stroke).starting [] s.sched.queue) :=
    fun stroke timed => by
      have stood := passStood_serveQueue (settle_settled (s.setStroke a stroke)) (settledStroke_timed hk stroke timed)
      refine ⟨fun b => (stood.stroke b).trans ?_, stood.queue, stood.counted⟩
      rw [State.timesAt_of_bare (settledStroke_bare stroke) (settledStroke_only stroke).store]
      rfl
  have idled : ∀ c, exec c s = .next (finish true (s.setStroke a .idle)) → idles c := fun c runs => by
    have all := strokeEnds_passed hd .idle (a := a) true
    have whole := strokeEnds hd .idle (a := a) true
    refine ⟨_, runs, ?_, other all, ?_, fun x rest pt e hq hx hp he active good fits => ?_⟩
    · rcases all.strokes a with same | ⟨-, begun⟩
      · exact .inl (same.trans (settledStroke_stroke_same hk .idle))
      · exact .inr (beginsAs begun)
    · rw [whole]
      exact served .idle
    · subst hx
      have same : (settled .idle).timesAt x.out = some k :=
        (State.timesAt_of_bare (settledStroke_bare .idle) (settledStroke_only .idle).store x.out).trans hk
      have load := State.strikeLoad_of_bare (settledStroke_bare (s := s) (a := x.out) .idle) (settledStroke_only .idle).store x.out
      have unloaded := (settle_settled (s.setStroke x.out .idle)).admitted hp
      have drives : (settled .idle).portActive x.out.port = true := by
        unfold State.portActive
        rw [hp]
        exact decide_eq_true active
      have may : ((settled .idle).drivable x.out && (settled .idle).startable x.out) = true :=
        State.drivable_and_startable_iff.2 ⟨drives, good, settledStroke_stroke_same hk .idle,
          State.loadFits_iff.2 ⟨pt, e, hp, he, by rw [unloaded, load]; exact fits⟩⟩
      rw [whole]
      exact beginsAs ((serveQueue_begins_first (s := settled .idle) hq may same).of_settled .idle)
  refine ⟨fun striking rests => ?_, fun striking noRest => ?_, fun resting => ?_⟩
  · have all := strokeEnds_passed hd (.resting (s.now + k.rest)) (a := a) false
    have whole := strokeEnds hd (.resting (s.now + k.rest)) (a := a) false
    have fell := loadFell_iff (s := s.setStroke a (.resting (s.now + k.rest))) (t := settled (.resting (s.now + k.rest)))
    refine ⟨finish false (s.setStroke a (.resting (s.now + k.rest))), ?_, ?_, other all, fun falls => ?_, fun stands _ => ?_⟩
    · show execStrokeTimerExpiry a s = _
      unfold execStrokeTimerExpiry
      rw [striking, hk]
      dsimp only
      rw [if_pos due, if_neg (Nat.ne_of_gt rests)]
      rfl
    · have rested := settledStroke_stroke_same (s := s) (a := a) hk (.resting (s.now + k.rest))
      rcases all.strokes a with same | ⟨idle, -⟩
      · exact same.trans rested
      · rw [rested] at idle
        cases idle
    · rw [whole, fell.2 falls]
      exact served _
    · rw [whole, Bool.eq_false_iff.2 (mt fell.1 stands)]
      exact ⟨fun _ => (if_neg List.not_mem_nil).symm, (List.filter_eq_self.2 fun _ _ => by simp).symm, .zero rfl⟩
  · refine idled _ ?_
    show execStrokeTimerExpiry a s = _
    unfold execStrokeTimerExpiry
    rw [striking, hk]
    dsimp only
    rw [if_pos due, if_pos noRest]
    rfl
  · refine idled _ ?_
    show execRestTimerExpiry a s = _
    unfold execRestTimerExpiry
    rw [resting]
    exact if_pos due

end Sys2Proof.Machine
end

