-- ==== Sys2Proof/Proofs/ChamberSteps.lean ====
section
/-! PROOF. Chambers that step in ascending order in one event (06: R113, R114, R115): what each finds admitted by those before it, as an invariant of
the fold over the chambers. EXPRESSION and the entry into READY both step them so. -/

namespace Sys2Proof.Machine

-- One theorem after another, so that the compile needs few threads.
set_option Elab.async false

/-! ## What the chambers before one have opened on a port -/

/-- The load that a chamber has opened on a port since a state (R113). -/
def State.openedOn (b u : State) (p d : Nat) : Nat :=
  match b.chamber d with
  | some (.enclosed _ o _ _) => if o.port = p ∧ (u.chamberState d).current = (b.chamberState d).current + 1 then o.load else 0
  | some .unenclosed | none => 0

/-- The loads that the chambers below one have opened on a port. -/
def State.openedBelow (b u : State) (p n : Nat) : Nat := ((List.range n).map (b.openedOn u p)).sum

theorem State.openedBelow_congr {b u v : State} {n : Nat} (h : ∀ d, d < n → v.chamberState d = u.chamberState d) (p : Nat) :
    b.openedBelow v p n = b.openedBelow u p n := by
  unfold State.openedBelow
  refine congrArg List.sum (List.map_congr_left fun d hd => ?_)
  unfold State.openedOn
  rw [h d (List.mem_range.1 hd)]

theorem State.openedBelow_succ (b u : State) (p n : Nat) : b.openedBelow u p (n + 1) = b.openedBelow u p n + b.openedOn u p n := by
  unfold State.openedBelow
  rw [List.range_succ, List.map_append, List.sum_append]
  simp

/-- A chamber finds room for a stage: its port ACTIVE, the supply GOOD, and its load within the budget behind those opened before (R113). -/
def State.opensBehind (b u : State) (c : Nat) (o : Outlet) : Prop :=
  ∃ pt e, b.ports[o.port]? = some pt ∧ b.portEntry o.port = some e ∧ pt.state = .active ∧ b.supply.state = .good ∧
    pt.load + (pt.admitted + b.openedBelow u o.port c) + o.load ≤ e.budget

theorem State.opensBehind_congr {b u v : State} {c : Nat} (h : ∀ d, d < c → v.chamberState d = u.chamberState d) (o : Outlet) :
    b.opensBehind v c o ↔ b.opensBehind u c o := by
  unfold State.opensBehind
  rw [State.openedBelow_congr h]

/-! ## The chambers as a fold has stepped them -/

/-- What became of a chamber, where `moves` says whether it was to step (R113, R114). -/
structure ChamberOutcome (b u : State) (c : Nat) (moves : Prop) : Prop where
  stays : ¬moves → u.chamberState c = b.chamberState c
  bare : (∀ stages o channel interval, b.chamber c ≠ some (.enclosed stages o channel interval)) → u.chamberState c = b.chamberState c
  rests : ∀ stages o channel interval, b.chamber c = some (.enclosed stages o channel interval) →
    stageTarget (b.channel channel) stages = (b.chamberState c).current → u.chamberState c = b.chamberState c
  closes : ∀ stages o channel interval, b.chamber c = some (.enclosed stages o channel interval) → moves →
    stageTarget (b.channel channel) stages < (b.chamberState c).current →
    u.chamberState c = { current := (b.chamberState c).current - 1, timer := some (b.now + interval.getD 0) }
  opens : ∀ stages o channel interval, b.chamber c = some (.enclosed stages o channel interval) → moves →
    (b.chamberState c).current < stageTarget (b.channel channel) stages →
    (b.opensBehind u c o → u.chamberState c = { current := (b.chamberState c).current + 1, timer := some (b.now + interval.getD 0) }) ∧
    (¬b.opensBehind u c o → u.chamberState c = { current := (b.chamberState c).current, timer := some (b.now + interval.getD 0) })

/-- The part as the chambers below one have stepped. -/
structure ChambersStood (b : State) (n : Nat) (u : State) : Prop where
  only : Only [.shutters, .ports] b u
  channels : u.shutters.channels = b.shutters.channels
  length : u.shutters.chambers.length = b.shutters.chambers.length
  rest : ∀ d, n ≤ d → u.chamberState d = b.chamberState d
  ports : n ≤ b.shutters.chambers.length →
    ∀ p : Nat, u.ports[p]? = (b.ports[p]?).map fun pt => { pt with admitted := pt.admitted + b.openedBelow u p n }

theorem ChambersStood.refl (b : State) : ChambersStood b 0 b where
  only := Only.refl _ _
  channels := rfl
  length := rfl
  rest := fun _ _ => rfl
  ports := fun _ p => by cases b.ports[p]? <;> rfl

theorem ChamberOutcome.congr {b u v : State} {c : Nat} {moves : Prop} (h : ChamberOutcome b u c moves)
    (same : ∀ d, d ≤ c → v.chamberState d = u.chamberState d) : ChamberOutcome b v c moves := by
  have here := same c (Nat.le_refl c)
  have behind := State.opensBehind_congr (b := b) fun d hd => same d (Nat.le_of_lt hd)
  refine ⟨fun m => here.trans (h.stays m), fun e => here.trans (h.bare e), fun _ _ _ _ e t => here.trans (h.rests _ _ _ _ e t),
    fun _ _ _ _ e m t => here.trans (h.closes _ _ _ _ e m t), fun _ o _ _ e m t => ?_⟩
  obtain ⟨opened, waits⟩ := h.opens _ _ _ _ e m t
  exact ⟨fun f => here.trans (opened ((behind o).1 f)), fun f => here.trans (waits (mt (behind o).2 f))⟩

/-- A chamber that has opened no stage leaves the account as it was. -/
theorem ChambersStood.unopened {b u v : State} {n : Nat} (h : ChambersStood b n u) (only : Only [.shutters] u v)
    (channels : v.shutters.channels = u.shutters.channels) (length : v.shutters.chambers.length = u.shutters.chambers.length)
    (others : ∀ d, d ≠ n → v.chamberState d = u.chamberState d)
    (here : (v.chamberState n).current ≠ (b.chamberState n).current + 1) : ChambersStood b (n + 1) v where
  only := h.only.trans only.mono
  channels := channels.trans h.channels
  length := length.trans h.length
  rest := fun d hd => (others d (by omega)).trans (h.rest d (by omega))
  ports := fun hn p => by
    have none : b.openedOn v p n = 0 := by
      unfold State.openedOn
      split
      · rw [if_neg fun k => here k.2]
      · rfl
      · rfl
    rw [only.ports, h.ports (by omega), State.openedBelow_succ, none, State.openedBelow_congr fun d hd => others d (by omega)]
    rfl

/-- A chamber that has opened a stage adds its load to the account of its port. -/
theorem ChambersStood.opened {b u v : State} {n stages channel : Nat} {o : Outlet} {interval : Option Nat} (h : ChambersStood b n u)
    (enclosed : b.chamber n = some (.enclosed stages o channel interval)) (hv : Only [.shutters, .ports] u v)
    (ports : v.ports = (u.addLoad o.port o.load).ports)
    (channels : v.shutters.channels = u.shutters.channels) (length : v.shutters.chambers.length = u.shutters.chambers.length)
    (others : ∀ d, d ≠ n → v.chamberState d = u.chamberState d)
    (here : n < b.shutters.chambers.length → (v.chamberState n).current = (b.chamberState n).current + 1) : ChambersStood b (n + 1) v where
  only := h.only.trans hv
  channels := channels.trans h.channels
  length := length.trans h.length
  rest := fun d hd => (others d (by omega)).trans (h.rest d (by omega))
  ports := fun hn p => by
    have load : b.openedOn v p n = if p = o.port then o.load else 0 := by
      unfold State.openedOn
      rw [enclosed]
      by_cases hp : p = o.port
      · rw [if_pos hp]
        exact if_pos ⟨hp.symm, here (by omega)⟩
      · rw [if_neg hp]
        exact if_neg fun k => hp k.1.symm
    rw [ports, State.openedBelow_succ, load, State.openedBelow_congr fun d hd => others d (by omega)]
    unfold State.addLoad
    rw [State.ports_modPort, h.ports (by omega)]
    by_cases hp : p = o.port
    · rw [if_pos hp, if_pos hp, Option.map_map]
      congr 1
      funext pt
      exact congrArg (fun x => ({ pt with admitted := x } : Port)) (Nat.add_assoc _ _ _)
    · rw [if_neg hp, if_neg hp]
      rfl

/-! ## One chamber's step -/

theorem State.chamberState_set_of_ne (u : State) {c d : Nat} (h : d ≠ c) (x : ChamberState) : (u.modChamber c fun _ => x).chamberState d = u.chamberState d :=
  (State.chamberState_modChamber u c d _ fun e => absurd e h).trans (if_neg h)

theorem State.chamberState_set_same {u : State} {c : Nat} (h : c < u.shutters.chambers.length) (x : ChamberState) :
    (u.modChamber c fun _ => x).chamberState c = x := (State.chamberState_modChamber u c c _ fun _ => h).trans (if_pos rfl)

theorem State.chamberState_of_beyond {u : State} {c : Nat} (h : u.shutters.chambers.length ≤ c) : u.chamberState c = { current := 0, timer := none } := by
  unfold State.chamberState
  rw [List.getElem?_eq_none h]
  rfl

/-- What one step comes to: the chambers as they then stand, the outcome of this one, and the others as they were. -/
structure ChamberStep (b : State) (n : Nat) (moves : Prop) (u v : State) : Prop where
  stood : ChambersStood b (n + 1) v
  outcome : n < b.shutters.chambers.length → ChamberOutcome b v n moves
  others : ∀ d, d ≠ n → v.chamberState d = u.chamberState d

section
variable {b u : State} {n : Nat} {moves : Prop} (h : ChambersStood b n u)
include h

theorem ChambersStood.stays (stays : ¬moves ∨ (∀ stages o channel interval, b.chamber n ≠ some (.enclosed stages o channel interval)) ∨
    ∃ stages o channel interval, b.chamber n = some (.enclosed stages o channel interval) ∧
      stageTarget (b.channel channel) stages = (b.chamberState n).current) : ChamberStep b n moves u u := by
  have same := h.rest n (Nat.le_refl n)
  refine ⟨h.unopened (Only.refl _ _) rfl rfl (fun _ _ => rfl) (by rw [same]; omega), fun _ => ⟨fun _ => same, fun _ => same, fun _ _ _ _ _ _ => same,
    fun _ _ _ _ e m t => ?_, fun _ _ _ _ e m t => ?_⟩, fun _ _ => rfl⟩
  all_goals
    exfalso
    rcases stays with no | bare | ⟨_, _, _, _, e', rests⟩
    · exact no m
    · exact bare _ _ _ _ e
    · cases e.symm.trans e'
      omega

theorem ChambersStood.openingAdmitted_iff (o : Outlet) (hn : n ≤ b.shutters.chambers.length) : u.openingAdmitted o = true ↔ b.opensBehind u n o := by
  have entry : u.portEntry o.port = b.portEntry o.port := by unfold State.portEntry; rw [h.only.store]
  have good : u.supplyGood = true ↔ b.supply.state = .good := by
    unfold State.supplyGood
    rw [h.only.supply]
    exact decide_eq_true_iff
  unfold State.openingAdmitted State.opensBehind State.portActive
  rw [Bool.and_eq_true, Bool.and_eq_true, State.loadFits_iff, good, entry, h.ports hn]
  cases hp : b.ports[o.port]? with
  | none => simp
  | some pt =>
    rw [Option.map_some]
    constructor
    · rintro ⟨⟨active, good⟩, _, e, ⟨⟩, he, fits⟩
      exact ⟨pt, e, rfl, he, of_decide_eq_true active, good, fits⟩
    · rintro ⟨_, e, ⟨⟩, he, active, good, fits⟩
      exact ⟨⟨decide_eq_true active, good⟩, _, e, rfl, he, fits⟩

variable {stages channel : Nat} {o : Outlet} {interval : Option Nat}
  (enclosed : b.chamber n = some (.enclosed stages o channel interval))
include enclosed

theorem ChambersStood.step (m : moves) : ChamberStep b n moves u (stepChamber n u) := by
  have same := h.rest n (Nat.le_refl n)
  have there : u.chamber n = some (.enclosed stages o channel interval) := by
    unfold State.chamber
    rw [h.only.store]
    exact enclosed
  have target : stageTarget (u.channel channel) stages = stageTarget (b.channel channel) stages := by
    unfold State.channel
    rw [h.channels]
  have within : ∀ {x : ChamberState}, n < b.shutters.chambers.length → (u.modChamber n fun _ => x).chamberState n = x := fun hn =>
    State.chamberState_set_same (by rw [h.length]; exact hn) _
  have unchanged : ∀ x : ChamberState, x.current ≠ (b.chamberState n).current + 1 →
      ((u.modChamber n fun _ => x).chamberState n).current ≠ (b.chamberState n).current + 1 := fun x hx => by
    by_cases hn : n < b.shutters.chambers.length
    · rw [within hn]
      exact hx
    · have beyond := State.chamberState_of_beyond (u := u.modChamber n fun _ => x) (c := n)
        (by rw [show (u.modChamber n fun _ => x).shutters.chambers.length = u.shutters.chambers.length from List.length_modify _ _ _, h.length]; omega)
      rw [beyond]
      exact fun k => nomatch k
  have length : ∀ x, (u.modChamber n fun _ => x).shutters.chambers.length = u.shutters.chambers.length := fun _ => List.length_modify _ _ _
  have entry : ∀ stages' o' channel' interval', b.chamber n = some (.enclosed stages' o' channel' interval') →
      stages' = stages ∧ o' = o ∧ channel' = channel ∧ interval' = interval := fun _ _ _ _ e => by
    cases enclosed.symm.trans e
    exact ⟨rfl, rfl, rfl, rfl⟩
  rcases Nat.lt_trichotomy (b.chamberState n).current (stageTarget (b.channel channel) stages) with lt | eq | gt
  · have below : (u.chamberState n).current < stageTarget (u.channel channel) stages := by rw [same, target]; exact lt
    by_cases admits : u.openingAdmitted o = true
    · rw [stepChamber_opens there below admits, same, h.only.now]
      refine ⟨h.opened enclosed ((modChamber_only _ _ _).mono.trans (modPort_only _ _ _).mono) rfl rfl (length _)
        (fun d hd => State.chamberState_set_of_ne u hd _) fun hn => congrArg ChamberState.current (within hn),
        fun hn => ⟨fun k => absurd m k, fun k => absurd enclosed (k _ _ _ _), fun _ _ _ _ e t => ?_, fun _ _ _ _ e _ t => ?_,
          fun _ _ _ _ e _ t => ?_⟩, fun d hd => State.chamberState_set_of_ne u hd _⟩
      all_goals obtain ⟨rfl, rfl, rfl, rfl⟩ := entry _ _ _ _ e
      · omega
      · omega
      · have behind := (h.openingAdmitted_iff _ (Nat.le_of_lt hn)).1 admits
        exact ⟨fun _ => within hn, fun no =>
          absurd ((State.opensBehind_congr (fun d hd => State.chamberState_set_of_ne u (Nat.ne_of_lt hd) _) _).2 behind) no⟩
    · rw [stepChamber_waits there below admits, same, h.only.now]
      refine ⟨h.unopened (modChamber_only _ _ _) rfl (length _) (fun d hd => State.chamberState_set_of_ne u hd _) (unchanged _ (by dsimp only; omega)),
        fun hn => ⟨fun k => absurd m k, fun k => absurd enclosed (k _ _ _ _), fun _ _ _ _ e t => ?_, fun _ _ _ _ e _ t => ?_,
          fun _ _ _ _ e _ t => ?_⟩, fun d hd => State.chamberState_set_of_ne u hd _⟩
      all_goals obtain ⟨rfl, rfl, rfl, rfl⟩ := entry _ _ _ _ e
      · omega
      · omega
      · have behind := mt (h.openingAdmitted_iff _ (Nat.le_of_lt hn)).2 admits
        exact ⟨fun fits => absurd ((State.opensBehind_congr (fun d hd => State.chamberState_set_of_ne u (Nat.ne_of_lt hd) _) _).1 fits) behind,
          fun _ => within hn⟩
  · rw [stepChamber_rests there (by rw [same, target]; exact eq)]
    exact h.stays (.inr (.inr ⟨_, _, _, _, enclosed, eq.symm⟩))
  · rw [stepChamber_closes there (by rw [same, target]; exact gt), same, h.only.now]
    refine ⟨h.unopened (modChamber_only _ _ _) rfl (length _) (fun d hd => State.chamberState_set_of_ne u hd _) (unchanged _ (by dsimp only; omega)),
      fun hn => ⟨fun k => absurd m k, fun k => absurd enclosed (k _ _ _ _), fun _ _ _ _ e t => ?_, fun _ _ _ _ e _ t => ?_,
        fun _ _ _ _ e _ t => ?_⟩, fun d hd => State.chamberState_set_of_ne u hd _⟩
    all_goals obtain ⟨rfl, rfl, rfl, rfl⟩ := entry _ _ _ _ e
    · omega
    · exact within hn
    · omega

end

theorem stepChamber_of_bare {s : State} {c : Nat} (h : ∀ stages o channel interval, s.chamber c ≠ some (.enclosed stages o channel interval)) :
    stepChamber c s = s := by
  unfold stepChamber
  split
  next e => exact absurd e (h _ _ _ _)
  · rfl
  · rfl

/-- The chambers of a fold that steps each one that is to step. -/
theorem chambers_foldl {b : State} {g : State → Nat → State} {moves : Nat → Prop}
    (steps : ∀ u c, ChambersStood b c u → (moves c → g u c = stepChamber c u) ∧ (¬moves c → g u c = u)) :
    ∀ n : Nat, let u := (List.range n).foldl g b
      ChambersStood b n u ∧ ∀ c, c < n → c < b.shutters.chambers.length → ChamberOutcome b u c (moves c)
  | 0 => ⟨.refl b, fun _ h => nomatch h⟩
  | n + 1 => by
    obtain ⟨stood, outcomes⟩ := chambers_foldl steps n
    rw [List.range_succ, List.foldl_append]
    generalize (List.range n).foldl g b = u at *
    have step : ChamberStep b n (moves n) u (g u n) := by
      by_cases m : moves n
      · rw [(steps u n stood).1 m]
        by_cases bare : ∀ stages o channel interval, b.chamber n ≠ some (.enclosed stages o channel interval)
        · rw [stepChamber_of_bare (s := u) fun stages o channel interval => by unfold State.chamber; rw [stood.only.store]; exact bare _ _ _ _]
          exact stood.stays (.inr (.inl bare))
        · push Not at bare
          obtain ⟨stages, o, channel, interval, enclosed⟩ := bare
          exact stood.step enclosed m
      · rw [(steps u n stood).2 m]
        exact stood.stays (.inl m)
    refine ⟨step.stood, fun c hc hlt => ?_⟩
    rcases Nat.lt_succ_iff_lt_or_eq.1 hc with below | rfl
    · exact (outcomes c below hlt).congr fun d hd => step.others d (by omega)
    · exact step.outcome hlt

/-! ## EXPRESSION (R111, R115) -/

/-- The part with a channel written, before the chambers follow it. -/
def channelSet (k position : Nat) (s : State) : State :=
  { s with shutters := { s.shutters with channels := s.shutters.channels.set k position } }

theorem channelSet_only (k position : Nat) (s : State) : Only [.shutters] s (channelSet k position s) :=
  shutters_only s fun x => { x with channels := x.channels.set k position }

/-- A chamber follows a written channel where its target changes and no timer of its runs (R115). -/
def State.follows (s : State) (k position c : Nat) : Prop :=
  ∃ stages o interval, s.chamber c = some (.enclosed stages o k interval) ∧
    stageTarget (s.channel k) stages ≠ stageTarget position stages ∧ (s.chamberState c).timer = none

theorem channelSet_channel {s : State} {k : Nat} (hk : k < s.shutters.channels.length) (position channel : Nat) :
    (channelSet k position s).channel channel = if channel = k then position else s.channel channel := by
  show ((s.shutters.channels.set k position)[channel]?).getD 0 = _
  rw [List.getElem?_set]
  by_cases h : channel = k
  · subst h
    rw [if_pos rfl, if_pos rfl, if_pos hk]
    rfl
  · rw [if_neg (Ne.symm h), if_neg h]
    rfl

/-- A chamber follows the write of its own channel alone. -/
theorem State.follows_iff {s : State} {k : Nat} (hk : k < s.shutters.channels.length) {position c stages channel : Nat} {o : Outlet}
    {interval : Option Nat} (h : s.chamber c = some (.enclosed stages o channel interval)) : s.follows k position c ↔
      stageTarget (s.channel channel) stages ≠ stageTarget ((channelSet k position s).channel channel) stages ∧
        (s.chamberState c).timer = none := by
  rw [channelSet_channel hk]
  unfold State.follows
  constructor
  · rintro ⟨_, _, _, e, moved, still⟩
    cases h.symm.trans e
    rw [if_pos rfl]
    exact ⟨moved, still⟩
  · rintro ⟨moved, still⟩
    by_cases hc : channel = k
    · subst hc
      rw [if_pos rfl] at moved
      exact ⟨_, _, _, h, moved, still⟩
    · rw [if_neg hc] at moved
      exact absurd rfl moved

theorem writeChannel_chambers {s : State} (k position : Nat) :
    ChambersStood (channelSet k position s) 4 (writeChannel k position s) ∧
      ∀ c, c < 4 → c < s.shutters.chambers.length → ChamberOutcome (channelSet k position s) (writeChannel k position s) c (s.follows k position c) := by
  refine chambers_foldl (b := channelSet k position s) (g := followChannel k (s.channel k) position) (moves := s.follows k position)
    (fun u c stood => ?_) 4
  have entry : u.chamber c = s.chamber c := by
    unfold State.chamber
    rw [stood.only.store, (channelSet_only k position s).store]
  have timer : (u.chamberState c).timer = (s.chamberState c).timer := congrArg ChamberState.timer (stood.rest c (Nat.le_refl c))
  unfold followChannel State.follows
  rw [entry, timer]
  split
  next stages o channel interval hc =>
    constructor
    · rintro ⟨_, _, _, e, moved, still⟩
      cases hc.symm.trans e
      rw [if_pos ⟨rfl, moved, still⟩]
    · intro stays
      rw [if_neg]
      rintro ⟨rfl, moved, still⟩
      exact stays ⟨_, _, _, hc, moved, still⟩
  next hc => exact ⟨fun ⟨_, _, _, e, _⟩ => by rw [hc] at e; (cases e), fun _ => rfl⟩
  next hc => exact ⟨fun ⟨_, _, _, e, _⟩ => by rw [hc] at e; (cases e), fun _ => rfl⟩

theorem playExpression_of_channel {k p : Byte} (hk : k.toNat < 4) (s : State) :
    playExpression [k, p] s = writeChannel k.toNat (min p.toNat 127) s := if_pos hk

theorem playExpression_of_none {k p : Byte} (hk : 4 ≤ k.toNat) (s : State) : playExpression [k, p] s = ignoreEntry s := if_neg (by omega)

/-- Settles O39. -/
theorem expressionWritesItsChannelAndStepsTheChambers : Obligations.ExpressionWritesItsChannelAndStepsTheChambers := by
  intro l s k p hd ready hw chambers channels
  have runs : exec (.expression l) s = .next (finish false (playExpression [k, p] (takeHead l s))) := takePlay_next hw ready
  refine ⟨fun beyond => ?_, fun hk => ?_⟩
  · rw [playExpression_of_none beyond] at runs
    exact ⟨_, runs, taken_counted hd (playEntriesIgnored_ne_discards l)⟩
  · rw [playExpression_of_channel hk] at runs
    have taken := takeHead_only l s
    obtain ⟨stood, outcomes⟩ := writeChannel_chambers (s := takeHead l s) k.toNat (min p.toNat 127)
    have set := channelSet_only k.toNat (min p.toNat 127) (takeHead l s)
    have only := set.mono.trans stood.only
    have ended := finish_only false (writeChannel k.toNat (min p.toNat 127) (takeHead l s))
    have states : ∀ c, (channelSet k.toNat (min p.toNat 127) (takeHead l s)).chamberState c = s.chamberState c := fun c => by
      show ((takeHead l s).shutters.chambers[c]?).getD _ = _
      rw [taken.shutters]
      rfl
    have entries : ∀ c, (takeHead l s).chamber c = s.chamber c := fun c => by unfold State.chamber; rw [taken.store]
    have channel : ∀ c, (takeHead l s).channel c = s.channel c := fun c => by unfold State.channel; rw [taken.shutters]
    have four : (takeHead l s).shutters.chambers.length = 4 := by rw [taken.shutters]; exact chambers
    have inRange : k.toNat < (takeHead l s).shutters.channels.length := by rw [taken.shutters, channels]; exact hk
    have stateAt : ∀ c, (finish false (writeChannel k.toNat (min p.toNat 127) (takeHead l s))).chamberState c =
        (writeChannel k.toNat (min p.toNat 127) (takeHead l s)).chamberState c := fun c => by
      unfold State.chamberState
      rw [ended.shutters]
    refine ⟨_, runs, (Took.of_takeHead only.links).finish false, ?_, fun c hc stages o ch interval enclosed => ?_, fun c bare => ?_,
      ((taken.mono.trans only.mono).trans ended.mono)⟩
    · rw [ended.shutters, stood.channels]
      show (takeHead l s).shutters.channels.set k.toNat (min p.toNat 127) = _
      rw [taken.shutters]
    · intro was now old new opened fits
      have out := outcomes c hc (four.symm ▸ hc)
      have there := (entries c).trans enclosed
      have nowIs : now = (writeChannel k.toNat (min p.toNat 127) (takeHead l s)).chamberState c := stateAt c
      have newIs : new = stageTarget ((channelSet k.toNat (min p.toNat 127) (takeHead l s)).channel ch) stages := by
        show stageTarget (State.channel _ ch) stages = _
        unfold State.channel
        rw [ended.shutters, stood.channels]
      have follows := State.follows_iff inRange (position := min p.toNat 127) there
      rw [channel, ← newIs, show ((takeHead l s).chamberState c).timer = was.timer from congrArg ChamberState.timer (states c)] at follows
      have behind : (channelSet k.toNat (min p.toNat 127) (takeHead l s)).opensBehind (writeChannel k.toNat (min p.toNat 127) (takeHead l s)) c o ↔
          fits := by
        have sum : (channelSet k.toNat (min p.toNat 127) (takeHead l s)).openedBelow
            (writeChannel k.toNat (min p.toNat 127) (takeHead l s)) o.port c = ((List.range c).map opened).sum := by
          refine congrArg List.sum (List.map_congr_left fun d _ => ?_)
          unfold State.openedOn
          rw [show (channelSet k.toNat (min p.toNat 127) (takeHead l s)).chamber d = s.chamber d from entries d, states d, ← stateAt d] <;>
            rfl
        unfold State.opensBehind
        rw [sum, show (channelSet k.toNat (min p.toNat 127) (takeHead l s)).ports = s.ports from taken.ports,
          show (channelSet k.toNat (min p.toNat 127) (takeHead l s)).supply = s.supply from taken.supply]
        refine exists_congr fun pt => exists_congr fun e => and_congr_right fun hp => ?_
        rw [hd.settled.admitted hp, Nat.zero_add, show (channelSet k.toNat (min p.toNat 127) (takeHead l s)).portEntry o.port = s.portEntry o.port from by
          show ((takeHead l s).store.tables.ports[o.port]?).join = _
          rw [taken.store]
          rfl]
      have before := states c
      have clock : (channelSet k.toNat (min p.toNat 127) (takeHead l s)).now = s.now := taken.now
      have rests := out.rests _ _ _ _ there
      have closes := out.closes _ _ _ _ there
      have opens := out.opens _ _ _ _ there
      rw [before, ← newIs, ← nowIs] at rests closes opens
      rw [clock] at closes opens
      refine ⟨fun stands => nowIs.trans ((out.stays fun m => ?_).trans before), fun _ _ same => rests same,
        fun moved still less => closes (follows.2 ⟨moved, still⟩) less, fun moved still less => ?_⟩
      · obtain ⟨moved, still⟩ := follows.1 m
        exact stands.elim moved fun running => running still
      · obtain ⟨opened, waits⟩ := opens (follows.2 ⟨moved, still⟩) less
        exact ⟨fun f => opened (behind.2 f), fun f => waits (mt behind.1 f)⟩
    · refine (stateAt c).trans ?_
      by_cases hc : c < 4
      · exact ((outcomes c hc (four.symm ▸ hc)).bare fun _ _ _ _ e => bare _ _ _ _ ((entries c).symm.trans e)).trans (states c)
      · exact (stood.rest c (Nat.le_of_not_lt hc)).trans (states c)

end Sys2Proof.Machine
end

