-- ==== Sys2Proof/Proofs/CommitCheck.lean ====
section
/-! PROOF. The commit check (01 R18): each of the six searches finds the first entry at fault in its kind, and their sequence finds the failure that
R18 reports. `Search` states what a search over some of the tables finds; searches over earlier and later tables compose. -/

namespace Sys2Proof.Machine

-- One theorem after another, so that the compile needs few threads.
set_option Elab.async false

/-! ## The order of search -/

theorem TableName.place_inj {a b : TableName} (h : a.place = b.place) : a = b := by
  cases a <;> cases b <;> first | rfl | cases h

theorem FailureKind.place_inj {a b : FailureKind} (h : a.place = b.place) : a = b := by
  cases a <;> cases b <;> first | rfl | cases h

theorem SearchedBefore.irrefl {a : TableName} {i : Nat} : ¬SearchedBefore a i a i := by
  rintro (h | ⟨-, h⟩) <;> omega

theorem SearchedBefore.trans {a b c : TableName} {i j k : Nat} (h : SearchedBefore a i b j) (h' : SearchedBefore b j c k) :
    SearchedBefore a i c k := by
  rcases h with h | ⟨rfl, h⟩ <;> rcases h' with h' | ⟨rfl, h'⟩
  · exact .inl (by omega)
  · exact .inl h
  · exact .inl h'
  · exact .inr ⟨rfl, by omega⟩

theorem SearchedBefore.total (a b : TableName) (i j : Nat) : SearchedBefore a i b j ∨ a = b ∧ i = j ∨ SearchedBefore b j a i := by
  rcases Nat.lt_trichotomy a.place b.place with h | h | h
  · exact .inl (.inl h)
  · obtain rfl := TableName.place_inj h
    rcases Nat.lt_trichotomy i j with h | rfl | h
    · exact .inl (.inr ⟨rfl, h⟩)
    · exact .inr (.inl ⟨rfl, rfl⟩)
    · exact .inr (.inr (.inr ⟨rfl, h⟩))
  · exact .inr (.inr (.inl h))

/-- R18 reports one failure at most. -/
theorem Tables.FirstFault.unique {t : Tables} {f g : Failure} (hf : t.FirstFault f) (hg : t.FirstFault g) : f = g := by
  have kinds : f.kind = g.kind := by
    rcases Nat.lt_trichotomy f.kind.place g.kind.place with h | h | h
    · exact absurd hf.fault (hg.kinds _ _ _ h)
    · exact FailureKind.place_inj h
    · exact absurd hg.fault (hf.kinds _ _ _ h)
  obtain ⟨kind, table, entry⟩ := f
  obtain ⟨kind', table', entry'⟩ := g
  obtain rfl : kind = kind' := kinds
  rcases SearchedBefore.total table table' entry entry' with h | ⟨rfl, rfl⟩ | h
  · exact absurd hf.fault (hg.entries _ _ h)
  · rfl
  · exact absurd hg.fault (hf.entries _ _ h)

/-! ## Searches of one kind -/

/-- What a search for one kind of failure through some of the tables comes to. -/
structure Search (t : Tables) (kind : FailureKind) (tables : TableName → Prop) (r : Option Failure) : Prop where
  found : ∀ f, r = some f → f.kind = kind ∧ tables f.table ∧ t.Fault kind f.table f.entry ∧
    ∀ table i, tables table → SearchedBefore table i f.table f.entry → ¬t.Fault kind table i
  missed : r = none → ∀ table i, tables table → ¬t.Fault kind table i

/-- A search through earlier tables, and then through later ones. -/
theorem Search.or {t : Tables} {kind : FailureKind} {P Q : TableName → Prop} {r r' : Option Failure} (h : Search t kind P r) (h' : Search t kind Q r')
    (order : ∀ a b, P a → Q b → a.place < b.place) : Search t kind (fun a => P a ∨ Q a) (r.or r') where
  found := fun f hf => by
    cases r with
    | some g =>
      obtain rfl : g = f := Option.some.inj hf
      obtain ⟨hk, hp, fault, first⟩ := h.found g rfl
      refine ⟨hk, .inl hp, fault, fun table i covered before => ?_⟩
      rcases covered with hp' | hq
      · exact first table i hp' before
      · have later := order _ _ hp hq
        rcases before with e | ⟨e, -⟩
        · omega
        · rw [e] at later
          omega
    | none =>
      obtain ⟨hk, hq, fault, first⟩ := h'.found f hf
      exact ⟨hk, .inr hq, fault, fun table i covered before => covered.elim (h.missed rfl table i) fun hq' => first table i hq' before⟩
  missed := fun hn table i covered => by
    obtain ⟨hr, hr'⟩ := Option.or_eq_none_iff.1 hn
    exact covered.elim (h.missed hr table i) (h'.missed hr' table i)

/-- A search through all tables that can be at fault in its kind. -/
structure SearchesKind (t : Tables) (kind : FailureKind) (r : Option Failure) : Prop where
  found : ∀ f, r = some f → f.kind = kind ∧ t.Fault kind f.table f.entry ∧
    ∀ table i, SearchedBefore table i f.table f.entry → ¬t.Fault kind table i
  missed : r = none → ∀ table i, ¬t.Fault kind table i

theorem Search.whole {t : Tables} {kind : FailureKind} {P : TableName → Prop} {r : Option Failure} (h : Search t kind P r)
    (beyond : ∀ table i, ¬P table → ¬t.Fault kind table i) : SearchesKind t kind r where
  found := fun f hf => by
    obtain ⟨hk, -, fault, first⟩ := h.found f hf
    refine ⟨hk, fault, fun table i before => ?_⟩
    by_cases hp : P table
    · exact first table i hp before
    · exact beyond table i hp
  missed := fun hn table i => by
    by_cases hp : P table
    · exact h.missed hn table i hp
    · exact beyond table i hp

/-- One table searched for the first entry at fault. -/
theorem search_firstFault {α : Type} {t : Tables} {kind : FailureKind} {table : TableName} {bad : α → Bool} {entries : List (Option α)}
    (hit : ∀ i, t.Fault kind table i ↔ ∃ x, entries[i]?.join = some x ∧ bad x = true) :
    Search t kind (· = table) (firstFault kind table bad entries) where
  found := fun f hf => by
    obtain ⟨⟨i, x⟩, hx, rfl⟩ := Option.map_eq_some_iff.1 hf
    obtain ⟨hb, before, after, split, passed⟩ := List.find?_eq_some_iff_append.1 hx
    have here : entries[i]?.join = some x := mem_present.1 (split ▸ List.mem_append_right _ List.mem_cons_self)
    refine ⟨rfl, rfl, (hit i).2 ⟨x, here, hb⟩, fun other j same earlier fault => ?_⟩
    subst same
    obtain ⟨y, hy, bad'⟩ := (hit j).1 fault
    have lt : j < i := by
      rcases earlier with h | ⟨-, h⟩
      · exact absurd h (Nat.lt_irrefl _)
      · exact h
    have sorted := present_sorted entries
    rw [split, List.pairwise_append] at sorted
    have member := mem_present.2 hy
    rw [split, List.mem_append, List.mem_cons] at member
    rcases member with h | h | h
    · simpa [bad'] using passed _ h
    · exact absurd (congrArg Prod.fst h) (Nat.ne_of_lt lt)
    · exact absurd ((List.pairwise_cons.1 sorted.2.1).1 _ h) (by dsimp only; omega)
  missed := fun hn other i same fault => by
    subst same
    obtain ⟨x, hx, hb⟩ := (hit i).1 fault
    have none := List.find?_eq_none.1 (Option.map_eq_none_iff.1 hn) _ (mem_present.2 hx)
    exact none hb

/-! ## The searches but that for overlaps -/

theorem portAbsent_iff {t : Tables} {p : Nat} : portAbsent t p = true ↔ t.ports[p]?.join = none := Option.isNone_iff_eq_none

theorem searchesNoPort (t : Tables) : SearchesKind t .noPort (searchNoPort t) := by
  have sources : Search t .noPort (· = .source) (firstFault .noPort .source (fun s : Source => s.ports.any (portAbsent t)) t.sources) :=
    search_firstFault fun i => by
      unfold Tables.Fault
      cases t.sources[i]?.join with
      | none => simp
      | some x =>
        cases x with
        | percussion c o k m d => cases d <;> simp [Source.ports, portAbsent_iff]
        | _ => simp [Source.ports, portAbsent_iff]
  have chambers : Search t .noPort (· = .chamber) (firstFault .noPort .chamber (fun c : Chamber => match c with
      | .enclosed _ o _ _ => portAbsent t o.port
      | .unenclosed => false) t.chambers) :=
    search_firstFault fun i => by
      unfold Tables.Fault
      cases t.chambers[i]?.join with
      | none => simp
      | some x => cases x <;> simp [portAbsent_iff]
  have tremulants : Search t .noPort (· = .tremulant) (firstFault .noPort .tremulant (fun x : Tremulant => portAbsent t x.o.port) t.tremulants) :=
    search_firstFault fun i => by
      unfold Tables.Fault
      simp only [portAbsent_iff]
  refine (sources.or (chambers.or tremulants ?_) ?_).whole fun table i h => ?_
  · rintro _ _ rfl rfl; decide
  · rintro _ _ rfl (rfl | rfl) <;> decide
  · cases table with
    | source => exact absurd (.inl rfl) h
    | chamber => exact absurd (.inr (.inl rfl)) h
    | tremulant => exact absurd (.inr (.inr rfl)) h
    | division | stop | port | figure => exact id

theorem searchesOutOfPort (t : Tables) : SearchesKind t .outOfPort (searchOutOfPort t) := by
  have sources : Search t .outOfPort (· = .source) (firstFault .outOfPort .source Source.outOfPort t.sources) :=
    search_firstFault fun i => by
      unfold Tables.Fault
      cases t.sources[i]?.join with
      | none => simp
      | some x => cases x <;> simp [Source.outOfPort]
  have chambers : Search t .outOfPort (· = .chamber) (firstFault .outOfPort .chamber (fun c : Chamber => match c with
      | .enclosed stages o _ _ => decide (511 < o.base + stages - 1)
      | .unenclosed => false) t.chambers) :=
    search_firstFault fun i => by
      unfold Tables.Fault
      cases t.chambers[i]?.join with
      | none => simp
      | some x => cases x <;> simp
  refine (sources.or chambers ?_).whole fun table i h => ?_
  · rintro _ _ rfl rfl; decide
  · cases table with
    | source => exact absurd (.inl rfl) h
    | chamber => exact absurd (.inr rfl) h
    | tremulant | division | stop | port | figure => exact id

theorem searchesBadCompass (t : Tables) : SearchesKind t .badCompass (searchBadCompass t) := by
  have sources : Search t .badCompass (· = .source) (firstFault .badCompass .source Source.badCompass t.sources) :=
    search_firstFault fun i => by
      unfold Tables.Fault
      cases t.sources[i]?.join with
      | none => simp
      | some x => cases x <;> simp [Source.badCompass]
  refine sources.whole fun table i h => ?_
  cases table with
  | source => exact absurd rfl h
  | chamber | tremulant | division | stop | port | figure => exact id

theorem searchesBadTiming (t : Tables) : SearchesKind t .badTiming (searchBadTiming t) := by
  have sources : Search t .badTiming (· = .source) (firstFault .badTiming .source Source.badTiming t.sources) :=
    search_firstFault fun i => by
      unfold Tables.Fault
      cases t.sources[i]?.join with
      | none => simp
      | some x =>
        cases x with
        | percussion c o k m d => cases m <;> simp [Source.badTiming]
        | trap o k m => cases m <;> simp [Source.badTiming]
        | _ => simp [Source.badTiming]
  have chambers : Search t .badTiming (· = .chamber) (firstFault .badTiming .chamber (fun c : Chamber => match c with
      | .enclosed _ _ _ interval => interval.isNone
      | .unenclosed => false) t.chambers) :=
    search_firstFault fun i => by
      unfold Tables.Fault
      cases t.chambers[i]?.join with
      | none => simp
      | some x => cases x <;> simp
  refine (sources.or chambers ?_).whole fun table i h => ?_
  · rintro _ _ rfl rfl; decide
  · cases table with
    | source => exact absurd (.inl rfl) h
    | chamber => exact absurd (.inr rfl) h
    | tremulant | division | stop | port | figure => exact id

theorem noVoice_iff {t : Tables} {v : Nat} : noVoice t v = true ↔ ∀ o k m, t.sources[v]?.join ≠ some (.trap o k m) := by
  unfold noVoice
  cases t.sources[v]?.join with
  | none => simp
  | some x => cases x <;> simp

theorem searchesBadLink (t : Tables) : SearchesKind t .badLink (searchBadLink t) := by
  have stops : Search t .badLink (· = .stop) (firstFault .badLink .stop
      (fun x : Stop => (t.sources[x.source]?.join).isNone || (t.divisions[x.division]?.join).isNone) t.stops) :=
    search_firstFault fun i => by
      unfold Tables.Fault
      simp only [Bool.or_eq_true, Option.isNone_iff_eq_none]
  have sources : Search t .badLink (· = .source) (firstFault .badLink .source (fun s : Source => match s with
      | .figureTrap f => (t.figures[f]?.join).isNone
      | .rank _ _ | .percussion _ _ _ _ _ | .trap _ _ _ => false) t.sources) :=
    search_firstFault fun i => by
      unfold Tables.Fault
      cases t.sources[i]?.join with
      | none => simp
      | some x => cases x <;> simp
  have figures : Search t .badLink (· = .figure) (firstFault .badLink .figure (fun f : Figure => f.voices.any (noVoice t)) t.figures) :=
    search_firstFault fun i => by
      unfold Tables.Fault
      simp only [List.any_eq_true, noVoice_iff]
  refine (stops.or (sources.or figures ?_) ?_).whole fun table i h => ?_
  · rintro _ _ rfl rfl; decide
  · rintro _ _ rfl (rfl | rfl) <;> decide
  · cases table with
    | stop => exact absurd (.inl rfl) h
    | source => exact absurd (.inr (.inl rfl)) h
    | figure => exact absurd (.inr (.inr rfl)) h
    | chamber | tremulant | division | port => exact id

/-! ## Occupants and what they occupy -/

theorem mem_noteOccupants_out {i : Nat} {c : Compass} {o : Outlet} {owner : Nat → Owner} {k : Option Stroke} {a : Addr} :
    (∃ x ∈ noteOccupants i c o owner k, x.out = a) ↔ OnNotes c o a := by
  have span : ∀ n, n < c.span ↔ n ≤ c.high - c.low := fun n => by
    unfold Compass.span
    split <;> omega
  unfold OnNotes
  constructor
  · rintro ⟨x, hx, rfl⟩
    obtain ⟨n, hn, rfl⟩ := mem_noteOccupants.1 hx
    rw [span] at hn
    exact ⟨rfl, Nat.le_add_right _ _, Nat.add_le_add_left hn _⟩
  · rintro ⟨port, low, high⟩
    refine ⟨_, mem_noteOccupants.2 ⟨a.index - o.base, (span _).2 (by omega), rfl⟩, ?_⟩
    obtain ⟨p, n⟩ := a
    dsimp only at port low ⊢
    rw [port, Nat.add_sub_cancel' low]

theorem noteOccupants_entry {i : Nat} {c : Compass} {o : Outlet} {owner : Nat → Owner} {k : Option Stroke} {x : Occupant}
    (h : x ∈ noteOccupants i c o owner k) : x.table = .source ∧ x.entry = i := by
  obtain ⟨n, -, rfl⟩ := mem_noteOccupants.1 h
  exact ⟨rfl, rfl⟩

theorem sourceOccupants_entry {i : Nat} {x : Source} {o : Occupant} (h : o ∈ sourceOccupants i x) : o.table = .source ∧ o.entry = i := by
  cases x with
  | rank c out => exact noteOccupants_entry h
  | percussion c out k m d =>
    rcases List.mem_append.1 h with h | h
    · exact noteOccupants_entry h
    · cases d with
      | none => cases h
      | some dm => rw [List.mem_singleton.1 h]; exact ⟨rfl, rfl⟩
  | trap out k m => rw [List.mem_singleton.1 h]; exact ⟨rfl, rfl⟩
  | figureTrap f => cases h

theorem chamberOccupants_entry {i : Nat} {x : Chamber} {o : Occupant} (h : o ∈ chamberOccupants i x) : o.table = .chamber ∧ o.entry = i := by
  cases x with
  | unenclosed => cases h
  | enclosed n out k interval =>
    obtain ⟨_, -, rfl⟩ := List.mem_map.1 h
    exact ⟨rfl, rfl⟩

/-- An entry occupies an address exactly where one of its occupants holds it. -/
theorem occupies_iff {t : Tables} {table : TableName} {i : Nat} {a : Addr} :
    t.Occupies table i a ↔ ∃ o ∈ occupants t, o.table = table ∧ o.entry = i ∧ o.out = a := by
  have sources : ∀ i a, t.Occupies .source i a ↔ ∃ x, t.sources[i]?.join = some x ∧ ∃ o ∈ sourceOccupants i x, o.out = a := fun i a => by
    unfold Tables.Occupies
    cases t.sources[i]?.join with
    | none => simp
    | some x =>
      cases x with
      | rank c o => simpa [sourceOccupants] using mem_noteOccupants_out.symm
      | percussion c o k m d =>
        dsimp only
        rw [← mem_noteOccupants_out (i := i) (owner := .percussion i) (k := some .idle)]
        cases d <;> simp [sourceOccupants, or_and_right, exists_or]
      | trap o k m => simp [sourceOccupants, eq_comm]
      | figureTrap f => simp [sourceOccupants]
  have chambers : ∀ i a, t.Occupies .chamber i a ↔ ∃ x, t.chambers[i]?.join = some x ∧ ∃ o ∈ chamberOccupants i x, o.out = a := fun i a => by
    unfold Tables.Occupies
    cases t.chambers[i]?.join with
    | none => simp
    | some x =>
      cases x with
      | unenclosed => simp [chamberOccupants]
      | enclosed n o k interval =>
        have held : (∃ x ∈ chamberOccupants i (.enclosed n o k interval), x.out = a) ↔ a.port = o.port ∧ o.base ≤ a.index ∧ a.index < o.base + n := by
          unfold chamberOccupants
          constructor
          · rintro ⟨x, hx, rfl⟩
            obtain ⟨m, hm, rfl⟩ := List.mem_map.1 hx
            exact ⟨rfl, Nat.le_add_right _ _, Nat.add_lt_add_left (List.mem_range.1 hm) _⟩
          · rintro ⟨port, low, high⟩
            refine ⟨_, List.mem_map.2 ⟨a.index - o.base, List.mem_range.2 (by omega), rfl⟩, ?_⟩
            obtain ⟨p, m⟩ := a
            dsimp only at port low ⊢
            rw [port, Nat.add_sub_cancel' low]
        dsimp only
        rw [← held]
        simp
  have tremulants : ∀ i a, t.Occupies .tremulant i a ↔ ∃ x, t.tremulants[i]?.join = some x ∧ (tremulantOccupant i x).out = a := fun i a => by
    unfold Tables.Occupies
    cases t.tremulants[i]?.join <;> simp [tremulantOccupant, eq_comm]
  constructor
  · intro h
    cases table with
    | source =>
      obtain ⟨x, hx, o, ho, e⟩ := (sources i a).1 h
      exact ⟨o, mem_occupants.2 (.inl ⟨i, x, hx, ho⟩), (sourceOccupants_entry ho).1, (sourceOccupants_entry ho).2, e⟩
    | chamber =>
      obtain ⟨x, hx, o, ho, e⟩ := (chambers i a).1 h
      exact ⟨o, mem_occupants.2 (.inr (.inl ⟨i, x, hx, ho⟩)), (chamberOccupants_entry ho).1, (chamberOccupants_entry ho).2, e⟩
    | tremulant =>
      obtain ⟨x, hx, e⟩ := (tremulants i a).1 h
      exact ⟨_, mem_occupants.2 (.inr (.inr ⟨i, x, hx, rfl⟩)), rfl, rfl, e⟩
    | division | stop | port | figure => exact h.elim
  · rintro ⟨o, ho, rfl, rfl, rfl⟩
    rcases mem_occupants.1 ho with ⟨i, x, hx, hm⟩ | ⟨i, x, hx, hm⟩ | ⟨i, x, hx, rfl⟩
    · obtain ⟨ht, he⟩ := sourceOccupants_entry hm
      rw [ht, he]
      exact (sources i _).2 ⟨x, hx, o, hm, rfl⟩
    · obtain ⟨ht, he⟩ := chamberOccupants_entry hm
      rw [ht, he]
      exact (chambers i _).2 ⟨x, hx, o, hm, rfl⟩
    · exact (tremulants i _).2 ⟨x, hx, rfl⟩

/-! ## The search for overlaps -/

/-- A percussion whose damper lies on its own notes, at the damper's output. -/
def Tables.SelfOverlap (t : Tables) (o : Occupant) : Prop :=
  o.table = .source ∧ ∃ c out k m dm, t.sources[o.entry]?.join = some (.percussion c out k m (some dm)) ∧ OnNotes c out o.out ∧ dm.out = o.out

/-- One occupant follows another in the order of search: in a later entry, or in the same one, on its output only as a percussion's damper. -/
def Tables.Follows (t : Tables) (a b : Occupant) : Prop :=
  SearchedBefore a.table a.entry b.table b.entry ∨ b.table = a.table ∧ b.entry = a.entry ∧ (a.out = b.out → t.SelfOverlap b)

theorem pairwise_noteOccupants (t : Tables) (i : Nat) (c : Compass) (o : Outlet) (owner : Nat → Owner) (k : Option Stroke) :
    (noteOccupants i c o owner k).Pairwise t.Follows := by
  unfold noteOccupants
  rw [List.pairwise_map]
  exact List.pairwise_lt_range.imp fun {m n} lt => .inr ⟨rfl, rfl, fun e => by
    have same := congrArg Addr.index e
    dsimp only at same
    omega⟩

theorem pairwise_sourceOccupants {t : Tables} {i : Nat} {x : Source} (hx : t.sources[i]?.join = some x) :
    (sourceOccupants i x).Pairwise t.Follows := by
  cases x with
  | rank c o => exact pairwise_noteOccupants t i c o _ _
  | percussion c o k m d =>
    refine List.pairwise_append.2 ⟨pairwise_noteOccupants t i c o _ _, ?_, fun a ha b hb => ?_⟩
    · cases d with
      | none => exact List.Pairwise.nil
      | some dm => exact List.pairwise_singleton _ _
    · cases d with
      | none => cases hb
      | some dm =>
        obtain ⟨table, entry⟩ := noteOccupants_entry ha
        rw [List.mem_singleton.1 hb]
        exact .inr ⟨table.symm, entry.symm, fun same => ⟨rfl, c, o, k, m, dm, hx, same ▸ mem_noteOccupants_out.1 ⟨a, ha, rfl⟩, rfl⟩⟩
  | trap o k m => exact List.pairwise_singleton _ _
  | figureTrap f => exact List.Pairwise.nil

theorem pairwise_chamberOccupants (t : Tables) (i : Nat) (x : Chamber) : (chamberOccupants i x).Pairwise t.Follows := by
  cases x with
  | unenclosed => exact List.Pairwise.nil
  | enclosed n o k interval =>
    unfold chamberOccupants
    rw [List.pairwise_map]
    exact List.pairwise_lt_range.imp fun {m n} lt => .inr ⟨rfl, rfl, fun e => by
      have same := congrArg Addr.index e
      dsimp only at same
      omega⟩

/-- The occupants of the entries of one table come in the order of search. -/
theorem pairwise_entries {α : Type} {t : Tables} {table : TableName} {xs : List (Option α)} {f : Nat → α → List Occupant}
    (entry : ∀ i x o, o ∈ f i x → o.table = table ∧ o.entry = i) (own : ∀ i x, xs[i]?.join = some x → (f i x).Pairwise t.Follows) :
    (((present xs).map fun e => f e.1 e.2).flatten).Pairwise t.Follows := by
  rw [List.pairwise_flatten]
  refine ⟨fun l hl => ?_, ?_⟩
  · obtain ⟨⟨i, x⟩, he, rfl⟩ := List.mem_map.1 hl
    exact own i x (mem_present.1 he)
  · rw [List.pairwise_map]
    refine (present_sorted xs).imp fun {e e'} lt a ha b hb => .inl (.inr ?_)
    obtain ⟨ta, ea⟩ := entry _ _ _ ha
    obtain ⟨tb, eb⟩ := entry _ _ _ hb
    exact ⟨ta.trans tb.symm, by rw [ea, eb]; exact lt⟩

theorem mem_entries {α : Type} {table : TableName} {xs : List (Option α)} {f : Nat → α → List Occupant}
    (entry : ∀ i x o, o ∈ f i x → o.table = table ∧ o.entry = i) {o : Occupant} (h : o ∈ ((present xs).map fun e => f e.1 e.2).flatten) :
    o.table = table := by
  obtain ⟨l, hl, ho⟩ := List.mem_flatten.1 h
  obtain ⟨e, -, rfl⟩ := List.mem_map.1 hl
  exact (entry _ _ _ ho).1

theorem pairwise_occupants (t : Tables) : (occupants t).Pairwise t.Follows := by
  have sourceEntry : ∀ i x o, o ∈ sourceOccupants i x → o.table = .source ∧ o.entry = i := fun _ _ _ => sourceOccupants_entry
  have chamberEntry : ∀ i x o, o ∈ chamberOccupants i x → o.table = .chamber ∧ o.entry = i := fun _ _ _ => chamberOccupants_entry
  have valves : (present t.tremulants).map (fun e => tremulantOccupant e.1 e.2) =
      ((present t.tremulants).map fun e => [tremulantOccupant e.1 e.2]).flatten := by
    rw [← List.flatMap_def, List.map_eq_flatMap]
  have valveEntry : ∀ i x o, o ∈ [tremulantOccupant i x] → o.table = .tremulant ∧ o.entry = i := fun i x o h => by
    rw [List.mem_singleton.1 h]
    exact ⟨rfl, rfl⟩
  unfold occupants
  rw [valves]
  refine List.pairwise_append.2 ⟨List.pairwise_append.2 ⟨pairwise_entries sourceEntry fun _ _ => pairwise_sourceOccupants,
    pairwise_entries chamberEntry fun _ _ _ => pairwise_chamberOccupants _ _ _, fun a ha b hb => ?_⟩,
    pairwise_entries (table := .tremulant) valveEntry fun _ _ _ => List.pairwise_singleton _ _, fun a ha b hb => ?_⟩
  · refine .inl (.inl ?_)
    rw [mem_entries sourceEntry ha, mem_entries chamberEntry hb]
    decide
  · refine .inl (.inl ?_)
    rw [mem_entries valveEntry hb]
    rcases List.mem_append.1 ha with ha | ha
    · rw [mem_entries sourceEntry ha]
      decide
    · rw [mem_entries chamberEntry ha]
      decide

/-- An entry at fault holds an address that another occupant holds, of an earlier entry or of its own (R18). -/
theorem overlap_pair {t : Tables} {table : TableName} {i : Nat} (h : t.Fault .overlap table i) : ∃ x ∈ occupants t, ∃ y ∈ occupants t,
    x ≠ y ∧ x.out = y.out ∧ y.table = table ∧ y.entry = i ∧ (SearchedBefore x.table x.entry table i ∨ x.table = table ∧ x.entry = i) := by
  unfold Tables.Fault at h
  obtain ⟨a, holds, ⟨other, j, before, also⟩ | ⟨rfl, c, o, k, m, dm, hx, notes, rfl⟩⟩ := h
  · obtain ⟨y, hy, rfl, rfl, rfl⟩ := occupies_iff.1 holds
    obtain ⟨x, hx, rfl, rfl, same⟩ := occupies_iff.1 also
    exact ⟨x, hx, y, hy, fun e => SearchedBefore.irrefl (e ▸ before), same, rfl, rfl, .inl before⟩
  · obtain ⟨x, hn, same⟩ := mem_noteOccupants_out (i := i) (owner := .percussion i) (k := some .idle).2 notes
    obtain ⟨n, -, e⟩ := mem_noteOccupants.1 hn
    obtain ⟨table, entry⟩ := noteOccupants_entry hn
    have damper : { table := .source, entry := i, out := dm.out, owner := .damper i, stroke := none } ∈
        sourceOccupants i (.percussion c o k m (some dm)) := List.mem_append_right _ (List.mem_singleton.2 rfl)
    refine ⟨x, mem_occupants.2 (.inl ⟨i, _, hx, List.mem_append_left _ hn⟩), _, mem_occupants.2 (.inl ⟨i, _, hx, damper⟩), fun k => ?_, same,
      rfl, rfl, .inr ⟨table, entry⟩⟩
    rw [e] at k
    exact nomatch congrArg Occupant.owner k

/-- The first occupant whose address is taken, and those before it. -/
theorem firstOverlap_eq_some {os : List Occupant} {seen : List Addr} {o : Occupant} (h : firstOverlap seen os = some o) :
    ∃ before after, os = before ++ o :: after ∧ (o.out ∈ seen ∨ ∃ x ∈ before, x.out = o.out) ∧ (before.map Occupant.out).Nodup ∧
      ∀ x ∈ before, x.out ∉ seen := by
  induction os generalizing seen with
  | nil => cases h
  | cons x os ih =>
    unfold firstOverlap at h
    by_cases hx : x.out ∈ seen
    · rw [if_pos (by simpa using hx)] at h
      obtain rfl := Option.some.inj h
      exact ⟨[], os, rfl, .inl hx, List.nodup_nil, fun _ h => nomatch h⟩
    · rw [if_neg (by simpa using hx)] at h
      obtain ⟨before, after, rfl, taken, nodup, fresh⟩ := ih h
      refine ⟨x :: before, after, rfl, ?_, ?_, fun y hy => ?_⟩
      · rcases taken with taken | ⟨y, hy, e⟩
        · rcases List.mem_cons.1 taken with e | seen
          · exact .inr ⟨x, List.mem_cons_self, e.symm⟩
          · exact .inl seen
        · exact .inr ⟨y, List.mem_cons_of_mem _ hy, e⟩
      · rw [List.map_cons, List.nodup_cons]
        refine ⟨fun k => ?_, nodup⟩
        obtain ⟨y, hy, e⟩ := List.mem_map.1 k
        exact fresh y hy (e ▸ List.mem_cons_self)
      · rcases List.mem_cons.1 hy with rfl | hy
        · exact hx
        · exact fun k => fresh y hy (List.mem_cons_of_mem _ k)

theorem searchesOverlap (t : Tables) : SearchesKind t .overlap (searchOverlap t) where
  found := fun f hf => by
    obtain ⟨o, ho, rfl⟩ := Option.map_eq_some_iff.1 hf
    obtain ⟨before, after, split, taken, nodup, -⟩ := firstOverlap_eq_some ho
    obtain ⟨x, hx, same⟩ := taken.resolve_left List.not_mem_nil
    have ordered := pairwise_occupants t
    rw [split, List.pairwise_append] at ordered
    obtain ⟨-, fromHere, across⟩ := ordered
    have member : ∀ z ∈ before, z ∈ occupants t := fun z hz => split ▸ List.mem_append_left _ hz
    have here : o ∈ occupants t := split ▸ List.mem_append_right _ List.mem_cons_self
    have earlier : ∀ z ∈ occupants t, SearchedBefore z.table z.entry o.table o.entry → z ∈ before := fun z hz precedes => by
      rw [split, List.mem_append, List.mem_cons] at hz
      rcases hz with hz | rfl | hz
      · exact hz
      · exact absurd precedes SearchedBefore.irrefl
      · rcases (List.pairwise_cons.1 fromHere).1 z hz with follows | ⟨table, entry, -⟩
        · exact absurd (precedes.trans follows) SearchedBefore.irrefl
        · rw [table, entry] at precedes
          exact absurd precedes SearchedBefore.irrefl
    refine ⟨rfl, ⟨o.out, occupies_iff.2 ⟨o, here, rfl, rfl, rfl⟩, ?_⟩, fun table i precedes fault => ?_⟩
    · rcases across x hx o List.mem_cons_self with follows | ⟨-, -, own⟩
      · exact .inl ⟨_, _, follows, occupies_iff.2 ⟨x, member x hx, rfl, rfl, same⟩⟩
      · obtain ⟨table, c, out, k, m, dm, source, notes, damper⟩ := own same
        exact .inr ⟨table, c, out, k, m, dm, source, notes, damper⟩
    · obtain ⟨y, hy, z, hz, apart, out, rfl, rfl, order⟩ := overlap_pair fault
      have second := earlier z hz precedes
      have first : y ∈ before := by
        rcases order with order | ⟨table, entry⟩
        · exact earlier y hy (order.trans precedes)
        · exact earlier y hy (by rw [table, entry]; exact precedes)
      exact apart (List.inj_on_of_nodup_map nodup first second out)
  missed := fun hn table i fault => by
    have nodup := (firstOverlap_eq_none.1 (Option.map_eq_none_iff.1 hn)).1
    obtain ⟨x, hx, y, hy, apart, same, -⟩ := overlap_pair fault
    exact apart (List.inj_on_of_nodup_map nodup hx hy same)

/-! ## The check -/

/-- The searches in their order: the first of them that finds an entry at fault. -/
structure ChecksFrom (t : Tables) (n : Nat) (r : Option Failure) : Prop where
  found : ∀ f, r = some f → n ≤ f.kind.place ∧ t.Fault f.kind f.table f.entry ∧
    (∀ kind table i, n ≤ kind.place → kind.place < f.kind.place → ¬t.Fault kind table i) ∧
    ∀ table i, SearchedBefore table i f.table f.entry → ¬t.Fault f.kind table i
  missed : r = none → ∀ kind table i, n ≤ kind.place → ¬t.Fault kind table i

theorem SearchesKind.then {t : Tables} {kind : FailureKind} {r rest : Option Failure} (h : SearchesKind t kind r)
    (later : ChecksFrom t (kind.place + 1) rest) : ChecksFrom t kind.place (r.or rest) where
  found := fun f hf => by
    cases r with
    | some g =>
      obtain rfl : g = f := Option.some.inj hf
      obtain ⟨rfl, fault, first⟩ := h.found g rfl
      exact ⟨Nat.le_refl _, fault, fun _ _ _ h1 h2 => absurd h2 (by omega), first⟩
    | none =>
      obtain ⟨place, fault, earlier, first⟩ := later.found f hf
      refine ⟨by omega, fault, fun k table i h1 h2 => ?_, first⟩
      by_cases e : k.place = kind.place
      · rw [FailureKind.place_inj e]
        exact h.missed rfl table i
      · exact earlier k table i (by omega) h2
  missed := fun hn k table i hk => by
    obtain ⟨hr, hrest⟩ := Option.or_eq_none_iff.1 hn
    by_cases e : k.place = kind.place
    · rw [FailureKind.place_inj e]
      exact h.missed hr table i
    · exact later.missed hrest k table i (by omega)

theorem checksFrom_end (t : Tables) : ChecksFrom t 7 none where
  found := fun _ h => nomatch h
  missed := fun _ kind _ _ h => absurd h (by cases kind <;> decide)

theorem checkTables_checks (t : Tables) : ChecksFrom t 1 (checkTables t) := by
  have last : ChecksFrom t 6 (searchBadLink t) := by
    have h := (searchesBadLink t).then (checksFrom_end t)
    rwa [Option.or_none] at h
  exact (searchesNoPort t).then ((searchesOutOfPort t).then ((searchesOverlap t).then ((searchesBadCompass t).then ((searchesBadTiming t).then last))))

/-- The check finds the failure that R18 reports. -/
theorem checkTables_eq_some_iff {t : Tables} {f : Failure} : checkTables t = some f ↔ t.FirstFault f := by
  have checks := checkTables_checks t
  have first : ∀ g, checkTables t = some g → t.FirstFault g := fun g hg => by
    obtain ⟨-, fault, kinds, entries⟩ := checks.found g hg
    exact ⟨fault, fun kind table i lt => kinds kind table i (by cases kind <;> decide) lt, entries⟩
  refine ⟨first f, fun hf => ?_⟩
  cases hc : checkTables t with
  | none => exact absurd hf.fault (checks.missed hc _ _ _ (by cases f.kind <;> decide))
  | some g => rw [(first g hc).unique hf]

theorem checkTables_eq_none_iff {t : Tables} : checkTables t = none ↔ ∀ kind table i, ¬t.Fault kind table i := by
  refine ⟨fun h kind table i => (checkTables_checks t).missed h kind table i (by cases kind <;> decide), fun h => ?_⟩
  cases hc : checkTables t with
  | none => rfl
  | some f => exact absurd (checkTables_eq_some_iff.1 hc).fault (h _ _ _)

end Sys2Proof.Machine
end

