-- ==== Sys2Proof/Proofs/ReadyEntry.lean ====
section
/-! PROOF. The end of the check (01: R17, R19, R20): the demand table of a checked specification, output by output, and the part as it enters READY,
its ports ACTIVE and its chambers stepping. -/

namespace Sys2Proof.Machine

-- One theorem after another, so that the compile needs few threads.
set_option Elab.async false

/-! ## The records of a checked specification (R51, R52, R65) -/

section
variable {t : Tables} (checked : checkTables t = none)

theorem output_mem_demandTable {r : Record} {a : Addr} : (r ∈ demandTable t ∧ r.target = .output a) ↔ ∃ o ∈ occupants t, o.out = a ∧ r = o.record := by
  rw [mem_demandTable]
  constructor
  · rintro ⟨⟨o, ho, rfl⟩ | ⟨i, f, -, rfl⟩, target⟩
    · exact ⟨o, ho, Target.output.inj target, rfl⟩
    · cases target
  · rintro ⟨o, ho, rfl, rfl⟩
    exact ⟨.inl ⟨o, ho, rfl⟩, rfl⟩

theorem demandTable_occupied (a : Addr) : (∃ r ∈ demandTable t, r.target = .output a) ↔ ∃ table i, t.Occupies table i a := by
  constructor
  · rintro ⟨r, hr, target⟩
    obtain ⟨o, ho, out, -⟩ := output_mem_demandTable.1 ⟨hr, target⟩
    exact ⟨o.table, o.entry, occupies_iff.2 ⟨o, ho, rfl, rfl, out⟩⟩
  · rintro ⟨table, i, h⟩
    obtain ⟨o, ho, -, -, out⟩ := occupies_iff.1 h
    exact ⟨o.record, output_mem_demandTable.2 ⟨o, ho, out, rfl⟩⟩

include checked in
theorem checked_rank {i : Nat} {c : Compass} {o : Outlet} (h : t.sources[i]?.join = some (.rank c o)) : c.low ≤ c.high := by
  have fault := checkTables_eq_none_iff.1 checked .badCompass .source i
  unfold Tables.Fault at fault
  rw [h] at fault
  exact Nat.not_lt.1 fault

include checked in
theorem checked_percussion {i : Nat} {c : Compass} {o : Outlet} {k : Strike} {m : PercMode} {d : Option Damper}
    (h : t.sources[i]?.join = some (.percussion c o k m d)) : c.low ≤ c.high := by
  have fault := checkTables_eq_none_iff.1 checked .badCompass .source i
  unfold Tables.Fault at fault
  rw [h] at fault
  exact Nat.not_lt.1 fault

/-- The occupant of a note in its compass. -/
theorem noteOccupants_owner {i : Nat} {c : Compass} {o : Outlet} {owner : Nat → Owner} {k : Option Stroke} {x : Occupant} (compass : c.low ≤ c.high) :
    x ∈ noteOccupants i c o owner k ↔ ∃ n, c.low ≤ n ∧ n ≤ c.high ∧ x =
      { table := .source, entry := i, out := { port := o.port, index := o.base + (n - c.low) }, owner := owner n, stroke := k } := by
  have span : c.span = c.high - c.low + 1 := if_pos compass
  rw [mem_noteOccupants, span]
  constructor
  · rintro ⟨n, hn, rfl⟩
    exact ⟨c.low + n, Nat.le_add_right _ _, by omega, by rw [Nat.add_sub_cancel_left]⟩
  · rintro ⟨n, low, high, rfl⟩
    exact ⟨n - c.low, by omega, by rw [Nat.add_sub_cancel' low]⟩

include checked in
theorem occupants_owner (a : Addr) (owner : Owner) : (∃ o ∈ occupants t, o.out = a ∧ o.owner = owner) ↔ t.Owns owner a := by
  constructor
  · rintro ⟨o, ho, rfl, rfl⟩
    rcases mem_occupants.1 ho with ⟨i, x, hx, hm⟩ | ⟨i, x, hx, hm⟩ | ⟨i, x, hx, rfl⟩
    · cases x with
      | rank c out =>
        obtain ⟨n, low, high, rfl⟩ := (noteOccupants_owner (checked_rank checked hx)).1 hm
        exact ⟨c, out, hx, low, high, rfl⟩
      | percussion c out k m d =>
        rcases List.mem_append.1 hm with hm | hm
        · obtain ⟨n, low, high, rfl⟩ := (noteOccupants_owner (checked_percussion checked hx)).1 hm
          exact ⟨c, out, k, m, d, hx, low, high, rfl⟩
        · cases d with
          | none => cases hm
          | some dm =>
            rw [List.mem_singleton.1 hm]
            exact ⟨c, out, k, m, dm, hx, rfl⟩
      | trap out k m =>
        rw [List.mem_singleton.1 hm]
        exact ⟨out, k, hx, rfl⟩
      | figureTrap f => cases hm
    · cases x with
      | unenclosed => cases hm
      | enclosed n out k interval =>
        obtain ⟨m, hlt, rfl⟩ := List.mem_map.1 hm
        exact ⟨n, out, k, interval, hx, Nat.le_add_left _ _, List.mem_range.1 hlt, rfl⟩
    · exact ⟨x, hx, rfl⟩
  · intro h
    cases owner with
    | rank i n =>
      obtain ⟨c, o, hx, low, high, rfl⟩ := h
      exact ⟨_, mem_occupants.2 (.inl ⟨i, _, hx, (noteOccupants_owner (checked_rank checked hx)).2 ⟨n, low, high, rfl⟩⟩), rfl, rfl⟩
    | percussion i n =>
      obtain ⟨c, o, k, m, d, hx, low, high, rfl⟩ := h
      exact ⟨_, mem_occupants.2 (.inl ⟨i, _, hx, List.mem_append_left _
        ((noteOccupants_owner (checked_percussion checked hx)).2 ⟨n, low, high, rfl⟩)⟩), rfl, rfl⟩
    | trap i mode =>
      obtain ⟨o, k, hx, rfl⟩ := h
      exact ⟨_, mem_occupants.2 (.inl ⟨i, _, hx, List.mem_singleton.2 rfl⟩), rfl, rfl⟩
    | damper i =>
      obtain ⟨c, o, k, m, d, hx, rfl⟩ := h
      exact ⟨_, mem_occupants.2 (.inl ⟨i, _, hx, List.mem_append_right _ (List.mem_singleton.2 rfl)⟩), rfl, rfl⟩
    | stage c k =>
      obtain ⟨n, o, channel, x, hx, first, last, rfl⟩ := h
      refine ⟨_, mem_occupants.2 (.inr (.inl ⟨c, _, hx, List.mem_map.2 ⟨k - 1, List.mem_range.2 (by omega), rfl⟩⟩)), rfl, ?_⟩
      rw [Nat.sub_add_cancel first]
    | valve j =>
      obtain ⟨x, hx, rfl⟩ := h
      exact ⟨_, mem_occupants.2 (.inr (.inr ⟨j, x, hx, rfl⟩)), rfl, rfl⟩
    | figureClaim i => exact h.elim

include checked in
theorem demandTable_owner (a : Addr) (owner : Owner) :
    (∃ r ∈ demandTable t, r.target = .output a ∧ r.owner = owner) ↔ t.Owns owner a := by
  rw [← occupants_owner checked]
  constructor
  · rintro ⟨r, hr, target, rfl⟩
    obtain ⟨o, ho, out, rfl⟩ := output_mem_demandTable.1 ⟨hr, target⟩
    exact ⟨o, ho, out, rfl⟩
  · rintro ⟨o, ho, out, rfl⟩
    obtain ⟨hr, target⟩ := output_mem_demandTable.2 ⟨o, ho, out, rfl⟩
    exact ⟨o.record, hr, target, rfl⟩

theorem demandTable_claim (i : Nat) (owner : Owner) : (∃ r ∈ demandTable t, r.target = .claim i ∧ r.owner = owner) ↔
    owner = .figureClaim i ∧ ∃ f, t.sources[i]?.join = some (.figureTrap f) := by
  constructor
  · rintro ⟨r, hr, target, rfl⟩
    rcases mem_demandTable.1 hr with ⟨o, -, rfl⟩ | ⟨j, f, hj, rfl⟩
    · cases target
    · cases target
      exact ⟨rfl, f, hj⟩
  · rintro ⟨rfl, f, hf⟩
    exact ⟨claimRecord i, mem_demandTable.2 (.inr ⟨i, f, hf, rfl⟩), rfl, rfl⟩

theorem occupant_stroke {o : Occupant} (h : o ∈ occupants t) : o.stroke = if o.owner.struck then some .idle else none := by
  rcases mem_occupants.1 h with ⟨i, x, -, hm⟩ | ⟨i, x, -, hm⟩ | ⟨i, x, -, rfl⟩
  · cases x with
    | rank c out =>
      obtain ⟨n, -, rfl⟩ := mem_noteOccupants.1 hm
      rfl
    | percussion c out k m d =>
      rcases List.mem_append.1 hm with hm | hm
      · obtain ⟨n, -, rfl⟩ := mem_noteOccupants.1 hm
        rfl
      · cases d with
        | none => cases hm
        | some dm => rw [List.mem_singleton.1 hm]; rfl
    | trap out k m => rw [List.mem_singleton.1 hm]; rfl
    | figureTrap f => cases hm
  · cases x with
    | unenclosed => cases hm
    | enclosed n out k interval =>
      obtain ⟨m, -, rfl⟩ := List.mem_map.1 hm
      rfl
  · rfl

theorem demandTable_fresh {r : Record} (h : r ∈ demandTable t) :
    r.link1 = 0 ∧ r.link2 = 0 ∧ r.cue = 0 ∧ r.stroke = if r.owner.struck then some .idle else none := by
  rcases mem_demandTable.1 h with ⟨o, ho, rfl⟩ | ⟨i, f, -, rfl⟩
  · exact ⟨rfl, rfl, rfl, occupant_stroke ho⟩
  · exact ⟨rfl, rfl, rfl, rfl⟩

include checked in
/-- Every output of a checked specification lies on a present port. -/
theorem demandTable_port {r : Record} {a : Addr} (h : r ∈ demandTable t) (target : r.target = .output a) : (t.ports[a.port]?.join).isSome = true := by
  obtain ⟨table, i, occupied⟩ := (demandTable_occupied a).1 ⟨r, h, target⟩
  have fault := checkTables_eq_none_iff.1 checked .noPort table i
  refine Option.isSome_iff_ne_none.2 fun gone => fault ?_
  unfold Tables.Occupies at occupied
  unfold Tables.Fault
  cases table with
  | source =>
    cases hx : t.sources[i]?.join with
    | none => rw [hx] at occupied; exact occupied.elim
    | some x =>
      rw [hx] at occupied
      cases x with
      | rank c o =>
        show _ = none
        rw [← occupied.1]
        exact gone
      | percussion c o k m d =>
        rcases occupied with notes | ⟨dm, hdm, rfl⟩
        · refine .inl ?_
          rw [← notes.1]
          exact gone
        · exact .inr ⟨dm, hdm, gone⟩
      | trap o k m =>
        rw [show a = { port := o.port, index := o.base } from occupied] at gone
        exact gone
      | figureTrap f => exact occupied.elim
  | chamber =>
    cases hx : t.chambers[i]?.join with
    | none => rw [hx] at occupied; exact occupied.elim
    | some x =>
      rw [hx] at occupied
      cases x with
      | unenclosed => exact occupied.elim
      | enclosed n o k interval =>
        refine ⟨n, o, k, interval, rfl, ?_⟩
        rw [← occupied.1]
        exact gone
  | tremulant =>
    cases hx : t.tremulants[i]?.join with
    | none => rw [hx] at occupied; exact occupied.elim
    | some x =>
      rw [hx] at occupied
      rw [show a = { port := x.o.port, index := x.o.base } from occupied] at gone
      exact ⟨x, rfl, gone⟩
  | division | stop | port | figure => exact occupied.elim

end

/-! ## The part as it enters READY -/

/-- The part that has passed its check, its ports as the commit leaves them (R19, R119). -/
def checkedPart (s : State) : State :=
  portsAtCommit (fillReservation .ok []
    { s with
      store := { s.store with engine := .ready, lastCheck := .passed, checkBegan := none }
      table := demandTable s.store.tables
      sched := { s.sched with queue := [], reiterations := [], dampers := damperStates s.store.tables } })

theorem checkedPart_ports (s : State) (n : Nat) : (checkedPart s).ports[n]? = (s.ports[n]?).map fun pt =>
    { Port.atPowerOn pt.overload with state := if (s.portEntry n).isSome then .active else .off } := by
  show (s.ports.mapIdx _)[n]? = _
  rw [List.getElem?_mapIdx]
  rfl

/-- The part in READY before its chambers step. -/
def readyPart (s : State) : State := allPorts.foldl (fun u p => startDetect p u) (checkedPart s)

theorem enterReady_eq (s : State) :
    enterReady s = allChambers.foldl (fun u c => if (u.chamberState c).timer = none then stepChamber c u else u) (readyPart s) := rfl

theorem readyPart_only (s : State) : Only [.ports] (checkedPart s) (readyPart s) := Only.foldl (fun u p => startDetect_only p u) _ _

theorem readyPart_chamber (s : State) (c : Nat) : (readyPart s).chamber c = s.chamber c := by
  unfold State.chamber
  rw [(readyPart_only s).store]
  rfl

theorem readyPart_portEntry (s : State) (p : Nat) : (readyPart s).portEntry p = s.portEntry p := by
  unfold State.portEntry
  rw [(readyPart_only s).store]
  rfl

theorem readyPart_channel (s : State) (k : Nat) : (readyPart s).channel k = s.channel k := by
  unfold State.channel
  rw [(readyPart_only s).shutters]
  rfl

/-- A port as it enters READY: a present one ACTIVE, with an empty history and no load (R19, R119). -/
theorem readyPart_port {s : State} {n : Nat} {pt : Port} (h : s.ports[n]? = some pt) : ∃ q, (readyPart s).ports[n]? = some q ∧
    q.state = (if (s.portEntry n).isSome then .active else .off) ∧ q.history = [] ∧ q.off = none ∧ q.load = 0 ∧ q.admitted = 0 := by
  unfold readyPart
  rw [foldl_startDetect_ports allPorts _ (by decide) n, checkedPart_ports, h]
  split <;> exact ⟨_, rfl, rfl, rfl, rfl, rfl, rfl⟩

theorem readyPart_ports_none {s : State} {n : Nat} (h : s.ports[n]? = none) : (readyPart s).ports[n]? = none := by
  unfold readyPart
  rw [foldl_startDetect_ports allPorts _ (by decide) n, checkedPart_ports, h]
  split <;> rfl

section
variable {s : State} (resting : ∀ c ∈ s.shutters.chambers, c = { current := 0, timer := none })
include resting

theorem readyPart_chamberState (c : Nat) : (readyPart s).chamberState c = { current := 0, timer := none } := by
  have shutters : (readyPart s).shutters = s.shutters := (readyPart_only s).shutters
  unfold State.chamberState
  rw [shutters]
  cases hc : s.shutters.chambers[c]? with
  | none => rfl
  | some x => exact resting x (List.mem_of_getElem? hc)

theorem enterReady_chambers : ChambersStood (readyPart s) 4 (enterReady s) ∧
    ∀ c, c < 4 → c < s.shutters.chambers.length → ChamberOutcome (readyPart s) (enterReady s) c True := by
  have shutters : (readyPart s).shutters = s.shutters := (readyPart_only s).shutters
  rw [← shutters, enterReady_eq]
  refine chambers_foldl (moves := fun _ => True) (fun u c stood => ⟨fun _ => if_pos ?_, fun no => absurd trivial no⟩) 4
  rw [stood.rest c (Nat.le_refl c), readyPart_chamberState resting]

end

theorem marksKept_stepChamber (c : Nat) (s : State) : MarksKept s (stepChamber c s) := by
  unfold stepChamber
  split
  next stages o channel interval _ =>
    dsimp only
    split
    · split
      · exact marksKept_addLoad (s.modChamber c _) o.port o.load
      · exact marksKept_of_ports rfl
    · split <;> exact marksKept_of_ports rfl
  · exact marksKept_of_ports rfl
  · exact marksKept_of_ports rfl

theorem enterReady_marks (s : State) : MarksKept (readyPart s) (enterReady s) := by
  have fold : ∀ (cs : List Nat) (u : State),
      MarksKept u (cs.foldl (fun u c => if (u.chamberState c).timer = none then stepChamber c u else u) u) := fun cs => by
    induction cs with
    | nil => exact fun u => marksKept_of_ports rfl
    | cons c cs ih =>
      intro u
      refine relayed_marksKept.trans ?_ (ih _)
      dsimp only
      split
      · exact marksKept_stepChamber c u
      · exact marksKept_of_ports rfl
  exact fold allChambers (readyPart s)

/-- A port when the check has passed (R19, R119). -/
theorem enterReady_port {s : State} {p : Nat} {pt : Port} (h : ((enterReady s).ports[p]?).map Port.marks = some pt.marks) :
    pt.state = (if (s.portEntry p).isSome then .active else .off) ∧ pt.history = [] ∧ pt.off = none := by
  rw [enterReady_marks] at h
  cases hp : s.ports[p]? with
  | none =>
    rw [readyPart_ports_none hp] at h
    cases h
  | some was =>
    obtain ⟨q, hq, state, history, off, -⟩ := readyPart_port hp
    rw [hq] at h
    simp only [Option.map_some, Option.some.injEq, Port.marks, Prod.mk.injEq] at h
    obtain ⟨e1, e2, -, e3, -⟩ := h
    exact ⟨e1.symm.trans state, e2.symm.trans history, e3.symm.trans off⟩

theorem fillReservation_link (code : ReplyCode) (contents : List Byte) (s : State) (l : Link) :
    (fillReservation code contents s).link l = { s.link l with replies := (s.link l).replies.map (Place.fill code contents) } := by
  cases l <;> rfl

/-- Settles O44. -/
theorem theCheckEndsInReadyOrInLoading : Obligations.TheCheckEndsInReadyOrInLoading := by
  intro s began hd rest checking begun due filled
  have ripe : s.due (s.store.checkBegan.map (· + Config.checkShortest)) = true := by
    rw [begun]
    exact decide_eq_true due
  have runs : exec .checkCompletion s = match checkTables s.store.tables with
      | none => .next (finish false (enterReady s))
      | some f => .next (finish false (failCheck f s)) := by
    show execCheckCompletion s = _
    unfold execCheckCompletion
    rw [if_pos ⟨checking, ripe⟩]
    rfl
  have idle : s.engine ≠ .ready := by rw [checking]; exact fun h => nomatch h
  have facing : ∀ code contents l, ((fillReservation code contents s).link l).facing = (filled code contents (s.link l)).facing :=
    fun code contents l => by rw [fillReservation_link]; rfl
  refine ⟨fun f => checkTables_eq_some_iff, checkTables_eq_none_iff, fun f hf => ?_, fun passed => ?_⟩
  · rw [hf] at runs
    have failed := failCheck_only f s
    have finished := finish_of_settled_only (settled_of_resting rest idle failed.ports)
    exact ⟨_, runs, failed.mono.trans finished.mono, finished.store, fun l => (finish_facing false l _).trans (facing _ _ l)⟩
  · rw [passed] at runs
    obtain ⟨stood, outcomes⟩ := enterReady_chambers (rest.chambers idle)
    have entered := enterReady_only s
    have table := enterReady_table s
    have sched := enterReady_sched s
    have finished := finish_of_empty_queue (s := enterReady s) (by rw [sched]) false
    have marks := relayed_marksKept.finish (by decide) false (enterReady s)
    have tableIs : (finish false (enterReady s)).table = demandTable s.store.tables := finished.table.trans table
    have schedIs := finished.sched.trans sched
    have states : ∀ c, (finish false (enterReady s)).chamberState c = (enterReady s).chamberState c := fun c => by
      unfold State.chamberState
      rw [finished.shutters]
    refine ⟨_, runs, finished.store.trans (enterReady_store s), tableIs, by rw [tableIs]; exact demandTable_targets_nodup passed,
      by rw [tableIs]; exact demandTable_occupied, by rw [tableIs]; exact demandTable_owner passed, by rw [tableIs]; exact demandTable_claim,
      by rw [tableIs]; exact fun _ => demandTable_fresh, by rw [tableIs]; exact fun _ hr _ => demandTable_port passed hr,
      (congrArg Shutters.channels finished.shutters).trans (enterReady_channels s), fun c hc hlt stages o channel interval enclosed => ?_,
      fun c bare => ?_, fun p pt hp => ?_, by rw [schedIs], by rw [schedIs], by rw [schedIs], fun l => ?_, entered.mono.trans finished.mono⟩
    · intro target opened fits
      have out := outcomes c hc hlt
      have there := (readyPart_chamber s c).trans enclosed
      have before := readyPart_chamberState (rest.chambers idle) c
      have rests := out.rests _ _ _ _ there
      have opens := out.opens _ _ _ _ there trivial
      rw [readyPart_channel, before] at rests opens
      rw [show (readyPart s).now = s.now from (readyPart_only s).now] at opens
      have behind : (readyPart s).opensBehind (enterReady s) c o ↔ fits := by
        have sum : (readyPart s).openedBelow (enterReady s) o.port c = ((List.range c).map opened).sum := by
          refine congrArg List.sum (List.map_congr_left fun d _ => ?_)
          unfold State.openedOn
          rw [readyPart_chamber, readyPart_chamberState (rest.chambers idle) d, ← states d] <;>
            rfl
        unfold State.opensBehind
        rw [sum, readyPart_portEntry, show (readyPart s).supply = s.supply from (readyPart_only s).supply]
        constructor
        · rintro ⟨q, e, hq, he, -, good, room⟩
          cases hp : s.ports[o.port]? with
          | none => rw [readyPart_ports_none hp] at hq; cases hq
          | some pt =>
            obtain ⟨q', hq', -, -, -, load, admitted⟩ := readyPart_port hp
            cases hq.symm.trans hq'
            rw [load, admitted, Nat.zero_add, Nat.zero_add] at room
            exact ⟨good, pt, e, hp, he, room⟩
        · rintro ⟨good, pt, e, hp, he, room⟩
          obtain ⟨q, hq, state, -, -, load, admitted⟩ := readyPart_port hp
          rw [he] at state
          exact ⟨q, e, hq, he, state, good, by rw [load, admitted, Nat.zero_add, Nat.zero_add]; exact room⟩
      refine ⟨fun zero => (states c).trans (rests zero), fun up f => (states c).trans ((opens up).1 (behind.2 f)),
        fun up f => (states c).trans ((opens up).2 (mt behind.1 f))⟩
    · refine (states c).trans ?_
      by_cases hc : c < 4
      · by_cases hlt : c < s.shutters.chambers.length
        · exact ((outcomes c hc hlt).bare (by rw [readyPart_chamber]; exact bare)).trans (readyPart_chamberState (rest.chambers idle) c)
        · refine State.chamberState_of_beyond ?_
          rw [stood.length, (readyPart_only s).shutters]
          exact Nat.le_of_not_lt hlt
      · exact (stood.rest c (Nat.le_of_not_lt hc)).trans (readyPart_chamberState (rest.chambers idle) c)
    · refine enterReady_port ((marks p).symm.trans ?_)
      rw [hp]
      rfl
    · refine (finish_facing false l _).trans ?_
      rw [State.link_of_links (enterReady_links s)]
      exact facing _ _ l

end Sys2Proof.Machine
end

