-- ==== Sys2Proof/Proofs/CueCommands.lean ====
section
/-! PROOF. The commands that start, resume and abort a cue list (08 R143, R153, R154). -/

namespace Sys2Proof.Machine

-- One theorem after another, so that the compile needs few threads.
set_option Elab.async false

theorem markRecord_memory {s : State} {i : Nat} {r : CueRecord} (h : s.memory[i]? = some (some r)) (st : RecordState) :
    (markRecord i st s).memory = s.memory.set i (some { r with state := st }) := by
  show s.memory.modify i _ = _
  rw [List.modify_eq_set_getElem?, h]
  rfl

theorem State.cueRecord_of_memory {s : State} {i : Nat} {x : Option CueRecord} (h : s.memory[i]? = some x) : s.cueRecord i = x := by
  unfold State.cueRecord
  rw [h]
  rfl

/-- The end of a cue command keeps the law of an IDLE unit. -/
theorem cueIdleLaw_finish {u v : State} (law : CueIdleLaw u) (added : Only [.links] u v) (serve : Bool) : CueIdleLaw (finish serve v) :=
  relayed_keepsCueIdle.finish (by decide) serve v (keepsCueIdle_of_only added.but law)

/-! ## CUE START (R143) -/

/-- A CUE START whose index is in range meets the tests of R143 on the part as it stands. -/
theorem answerCueStart_in_range {l : Link} {s : State} {high low : Byte} (h : number2 high low < 512) :
    answerCueStart l [high, low] (takeHead l s) =
    if s.engine ≠ .ready then .refuse .badState (takeHead l s)
    else if s.cue.state ≠ .idle then .refuse .busy (takeHead l s)
    else match s.cueRecord (number2 high low) with
      | none => .refuse .notWritten (takeHead l s)
      | some _ =>
        { state := (takeHead l s).modCue fun _ =>
            { state := .running, current := some (number2 high low), owner := some l, pendingGo := false, runCount := 0, lastCompleted := none,
              stopReason := none }
          code := .ok } := by
  have taken := takeHead_only l s
  have ready : ((!(takeHead l s).ready) = true) = (s.engine ≠ .ready) := by
    unfold State.ready State.engine
    rw [taken.store]
    simp
  have busy : ((takeHead l s).cue.busy = true) = (s.cue.state ≠ .idle) := by rw [takeHead_cue]; exact propext CueUnit.busy_iff
  have record : (takeHead l s).cueRecord (number2 high low) = s.cueRecord (number2 high low) := by unfold State.cueRecord; rw [taken.memory]
  unfold answerCueStart
  rw [readRecordIndex_two, if_pos h]
  dsimp only
  simp only [ready, busy, record] <;>
    rfl

/-! ## CUE ABORT (R154) -/

/-- The part as an abort finds it going IDLE: the record that was waiting is marked. -/
def abortMarked (s : State) : State :=
  match s.cue.state.waiting, s.cue.current with
  | true, some i => markRecord i .aborted s
  | true, none | false, _ => s

theorem abortMarked_only (s : State) : Only [.memory] s (abortMarked s) := by
  unfold abortMarked
  split
  · exact markRecord_only _ _ _
  all_goals exact Only.refl _ _

theorem abortCue_eq (s : State) : abortCue s = cueGoesIdle .aborted (abortMarked s) := by
  unfold abortCue abortMarked
  cases s.cue.state.waiting with
  | false => rfl
  | true => cases s.cue.current <;> rfl

theorem abortCue_cue (s : State) : (abortCue s).cue = s.cue.stopped .aborted := by
  rw [abortCue_eq, cueGoesIdle_cue, (abortMarked_only s).cue]

theorem abortCue_memory_of_working {s : State} (h : s.cue.state.waiting = false) : (abortCue s).memory = s.memory := by
  rw [abortCue_eq, cueGoesIdle_memory]
  unfold abortMarked
  rw [h]

theorem abortCue_memory_of_waiting {s : State} {i : Nat} {r : CueRecord} (h : s.cue.state.waiting = true) (hi : s.cue.current = some i)
    (hr : s.memory[i]? = some (some r)) : (abortCue s).memory = s.memory.set i (some { r with state := .aborted }) := by
  rw [abortCue_eq, cueGoesIdle_memory]
  unfold abortMarked
  rw [h, hi]
  exact markRecord_memory hr .aborted

theorem tells_abortCue (m : Link) (s : State) : Tells m [.cueStopped .aborted s.cue.current] s (abortCue s) := by
  rw [abortCue_eq]
  have told := (Tells.of_only m (abortMarked_only s)).trans (tells_cueGoesIdle m .aborted _)
  rwa [(abortMarked_only s).cue] at told

theorem abortCue_facing (m : Link) (s : State) : ((abortCue s).link m).facing = (s.link m).facing := by
  rw [abortCue_eq, cueGoesIdle_facing, State.link_of_links (abortMarked_only s).links]

/-! ## The three commands -/

/-- A CUE RESUME that a SUSPENDED unit answers. -/
theorem answerResume_of_suspended {l : Link} {s : State} {sub : SubState} (h : s.cue.state = .suspended sub) :
    answerPlain (fun t => match t.cue.state with
      | .suspended sub => { state := resumeCue l sub t, code := .ok }
      | .idle | .running | .timing _ | .awaiting => .refuse .badState t) [] (takeHead l s) =
    { state := resumeCue l sub (takeHead l s), code := .ok } := by
  unfold answerPlain readNoField
  dsimp only
  rw [takeHead_cue, h]

/-- A CUE RESUME that ends with the unit moved and nothing more. -/
theorem execCueResume_moves {l : Link} {s : State} {tag : Byte} {sub : SubState} (hd : Done s) (hne : s.engine ≠ .checking)
    (hw : Waits s l 0x44 [tag]) (h : s.cue.state = .suspended sub) (f : CueUnit → CueUnit)
    (moves : resumeCue l sub (takeHead l s) = (takeHead l s).modCue f) :
    ∃ t, execCueResume l s = .next t ∧ Acted l [okPlace tag 0x44 []] (s.modCue f) t := by
  refine takeCommand_writes .cue (g := fun u => u.modCue f) hw (Gate.idle_refusal_of_ne_checking hne) ?_ (hd.settled.modCue f)
    (fun u => modCue_only u f) (congrArg f (takeHead_cue l s))
  exact (answerResume_of_suspended h).trans (by rw [moves])

/-- Settles O52. -/
theorem cueStartResumeAndAbortMoveTheUnit : Obligations.CueStartResumeAndAbortMoveTheUnit := by
  intro l s tag hd hne
  dsimp only [exec]
  have gate := Gate.idle_refusal_of_ne_checking hne
  have taken := takeHead_only l s
  refine ⟨fun high low hw => ⟨fun h => ?_, fun h hr => ?_, fun h hr hb => ?_, fun h hr hi hn => ?_, fun r h hr hi hs => ?_⟩,
    fun hw => ⟨fun h => ?_, fun left h pos => ?_, fun h hp => ?_, fun h => ?_⟩, fun hw => ⟨fun h => ?_, fun h => ?_⟩⟩
  · refine takeCommand_refuses hw gate ?_ hd.settled
    unfold answerCueStart
    rw [readRecordIndex_two, if_neg (Nat.not_lt.2 h)]
  · exact takeCommand_refuses hw gate (by rw [answerCueStart_in_range h, if_pos hr]) hd.settled
  · exact takeCommand_refuses hw gate (by rw [answerCueStart_in_range h, if_neg (not_not.2 hr), if_pos hb]) hd.settled
  · refine takeCommand_refuses hw gate ?_ hd.settled
    rw [answerCueStart_in_range h, if_neg (not_not.2 hr), if_neg (not_not.2 hi), State.cueRecord_of_memory hn]
  · refine takeCommand_writes .cue (g := fun u => u.modCue fun _ => _) hw gate ?_ (hd.settled.modCue _) (fun u => modCue_only u _) rfl
    rw [answerCueStart_in_range h, if_neg (not_not.2 hr), if_neg (not_not.2 hi), State.cueRecord_of_memory hs]
  · exact execCueResume_moves hd hne hw h
      (fun c => { c with state := .running, owner := some l, runCount := 0, stopReason := none }) rfl
  · refine execCueResume_moves hd hne hw h
      (fun c => { c with state := .timing (s.now + left), owner := some l, runCount := 0, stopReason := none }) ?_
    unfold resumeCue
    dsimp only
    rw [if_neg (Nat.ne_of_gt pos), taken.now]
    rfl
  · refine execCueResume_moves hd hne hw h (fun c => { c with state := .awaiting, owner := some l, runCount := 0, stopReason := none }) ?_
    unfold resumeCue
    dsimp only
    rw [takeHead_cue, hp]
    rfl
  · refine takeCommand_refuses hw gate ?_ hd.settled
    unfold answerPlain readNoField
    dsimp only
    rw [takeHead_cue]
    cases hs : s.cue.state with
    | suspended sub => exact absurd hs (h sub)
    | _ => rfl
  · refine takeCommand_refuses hw gate ?_ hd.settled
    unfold answerPlain readNoField
    dsimp only
    rw [if_neg (by rw [takeHead_cue, CueUnit.busy_iff]; exact not_not.2 h)]
  · have answer : answerPlain (fun t => if t.cue.busy then { state := abortCue t, code := .ok } else .refuse .badState t) [] (takeHead l s) =
        { state := abortCue (takeHead l s), code := .ok } := by
      unfold answerPlain readNoField
      dsimp only
      rw [if_pos (by rw [takeHead_cue, CueUnit.busy_iff]; exact h)]
    have told := (answered_tells hd false (fun m => tells_abortCue m (takeHead l s)) (by simp) tag 0x45 .ok []).2
    have took := (Took.of_facing fun m => abortCue_facing m (takeHead l s)).addPlace (okPlace tag 0x45 [])
    have cue := abortCue_cue (takeHead l s)
    have law := cueIdleLaw_abortCue (takeHead l s)
    have only := abortCue_only (takeHead l s)
    have working := abortCue_memory_of_working (s := takeHead l s)
    have waiting := fun i r => abortCue_memory_of_waiting (s := takeHead l s) (i := i) (r := r)
    rw [takeHead_cue] at told cue working waiting
    rw [taken.memory] at working waiting
    refine ⟨_, takeCommand_answers hw gate answer, ?_⟩
    generalize abortCue (takeHead l s) = u at *
    have added : Only [.links] u (addReply l tag 0x45 .ok [] u) := addReply_only _ _ _ _ _ _
    have finished : Only [.table, .ports, .counters, .sched, .links] u (finish false (addReply l tag 0x45 .ok [] u)) :=
      added.mono.trans (finish_only false _)
    refine ⟨took.finish false, finished.cue.trans cue, cueIdleLaw_finish law added false, fun hn => finished.memory.trans (working hn),
      fun i r hwait hi hr => finished.memory.trans (waiting i r hwait hi hr), fun up idle => ((told up).1 idle).1,
      (taken.mono.trans only.mono).trans finished.mono⟩

end Sys2Proof.Machine
end

