-- ==== Sys2Proof/Proofs/Completion.lean ====
section
/-! PROOF. The completion of a record (08 R147, R149, R150, R151, R153): first the record is DONE and told of, then the unit goes one of
R149's four ways on. -/

namespace Sys2Proof.Machine

-- One theorem after another, so that the compile needs few threads.
set_option Elab.async false

/-! ## The two parts of a completion -/

/-- The record is DONE and last completed, and CUE DONE is told where INDICATE is set. -/
def recordDone (i : Nat) (body : CueBody) (atTaking : Bool) (s : State) : State :=
  if body.indicate then ((markRecord i .done s).modCue (CueUnit.completed i atTaking)).notifyAll (.cueDone i)
  else (markRecord i .done s).modCue (CueUnit.completed i atTaking)

/-- The way on from there: END, SUSPEND AFTER, the runaway guard, or the next record. -/
def goesOn (i : Nat) (body : CueBody) (s : State) : State :=
  match body.next with
  | none => cueGoesIdle .ended (s.modCue fun c => { c with current := some i })
  | some next =>
    if body.suspendAfter then s.modCue fun c => { c with state := .suspended .running, current := some next }
    else if Config.runawayCount ≤ s.cue.runCount then cueGoesIdle .runaway ((s.modCue fun c => { c with current := some i }).bump .cueRunaways)
    else s.modCue fun c => { c with state := .running, current := some next }

theorem completeRecord_eq (i : Nat) (body : CueBody) (atTaking : Bool) (s : State) :
    completeRecord i body atTaking s = goesOn i body (recordDone i body atTaking s) := rfl

theorem completeCurrent_of_record {s : State} {i : Nat} {r : CueRecord} (hi : s.cue.current = some i) (hr : s.memory[i]? = some (some r)) :
    completeCurrent s = completeRecord i r.body false s := by
  unfold completeCurrent
  rw [hi]
  dsimp only
  rw [State.cueRecord_of_memory hr]

section
variable (i : Nat) (body : CueBody) (atTaking : Bool) (s : State)

theorem recordDone_only : Only [.memory, .cue, .links, .counters] s (recordDone i body atTaking s) := by
  have marked : Only [.memory, .cue] s ((markRecord i .done s).modCue (CueUnit.completed i atTaking)) :=
    (markRecord_only _ _ _).mono.trans (modCue_only _ _).mono
  unfold recordDone
  exact Only.ite (marked.mono.trans (notifyAll_only _ _).mono) marked.mono

theorem recordDone_cue : (recordDone i body atTaking s).cue = s.cue.completed i atTaking := by
  unfold recordDone
  split
  · exact notifyAll_cue _ _
  · rfl

theorem tells_recordDone (m : Link) :
    Tells m (if body.indicate then [.cueDone i] else []) s (recordDone i body atTaking s) := by
  have marked : Tells m [] s ((markRecord i .done s).modCue (CueUnit.completed i atTaking)) :=
    .of_only (fs := [.memory, .cue]) m ((markRecord_only _ _ _).mono.trans (modCue_only _ _).mono)
  unfold recordDone
  split
  · exact marked.trans (tells_notifyAll m _ _)
  · exact marked

theorem recordDone_facing (m : Link) : ((recordDone i body atTaking s).link m).facing = (s.link m).facing := by
  unfold recordDone
  split
  · rw [notifyAll_facing]
    rfl
  · rfl

theorem recordDone_counted : CountedOnly [discards .one, discards .two] s (recordDone i body atTaking s) := by
  unfold recordDone
  split
  · exact (CountedOnly.of_counters rfl).trans (notifyAll_counted _ _)
  · exact .of_counters rfl

/-- Either the unit goes IDLE, for END or for a runaway, or it goes on and nothing but the unit has changed. -/
theorem goesOn_ways :
    (∃ v, goesOn i body s = cueGoesIdle (if body.next = none then .ended else .runaway) v ∧ v.cue.current = some i ∧
      Only [.cue, .counters] s v) ∨
    ((goesOn i body s).cue.state ≠ .idle ∧ Only [.cue] s (goesOn i body s)) := by
  unfold goesOn
  cases body.next with
  | none => exact .inl ⟨_, rfl, rfl, (modCue_only _ _).mono⟩
  | some next =>
    dsimp only
    split
    · exact .inr ⟨(fun h => nomatch h), modCue_only _ _⟩
    · split
      · exact .inl ⟨_, rfl, rfl, (modCue_only _ _).mono.trans (bump_only _ _).mono⟩
      · exact .inr ⟨(fun h => nomatch h), modCue_only _ _⟩

theorem completionNotices_eq {t : State} {state : UnitState} (h : t.cue.state = state) : t.completionNotices i body =
    (if body.indicate then [.cueDone i] else []) ++
      if state = .idle then [.cueStopped (if body.next = none then .ended else .runaway) (some i)] else [] := by
  unfold State.completionNotices
  rw [h]

theorem completionNotices_length (t : State) : (t.completionNotices i body).length ≤ 2 := by
  unfold State.completionNotices
  split <;> split <;> exact Nat.le_of_ble_eq_true rfl

theorem completionNotices_of_cue {t u : State} (h : t.cue = u.cue) : t.completionNotices i body = u.completionNotices i body := by
  rw [completionNotices_eq i body rfl, completionNotices_eq i body rfl, h]

/-! ## What the completion comes to -/

theorem tells_completeRecord (m : Link) :
    Tells m ((completeRecord i body atTaking s).completionNotices i body) s (completeRecord i body atTaking s) := by
  rw [completeRecord_eq]
  have told := tells_recordDone i body atTaking s m
  generalize recordDone i body atTaking s = d at *
  rcases goesOn_ways i body d with ⟨v, e, hi, reached⟩ | ⟨busy, reached⟩
  · have idle : (goesOn i body d).cue.state = .idle := by rw [e, cueGoesIdle_cue]; rfl
    have stopped := (told.trans (.of_only m reached)).trans (tells_cueGoesIdle m (if body.next = none then .ended else .runaway) v)
    rw [completionNotices_eq i body idle, if_pos rfl, e]
    rwa [List.append_nil, hi] at stopped
  · rw [completionNotices_eq i body rfl, if_neg busy]
    exact told.trans (.of_only m reached)

theorem completeRecord_facing (m : Link) : ((completeRecord i body atTaking s).link m).facing = (s.link m).facing := by
  rw [completeRecord_eq, ← recordDone_facing i body atTaking s m]
  generalize recordDone i body atTaking s = d
  rcases goesOn_ways i body d with ⟨v, e, -, reached⟩ | ⟨-, reached⟩
  · rw [e, cueGoesIdle_facing, State.link_of_links reached.links]
  · rw [State.link_of_links reached.links]

/-- The generators follow their demand as the unit goes on or stops. -/
theorem completeRecord_generatorsFollow : GeneratorsFollow s (completeRecord i body atTaking s) := by
  rw [completeRecord_eq]
  have done := DemandStands.of_only (recordDone_only i body atTaking s)
  generalize recordDone i body atTaking s = d at *
  rcases goesOn_ways i body d with ⟨v, e, -, reached⟩ | ⟨-, reached⟩
  · rw [e]
    exact done.follow ((DemandStands.of_only reached).follow (cueGoesIdle_generatorsFollow _ v))
  · exact done.follow (.of_same (DemandStands.of_only reached).generators (DemandStands.of_only reached).demanded)

/-- A unit that goes on has touched the memory, itself and what it told. -/
theorem completeRecord_of_going (h : (completeRecord i body atTaking s).cue.state ≠ .idle) :
    Only [.memory, .cue, .links, .counters] s (completeRecord i body atTaking s) ∧
      CountedOnly [discards .one, discards .two] s (completeRecord i body atTaking s) := by
  rw [completeRecord_eq] at h ⊢
  have done := recordDone_only i body atTaking s
  have counted := recordDone_counted i body atTaking s
  generalize recordDone i body atTaking s = d at *
  rcases goesOn_ways i body d with ⟨v, e, -, -⟩ | ⟨-, reached⟩
  · exact absurd (by rw [e, cueGoesIdle_cue]; rfl) h
  · exact ⟨done.trans reached.mono, counted.trans (.of_only reached)⟩

end

/-! ## The event of a completion -/

/-- The record has completed: the unit and its memory, the law of an IDLE unit, the generators and what has been reached. -/
def CompletedAs (s : State) (i : Nat) (r : CueRecord) (was : CueUnit) (t : State) : Prop :=
  t.cue = ({ was with lastCompleted := some i } : CueUnit).onward i r.body ∧
  t.memory = s.memory.set i (some { r with state := .done }) ∧ (t.cue.state = .idle → CueIdleLaw t) ∧ GeneratorsFollow s t ∧
  Only [.links, .table, .sched, .figures, .generators, .ports, .memory, .cue, .counters] s t

/-- From what the event's beginning left, and to the end of the event. -/
theorem completedAs_finish {s w v : State} {i : Nat} {r : CueRecord} (reached : Only [.links, .counters, .cue] s w)
    (hr : s.memory[i]? = some (some r)) (added : Only [.links] (completeRecord i r.body false w) v) (serve : Bool) :
    CompletedAs s i r w.cue (finish serve v) := by
  have cue := completeRecord_cue i r.body false w
  have memory := completeRecord_memory i r.body false w
  rw [markRecord_memory (by rw [reached.memory]; exact hr), reached.memory] at memory
  have law := cueIdleLaw_completeRecord i r.body false w
  have follow := (DemandStands.of_only reached).follow (completeRecord_generatorsFollow i r.body false w)
  have only := completeRecord_only i r.body false w
  generalize completeRecord i r.body false w = u at *
  have finished : Only [.table, .ports, .counters, .sched, .links] u (finish serve v) := added.mono.trans (finish_only serve v)
  exact ⟨finished.cue.trans cue, finished.memory.trans memory, fun _ => cueIdleLaw_finish law added serve,
    follow.stand (.of_only finished), (reached.mono.trans only.mono).trans finished.mono⟩

/-- The notices of a completion without a command. -/
theorem told_completeRecord {s : State} (hd : Done s) (i : Nat) (body : CueBody) (atTaking : Bool) {w : State} {m : Link} {ns : List Notice}
    (before : Tells m ns s w) (few : ns.length ≤ 1) (serve : Bool) :
    Told m (ns ++ (finish serve (completeRecord i body atTaking w)).completionNotices i body) s
      (finish serve (completeRecord i body atTaking w)) := by
  rw [completionNotices_of_cue i body (finish_only serve _).cue]
  refine finish_tells serve (before.trans (tells_completeRecord i body atTaking w m)) (hd.quiet m) ?_
  have := completionNotices_length i body (completeRecord i body atTaking w)
  rw [List.length_append]
  omega

/-- A GO taken by an AWAITING unit. -/
theorem execGo_of_awaiting {l : Link} {s : State} {i : Nat} {r : CueRecord} (ha : s.cue.state = .awaiting) (ready : s.engine = .ready)
    (hw : Waits s l 0x07 []) (hi : s.cue.current = some i) (hr : s.memory[i]? = some (some r)) :
    execGo l s = .next (finish false (completeRecord i r.body false (takeHead l s))) := by
  have go : playGo [] (takeHead l s) = completeRecord i r.body false (takeHead l s) := by
    show takeGo _ = _
    unfold takeGo
    rw [takeHead_cue, ha]
    exact completeCurrent_of_record (by rw [takeHead_cue, hi]) (by rw [(takeHead_only l s).memory, hr])
  exact (takePlay_next hw ready).trans (by rw [go])

/-- A CUE RESUME that completes the record it waited for is answered before anything is told. -/
theorem execCueResume_completes {l : Link} {s : State} {tag : Byte} {i : Nat} {r : CueRecord} {sub : SubState} (hd : Done s)
    (hne : s.engine ≠ .checking) (hw : Waits s l 0x44 [tag]) (h : s.cue.state = .suspended sub) (hr : s.memory[i]? = some (some r))
    (f : CueUnit → CueUnit) (completes : resumeCue l sub (takeHead l s) = completeRecord i r.body false ((takeHead l s).modCue f)) :
    ∃ t, execCueResume l s = .next t ∧ Took l [okPlace tag 0x44 []] s t ∧ CompletedAs s i r (f s.cue) t ∧
      ToldBehindReply l (t.completionNotices i r.body) s t ∧ Told (otherLink l) (t.completionNotices i r.body) s t := by
  have taken := takeHead_only l s
  refine ⟨_, takeCommand_answers hw (Gate.idle_refusal_of_ne_checking hne) (answerResume_of_suspended h), ?_⟩
  rw [completes]
  have reached : Only [.links, .counters, .cue] s ((takeHead l s).modCue f) := taken.mono.trans (modCue_only _ _).mono
  have took := (Took.of_facing (u := completeRecord i r.body false ((takeHead l s).modCue f)) (l := l) (s := s) fun m => by
    rw [completeRecord_facing]; rfl).addPlace (okPlace tag 0x44 [])
  have completed := completedAs_finish reached hr (addReply_only l tag 0x44 .ok [] _) false
  rw [show ((takeHead l s).modCue f).cue = f s.cue from congrArg f (takeHead_cue l s)] at completed
  have tells : ∀ m, Tells m _ (takeHead l s) (completeRecord i r.body false ((takeHead l s).modCue f)) := fun m =>
    (Tells.of_only m (modCue_only _ f)).trans (tells_completeRecord i r.body false _ m)
  have told := answered_tells hd false tells (Nat.lt_of_le_of_lt (completionNotices_length i r.body _) (by decide)) tag 0x44 .ok []
  rw [← completionNotices_of_cue i r.body
    (((addReply_only l tag 0x44 .ok [] _).mono.trans (finish_only false _) : Only [.table, .ports, .counters, .sched, .links] _ _).cue)] at told
  exact ⟨took.finish false, completed, told⟩

/-- Settles O50. -/
theorem aWaitingRecordCompletesAtItsTimerItsGoOrItsResume : Obligations.AWaitingRecordCompletesAtItsTimerItsGoOrItsResume := by
  intro s i r hd hi hr completed answered
  refine ⟨fun e hs due => ?_, fun l ha ready hw => ?_, fun l tag hne hw => ⟨fun h => ?_, fun h hp => ?_⟩⟩
  · have next : exec .waitTimerExpiry s = .next (finish false (completeRecord i r.body false s)) := by
      have hdue : s.due s.cue.waitTimer = true := by
        unfold CueUnit.waitTimer
        rw [hs]
        exact decide_eq_true due
      dsimp only [exec, execWaitTimerExpiry, event]
      rw [if_pos hdue, completeCurrent_of_record hi hr]
    exact ⟨_, next, completedAs_finish (Only.refl _ _) hr (Only.refl _ _) false,
      fun l => told_completeRecord hd i r.body false (.of_link rfl rfl) (Nat.zero_le 1) false⟩
  · have taken := takeHead_only l s
    have completes := completedAs_finish (taken.mono (gs := [.links, .counters, .cue])) hr (Only.refl _ _) false
    rw [takeHead_cue] at completes
    exact ⟨_, execGo_of_awaiting ha ready hw hi hr, (Took.of_facing fun m => completeRecord_facing i r.body false _ m).finish false, completes,
      told_completeRecord hd i r.body false (tells_takeHead l s) ((s.link l).flowNotices_length _) false,
      told_completeRecord hd i r.body false (tells_takeHead_other (otherLink_ne l) s) (Nat.zero_le 1) false⟩
  · refine execCueResume_completes hd hne hw h hr (fun c => { c with owner := some l, runCount := 0, stopReason := none }) ?_
    exact completeCurrent_of_record ((congrArg CueUnit.current (takeHead_cue l s)).trans hi)
      ((congrArg (fun m : List (Option CueRecord) => m[i]?) (takeHead_only l s).memory).trans hr)
  · refine execCueResume_completes hd hne hw h hr (fun c => { c with owner := some l, runCount := 0, stopReason := none, pendingGo := false }) ?_
    unfold resumeCue
    dsimp only
    rw [takeHead_cue, hp, if_pos rfl]
    exact completeCurrent_of_record ((congrArg CueUnit.current (takeHead_cue l s)).trans hi)
      ((congrArg (fun m : List (Option CueRecord) => m[i]?) (takeHead_only l s).memory).trans hr)

end Sys2Proof.Machine
end

