-- ==== Sys2Proof/Proofs/TakingRecords.lean ====
section
/-! PROOF. The RUNNING unit takes its record (08 R144 to R150): the effect of R146 for each kind of record, and the completion that follows
it. -/

namespace Sys2Proof.Machine

-- One theorem after another, so that the compile needs few threads.
set_option Elab.async false

/-! ## The effect of a record (R146) -/

/-- What a record does before it completes at its taking: an AWAIT GO takes the pending GO, any other has its effect. -/
def takenAction (action : Action) (s : State) : State :=
  match action with
  | .awaitGo => s.modCue fun c => { c with pendingGo := false }
  | action => instantAction action s

/-- The unit as the record that completes finds it. -/
def CueUnit.taking (action : Action) (c : CueUnit) : CueUnit := { c with pendingGo := c.pendingGo && decide (action ≠ .awaitGo) }

theorem CueUnit.taking_of_ne {action : Action} (h : action ≠ .awaitGo) (c : CueUnit) : c.taking action = c := by
  unfold CueUnit.taking
  rw [decide_eq_true h, Bool.and_true]

theorem takenAction_of_ne {action : Action} (h : action ≠ .awaitGo) (s : State) : takenAction action s = instantAction action s := by
  unfold takenAction
  split
  · exact absurd rfl h
  · rfl

theorem takenAction_only (action : Action) (s : State) :
    Only [.table, .ports, .counters, .sched, .figures, .generators, .shutters, .cue] s (takenAction action s) := by
  unfold takenAction
  split
  · exact (modCue_only _ _).mono
  · exact (instantAction_only _ _).mono

theorem takenAction_cue (action : Action) (s : State) : (takenAction action s).cue = s.cue.taking action := by
  by_cases h : action = .awaitGo
  · subst h
    unfold CueUnit.taking
    simp [takenAction, State.modCue]
  · rw [takenAction_of_ne h, instantAction_cue, CueUnit.taking_of_ne h]

theorem carryOut_completes {i : Nat} {body : CueBody} {s : State} (h : ∀ d, body.action ≠ .wait d)
    (hp : body.action = .awaitGo → s.cue.pendingGo = true) : carryOut i body s = completeRecord i body true (takenAction body.action s) := by
  unfold carryOut takenAction
  cases ha : body.action with
  | wait d => exact absurd ha (h d)
  | awaitGo =>
    dsimp only
    rw [if_pos (hp ha)]
  | _ => rfl

/-- The effect of a record, but for the flag of a tremulant, leaves the generators. -/
theorem instantAction_generators {action : Action} (h : ∀ j on, action ≠ .tremulant j on) (s : State) :
    Only [.table, .ports, .counters, .sched, .figures, .shutters] s (instantAction action s) := by
  cases action with
  | tremulant j on => exact absurd rfl (h j on)
  | strike source note =>
    dsimp only [instantAction]
    split
    · exact (requestStrike_only _ _).mono
    · exact Only.refl _ _
    · exact Only.refl _ _
  | hold source note on =>
    dsimp only [instantAction]
    split
    · exact (countClaim_only _ _ _).mono
    · exact Only.refl _ _
  | figure f on =>
    cases on with
    | true => exact (startFigure_only f .cue s).mono
    | false => exact (removeFigureOwner_only .cue f s).mono
  | express k position => exact (writeChannel_only k position s).mono
  | tempo scale => exact (setTempo_only scale s).mono
  | wait d => exact Only.refl _ _
  | awaitGo => exact Only.refl _ _

/-- The generators follow the one flag that a record may set. -/
theorem takenAction_generatorsFollow (action : Action) (s : State) :
    GeneratorsFollow s (takenAction action s) ∧ (takenAction action s).generators.length = s.generators.length := by
  by_cases hgo : action = .awaitGo
  · subst hgo
    exact ⟨.of_same rfl fun _ => rfl, rfl⟩
  rw [takenAction_of_ne hgo]
  by_cases h : ∃ j on, action = .tremulant j on
  · obtain ⟨j, on, rfl⟩ := h
    exact ⟨setCueFlag_generatorsFollow j on s, setCueFlag_length j on s⟩
  · have only := instantAction_generators (fun j on e => h ⟨j, on, e⟩) s
    have stands := DemandStands.of_only only
    exact ⟨.of_same stands.generators stands.demanded, by rw [only.generators]⟩

/-- A record's effect counts strikes and refusals, nothing of the unit's own. -/
theorem takenAction_counted (action : Action) (s : State) : CountedOnly playCounters s (takenAction action s) := by
  have k := relaying_counted
  have free : ∀ {fs : List Field} {t : State}, Only fs s t → Field.counters ∉ fs → CountedOnly playCounters s t :=
    fun only hc => .of_counters (only.counters hc)
  cases action with
  | awaitGo => exact .of_counters rfl
  | wait d => exact .refl _ _
  | tempo scale => exact .of_counters rfl
  | express c position => exact free (writeChannel_only c position s) (by decide)
  | tremulant j on => exact free (setCueFlag_only j on s) (by decide)
  | strike source note =>
    dsimp only [takenAction, instantAction]
    split
    · exact k.requestStrike _ _
    · exact .refl _ _
    · exact .refl _ _
  | hold source note on =>
    dsimp only [takenAction, instantAction]
    split
    · exact k.countClaim fun _ _ => .of_counters rfl
    · exact .refl _ _
  | figure f on =>
    cases on with
    | true => exact k.startFigureBy (fun _ _ _ _ => .of_counters rfl) fun _ _ _ _ => .of_counters rfl
    | false => exact k.removeFigureOwner .cue f s

/-! ## Demand through a completion -/

/-- A unit going IDLE adds no demand. -/
theorem cueGoesIdle_demanded {reason : StopReason} {s : State} {j : Nat} (h : (cueGoesIdle reason s).demanded j = true) :
    s.demanded j = true := by
  have before : Only [.cue, .table, .sched, .figures] s (rewriteCounts Record.withoutCue (s.modCue fun c => { c with state := .idle })) :=
    (modCue_only _ _).mono.trans (rewriteCounts_only _ _).mono
  have behind : Only [.figures, .cue, .links, .counters]
      (clearCueFlags (rewriteCounts Record.withoutCue (s.modCue fun c => { c with state := .idle }))) (cueGoesIdle reason s) :=
    ((removeOwnerEverywhere_only _ _).mono.trans (modCue_only _ _).mono).trans (notifyAll_only _ _).mono
  rw [(DemandStands.of_only behind).demanded] at h
  rw [← (DemandStands.of_only before).demanded]
  generalize rewriteCounts Record.withoutCue (s.modCue fun c => { c with state := .idle }) = a at *
  rw [State.demanded_eq, clearCueFlags_flag, Bool.and_false, Bool.or_false, State.tabbed_of_only (clearCueFlags_cleared a).only] at h
  rw [State.demanded_eq, h, Bool.true_or]

theorem completeRecord_demanded {i : Nat} {body : CueBody} {atTaking : Bool} {s : State} {j : Nat}
    (h : (completeRecord i body atTaking s).demanded j = true) : s.demanded j = true := by
  rw [completeRecord_eq] at h
  rw [← (DemandStands.of_only (recordDone_only i body atTaking s)).demanded]
  generalize recordDone i body atTaking s = d at *
  rcases goesOn_ways i body d with ⟨v, e, -, reached⟩ | ⟨-, reached⟩
  · rw [e] at h
    rw [← (DemandStands.of_only reached).demanded]
    exact cueGoesIdle_demanded h
  · rwa [(DemandStands.of_only reached).demanded] at h

/-! ## Runaways (R150) -/

/-- The way on raises the runaways where the guard stops the unit, and only there. -/
theorem goesOn_raised (i : Nat) (body : CueBody) (s : State) :
    Raised (if body.next.isSome ∧ body.suspendAfter = false ∧ 64 ≤ s.cue.runCount then 1 else 0) .cueRunaways s (goesOn i body s) := by
  have outside : Counter.cueRunaways.index ∉ [discards .one, discards .two] := by decide
  have guard : Config.runawayCount = 64 := rfl
  unfold goesOn
  cases body.next with
  | none => exact Raised.of_counted_only (.trans (.of_counters rfl) (cueGoesIdle_counted .ended _)) outside
  | some next =>
    dsimp only
    rw [guard]
    cases body.suspendAfter with
    | true => exact Raised.zero rfl
    | false =>
      simp only [Bool.false_eq_true, if_false, Option.isSome_some, true_and]
      split
      · have bumped : Raised 1 .cueRunaways s ((s.modCue fun c => { c with current := some i }).bump .cueRunaways) :=
          bumpBy_raised (s.modCue fun c => { c with current := some i }) 1 .cueRunaways
        exact bumped.counted (cueGoesIdle_counted .runaway _) outside
      · exact Raised.zero rfl

theorem completeRecord_raised (i : Nat) (body : CueBody) (s : State) :
    Raised (if body.next.isSome ∧ body.suspendAfter = false ∧ 64 ≤ s.cue.runCount + 1 then 1 else 0) .cueRunaways s
      (completeRecord i body true s) := by
  have raised := goesOn_raised i body (recordDone i body true s)
  rw [show (recordDone i body true s).cue.runCount = s.cue.runCount + 1 by rw [recordDone_cue]; rfl] at raised
  exact raised.of_counted (recordDone_counted i body true s) (by decide)

end Sys2Proof.Machine
end

