-- ==== Sys2Proof/Proofs/RecordsTaken.lean ====
section
/-! PROOF. The taking of a record, event by event (08 R144 to R150; 05 R91, R94). -/

namespace Sys2Proof.Machine

-- One theorem after another, so that the compile needs few threads.
set_option Elab.async false

/-! ## Players that a record starts and stops -/

/-- Beginning a step touches neither which figure its player runs nor for whom. -/
theorem beginStep_same_owners {s : State} {p : Nat} {run : Run} (h : s.playing p = some run) (n : Nat) :
    ∃ run', (beginStep p n s).playing p = some run' ∧ run'.figure = run.figure ∧ run'.owners = run.owners := by
  cases hf : s.figure run.figure with
  | none =>
    refine ⟨run, ?_, rfl, rfl⟩
    unfold beginStep
    rw [h]
    dsimp only
    rw [hf]
    exact h
  | some fig =>
    cases hs : fig.steps[n]? with
    | none =>
      refine ⟨run, ?_, rfl, rfl⟩
      unfold beginStep
      rw [h]
      dsimp only
      rw [hf]
      dsimp only
      rw [hs]
      exact h
    | some st => exact ⟨_, State.playing_beginStep_same h hf hs, rfl, rfl⟩

/-- A figure that finds a player plays for its new owner (R91). -/
theorem startFigure_plays {s : State} (f : Nat) (o : FigureOwner) (h : ∃ p, p < s.figures.players.length ∧ s.playing p = none) :
    ∃ p run, (startFigure f o s).1.playing p = some run ∧ run.figure = f ∧
      (run.owners = OwnerSet.only o ∨ ∃ was : OwnerSet, run.owners = was.put o true) := by
  cases hf : s.playerOf f with
  | some p =>
    obtain ⟨run, hp, hfig⟩ := State.playerOf_eq_some hf
    rw [startFigure_joins o hf hp]
    exact ⟨p, _, State.playing_setPlayer_same (State.lt_of_playing hp) _, hfig, .inr ⟨_, rfl⟩⟩
  | none =>
    cases hi : s.idlePlayer with
    | none =>
      obtain ⟨p, hlt, h0⟩ := h
      have busy := List.findIdx?_eq_none_iff.1 hi (s.figures.players[p]) (List.getElem_mem hlt)
      rw [← State.playing_of_lt hlt, h0] at busy
      exact absurd busy (by decide)
    | some p =>
      obtain ⟨-, hlt⟩ := State.idlePlayer_eq_some hi
      rw [startFigure_begins o hf hi]
      obtain ⟨run, hp, hfig, howners⟩ := beginStep_same_owners (State.playing_setPlayer_same hlt
        (some { figure := f, step := 0, expiry := s.now, owners := OwnerSet.only o })) 0
      exact ⟨p, run, hp, hfig, .inl howners⟩

/-- CUE leaves the one player of a figure, which stops where it leaves none (R94). -/
theorem removeFigureOwner_cue {s : State} {f p : Nat} {run : Run} (hp : s.playing p = some run) (hf : run.figure = f)
    (single : ∀ q other, s.playing q = some other → other.figure = f → q = p) : removeFigureOwner .cue f s =
      s.setPlayer p (if run.owners.cue = true ∧ (run.owners.put .cue false).isEmpty = true then none
        else some { run with owners := run.owners.put .cue false }) := by
  have found : s.playerOf f = some p := by
    cases hq : s.playerOf f with
    | none => exact absurd hf (State.playerOf_eq_none hq p run hp)
    | some q =>
      obtain ⟨other, ho, hof⟩ := State.playerOf_eq_some hq
      rw [single q other ho hof]
  unfold removeFigureOwner removeOwner
  rw [found]
  dsimp only
  rw [hp]
  dsimp only
  by_cases owned : run.owners.cue = true
  · rw [if_pos (show run.owners.has .cue = true from owned)]
    simp only [owned, true_and]
  · have same : run.owners.put .cue false = run.owners := by
      rcases ho : run.owners with ⟨a, b, c, d⟩
      rw [ho] at owned
      simpa [OwnerSet.put, eq_comm] using owned
    rw [if_neg (show ¬run.owners.has .cue = true from owned), if_neg fun h => owned h.1, same, State.setPlayer_self hp]

/-! ## What each kind of record does (R146) -/

section
variable {s : State} {source : Nat} {note : Option Nat}

theorem takenAction_strike {a : Addr} (h : s.cueTarget source note = some (.output a)) :
    takenAction (.strike source note) s = requestStrike a s := by
  unfold takenAction instantAction
  dsimp only
  rw [h]

theorem takenAction_hold {x : Target} (h : s.cueTarget source note = some x) (on : Bool) :
    takenAction (.hold source note on) s = countClaim x (Record.countCue on) s := by
  unfold takenAction instantAction
  dsimp only
  rw [h]

theorem takenAction_stopFigure (f : Nat) (s : State) : takenAction (.figure f false) s = removeFigureOwner .cue f s := rfl

end

/-! ## The event -/

section
variable {s : State} {i : Nat}

theorem exec_takeRecord (running : s.cue.state = .running) : exec .takeRecord s = .next (finish false (takeCurrent s)) := by
  dsimp only [exec, execTakeRecord, event]
  rw [if_pos running]

/-- A record that carries on is the unit's next state or its completion. -/
theorem takeCurrent_of_record {r : CueRecord} (hi : s.cue.current = some i) (hr : s.memory[i]? = some (some r)) :
    takeCurrent s = if s.referencesHold r.body.action then carryOut i r.body s else cueGoesIdle .failed (markRecord i .badReference s) := by
  unfold takeCurrent
  rw [hi]
  dsimp only
  rw [State.cueRecord_of_memory hr]

theorem takeCurrent_of_empty (hi : s.cue.current = some i) (hr : s.memory[i]? = some none) : takeCurrent s = cueGoesIdle .chainBroken s := by
  unfold takeCurrent
  rw [hi]
  dsimp only
  rw [State.cueRecord_of_memory hr]

variable (hd : Done s) (running : s.cue.state = .running)

include hd running

/-- A record that stops the unit leaves no Cue claim, and the links are told (R144, R145, R155). -/
theorem takeRecord_stops (hi : s.cue.current = some i) (reason : StopReason) {u : State} (only : Only [.memory] s u)
    (stops : takeCurrent s = cueGoesIdle reason u) : ∃ t, exec .takeRecord s = .next t ∧
      t.cue = s.cue.stopped reason ∧ t.memory = u.memory ∧ CueIdleLaw t ∧ (∀ l, Told l [.cueStopped reason (some i)] s t) ∧
      GeneratorsFollow s t ∧ Only [.links, .table, .sched, .figures, .generators, .ports, .memory, .cue, .counters] s t := by
  have finished := finish_only false (cueGoesIdle reason u)
  refine ⟨_, exec_takeRecord running, ?_⟩
  rw [stops]
  refine ⟨finished.cue.trans (by rw [cueGoesIdle_cue, only.cue]), finished.memory.trans (cueGoesIdle_memory reason u),
    cueIdleLaw_finish (cueIdleLaw_cueGoesIdle reason u) (Only.refl _ _) false, fun l => ?_,
    ((DemandStands.of_only only).follow (cueGoesIdle_generatorsFollow reason u)).stand (.of_only finished),
    (only.mono.trans (cueGoesIdle_only reason u).mono).trans finished.mono⟩
  have told := (Tells.of_only l only).trans (tells_cueGoesIdle l reason u)
  rw [List.nil_append, only.cue, hi] at told
  exact finish_tells false told (hd.quiet l) (Nat.succ_le_succ (Nat.zero_le 15))

/-- A record that begins its wait moves the unit and nothing more (R147, R151). -/
theorem takeRecord_waits (f : CueUnit → CueUnit) (waits : takeCurrent s = s.modCue f) : exec .takeRecord s = .next (s.modCue f) := by
  rw [exec_takeRecord running, waits, hd.event (hd.settled.modCue f) rfl]

end

/-- The event in which a record completes at its taking, from what its effect left. -/
theorem takeRecord_completes {s : State} {i : Nat} {r : CueRecord} (hd : Done s) (hr : s.memory[i]? = some (some r)) :
    let w := takenAction r.body.action s
    let t := finish false (completeRecord i r.body true w)
    t.cue = ({ s.cue with
      lastCompleted := some i
      runCount := s.cue.runCount + 1
      pendingGo := s.cue.pendingGo && decide (r.body.action ≠ .awaitGo) } : CueUnit).onward i r.body ∧
    t.memory = s.memory.set i (some { r with state := .done }) ∧ (∀ l, Told l (t.completionNotices i r.body) s t) ∧
    GeneratorsFollow s t ∧ (t.cue.state = .idle → CueIdleLaw t) ∧ t.figures.tempo = w.figures.tempo ∧ t.shutters = w.shutters ∧
    Raised (if r.body.next.isSome ∧ r.body.suspendAfter = false ∧ 64 ≤ s.cue.runCount + 1 then 1 else 0) .cueRunaways s t ∧
    Only [.links, .table, .sched, .figures, .generators, .shutters, .ports, .memory, .cue, .counters] s t := by
  intro w t
  have reached := takenAction_only r.body.action s
  obtain ⟨flags, places⟩ := takenAction_generatorsFollow r.body.action s
  have cueWas := takenAction_cue r.body.action s
  have cue := completeRecord_cue i r.body true w
  have memory := completeRecord_memory i r.body true w
  rw [markRecord_memory (by rw [reached.memory]; exact hr), reached.memory] at memory
  rw [cueWas] at cue
  have completed := completeRecord_only i r.body true w
  have finished := finish_only false (completeRecord i r.body true w)
  have raised := completeRecord_raised i r.body w
  rw [cueWas] at raised
  have follow := flags.trans (completeRecord_generatorsFollow i r.body true w) reached.now (congrArg Store.tables reached.store) places
    fun j _ h => completeRecord_demanded h
  refine ⟨finished.cue.trans cue, finished.memory.trans memory, fun l => ?_, follow.stand (.of_only finished),
    fun _ => cueIdleLaw_finish (cueIdleLaw_completeRecord i r.body true w) (Only.refl _ _) false, ?_,
    finished.shutters.trans completed.shutters, ?_, (reached.mono.trans completed.mono).trans finished.mono⟩
  · exact told_completeRecord hd i r.body true (.of_only l reached) (Nat.zero_le 1) false
  · show (finish false _).figures.tempo = _
    rw [finished.figures]
    exact (cueDriven_dialsKept.completeRecord i r.body true w).1
  · exact (raised.of_counted (takenAction_counted _ s) (by decide)).counted (finish_counted false _) (by decide)

/-- Where the unit goes on, the players, the generators and the claims stand as the record's effect left them. -/
theorem takeRecord_goes {w : State} {i : Nat} {body : CueBody}
    (busy : (finish false (completeRecord i body true w)).cue.state ≠ .idle) :
    let t := finish false (completeRecord i body true w)
    t.figures = w.figures ∧ t.generators = w.generators ∧ (∀ x, t.bare x = w.bare x) := by
  intro t
  have finished := finish_only false (completeRecord i body true w)
  rw [finished.cue] at busy
  obtain ⟨goes, -⟩ := completeRecord_of_going i body true w busy
  exact ⟨finished.figures.trans goes.figures, finished.generators.trans goes.generators, fun x =>
    ((relayed_bareSame.finish (by decide) false _).bare x).trans (State.bare_of_table goes.table x)⟩

/-- Where the unit goes on from a strike, the queue is not served and nothing but discarded notices is counted besides. -/
theorem takeRecord_strikes {s : State} (hd : Done s) {a : Addr} {i : Nat} {body : CueBody}
    (busy : (finish false (completeRecord i body true (requestStrike a s))).cue.state ≠ .idle) :
    let t := finish false (completeRecord i body true (requestStrike a s))
    t.table = (requestStrike a s).table ∧ t.sched = (requestStrike a s).sched ∧
      CountedOnly [discards .one, discards .two] (requestStrike a s) t := by
  intro t
  rw [(finish_only false (completeRecord i body true (requestStrike a s))).cue] at busy
  obtain ⟨goes, counted⟩ := completeRecord_of_going i body true _ busy
  have finished := finish_of_loadsHold hd.settled ((loadsHold_requestStrike a s).trans (.of_only goes.mono))
  exact ⟨finished.table.trans goes.table, finished.sched.trans goes.sched, counted.trans (.of_counters finished.counters)⟩

/-- Settles O49. -/
theorem theRunningUnitTakesItsRecord : Obligations.TheRunningUnitTakesItsRecord := by
  intro s i hd running hi stops
  refine ⟨fun h => ?_, fun r hr => ⟨fun h => ?_, fun d h => ?_, fun h hp => ?_, fun holds noWait ready => ?_⟩⟩
  · exact takeRecord_stops hd running hi .chainBroken (Only.refl _ s) (takeCurrent_of_empty hi h)
  · dsimp only [stops]
    rw [← markRecord_memory hr .badReference]
    refine takeRecord_stops hd running hi .failed (markRecord_only i .badReference s) ?_
    rw [takeCurrent_of_record hi hr, h]
    rfl
  · refine takeRecord_waits hd running (fun c => { c with state := .timing (s.now + d), runCount := 0 }) ?_
    rw [takeCurrent_of_record hi hr, h]
    unfold carryOut
    rw [h]
    rfl
  · refine takeRecord_waits hd running (fun c => { c with state := .awaiting, runCount := 0 }) ?_
    rw [takeCurrent_of_record hi hr, h]
    unfold carryOut
    rw [h, hp]
    rfl
  · have next : exec .takeRecord s = .next (finish false (completeRecord i r.body true (takenAction r.body.action s))) := by
      rw [exec_takeRecord running, takeCurrent_of_record hi hr, if_pos holds, carryOut_completes noWait ready]
    obtain ⟨cue, memory, told, follow, law, tempo, shutters, raised, only⟩ := takeRecord_completes hd hr
    refine ⟨_, next, cue, memory, told, follow, law, fun scale h => ?_, fun k p h => ?_, fun j on h hj busy => ?_,
      fun source note on x rec h hx hrec busy => ?_, fun source note a h ha busy => ?_, fun f p run h hp hf single busy => ?_, raised,
      fun f h free busy => ?_, only⟩
    · rw [tempo, h]
      rfl
    · rw [shutters, h]
      exact writeChannel_channels k p s
    · obtain ⟨-, generators, -⟩ := takeRecord_goes busy
      unfold State.generator
      rw [generators, h]
      show ((setCueFlag j on s).generator j).cueFlag = on
      rw [setCueFlag_flag, if_pos ⟨rfl, hj⟩]
    · obtain ⟨-, -, bare⟩ := takeRecord_goes busy
      have after := bare x
      rw [h, takenAction_hold hx, countClaim_bare (f := Record.countCue on) (fun _ => rfl) (fun _ => rfl), if_pos rfl] at after
      rw [h, takenAction_hold hx]
      obtain ⟨rec', hrec', e⟩ := State.record_of_bare after hrec
      exact ⟨rec', hrec', congrArg Record.cue e⟩
    · rw [h, takenAction_strike ha] at busy ⊢
      exact takeRecord_strikes hd busy
    · obtain ⟨figures, -, -⟩ := takeRecord_goes busy
      rw [h, takenAction_stopFigure, removeFigureOwner_cue hp hf single] at figures ⊢
      rw [State.playing_of_figures figures]
      refine ⟨State.playing_setPlayer_same (State.lt_of_playing hp) _, fun q hq => ?_⟩
      rw [State.playing_of_figures figures, State.playing_setPlayer_of_ne hq]
    · obtain ⟨figures, -, -⟩ := takeRecord_goes busy
      obtain ⟨p, run, hp, hf, howners⟩ := startFigure_plays f .cue free
      refine ⟨p, run, ?_, hf, ?_⟩
      · rw [State.playing_of_figures figures, h]
        exact hp
      · rcases howners with e | ⟨was, e⟩ <;> rw [e] <;> rfl

end Sys2Proof.Machine
end
